-- ==== Sys2Proof/Word.lean ====
section
/-! DEFINITION. The word types of the GX7 (R138, R152) and their plainest arithmetic. -/

namespace Sys2Proof

/-- A scalar register: 64 bits (R152). -/
abbrev Word := BitVec 64

/-- One lane's slice of a vector register: 32 bits (R138). -/
abbrev W32 := BitVec 32

/-- One byte of memory (R7). -/
abbrev Byte := BitVec 8

end Sys2Proof
end

