-- ==== Sys2Proof/Syntax.lean ====
section
/-! DEFINITION. The instructions and events of the GX7: one constructor for each row of spec/opcode_table.json
(R46, R48, R49 for the words; spec/95_what_each_step_holds.md for the events). -/

namespace Sys2Proof

/-- Scopes of R2 in the order of R3, with the codes of R42. -/
inductive Scope where
  | wv | cw | bd | sk | pk | sy
deriving DecidableEq, Repr

/-- Order codes of R42. -/
inductive Order where
  | none | acq | rel | ar
deriving DecidableEq, Repr

/-- Element types of R39. `raw` is code 0x00, 32 raw bits. -/
inductive Ty where
  | raw | i4 | i8 | i16 | i32 | n4 | n8 | n16 | n32
  | f32 | f16 | bf16 | e4m3 | e5m2 | e3m2 | e2m3 | e2m1 | t2 | cb4 | e8m0
deriving DecidableEq, Repr

/-- Rounding codes of R40. -/
inductive Rnd where
  | rne | rz | rup | rdn | rna
deriving DecidableEq, Repr

/-- The special registers of R160. -/
inductive SpecialReg where
  | spc | lpc | wid | width | core | pcore | lbusy | lmask | sbase | fpctl | fpflags
  | xcause | xmask | xspc | xlpc | xaddr | cad | clk | nsc | ratio | temp | pclass
deriving DecidableEq, Repr

/-- A lane word with modifier layout A (R36, R40). `d a b c` are the operand fields, `im` is IMM. -/
structure LaneA where
  pred : Nat
  neg  : Bool
  d    : Nat
  a    : Nat
  b    : Nat
  c    : Nat
  ty   : Ty
  rnd  : Rnd
  sat  : Bool
  ftz  : Bool
  im   : Bool
  imm  : Nat
deriving DecidableEq, Repr

/-- A lane word with modifier layout M: memory, atomics and reductions (R36, R40). -/
structure LaneM where
  pred : Nat
  neg  : Bool
  d    : Nat
  a    : Nat
  b    : Nat
  c    : Nat
  ty   : Ty
  sc   : Scope
  ord  : Order
  imm  : Nat
deriving DecidableEq, Repr

/-- The four engines of a core (R1, R49). -/
inductive Engine where
  | matrix | copy | longVector | route
deriving DecidableEq, Repr

/-- Who asks for a pre-emption (R369). -/
inductive PreemptSource where
  | hostPriority | shedding | migration | debugger
deriving DecidableEq, Repr

/-- The units that test themselves at reset (R409, R410). -/
inductive SelfTestUnit where
  | core (p : Nat)
  | router (p : Nat)
  | engine (p : Nat) (e : Engine)
  | stack (n : Nat)
  | lpddr (n : Nat)
  | port (n : Nat)
  | service (n : Nat)
deriving DecidableEq, Repr

/-- A breakpoint address: a scalar PC or a lane PC (R358). -/
inductive Breakpoint where
  | scalar (pc : Nat)
  | lane (pc : Nat)
deriving DecidableEq, Repr

/-- The arithmetic of an atomic or a reduction on a word (R273, R274). -/
inductive AmoOp where
  | add | and | or | xor | minS | minU | maxS | maxU | swap | cas | fadd
deriving DecidableEq, Repr

/-- A request that reaches this module from a peer (R230, R356): the address is an offset in this module's
storage as the peer's aperture names it, and a load or store of more than 8 bytes is one of single bytes. -/
inductive PeerOp where
  | load (key size : Nat)
  | store (key size data : Nat)
  | amo (op : AmoOp) (size key data data2 : Nat)
  | ldfe (key : Nat)
  | ldf (key : Nat)
  | stfe (key data : Nat)
  | tagSet (key : Nat) (full : Bool)
  | arrive (key n : Nat)
  | await (key : Nat) (phase : Bool)
  | join (key n : Nat)
  | leave (key n : Nat) (arrived phase : Bool)
  | wake (key n : Nat)
deriving DecidableEq, Repr

/-- A firmware image as Dwenath's boot ROM meets it (R412). -/
structure FirmwareImage where
  magicGood : Bool
  version   : Nat
  length    : Nat
  body      : List Byte
  digest    : List Byte
  key       : List Byte
  signature : List Byte
deriving DecidableEq, Repr

/-- One constructor for each row of the opcode table. The docstring of each is the row's own summary. -/
inductive Instr where
  /-- NOP (R113): Advances the scalar PC by one word with no other effect. -/
  | nop
  /-- YIELD (R113): Advances the scalar PC and swaps the wave with the longest-waiting ready pending wave, if there is one. -/
  | yield
  /-- EXIT (R74): Ends the wave after its lane queue drains and it leaves its barriers; its rows drain until its counters and ring engine counts reach zero. -/
  | exit
  /-- TRAP (R363): Takes a user trap with a number, translate-on-call for 0x7FFF, or an illegal-instruction trap for 0x7F00 to 0x7FFE. -/
  | trap (n : Nat)
  /-- XRET_REDO (R367): Leaves handler mode and resumes both streams at xspc and xlpc. -/
  | xretRedo
  /-- XRET_SKIP (R367): Leaves handler mode and resumes past the trapping word of a synchronous trap. -/
  | xretSkip
  /-- SETTV (R362): Sets the wave's trap handler address, or clears it when the offset is 0. -/
  | settv (off : Int)
  /-- SLEEP (R394): Blocks the scalar stream until nsc reaches the issue time plus sD plus imm nanoseconds. -/
  | sleep (d imm : Nat)
  /-- MFS (R159): Copies a special register into a scalar register. -/
  | mfs (d : Nat) (r : SpecialReg)
  /-- MTS (R159): Writes a scalar register into a writable special register. -/
  | mts (d : Nat) (r : SpecialReg)
  /-- WAIT (R121): Blocks until the named counter is at most the immediate. -/
  | wait (d imm : Nat)
  /-- ADD (R153): Writes sA + sB modulo 2^64 into sD. -/
  | add (d a b : Nat)
  /-- SUB (R153): Writes sA - sB into sD. -/
  | sub (d a b : Nat)
  /-- MUL (R153): Writes the low 64 bits of sA × sB into sD. -/
  | mul (d a b : Nat)
  /-- MULH_I64 (R153): Writes the high 64 bits of the signed 128-bit product into sD. -/
  | mulhI64 (d a b : Nat)
  /-- MULH_N64 (R153): Writes the high 64 bits of the natural 128-bit product into sD. -/
  | mulhN64 (d a b : Nat)
  /-- DIV_I64 (R154): Writes the signed quotient, truncated toward zero, into sD, with fixed results for a zero divisor and for overflow. -/
  | divI64 (d a b : Nat)
  /-- DIV_N64 (R154): Writes the natural quotient into sD, with all ones for a zero divisor. -/
  | divN64 (d a b : Nat)
  /-- REM_I64 (R154): Writes the signed remainder, with the sign of the dividend, into sD. -/
  | remI64 (d a b : Nat)
  /-- REM_N64 (R154): Writes the natural remainder into sD. -/
  | remN64 (d a b : Nat)
  /-- AND (R153): Writes the bitwise AND of sA and sB into sD. -/
  | and (d a b : Nat)
  /-- OR (R153): Writes the bitwise OR of sA and sB into sD. -/
  | or (d a b : Nat)
  /-- XOR (R153): Writes the bitwise XOR of sA and sB into sD. -/
  | xor (d a b : Nat)
  /-- SHL (R153): Shifts sA left by sB[5:0] into sD. -/
  | shl (d a b : Nat)
  /-- SHR_N64 (R153): Shifts sA right logically by sB[5:0] into sD. -/
  | shrN64 (d a b : Nat)
  /-- SHR_I64 (R153): Shifts sA right arithmetically by sB[5:0] into sD. -/
  | shrI64 (d a b : Nat)
  /-- MIN_I64 (R153): Writes the signed lesser of sA and sB into sD. -/
  | minI64 (d a b : Nat)
  /-- MIN_N64 (R153): Writes the natural lesser of sA and sB into sD. -/
  | minN64 (d a b : Nat)
  /-- MAX_I64 (R153): Writes the signed greater of sA and sB into sD. -/
  | maxI64 (d a b : Nat)
  /-- MAX_N64 (R153): Writes the natural greater of sA and sB into sD. -/
  | maxN64 (d a b : Nat)
  /-- CLZ (R153): Writes the count of leading zero bits of sA into sD. -/
  | clz (d a : Nat)
  /-- POPC (R153): Writes the count of one bits of sA into sD. -/
  | popc (d a : Nat)
  /-- SEQ (R153): Writes 1 into sD when sA equals sB, else 0. -/
  | seq (d a b : Nat)
  /-- SNE (R153): Writes 1 into sD when sA differs from sB, else 0. -/
  | sne (d a b : Nat)
  /-- SLT_I64 (R153): Writes 1 into sD when sA < sB signed, else 0. -/
  | sltI64 (d a b : Nat)
  /-- SLT_N64 (R153): Writes 1 into sD when sA < sB natural, else 0. -/
  | sltN64 (d a b : Nat)
  /-- SLE_I64 (R153): Writes 1 into sD when sA ≤ sB signed, else 0. -/
  | sleI64 (d a b : Nat)
  /-- SLE_N64 (R153): Writes 1 into sD when sA ≤ sB natural, else 0. -/
  | sleN64 (d a b : Nat)
  /-- SCADD_2 (R153): Writes sA + 2 × sB into sD. -/
  | scadd2 (d a b : Nat)
  /-- SCADD_4 (R153): Writes sA + 4 × sB into sD. -/
  | scadd4 (d a b : Nat)
  /-- SCADD_8 (R153): Writes sA + 8 × sB into sD. -/
  | scadd8 (d a b : Nat)
  /-- SCADD_16 (R153): Writes sA + 16 × sB into sD. -/
  | scadd16 (d a b : Nat)
  /-- ADDI (R155): Adds the sign-extended immediate to sD. -/
  | addi (d : Nat) (imm : Int)
  /-- MULI (R155): Multiplies sD by the sign-extended immediate and keeps the low 64 bits. -/
  | muli (d : Nat) (imm : Int)
  /-- ANDI (R155): ANDs sD with the sign-extended immediate. -/
  | andi (d : Nat) (imm : Int)
  /-- ORI (R155): ORs sD with the sign-extended immediate. -/
  | ori (d : Nat) (imm : Int)
  /-- XORI (R155): XORs sD with the sign-extended immediate. -/
  | xori (d : Nat) (imm : Int)
  /-- SHLI (R155): Shifts sD left by imm[5:0]. -/
  | shli (d imm : Nat)
  /-- SHRI_N64 (R155): Shifts sD right logically by imm[5:0]. -/
  | shriN64 (d imm : Nat)
  /-- SHRI_I64 (R155): Shifts sD right arithmetically by imm[5:0]. -/
  | shriI64 (d imm : Nat)
  /-- SLTI_I64 (R155): Sets sD to 1 when sD < the immediate signed, else 0. -/
  | sltiI64 (d : Nat) (imm : Int)
  /-- SLTI_N64 (R155): Sets sD to 1 when sD < the immediate, both read as natural, else 0. -/
  | sltiN64 (d : Nat) (imm : Int)
  /-- SEQI (R155): Sets sD to 1 when sD equals the immediate, else 0. -/
  | seqi (d : Nat) (imm : Int)
  /-- MOVI (R155): Writes the sign-extended immediate into sD. -/
  | movi (d : Nat) (imm : Int)
  /-- LIM (R156): Shifts sD left by 15 and ORs in the zero-extended immediate. -/
  | lim (d imm : Nat)
  /-- ADR (R157): Writes the address of the adr word plus 4 × the signed immediate into sD. -/
  | adr (d : Nat) (imm : Int)
  /-- LBLK (R158): Writes a lane block table entry into bits 31:0 of sD. -/
  | lblk (d imm : Nat)
  /-- J (R86): Jumps by a signed word offset. -/
  | j (off : Int)
  /-- CALL (R89): Pushes a return entry with lmask and jumps by a signed word offset. -/
  | call (off : Int)
  /-- RET (R89): Pops a return-stack entry and returns, restoring lmask, or runs the next callv round. -/
  | ret
  /-- JR (R86): Jumps to sA + 4 × the signed offset. -/
  | jr (a : Nat) (off : Int)
  /-- CALLR (R89): Pushes a return entry and jumps to sA + 4 × the signed offset. -/
  | callr (a : Nat) (off : Int)
  /-- BZ (R86): Branches when sA is zero. -/
  | bz (a : Nat) (off : Int)
  /-- BNZ (R86): Branches when sA is nonzero. -/
  | bnz (a : Nat) (off : Int)
  /-- BLTZ (R86): Branches when sA is negative. -/
  | bltz (a : Nat) (off : Int)
  /-- BGEZ (R86): Branches when sA is non-negative. -/
  | bgez (a : Nat) (off : Int)
  /-- BGTZ (R86): Branches when sA is positive. -/
  | bgtz (a : Nat) (off : Int)
  /-- BLEZ (R86): Branches when sA is at most zero. -/
  | blez (a : Nat) (off : Int)
  /-- CALLV (R90): Calls each distinct per-lane target once, in rounds, with that target's lanes in lmask. -/
  | callv (t : Nat)
  /-- LRUN (R82): Enqueues a lane block with captured arguments and a copy of lmask. -/
  | lrun (a b : Nat)
  /-- LWAIT (R84): Stalls the scalar stream until at most n lane blocks remain unfinished. -/
  | lwait (n : Nat)
  /-- CHPUB (R92): Makes the wave the publishing lead of its core's channel. -/
  | chpub
  /-- CHSUB (R93): Makes the wave pending on a channel with a tag and mask and parks it until a lead's rdv joins it. -/
  | chsub (tag a b : Nat)
  /-- CHLEAVE (R100): Sends a subscribed member out of the convoy to a target with an expected tag; a nop in the lead. -/
  | chleave (tag : Nat) (off : Int)
  /-- RDV (R101): Rendezvous: a lead waits for reports and arrivals, then joins them; a departed member records its arrival and parks. -/
  | rdv (tag a : Nat)
  /-- LDS_I8 (R258): Loads a byte, sign-extended, into sD. -/
  | ldsI8 (d a off : Nat)
  /-- LDS_N8 (R258): Loads a byte, zero-extended, into sD. -/
  | ldsN8 (d a off : Nat)
  /-- LDS_I16 (R258): Loads 2 bytes, sign-extended, into sD. -/
  | ldsI16 (d a off : Nat)
  /-- LDS_N16 (R258): Loads 2 bytes, zero-extended, into sD. -/
  | ldsN16 (d a off : Nat)
  /-- LDS_I32 (R258): Loads 4 bytes, sign-extended, into sD. -/
  | ldsI32 (d a off : Nat)
  /-- LDS_N32 (R258): Loads 4 bytes, zero-extended, into sD. -/
  | ldsN32 (d a off : Nat)
  /-- LDS_64 (R258): Loads 8 bytes into sD. -/
  | lds64 (d a off : Nat)
  /-- STS_8 (R258): Stores the low byte of sD. -/
  | sts8 (d a off : Nat)
  /-- STS_16 (R258): Stores the low 2 bytes of sD. -/
  | sts16 (d a off : Nat)
  /-- STS_32 (R258): Stores the low 4 bytes of sD. -/
  | sts32 (d a off : Nat)
  /-- STS_64 (R258): Stores the 8 bytes of sD. -/
  | sts64 (d a off : Nat)
  /-- LDFE (R286): Takes a full tagged word into sD and leaves its tag empty, waiting at the home until it is full. -/
  | ldfe (d a off : Nat)
  /-- STFE (R286): Fills an empty tagged word with sD and sets its tag full, waiting at the home until it is empty. -/
  | stfe (d a off : Nat)
  /-- LDF (R286): Reads a full tagged word into sD without changing its tag. -/
  | ldf (d a off : Nat)
  /-- TAGSET (R286): Sets a word's full/empty tag without waiting. -/
  | tagset (d a off : Nat)
  /-- XLAT (R238): Translates a base pointer into a translation register with its contiguous limit, parking until the translation ends. -/
  | xlat (d a : Nat)
  /-- PHASE (R293): A release, acquire or full boundary at a scope that holds the scalar stream until it completes. -/
  | phase (ord : Order) (sc : Scope)
  /-- FENCE (R298): Orders the wave's later accesses of the succ classes after its earlier accesses of the pred classes. -/
  | fence (pred succ : Nat)
  /-- ARRIVE (R278): Releases at the scope and posts an arrive of n to a barrier word. -/
  | arrive (sc : Scope) (a b : Nat)
  /-- AWAIT (R278): Parks until the barrier's phase differs from the given phase, then acquires at the scope. -/
  | await (sc : Scope) (a b : Nat)
  /-- ARRIVE_WAIT (R278): Releases, arrives, and parks until that phase flips, then acquires. -/
  | arriveWait (sc : Scope) (a b : Nat)
  /-- BJOIN (R280): Adds a barrier to the wave's membership list and sends a join of n. -/
  | bjoin (a b : Nat)
  /-- BLEAVE (R280): Sends a leave for a listed barrier after its arrives are acknowledged and removes the entry. -/
  | bleave (a : Nat)
  /-- WAITADDR (R283): Links a wait node and parks while the watched word equals sD, returning a result code. -/
  | waitaddr (d a b : Nat)
  /-- WAKE (R284): Posts a wake that releases the first n waiters linked on a wait pair. -/
  | wake (a b : Nat)
  /-- AMO_ADD (R273): Scalar atomic add of sD to an 8-byte word, returning the old word. -/
  | amoAdd (d a : Nat) (ord : Order) (sc : Scope)
  /-- AMO_AND (R273): Scalar atomic AND, returning the old word. -/
  | amoAnd (d a : Nat) (ord : Order) (sc : Scope)
  /-- AMO_OR (R273): Scalar atomic OR, returning the old word. -/
  | amoOr (d a : Nat) (ord : Order) (sc : Scope)
  /-- AMO_XOR (R273): Scalar atomic XOR, returning the old word. -/
  | amoXor (d a : Nat) (ord : Order) (sc : Scope)
  /-- AMO_MIN_I64 (R273): Scalar atomic signed minimum, returning the old word. -/
  | amoMinI64 (d a : Nat) (ord : Order) (sc : Scope)
  /-- AMO_MIN_N64 (R273): Scalar atomic natural minimum, returning the old word. -/
  | amoMinN64 (d a : Nat) (ord : Order) (sc : Scope)
  /-- AMO_MAX_I64 (R273): Scalar atomic signed maximum, returning the old word. -/
  | amoMaxI64 (d a : Nat) (ord : Order) (sc : Scope)
  /-- AMO_MAX_N64 (R273): Scalar atomic natural maximum, returning the old word. -/
  | amoMaxN64 (d a : Nat) (ord : Order) (sc : Scope)
  /-- AMO_SWAP (R273): Scalar atomic swap, returning the old word. -/
  | amoSwap (d a : Nat) (ord : Order) (sc : Scope)
  /-- AMO_CAS (R273): Scalar compare-and-swap with s(d+1) as the new value, returning the old word. -/
  | amoCas (d a : Nat) (ord : Order) (sc : Scope)
  /-- RED_ADD (R273): Scalar reduction add to an 8-byte word with no return. -/
  | redAdd (d a : Nat) (ord : Order) (sc : Scope)
  /-- RED_AND (R273): Scalar reduction AND. -/
  | redAnd (d a : Nat) (ord : Order) (sc : Scope)
  /-- RED_OR (R273): Scalar reduction OR. -/
  | redOr (d a : Nat) (ord : Order) (sc : Scope)
  /-- RED_XOR (R273): Scalar reduction XOR. -/
  | redXor (d a : Nat) (ord : Order) (sc : Scope)
  /-- RED_MIN_I64 (R273): Scalar reduction signed minimum. -/
  | redMinI64 (d a : Nat) (ord : Order) (sc : Scope)
  /-- RED_MIN_N64 (R273): Scalar reduction natural minimum. -/
  | redMinN64 (d a : Nat) (ord : Order) (sc : Scope)
  /-- RED_MAX_I64 (R273): Scalar reduction signed maximum. -/
  | redMaxI64 (d a : Nat) (ord : Order) (sc : Scope)
  /-- RED_MAX_N64 (R273): Scalar reduction natural maximum. -/
  | redMaxN64 (d a : Nat) (ord : Order) (sc : Scope)
  /-- QINIT (R123): Configures a ring handle over registers or scratchpad, after the handle's engine replies drain. -/
  | qinit (d a b : Nat)
  /-- QPUSH (R125): Advances a ring's tail by n filled slots once there is room and the slot writes are done. -/
  | qpush (d imm : Nat)
  /-- QPOP (R126): Advances a ring's head by n slots once they are filled. -/
  | qpop (d imm : Nat)
  /-- LAUNCH (R71): Releases at .pk and writes a manifest from scratchpad into a device-submission work queue. -/
  | launch (a b : Nat)
  /-- SPAWN (R72): Places child waves of the consignment near the issuing core and returns the count, or a negative code. -/
  | spawn (d a b : Nat)
  /-- MX_LOAD (R207): Sends a command to install a weight plane from memory into a matrix engine slot. -/
  | mxLoad (a b : Nat)
  /-- MX_STREAM (R216): Sends a quarter operation that streams activation rows through a plane into accumulator rows. -/
  | mxStream (a b : Nat)
  /-- MX_DIST (R224): Sends a quarter operation that keeps the k smallest distances per row. -/
  | mxDist (a b : Nat)
  /-- MX_MIPS (R224): Sends a quarter operation that keeps the k largest inner products per row. -/
  | mxMips (a b : Nat)
  /-- CP_COPY (R262): Sends a copy engine command that copies len bytes. -/
  | cpCopy (a b : Nat)
  /-- CP_GATHER (R262): Sends a copy engine command that gathers indexed rows. -/
  | cpGather (a b : Nat)
  /-- CP_SCATTER (R262): Sends a copy engine command that scatters rows to indexed places. -/
  | cpScatter (a b : Nat)
  /-- CP_TENSOR (R262): Sends a copy engine command for a strided copy of up to four dimensions. -/
  | cpTensor (a b : Nat)
  /-- CP_FILL (R262): Sends a copy engine command that fills bytes with an 8-byte pattern. -/
  | cpFill (a b : Nat)
  /-- LV_MAX (R192): Sends a long-vector command that finds the maximum and its first index. -/
  | lvMax (a b : Nat)
  /-- LV_SUMEXP (R193): Sends a long-vector command that sums exponentials in chunks of 64. -/
  | lvSumexp (a b : Nat)
  /-- LV_SOFTMAX (R194): Sends a long-vector command that overwrites the source with softmax probabilities. -/
  | lvSoftmax (a b : Nat)
  /-- LV_TOPK (R195): Sends a long-vector command that writes the k largest values and their indices. -/
  | lvTopk (a b : Nat)
  /-- LV_SAMPLE (R196): Sends a long-vector command that samples an index from a uniform value U. -/
  | lvSample (a b : Nat)
  /-- RT_OPEN (R331): Sends a command that opens a reassembly table. -/
  | rtOpen (a b : Nat)
  /-- RT_ROUTE (R333): Sends a command that routes a tile's rows to channel targets under a routing vector. -/
  | rtRoute (a b : Nat)
  /-- RT_RETURN (R334): Sends a result row back to its origin with its tag word. -/
  | rtReturn (a b : Nat)
  /-- RTCTL_BIND (R326): rtctl BIND: installs the send and/or receive half of a route channel from a descriptor. -/
  | rtctlBind (a b : Nat)
  /-- RTCTL_UNBIND (R325): rtctl UNBIND: removes both halves once the inbox is empty and no batch is outstanding. -/
  | rtctlUnbind (a b : Nat)
  /-- RTCTL_HOLD_SET (R325): rtctl HOLD set: stops a channel dispatching batches. -/
  | rtctlHoldSet (a b : Nat)
  /-- RTCTL_HOLD_CLEAR (R325): rtctl HOLD clear: clears a channel's HOLD. -/
  | rtctlHoldClear (a b : Nat)
  /-- RTCTL_READY_SET (R325): rtctl READY set: sets a channel's READY. -/
  | rtctlReadySet (a b : Nat)
  /-- RTCTL_READY_CLEAR (R325): rtctl READY clear: clears a channel's READY. -/
  | rtctlReadyClear (a b : Nat)
  /-- RTCTL_CONSUME (R325): rtctl CONSUME: advances a channel's inbox head by n rows. -/
  | rtctlConsume (a b : Nat)
  /-- RTCTL_FLUSH (R325): rtctl FLUSH: makes the next dispatch take the rows present as if the flush time had passed. -/
  | rtctlFlush (a b : Nat)
  /-- VADD (R163): Lane add on integer or floating-point elements. -/
  | vadd (l : LaneA)
  /-- VSUB (R163): Lane subtract. -/
  | vsub (l : LaneA)
  /-- VMUL (R163): Lane multiply. -/
  | vmul (l : LaneA)
  /-- VMULH (R163): Lane integer high half of the product. -/
  | vmulh (l : LaneA)
  /-- VFMA (R164): Lane fused multiply-add with one rounding. -/
  | vfma (l : LaneA)
  /-- VMIN (R164): Lane minimum. -/
  | vmin (l : LaneA)
  /-- VMAX (R164): Lane maximum. -/
  | vmax (l : LaneA)
  /-- VABS (R163): Lane absolute value. -/
  | vabs (l : LaneA)
  /-- VNEG (R163): Lane negation. -/
  | vneg (l : LaneA)
  /-- VAND (R163): Lane bitwise AND. -/
  | vand (l : LaneA)
  /-- VOR (R163): Lane bitwise OR. -/
  | vor (l : LaneA)
  /-- VXOR (R163): Lane bitwise XOR. -/
  | vxor (l : LaneA)
  /-- VNOT (R163): Lane bitwise NOT. -/
  | vnot (l : LaneA)
  /-- VSHL (R163): Lane shift left. -/
  | vshl (l : LaneA)
  /-- VSHR (R163): Lane shift right. -/
  | vshr (l : LaneA)
  /-- VCLZ (R163): Lane count of leading zeros. -/
  | vclz (l : LaneA)
  /-- VPOPC (R163): Lane count of one bits. -/
  | vpopc (l : LaneA)
  /-- VCMP_EQ (R165): Compares for equality into a predicate. -/
  | vcmpEq (l : LaneA)
  /-- VCMP_NE (R165): Compares for inequality into a predicate. -/
  | vcmpNe (l : LaneA)
  /-- VCMP_LT (R165): Compares less-than into a predicate. -/
  | vcmpLt (l : LaneA)
  /-- VCMP_LE (R165): Compares less-or-equal into a predicate. -/
  | vcmpLe (l : LaneA)
  /-- VCMP_GT (R165): Compares greater-than into a predicate. -/
  | vcmpGt (l : LaneA)
  /-- VCMP_GE (R165): Compares greater-or-equal into a predicate. -/
  | vcmpGe (l : LaneA)
  /-- VCMP_UN (R165): Sets a predicate where either FP32 operand is NaN. -/
  | vcmpUn (l : LaneA)
  /-- VCMP_OR (R165): Sets a predicate where neither FP32 operand is NaN. -/
  | vcmpOr (l : LaneA)
  /-- PAND (R166): Predicate AND. -/
  | pand (l : LaneA)
  /-- POR (R166): Predicate OR. -/
  | por (l : LaneA)
  /-- PXOR (R166): Predicate XOR. -/
  | pxor (l : LaneA)
  /-- PANDN (R166): Predicate AND NOT. -/
  | pandn (l : LaneA)
  /-- PNOT (R166): Predicate NOT. -/
  | pnot (l : LaneA)
  /-- VMOV (R167): Copies 32 lane bits from a source or an immediate. -/
  | vmov (l : LaneA)
  /-- VSEL (R168): Selects per lane between two sources under a predicate. -/
  | vsel (l : LaneA)
  /-- MVS (R169): Copies one lane's 32 bits into a scalar register. -/
  | mvs (l : LaneA)
  /-- VCVT (R170): Converts one part of the elements between element types. -/
  | vcvt (l : LaneA)
  /-- VPACK (R172): Narrows two registers into one. -/
  | vpack (l : LaneA)
  /-- VUNPACK (R173): Widens one half of a register. -/
  | vunpack (l : LaneA)
  /-- VCBSET (R174): Sets a codebook table from lanes 0 to 7. -/
  | vcbset (l : LaneA)
  /-- VCBW (R175): Writes nearest codebook indices into one part of a register. -/
  | vcbw (l : LaneA)
  /-- VSCACC (R223): Scales an accumulator row into FP32 and adds it to a destination with one rounding. -/
  | vscacc (l : LaneA)
  /-- VRCP (R184): Special function reciprocal. -/
  | vrcp (l : LaneA)
  /-- VRSQRT (R184): Special function reciprocal square root. -/
  | vrsqrt (l : LaneA)
  /-- VSQRT (R184): Special function square root. -/
  | vsqrt (l : LaneA)
  /-- VEXP2 (R184): Special function power of two. -/
  | vexp2 (l : LaneA)
  /-- VLOG2 (R184): Special function base-2 logarithm. -/
  | vlog2 (l : LaneA)
  /-- VSINPI (R186): Special function sin(πx). -/
  | vsinpi (l : LaneA)
  /-- VCOSPI (R186): Special function cos(πx). -/
  | vcospi (l : LaneA)
  /-- VTANH (R184): Special function hyperbolic tangent. -/
  | vtanh (l : LaneA)
  /-- VPERM (R177): Permutes lanes by index, with a fill for absent source lanes. -/
  | vperm (l : LaneA)
  /-- VPERM_X (R178): Permutes lanes across the members of a width convoy. -/
  | vpermX (l : LaneA)
  /-- VSWAP (R179): Swaps lanes at a fixed XOR distance. -/
  | vswap (l : LaneA)
  /-- VBCAST (R179): Broadcasts one lane to all lanes. -/
  | vbcast (l : LaneA)
  /-- VRED_ADD (R180): Tree sum of the active lanes into a scalar register. -/
  | vredAdd (l : LaneA)
  /-- VRED_MIN (R180): Tree minimum of the active lanes into a scalar register. -/
  | vredMin (l : LaneA)
  /-- VRED_MAX (R180): Tree maximum of the active lanes into a scalar register. -/
  | vredMax (l : LaneA)
  /-- VSCAN_ADD (R181): Inclusive running sum over the lanes. -/
  | vscanAdd (l : LaneA)
  /-- VSCAN_MIN (R181): Inclusive running minimum over the lanes. -/
  | vscanMin (l : LaneA)
  /-- VSCAN_MAX (R181): Inclusive running maximum over the lanes. -/
  | vscanMax (l : LaneA)
  /-- VBALLOT (R182): Packs a predicate ANDed with the active lanes into a scalar register. -/
  | vballot (l : LaneA)
  /-- VRNG (R199): Draws counter-based random bits, or a uniform FP32 value, per lane. -/
  | vrng (l : LaneA)
  /-- VLDP (R254): Loads from lane-private store. -/
  | vldp (l : LaneM)
  /-- VSTP (R254): Stores to lane-private store. -/
  | vstp (l : LaneM)
  /-- VLDS (R255): Loads from the local scratchpad in bank passes. -/
  | vlds (l : LaneM)
  /-- VSTS (R255): Stores to the local scratchpad in bank passes. -/
  | vsts (l : LaneM)
  /-- VLD (R256): Loads global memory through a translation register, one request per sector. -/
  | vld (l : LaneM)
  /-- VST (R256): Stores to global memory through a translation register. -/
  | vst (l : LaneM)
  /-- VLD_GSPAD (R257): Loads through lane scratchpad addresses of any core. -/
  | vldGspad (l : LaneM)
  /-- VST_GSPAD (R257): Stores through lane scratchpad addresses of any core. -/
  | vstGspad (l : LaneM)
  /-- LANE_AMO_ADD (R274): Lane atomic add on 4-byte words, returning the old values. -/
  | laneAmoAdd (l : LaneM)
  /-- LANE_AMO_AND (R274): Lane atomic AND. -/
  | laneAmoAnd (l : LaneM)
  /-- LANE_AMO_OR (R274): Lane atomic OR. -/
  | laneAmoOr (l : LaneM)
  /-- LANE_AMO_XOR (R274): Lane atomic XOR. -/
  | laneAmoXor (l : LaneM)
  /-- LANE_AMO_MIN (R274): Lane atomic minimum. -/
  | laneAmoMin (l : LaneM)
  /-- LANE_AMO_MAX (R274): Lane atomic maximum. -/
  | laneAmoMax (l : LaneM)
  /-- LANE_AMO_SWAP (R274): Lane atomic swap. -/
  | laneAmoSwap (l : LaneM)
  /-- LANE_AMO_CAS (R274): Lane compare-and-swap. -/
  | laneAmoCas (l : LaneM)
  /-- LANE_AMO_FADD (R275): Lane atomic FP32 add with one rounding per operation. -/
  | laneAmoFadd (l : LaneM)
  /-- LANE_RED_ADD (R274): Lane reduction add with no return. -/
  | laneRedAdd (l : LaneM)
  /-- LANE_RED_AND (R274): Lane reduction AND. -/
  | laneRedAnd (l : LaneM)
  /-- LANE_RED_OR (R274): Lane reduction OR. -/
  | laneRedOr (l : LaneM)
  /-- LANE_RED_XOR (R274): Lane reduction XOR. -/
  | laneRedXor (l : LaneM)
  /-- LANE_RED_MIN (R274): Lane reduction minimum. -/
  | laneRedMin (l : LaneM)
  /-- LANE_RED_MAX (R274): Lane reduction maximum. -/
  | laneRedMax (l : LaneM)
  /-- LANE_RED_FADD (R275): Lane reduction FP32 add. -/
  | laneRedFadd (l : LaneM)
  /-- VPOP (R127): Reads a ring's head slot into a register and advances the head. -/
  | vpop (l : LaneA)
  /-- VEXIT (R73): Marks the active lanes as exited. -/
  | vexit (l : LaneA)
  /-- XCH (R350): Offers register values to a partner wave in another band and receives the partner's values. -/
  | xch (l : LaneA)
  /-- WQ_TAIL_DOORBELL (R55): A host write to WQ_TAIL advances the tail, or is ignored with OVF or REFUSED set. -/
  | wqTailDoorbell (q v : Nat)
  /-- CONTROL_REGISTER_WRITE (R54): A write to a register with no row of its own updates its fields, subject to access codes and ignore rules. -/
  | controlRegisterWrite (service : Bool) (addr size v : Nat)
  /-- ARBITER_GRANT (R56): Every 32 cycles the arbiter grants the highest-priority eligible queue round-robin and takes a manifest or a gang. -/
  | arbiterGrant
  /-- DEPENDENCE_REREAD (R57): The arbiter re-reads the dependence words of a blocked head manifest. -/
  | dependenceReread (q : Nat)
  /-- DISPATCH (R60): The placement manager reads the code object extent and checks the manifest, failing it with a status or handing it to the placement engines. -/
  | dispatch (cid : Nat)
  /-- WAVE_PLACEMENT (R68): A placement engine leases rows for a wave, or all-or-none for a persistent consignment or gang, when they are free. -/
  | wavePlacement (die : Nat)
  /-- WAVE_START (R70): Once its rows are leased and cleared, a wave starts with its initial state. -/
  | waveStart (w : Nat)
  /-- ROW_RELEASE (R74): A stopped wave's draining rows are released once its counters and ring engine counts reach zero, and are offered to waiting requesters. -/
  | rowRelease (w : Nat)
  /-- SPAWN_ANSWER (R72): The lease table answers a spawn, placing the children or returning -1. -/
  | spawnAnswer (w : Nat)
  /-- CONSIGNMENT_SLOT_FREE (R75): A core's consignment slot is freed when no wave remains, the counters are zero and no table is open, removing its channel halves. -/
  | consignmentSlotFree (pcore cid : Nat)
  /-- CONSIGNMENT_COMPLETION (R76): When every wave has ended and every slot is freed, the consignment releases at .sy, arrives on done, and writes its completion record. -/
  | consignmentCompletion (cid : Nat)
  /-- PARTITION_SWAP (R110): A blocked active wave is swapped with the longest-waiting ready pending wave over 2 cycles. -/
  | partitionSwap (pcore part : Nat)
  /-- FORCED_SWAP (R111): At a 256-cycle window boundary, the longest-active wave is forced out for a pending wave that has waited long enough. -/
  | forcedSwap (pcore part : Nat)
  /-- RESULT_LANDING (R114): A fixed-latency result lands in its destination the stated number of cycles after issue. -/
  | resultLanding (w : Nat)
  /-- OPERATION_RETIRE (R119): A variable-latency operation completes, and its counter decrements in issue order. -/
  | operationRetire (w ctr : Nat)
  /-- SPECIAL_FUNCTION_COMPLETE (R183): A special function has written every lane; sf retires and its flags enter fpflags. -/
  | specialFunctionComplete (w : Nat)
  /-- ENGINE_RING_WRITE (R128): An engine completion waits for a free ring slot, writes it, and advances the tail. -/
  | engineRingWrite (pcore k : Nat)
  /-- PIPE_POP_REPORT (R129): A consumer's qpop or vpop reaches the pipe producer. -/
  | pipePopReport (w q : Nat)
  /-- PIPE_PUSH_REPORT (R129): A producer's qpush reaches the consumer after the slot writes it covers. -/
  | pipePushReport (w q : Nat)
  /-- PUBLISHED_ARRIVAL (R97): A published instruction moves hop by hop under credits into a member's receive FIFO. -/
  | publishedArrival (w : Nat)
  /-- MEMBER_REPORT (R101): A subscribed member's report of its last issued published instruction reaches the lead. -/
  | memberReport (w : Nat)
  /-- SPLIT_ENTRY_WRITE (R99): A departure is recorded in the lead's split table at the member's skew. -/
  | splitEntryWrite (w : Nat)
  /-- RDV_ARRIVAL (R101): A departed member's arrival is recorded at the lead's split table, possibly completing the lead's rdv. -/
  | rdvArrival (w : Nat)
  /-- RDV_TIMEOUT (R102): An rdv timeout passes: the lead marks entries MISSED, or a member takes a late-rendezvous trap. -/
  | rdvTimeout (w : Nat)
  /-- TRAP_ENTRY (R364): A delivered trap drains pending results, sets the trap registers and enters the handler. -/
  | trapEntry (w : Nat)
  /-- WAVE_KILL (R368): A wave is killed: it leaves its barriers, withdraws offers, sets the error flag, logs and drains. -/
  | waveKill (w cause : Nat)
  /-- LOAD_RESPONSE (R256): A load sector or value returns from its home or a remote scratchpad and lands in its destination. -/
  | loadResponse (k : Nat)
  /-- SCRATCHPAD_REQUEST_ARRIVAL (R249): A remote scratchpad request arrives, is lease-checked, and is performed at the banks or answered with an error. -/
  | scratchpadRequestArrival (k : Nat)
  /-- HOME_REQUEST_APPLY (R270): A home applies a store, atomic, reduction or read through its write queue in arrival order. -/
  | homeRequestApply (k : Nat)
  /-- HOTNESS_CLEAR (R248): A write of CLR to a hotness entry clears its counts. -/
  | hotnessClear (stack r : Nat)
  /-- WRITE_QUEUE_DRAIN (R271): A write-queue entry drains to the array after 64 idle cycles or when needed for another line. -/
  | writeQueueDrain (home line : Nat)
  /-- REFUSED_RETRY (R288): A refused request is retried after 32 cycles, with a ticket after its third refusal. -/
  | refusedRetry (k : Nat)
  /-- TICKET_DROP (R288): A ticket not presented within 256 cycles of being lowest is dropped. -/
  | ticketDrop (res : Nat)
  /-- TABLE_WALK (R239): A TLB miss walks the page table tree and yields a translation, a page fault or a bad entry. -/
  | tableWalk (pcore aspace va : Nat)
  /-- PAGE_FAULT_SERVICE (R241): The service cores make a faulted page present or declare the fault unrecoverable. -/
  | pageFaultService (k : Nat) (present : Bool)
  /-- OPERAND_LOG_REPLAY (R243): After service, hardware retranslates and performs the logged lanes. -/
  | operandLogReplay (w : Nat)
  /-- ACCESS_ERROR_RESPONSE (R246): An error response answers failing lanes with zero or no effect, logs, and sets an asynchronous access-violation trap. -/
  | accessErrorResponse (k : Nat)
  /-- SHOOTDOWN (R242): Removes overlapping TLB entries and zeroes translation register limits, completing when old accesses are performed. -/
  | shootdown (aspace lo hi : Nat)
  /-- BARRIER_ARRIVE_APPLY (R277): A home adds an arrive to a barrier word and flips the phase when complete. -/
  | barrierArriveApply (k : Nat)
  /-- BARRIER_JOIN_APPLY (R277): A home adds a join to a barrier's EXPECTED. -/
  | barrierJoinApply (k : Nat)
  /-- BARRIER_LEAVE_APPLY (R277): A home subtracts a leave from a barrier and checks for completion. -/
  | barrierLeaveApply (k : Nat)
  /-- BARRIER_ENGINE_ADD (R277): An engine reply of kind 11 adds its byte count, or sets ERROR, on a barrier word. -/
  | barrierEngineAdd (k : Nat)
  /-- ARRIVE_ACK (R278): A home's acknowledgement of an arrive reaches the wave, with the phase it found. -/
  | arriveAck (k : Nat)
  /-- WAITADDR_REQUEST (R283): At the home, a waitaddr compares the watched word and links its node or returns. -/
  | waitaddrRequest (k : Nat)
  /-- WAITADDR_TIMEOUT (R283): A waitaddr timeout unlinks the node and returns 2. -/
  | waitaddrTimeout (w : Nat)
  /-- WAKE_REQUEST (R284): At the home, a wake releases the first n linked waiters. -/
  | wakeRequest (k : Nat)
  /-- TAG_REQUEST_APPLY (R286): A tag operation proceeds at the home or waits, and waiting requests are served when the tag changes. -/
  | tagRequestApply (k : Nat)
  /-- ENGINE_INBOX_ENTRY (R187): A command held at the issuing core enters the engine's inbox when there is room. -/
  | engineInboxEntry (k : Nat)
  /-- COPY_COMMAND_START (R267): A copy or long-vector command at its inbox head enters its scoreboard spans and starts. -/
  | copyCommandStart (pcore : Nat) (eng : Engine)
  /-- CHUNK_FETCH (R264): A copy chunk's sources and indices are read and its destination translated, or it meets a fault or failure. -/
  | chunkFetch (pcore : Nat)
  /-- CHUNK_COMMIT (R264): A fetched chunk commits in order, writing its bytes and adding to a byte-mode barrier. -/
  | chunkCommit (pcore : Nat)
  /-- COMMIT_ERROR_RESPONSE (R264): A commit write answered with an error ends the copy, leaving that chunk partly written. -/
  | commitErrorResponse (pcore : Nat) (written : List Nat)
  /-- SCOREBOARD_ENTRY_REMOVE (R267): A read entry is removed after the last read of its span, and a write entry at completion, releasing stalled accesses. -/
  | scoreboardEntryRemove (pcore : Nat)
  /-- LV_COMMAND_FINISH (R197): A long-vector command finishes its writes and replies. -/
  | lvCommandFinish (pcore : Nat)
  /-- MX_LOAD_EXECUTE (R207): The matrix engine waits for free slots, reads the image and installs the plane, then replies. -/
  | mxLoadExecute (pcore : Nat)
  /-- MX_LOAD_END_ERROR (R208): An unrecoverable fault or error ends a plane load, emptying the slot. -/
  | mxLoadEndError (pcore : Nat)
  /-- PASS_START (R218): A fused pass starts when its 16-cycle window closes or it is full. -/
  | passStart (pcore : Nat)
  /-- ROW_ENTERS_ALIGNER (R217): An activation row enters the aligner at its row step. -/
  | rowEntersAligner (pcore : Nat)
  /-- ACC_ROW_WRITE (R217): An accumulator row and its tag are written 24 cycles after the row enters, and an operation's reply follows its last row. -/
  | accRowWrite (pcore : Nat)
  /-- ROUTED_ROW_ARRIVAL (R323): A routed row is written into a channel inbox slot and the tail advances. -/
  | routedRowArrival (k : Nat)
  /-- BATCH_DISPATCH (R324): A channel hands a batch to a task wave or to a resident waiter. -/
  | batchDispatch (pcore ch : Nat)
  /-- ROUTE_FLUSH_EXPIRY (R323): A channel's flush time passes since the arrival of row B. -/
  | routeFlushExpiry (pcore ch : Nat)
  /-- UNBIND_COMPLETE (R325): A waiting UNBIND removes both halves when the inbox is empty and no batch is outstanding. -/
  | unbindComplete (pcore ch : Nat)
  /-- RT_OPEN_EXECUTE (R331): The route engine waits for the table to be free, advances its generation and opens it. -/
  | rtOpenExecute (pcore : Nat)
  /-- RT_ROUTE_EXECUTE (R333): The route engine sends each rank in row-and-rank order, dropping or falling back at capacity. -/
  | rtRouteExecute (pcore : Nat)
  /-- RETURN_ACCEPT (R334): An origin accepts a returned row into its work area, or counts it as late. -/
  | returnAccept (k : Nat)
  /-- TABLE_TIMEOUT (R335): A table's timer passes and its sent or unsent ranks become TIMEDOUT. -/
  | tableTimeout (pcore t : Nat)
  /-- TABLE_CLOSE (R336): When every rank is settled the table writes rows, status and counts, adds to done and closes. -/
  | tableClose (pcore t : Nat)
  /-- TRANSLATE_ON_CALL (R29): The translator places a function at a stub trap and publishes the stub, evicting if the heap is full. -/
  | translateOnCall (w : Nat)
  /-- ROUTER_IDLE_GATE (R347): A router idle for 1 µs begins to power down. -/
  | routerIdleGate (pcore : Nat)
  /-- ROUTER_WAKE (R348): A wake signal reaches a router ahead of a packet and powers it up or keeps it on. -/
  | routerWake (pcore : Nat)
  /-- ROUTE_STITCH (R341): At bring-up or re-stitch the partition manager fixes one route per router pair. -/
  | routeStitch (die : Nat)
  /-- REGION_DESCRIPTOR_WRITE (R343): A service-core write to a region descriptor defines a region and rewires its express ports, or is ignored. -/
  | regionDescriptorWrite (n v : Nat)
  /-- XCH_OFFER_ARRIVAL (R350): An exchange offer reaches its meeting band and pairs or waits in a pairing slot. -/
  | xchOfferArrival (k : Nat)
  /-- XCH_VALUES_LAND (R350): Paired exchange values land in the active lanes of both waves. -/
  | xchValuesLand (k : Nat)
  /-- FLIT_RECEIVE (R354): A link receiver accepts an in-sequence flit with a good CRC or answers with a negative acknowledgement. -/
  | flitReceive (port seq : Nat) (good : Bool)
  /-- LINK_NAK_REPLAY (R354): A negative acknowledgement makes the sender replay from the named flit, retraining after 16 replays. -/
  | linkNakReplay (port seq : Nat)
  /-- PEER_RETRANSMIT_TIMEOUT (R355): A peer request without a response is retransmitted, or failed after 8 retransmissions. -/
  | peerRetransmitTimeout (m : Nat)
  /-- PEER_REQUEST_ARRIVAL (R356): A target executes a peer request once under its replay record, in sequence order. -/
  | peerRequestArrival (m seq : Nat) (op : PeerOp)
  /-- PEER_ACK (R356): An acknowledgement from a source module retires replay record entries. -/
  | peerAck (m seq : Nat)
  /-- PREEMPTION_REQUEST (R370): A pre-emption request starts stopping the named waves of a core, at safe points first. -/
  | preemptionRequest (pcore : Nat) (cids : List Nat) (source : PreemptSource)
  /-- PREEMPT_STOP_DEADLINE (R370): At 2 µs the remaining named waves stop at their next boundary, drain and are saved. -/
  | preemptStopDeadline (pcore : Nat)
  /-- LATE_RESPONSE_TO_CONTEXT (R371): A response arriving after its wave halted is written into the saved context. -/
  | lateResponseToContext (k : Nat)
  /-- CONTEXT_RESTORE (R374): A saved context is restored on a ready core with an acquire at .pk. -/
  | contextRestore (ctx pcore : Nat)
  /-- MIGRATION_REQUEST (R375): The migration service requests moving a consignment's unit on a logical core, leasing target rows. -/
  | migrationRequest (cid lcore target reason : Nat)
  /-- HONOUR_POINT_STOP (R376): A wave of the unit stops at its first honour point, and the move begins after the last one. -/
  | honourPointStop (w : Nat)
  /-- MIGRATION_DEADLINE (R376): After 1 ms the unit's remaining waves are pre-empted and the move begins. -/
  | migrationDeadline (cid lcore : Nat)
  /-- MIGRATION_MOVE (R377): The unit is saved, moved, remapped in the logical core table, and restored on the target. -/
  | migrationMove (cid lcore : Nat)
  /-- STUB_FORWARD (R378): The old core's stub forwards a request resolved to it to the target in arrival order. -/
  | stubForward (k : Nat)
  /-- TABLE_UPDATE_ACK (R378): A core acknowledges the new logical core table after its old requests reach the old core. -/
  | tableUpdateAck (pcore core : Nat)
  /-- STUB_RETIRE (R378): The stub retires once every core has acknowledged and old commands have completed. -/
  | stubRetire (pcore : Nat)
  /-- TELEMETRY_FRAME (R387): A valid shelf frame is evaluated into an allowance and a curve cadence, updating class states. -/
  | telemetryFrame (frame : List Byte)
  /-- TELEMETRY_STALE (R387): After 500 µs with no valid frame, the controller enters the stale state with the failsafe allowance. -/
  | telemetryStale
  /-- PC_COMMIT (R386): A COMMIT write checks the shadow curve and classes and activates them at the next frame, or sets BADCURVE. -/
  | pcCommit
  /-- LIMIT_LOOP_PERIOD (R388): Every 1 ms the limit loop raises or lowers CADL from measured energy. -/
  | limitLoopPeriod
  /-- CADENCE_APPLY (R388): Every core takes cad = max(CADC, CADL) within 25 µs. -/
  | cadenceApply
  /-- SHED_PARK_DEADLINE (R390): A wave of a shed class not parked within 500 µs is pre-empted. -/
  | shedParkDeadline (w : Nat)
  /-- CLASS_RESTORE (R391): A class whose allowance stayed above RESTORE for HOLD is restored. -/
  | classRestore (c : Nat)
  /-- BAND_RATIO_CHANGE (R392): A band changes its clock ratio, stalling for at most 200 ns. -/
  | bandRatioChange (band : Nat)
  /-- TIMED_WAIT_DEADLINE (R393): An absolute nsc deadline of a timed wait is reached, ending sleep. -/
  | timedWaitDeadline (w : Nat)
  /-- ENERGY_UPDATE (R395): The energy accumulators are updated every 1 µs. -/
  | energyUpdate (incs : List Nat)
  /-- ENERGY_LO_READ (R395): A read of an accumulator's LO half returns it and latches the high half into the reader's snapshot. -/
  | energyLoRead (reader n : Nat)
  /-- ENERGY_HI_READ (R395): A read of an accumulator's HI half returns the reader's snapshot. -/
  | energyHiRead (reader n : Nat)
  /-- ENERGY_64_READ (R395): A 64-bit read returns the whole accumulator in one action and latches the snapshot. -/
  | energy64Read (reader n : Nat)
  /-- TEMP_SAMPLE (R396): A core's sensor is sampled every 10 µs, raising warn, throttle or critical actions. -/
  | tempSample (pcore : Nat) (t : Int)
  /-- THROTTLE_RELEASE (R398): A band's throttle request ends after its samples stay 5 °C below THROTTLE for 1 ms. -/
  | throttleRelease (band : Nat)
  /-- EMERGENCY_SAVE (R401): A critical sample stops all waves and saves contexts into LPDDR-6 with marks, then powers down. -/
  | emergencySave
  /-- HARD_TRIP (R399): A sensor at 125 °C cuts the compute die and HBM rails within 1 µs. -/
  | hardTrip
  /-- MODULE_RESET (R410): Module reset starts every unit's self-test and puts registers at their reset values. -/
  | moduleReset
  /-- SELF_TEST_DONE (R410): A unit passes its self-test and sets its ready bit, or fails; DONE follows when all have finished. -/
  | selfTestDone (u : SelfTestUnit) (passed : Bool)
  /-- RESTART_AFTER_SAVE (R411): On power return the firmware reads the save directory and posts restart reports. -/
  | restartAfterSave
  /-- RESTORE_REQUEST (R411): On a host's request the firmware restores a consignment all of whose waves are complete, or completes it with status 1. -/
  | restoreRequest (tag : Nat)
  /-- FIRMWARE_VERIFY (R412): Dwenath's boot ROM verifies a firmware image before a service core runs it. -/
  | firmwareVerify (image : FirmwareImage)
  /-- ATTESTATION_REQUEST (R413): A nonce request returns a signed report of the measurement chain. -/
  | attestationRequest (nonce : List Byte)
  /-- PORT_RETRAIN (R354): An Ndoex port's retraining ends; on success it carries traffic again, and on failure it is marked not ready, clears its ready-map bit, and its traffic moves to the other ports. -/
  | portRetrain (port : Nat) (good : Bool)
  /-- FLIT_ACK (R354): A positive acknowledgement from the link receiver reaches the sender and frees the acknowledged flits from its 256-flit window and replay buffer. -/
  | flitAck (port seq : Nat)
  /-- BREAKPOINT_SET (R358): The debugger, through the service cores, sets up to four breakpoint addresses (scalar or lane PC) for a wave of a DEBUG consignment. -/
  | breakpointSet (w i : Nat) (bp : Option Breakpoint)
deriving DecidableEq, Repr

end Sys2Proof
end

