-- ==== Sys2Proof/Decode.lean ====
section
/-! DEFINITION. From bytes to an instruction, and back (R32-R42, R46, R48, R49). A word that one of the first four
checks of R51 refuses decodes to nothing. Register and operand fields are checked when the instruction executes. -/

namespace Sys2Proof

/-! ## Codes -/

/-- The code of a scope (R42). -/
def Scope.code : Scope → Nat
  | .wv => 0 | .cw => 1 | .bd => 2 | .sk => 3 | .pk => 4 | .sy => 5

/-- The scope of a code; 6 and 7 are reserved (R42). -/
def Scope.ofCode : Nat → Option Scope
  | 0 => some .wv | 1 => some .cw | 2 => some .bd | 3 => some .sk | 4 => some .pk | 5 => some .sy | _ => none

/-- The code of an order (R42). -/
def Order.code : Order → Nat
  | .none => 0 | .acq => 1 | .rel => 2 | .ar => 3

/-- The order of a code (R42). -/
def Order.ofCode : Nat → Option Order
  | 0 => some .none | 1 => some .acq | 2 => some .rel | 3 => some .ar | _ => none

/-- The code of an element type (R39). -/
def Ty.code : Ty → Nat
  | .raw => 0 | .i4 => 1 | .i8 => 2 | .i16 => 3 | .i32 => 4 | .n4 => 5 | .n8 => 6 | .n16 => 7 | .n32 => 8
  | .f32 => 9 | .f16 => 10 | .bf16 => 11 | .e4m3 => 12 | .e5m2 => 13 | .e3m2 => 14 | .e2m3 => 15 | .e2m1 => 16
  | .t2 => 17 | .cb4 => 18 | .e8m0 => 19

/-- The element type of a code; 0x14 to 0x1F are in no opcode's set (R39). -/
def Ty.ofCode : Nat → Option Ty
  | 0 => some .raw | 1 => some .i4 | 2 => some .i8 | 3 => some .i16 | 4 => some .i32 | 5 => some .n4
  | 6 => some .n8 | 7 => some .n16 | 8 => some .n32 | 9 => some .f32 | 10 => some .f16 | 11 => some .bf16
  | 12 => some .e4m3 | 13 => some .e5m2 | 14 => some .e3m2 | 15 => some .e2m3 | 16 => some .e2m1
  | 17 => some .t2 | 18 => some .cb4 | 19 => some .e8m0 | _ => none

/-- The code of a rounding mode (R40). -/
def Rnd.code : Rnd → Nat
  | .rne => 0 | .rz => 1 | .rup => 2 | .rdn => 3 | .rna => 4

/-- The rounding mode of a code; 101 to 111 are reserved (R40). -/
def Rnd.ofCode : Nat → Option Rnd
  | 0 => some .rne | 1 => some .rz | 2 => some .rup | 3 => some .rdn | 4 => some .rna | _ => none

/-- The number of a special register (R160). -/
def SpecialReg.number : SpecialReg → Nat
  | .spc => 0x000 | .lpc => 0x001 | .wid => 0x002 | .width => 0x003 | .core => 0x004 | .pcore => 0x005
  | .lbusy => 0x006 | .lmask => 0x007 | .sbase => 0x008 | .fpctl => 0x010 | .fpflags => 0x011
  | .xcause => 0x020 | .xmask => 0x021 | .xspc => 0x022 | .xlpc => 0x023 | .xaddr => 0x024
  | .cad => 0x030 | .clk => 0x031 | .nsc => 0x032 | .ratio => 0x033 | .temp => 0x034 | .pclass => 0x035

/-- The special register of a number; every other number is unassigned (R160). -/
def SpecialReg.ofNumber : Nat → Option SpecialReg
  | 0x000 => some .spc | 0x001 => some .lpc | 0x002 => some .wid | 0x003 => some .width | 0x004 => some .core
  | 0x005 => some .pcore | 0x006 => some .lbusy | 0x007 => some .lmask | 0x008 => some .sbase
  | 0x010 => some .fpctl | 0x011 => some .fpflags | 0x020 => some .xcause | 0x021 => some .xmask
  | 0x022 => some .xspc | 0x023 => some .xlpc | 0x024 => some .xaddr | 0x030 => some .cad | 0x031 => some .clk
  | 0x032 => some .nsc | 0x033 => some .ratio | 0x034 => some .temp | 0x035 => some .pclass | _ => none

/-- The registers whose Access is RW (R160). -/
def SpecialReg.writable : SpecialReg → Bool
  | .lmask | .fpctl | .fpflags | .xcause | .xmask | .xspc | .xlpc | .xaddr => true
  | _ => false

/-! ## Types that an opcode accepts -/

/-- The set I of R162. -/
def Ty.isI : Ty → Bool
  | .i8 | .n8 | .i16 | .n16 | .i32 | .n32 => true
  | _ => false

/-- The set Is of R162. -/
def Ty.isIs : Ty → Bool
  | .i8 | .i16 | .i32 => true
  | _ => false

/-- The set N of R162. -/
def Ty.isN : Ty → Bool
  | .n8 | .n16 | .n32 => true
  | _ => false

/-- The set F of R162. -/
def Ty.isF : Ty → Bool
  | .f32 | .f16 | .bf16 => true
  | _ => false

/-- `.i32` and `.n32`. -/
def Ty.is32 : Ty → Bool
  | .i32 | .n32 => true
  | _ => false

/-- `.i32`, `.n32` and `.f32`. -/
def Ty.is32f : Ty → Bool
  | .i32 | .n32 | .f32 => true
  | _ => false

/-- The types of `vpack` and `vunpack` (R172). -/
def Ty.isPack : Ty → Bool
  | .i16 | .n16 | .i8 | .n8 | .i4 | .n4 | .t2 => true
  | _ => false

/-- The bits an element takes in a lane (R138, R170). -/
def Ty.bits : Ty → Nat
  | .raw | .i32 | .n32 | .f32 => 32
  | .i16 | .n16 | .f16 | .bf16 => 16
  | .i8 | .n8 | .e4m3 | .e5m2 | .e3m2 | .e2m3 | .e8m0 => 8
  | .i4 | .n4 | .e2m1 | .cb4 => 4
  | .t2 => 2

/-! ## Checks of R51 that need the word alone -/

/-- An operand field that names a ring handle (R37). -/
def isRing (f : Nat) : Bool := decide (320 ≤ f) && decide (f < 336)

/-- A slot-index byte: it may be nonzero only where its operand field names a ring handle (R38). -/
def ringByte (byte f : Nat) (used : Bool) : Bool := byte == 0 || used && isRing f

/-- The four slot-index bytes of imm, with which of d, a, b and c are operand fields (R38). -/
def ringBytes (l : LaneA) (ud ua ub uc : Bool) : Bool :=
  ringByte (l.imm % 256) l.a ua && ringByte (l.imm / 256 % 256) l.b ub
    && ringByte (l.imm / 65536 % 256) l.c uc && ringByte (l.imm / 16777216) l.d ud

/-- Rounding code 000. -/
def LaneA.noRound (l : LaneA) : Bool := l.rnd == .rne

/-- Rounding 000 and neither `.sat` nor `.ftz` (R40). -/
def LaneA.plain (l : LaneA) : Bool := l.rnd == .rne && !l.sat && !l.ftz

/-- The fields b, c, IMM and imm of a word with these operand fields; `mayImm` allows IMM, which needs b = 0 (R40). -/
def okOps (l : LaneA) (ud ua ub uc mayImm : Bool) : Bool :=
  (uc || l.c == 0) && if l.im then mayImm && l.b == 0 else (ub || l.b == 0) && ringBytes l ud ua ub uc

/-- A word with operands d, a, b, where IMM may replace b. -/
def okBin (l : LaneA) : Bool := okOps l true true true false true

/-- A word with operands d and a and no IMM. -/
def okUn (l : LaneA) : Bool := okOps l true true false false false

/-- `vadd`, `vsub` and `vmul` (R162). -/
def okArith (l : LaneA) : Bool := okBin l && (l.ty.isI && l.noRound && !l.ftz || l.ty.isF)

/-- The fields of a compare: d is a predicate (R165). -/
def okCmp (l : LaneA) : Bool := okOps l false true true false true

/-- Predicate logic: type 0x00, mod 0, no operand field, c and imm zero (R166). -/
def okPred (l : LaneA) : Bool := okOps l false false true false false && l.ty == .raw && l.plain && l.imm == 0

/-- `vmov`, whose immediate form has a = 0 (R167). -/
def okMov (l : LaneA) : Bool :=
  okOps l true true false false true && l.ty == .raw && l.plain && (!l.im || l.a == 0)

/-- `vsel`: c holds a predicate number (R168). -/
def okSel (l : LaneA) : Bool :=
  decide (l.c < 64) && l.ty == .raw && l.plain && if l.im then l.b == 0 else ringBytes l true true true false

/-- `mvs`: c holds a lane, pred and neg are zero (R169). -/
def okMvs (l : LaneA) : Bool :=
  decide (l.c < 64) && l.ty == .raw && l.plain && l.pred == 0 && !l.neg && l.b == 0 && !l.im
    && ringBytes l false true false false

/-- How many parts a conversion has (R170). -/
def cvtParts (d s : Ty) : Nat := max (32 / s.bits) (32 / d.bits) / min (32 / s.bits) (32 / d.bits)

/-- `vcvt` (R170). -/
def okCvt (l : LaneA) : Bool :=
  l.b == 0 && !l.im && l.ty != .raw && l.ty != .cb4 &&
  match Ty.ofCode l.c with
  | some s => s != .raw && s != l.ty && decide (l.imm % 16 < cvtParts l.ty s) && decide (l.imm < 64)
      && (s == .cb4 || decide (l.imm < 16))
  | none => false

/-- `vpack` (R172). -/
def okPack (l : LaneA) : Bool := okOps l true true true false false && l.ty.isPack && l.noRound && !l.ftz

/-- `vunpack` (R173). -/
def okUnpack (l : LaneA) : Bool :=
  decide (l.c < 2) && l.b == 0 && !l.im && ringBytes l true true false false && l.ty.isPack && l.plain

/-- `vcbset` (R174). -/
def okCbset (l : LaneA) : Bool :=
  decide (l.d < 4) && l.ty == .bf16 && l.pred == 0 && !l.neg && l.b == 0 && l.c == 0 && l.plain && !l.im
    && ringBytes l false true false false

/-- `vcbw` (R175). -/
def okCbw (l : LaneA) : Bool :=
  l.ty.isF && l.b == 0 && l.plain && !l.im && decide (l.c < 32)
    && decide (l.c / 4 < 8 / (32 / l.ty.bits)) && ringBytes l true true false false

/-- `vscacc`: IMM names the scale, and b stays an operand (R223). -/
def okScacc (l : LaneA) : Bool :=
  l.ty == .f32 && l.noRound && !l.ftz &&
    if l.im then l.c == 0 && decide (l.imm < 256) else ringBytes l true true true true

/-- `vswap` and `vbcast`: c holds the distance or the lane (R179). -/
def okFixed (l : LaneA) : Bool :=
  decide (l.c < 64) && l.ty == .raw && l.plain && l.b == 0 && !l.im && ringBytes l true true false false

/-- `vred` (R180). -/
def okRed (l : LaneA) : Bool := okOps l false true false false false && l.ty.is32f && l.plain

/-- `vballot` (R182). -/
def okBallot (l : LaneA) : Bool :=
  l.ty == .raw && l.plain && !l.im && l.b == 0 && l.c == 0 && l.imm == 0

/-- `vrng`: the operand values of R198. -/
def okRng (l : LaneA) : Bool :=
  (l.ty == .raw || l.ty == .f32) && l.plain && !l.im && l.c == 0 && l.imm == 0
    && (decide (l.a < 320) || l.a == 336 || l.a == 340) && (decide (l.b < 320) || l.b == 339)

/-- `vpop` (R127). -/
def okPop (l : LaneA) : Bool :=
  l.ty == .raw && l.plain && !l.im && l.b == 0 && l.c == 0 && l.imm == 0

/-- `vexit`: every field but pred and neg is zero (R73, R74). -/
def okExit (l : LaneA) : Bool := okPop l && l.d == 0 && l.a == 0

/-- `xch` (R349). -/
def okXch (l : LaneA) : Bool :=
  l.ty == .raw && l.plain && !l.im && l.b == 0 && decide (l.c < 256) && decide (l.imm < 2048)

/-- The eight lane memory words have type 0x00 and OS bits zero (R251). -/
def okMem (l : LaneM) : Bool := l.ty == .raw && l.sc == .wv && l.ord == .none

/-- The address form of a lane atomic or reduction: c[8:7] is 00 with c[2:0] = N, 01 or 10 (R274). -/
def okForm (l : LaneM) : Bool := decide (l.c < 8) || l.c == 128 || l.c == 256

/-- A lane reduction: d is zero, and `.acq` and `.ar` are illegal (R272). -/
def okLaneRed (l : LaneM) : Bool := okForm l && l.d == 0 && (l.ord == .none || l.ord == .rel)

/-- Whether the checks of R51 that look at the word alone pass. An event has no word. -/
def Instr.legal : Instr → Bool
  | .wait d imm => decide (d ≤ 4 ∧ imm ≤ 255)
  | .mts _ r => decide (r.writable = true)
  | .shli _ imm => decide (imm < 64)
  | .shriN64 _ imm => decide (imm < 64)
  | .shriI64 _ imm => decide (imm < 64)
  | .lwait n => decide (n ≤ 8)
  | .chsub tag _ _ => decide (tag < 256)
  | .chleave tag _ => decide (tag < 256)
  | .rdv tag _ => decide (tag < 256)
  | .tagset d _ _ => decide (d ≤ 1)
  | .xlat d _ => decide (d ≤ 7)
  | .phase ord _ => decide (ord ≠ .none)
  | .qinit d _ _ => decide (d ≤ 15)
  | .qpush d _ => decide (d ≤ 15)
  | .qpop d _ => decide (d ≤ 15)
  | .redAdd _ _ ord _ => decide (ord = .none ∨ ord = .rel)
  | .redAnd _ _ ord _ => decide (ord = .none ∨ ord = .rel)
  | .redOr _ _ ord _ => decide (ord = .none ∨ ord = .rel)
  | .redXor _ _ ord _ => decide (ord = .none ∨ ord = .rel)
  | .redMinI64 _ _ ord _ => decide (ord = .none ∨ ord = .rel)
  | .redMinN64 _ _ ord _ => decide (ord = .none ∨ ord = .rel)
  | .redMaxI64 _ _ ord _ => decide (ord = .none ∨ ord = .rel)
  | .redMaxN64 _ _ ord _ => decide (ord = .none ∨ ord = .rel)
  | .vadd l => okArith l
  | .vsub l => okArith l
  | .vmul l => okArith l
  | .vmulh l => okBin l && l.ty.isI && l.plain
  | .vfma l => okOps l true true true true true && l.ty.isF
  | .vmin l => okBin l && (l.ty.isI && l.plain || l.ty.isF && l.noRound && !l.sat)
  | .vmax l => okBin l && (l.ty.isI && l.plain || l.ty.isF && l.noRound && !l.sat)
  | .vabs l => okUn l && (l.ty.isIs && l.noRound && !l.ftz || l.ty.isF && l.plain)
  | .vneg l => okUn l && (l.ty.isIs && l.noRound && !l.ftz || l.ty.isF && l.plain)
  | .vand l => okBin l && l.ty == .raw && l.plain
  | .vor l => okBin l && l.ty == .raw && l.plain
  | .vxor l => okBin l && l.ty == .raw && l.plain
  | .vnot l => okUn l && l.ty == .raw && l.plain
  | .vshl l => okBin l && l.ty.isI && l.plain
  | .vshr l => okBin l && l.ty.isI && l.plain
  | .vclz l => okUn l && l.ty.isN && l.plain
  | .vpopc l => okUn l && l.ty.isN && l.plain
  | .vcmpEq l => okCmp l && (l.ty.is32 && l.plain || l.ty == .f32 && l.noRound && !l.sat)
  | .vcmpNe l => okCmp l && (l.ty.is32 && l.plain || l.ty == .f32 && l.noRound && !l.sat)
  | .vcmpLt l => okCmp l && (l.ty.is32 && l.plain || l.ty == .f32 && l.noRound && !l.sat)
  | .vcmpLe l => okCmp l && (l.ty.is32 && l.plain || l.ty == .f32 && l.noRound && !l.sat)
  | .vcmpGt l => okCmp l && (l.ty.is32 && l.plain || l.ty == .f32 && l.noRound && !l.sat)
  | .vcmpGe l => okCmp l && (l.ty.is32 && l.plain || l.ty == .f32 && l.noRound && !l.sat)
  | .vcmpUn l => okCmp l && l.ty == .f32 && l.noRound && !l.sat
  | .vcmpOr l => okCmp l && l.ty == .f32 && l.noRound && !l.sat
  | .pand l => okPred l
  | .por l => okPred l
  | .pxor l => okPred l
  | .pandn l => okPred l
  | .pnot l => okPred l && l.b == 0
  | .vmov l => okMov l
  | .vsel l => okSel l
  | .mvs l => okMvs l
  | .vcvt l => okCvt l
  | .vpack l => okPack l
  | .vunpack l => okUnpack l
  | .vcbset l => okCbset l
  | .vcbw l => okCbw l
  | .vscacc l => okScacc l
  | .vrcp l => okUn l && l.ty.isF && l.noRound && !l.sat
  | .vrsqrt l => okUn l && l.ty.isF && l.noRound && !l.sat
  | .vsqrt l => okUn l && l.ty.isF && l.noRound && !l.sat
  | .vexp2 l => okUn l && l.ty.isF && l.noRound && !l.sat
  | .vlog2 l => okUn l && l.ty.isF && l.noRound && !l.sat
  | .vsinpi l => okUn l && l.ty.isF && l.noRound && !l.sat
  | .vcospi l => okUn l && l.ty.isF && l.noRound && !l.sat
  | .vtanh l => okUn l && l.ty.isF && l.noRound && !l.sat
  | .vperm l => okOps l true true true true false && l.ty == .raw && l.plain
  | .vpermX l => okOps l true true true true false && l.ty == .raw && l.plain
  | .vswap l => okFixed l
  | .vbcast l => okFixed l
  | .vredAdd l => okRed l
  | .vredMin l => okRed l
  | .vredMax l => okRed l
  | .vscanAdd l => okUn l && l.ty.is32f && l.noRound && !l.ftz && (!l.sat || l.ty.is32)
  | .vscanMin l => okUn l && l.ty.is32f && l.plain
  | .vscanMax l => okUn l && l.ty.is32f && l.plain
  | .vballot l => okBallot l
  | .vrng l => okRng l
  | .vldp l => okMem l && l.b == 0 && l.c == 0
  | .vstp l => okMem l && l.d == 0 && l.c == 0
  | .vlds l => okMem l && l.b == 0 && l.c == 0
  | .vsts l => okMem l && l.d == 0 && l.c == 0
  | .vld l => okMem l && l.b == 0 && decide (l.c < 8)
  | .vst l => okMem l && l.d == 0 && decide (l.c < 8)
  | .vldGspad l => okMem l && l.b == 0 && l.c == 0
  | .vstGspad l => okMem l && l.d == 0 && l.c == 0
  | .laneAmoAdd l => okForm l && l.ty == .raw
  | .laneAmoAnd l => okForm l && l.ty == .raw
  | .laneAmoOr l => okForm l && l.ty == .raw
  | .laneAmoXor l => okForm l && l.ty == .raw
  | .laneAmoMin l => okForm l && l.ty.is32
  | .laneAmoMax l => okForm l && l.ty.is32
  | .laneAmoSwap l => okForm l && l.ty == .raw
  | .laneAmoCas l => okForm l && l.ty == .raw
  | .laneAmoFadd l => okForm l && l.ty == .f32
  | .laneRedAdd l => okLaneRed l && l.ty == .raw
  | .laneRedAnd l => okLaneRed l && l.ty == .raw
  | .laneRedOr l => okLaneRed l && l.ty == .raw
  | .laneRedXor l => okLaneRed l && l.ty == .raw
  | .laneRedMin l => okLaneRed l && l.ty.is32
  | .laneRedMax l => okLaneRed l && l.ty.is32
  | .laneRedFadd l => okLaneRed l && l.ty == .f32
  | .vpop l => okPop l
  | .vexit l => okExit l
  | .xch l => okXch l
  | _ => true

/-! ## Fields -/

/-- The value of `k` bits read as two's complement (R34). -/
def sext (k v : Nat) : Int := if v < 2 ^ (k - 1) then (v : Int) else (v : Int) - 2 ^ k

/-- The low `k` bits of an integer. -/
def low (k : Nat) (i : Int) : Nat := (i % 2 ^ k).toNat

/-- An instruction if its unused fields are zero. -/
def opt (c : Prop) [Decidable c] (i : Instr) : Option Instr := if c then some i else none

/-- The OS field (R42). -/
def osField (o : Order) (s : Scope) : Nat := o.code * 8 + s.code

/-- Order and scope of an OS field of six bits; bit 5 is reserved (R42). -/
def os (b : Nat) : Option (Order × Scope) :=
  if b < 32 then (Order.ofCode (b / 8)).bind fun o => (Scope.ofCode (b % 8)).map fun s => (o, s) else none

/-- The fields of a lane word in layout A (R36, R40); no type or rounding code outside R39 and R40 has fields. -/
def laneAFields (w : Nat) : Option LaneA :=
  (Ty.ofCode (w / 2 ^ 38 % 32)).bind fun ty => (Rnd.ofCode (w / 2 ^ 32 % 8)).map fun r =>
    { pred := w / 2 ^ 80 % 64, neg := w / 2 ^ 79 % 2 == 1, d := w / 2 ^ 70 % 512, a := w / 2 ^ 61 % 512,
      b := w / 2 ^ 52 % 512, c := w / 2 ^ 43 % 512, ty := ty, rnd := r, sat := w / 2 ^ 35 % 2 == 1,
      ftz := w / 2 ^ 36 % 2 == 1, im := w / 2 ^ 37 % 2 == 1, imm := w % 2 ^ 32 }

/-- The fields of a lane word in layout M (R36, R40, R42). -/
def laneMFields (w : Nat) : Option LaneM :=
  (Ty.ofCode (w / 2 ^ 38 % 32)).bind fun ty => (os (w / 2 ^ 32 % 64)).map fun p =>
    { pred := w / 2 ^ 80 % 64, neg := w / 2 ^ 79 % 2 == 1, d := w / 2 ^ 70 % 512, a := w / 2 ^ 61 % 512,
      b := w / 2 ^ 52 % 512, c := w / 2 ^ 43 % 512, ty := ty, sc := p.2, ord := p.1, imm := w % 2 ^ 32 }

/-! ## Decoding -/

/-- A scalar word by opcode, with its fields d (also a of SB and SX), a (also b of SX), b (also x of SX), imm and
off: unused fields must be zero (R32, R46, R49). -/
def scalarFields (op d a b imm off : Nat) : Option Instr :=
  match op with
  | 0x01 => opt (off = 0) .nop
  | 0x02 => opt (off = 0) .yield
  | 0x03 => opt (off = 0) .exit
  | 0x04 => opt (d = 0) (.trap imm)
  | 0x05 => opt (off = 0) .xretRedo
  | 0x06 => opt (off = 0) .xretSkip
  | 0x07 => some (.settv (sext 24 off))
  | 0x08 => some (.sleep d imm)
  | 0x09 => (SpecialReg.ofNumber imm).map (.mfs d)
  | 0x0A => (SpecialReg.ofNumber imm).map (.mts d)
  | 0x0B => some (.wait d imm)
  | 0x10 => some (.add d a b)
  | 0x11 => some (.sub d a b)
  | 0x12 => some (.mul d a b)
  | 0x13 => some (.mulhI64 d a b)
  | 0x14 => some (.mulhN64 d a b)
  | 0x15 => some (.divI64 d a b)
  | 0x16 => some (.divN64 d a b)
  | 0x17 => some (.remI64 d a b)
  | 0x18 => some (.remN64 d a b)
  | 0x19 => some (.and d a b)
  | 0x1A => some (.or d a b)
  | 0x1B => some (.xor d a b)
  | 0x1C => some (.shl d a b)
  | 0x1D => some (.shrN64 d a b)
  | 0x1E => some (.shrI64 d a b)
  | 0x1F => some (.minI64 d a b)
  | 0x20 => some (.minN64 d a b)
  | 0x21 => some (.maxI64 d a b)
  | 0x22 => some (.maxN64 d a b)
  | 0x23 => opt (b = 0) (.clz d a)
  | 0x24 => opt (b = 0) (.popc d a)
  | 0x25 => some (.seq d a b)
  | 0x26 => some (.sne d a b)
  | 0x27 => some (.sltI64 d a b)
  | 0x28 => some (.sltN64 d a b)
  | 0x29 => some (.sleI64 d a b)
  | 0x2A => some (.sleN64 d a b)
  | 0x2B => some (.scadd2 d a b)
  | 0x2C => some (.scadd4 d a b)
  | 0x2D => some (.scadd8 d a b)
  | 0x2E => some (.scadd16 d a b)
  | 0x30 => some (.addi d (sext 15 imm))
  | 0x31 => some (.muli d (sext 15 imm))
  | 0x32 => some (.andi d (sext 15 imm))
  | 0x33 => some (.ori d (sext 15 imm))
  | 0x34 => some (.xori d (sext 15 imm))
  | 0x35 => some (.shli d imm)
  | 0x36 => some (.shriN64 d imm)
  | 0x37 => some (.shriI64 d imm)
  | 0x38 => some (.sltiI64 d (sext 15 imm))
  | 0x39 => some (.sltiN64 d (sext 15 imm))
  | 0x3A => some (.seqi d (sext 15 imm))
  | 0x3B => some (.movi d (sext 15 imm))
  | 0x3C => some (.lim d imm)
  | 0x3D => some (.adr d (sext 15 imm))
  | 0x3E => some (.lblk d imm)
  | 0x40 => some (.j (sext 24 off))
  | 0x41 => some (.call (sext 24 off))
  | 0x42 => opt (off = 0) .ret
  | 0x43 => some (.jr d (sext 15 imm))
  | 0x44 => some (.callr d (sext 15 imm))
  | 0x45 => some (.bz d (sext 15 imm))
  | 0x46 => some (.bnz d (sext 15 imm))
  | 0x47 => some (.bltz d (sext 15 imm))
  | 0x48 => some (.bgez d (sext 15 imm))
  | 0x49 => some (.bgtz d (sext 15 imm))
  | 0x4A => some (.blez d (sext 15 imm))
  | 0x4B => opt (imm = 0) (.callv d)
  | 0x50 => opt (b = 0) (.lrun d a)
  | 0x51 => opt (d = 0) (.lwait imm)
  | 0x54 => opt (off = 0) .chpub
  | 0x55 => some (.chsub d a b)
  | 0x56 => some (.chleave d (sext 15 imm))
  | 0x57 => opt (b = 0) (.rdv d a)
  | 0x60 => some (.ldsI8 d a b)
  | 0x61 => some (.ldsN8 d a b)
  | 0x62 => some (.ldsI16 d a b)
  | 0x63 => some (.ldsN16 d a b)
  | 0x64 => some (.ldsI32 d a b)
  | 0x65 => some (.ldsN32 d a b)
  | 0x66 => some (.lds64 d a b)
  | 0x67 => some (.sts8 d a b)
  | 0x68 => some (.sts16 d a b)
  | 0x69 => some (.sts32 d a b)
  | 0x6A => some (.sts64 d a b)
  | 0x6B => some (.ldfe d a b)
  | 0x6C => some (.stfe d a b)
  | 0x6D => some (.ldf d a b)
  | 0x6E => some (.tagset d a b)
  | 0x6F => opt (b = 0) (.xlat d a)
  | 0x70 => (os b).bind fun p => opt (d = 0 ∧ a = 0) (.phase p.1 p.2)
  | 0x71 => opt (d = 0 ∧ imm < 4096) (.fence (imm / 64) (imm % 64))
  | 0x72 => (Scope.ofCode d).map (.arrive · a b)
  | 0x73 => (Scope.ofCode d).map (.await · a b)
  | 0x74 => (Scope.ofCode d).map (.arriveWait · a b)
  | 0x75 => opt (d = 0) (.bjoin a b)
  | 0x76 => opt (d = 0 ∧ b = 0) (.bleave a)
  | 0x77 => some (.waitaddr d a b)
  | 0x78 => opt (d = 0) (.wake a b)
  | 0x80 => (os b).map fun p => .amoAdd d a p.1 p.2
  | 0x81 => (os b).map fun p => .amoAnd d a p.1 p.2
  | 0x82 => (os b).map fun p => .amoOr d a p.1 p.2
  | 0x83 => (os b).map fun p => .amoXor d a p.1 p.2
  | 0x84 => (os b).map fun p => .amoMinI64 d a p.1 p.2
  | 0x85 => (os b).map fun p => .amoMinN64 d a p.1 p.2
  | 0x86 => (os b).map fun p => .amoMaxI64 d a p.1 p.2
  | 0x87 => (os b).map fun p => .amoMaxN64 d a p.1 p.2
  | 0x88 => (os b).map fun p => .amoSwap d a p.1 p.2
  | 0x89 => (os b).map fun p => .amoCas d a p.1 p.2
  | 0x90 => (os b).map fun p => .redAdd d a p.1 p.2
  | 0x91 => (os b).map fun p => .redAnd d a p.1 p.2
  | 0x92 => (os b).map fun p => .redOr d a p.1 p.2
  | 0x93 => (os b).map fun p => .redXor d a p.1 p.2
  | 0x94 => (os b).map fun p => .redMinI64 d a p.1 p.2
  | 0x95 => (os b).map fun p => .redMinN64 d a p.1 p.2
  | 0x96 => (os b).map fun p => .redMaxI64 d a p.1 p.2
  | 0x97 => (os b).map fun p => .redMaxN64 d a p.1 p.2
  | 0xA0 => some (.qinit d a b)
  | 0xA1 => some (.qpush d imm)
  | 0xA2 => some (.qpop d imm)
  | 0xB0 => opt (d = 0) (.launch a b)
  | 0xB1 => some (.spawn d a b)
  | 0xC0 => match b with
    | 0 => some (.mxLoad d a)
    | 1 => some (.mxStream d a)
    | 2 => some (.mxDist d a)
    | 3 => some (.mxMips d a)
    | _ => none
  | 0xC1 => match b with
    | 0 => some (.cpCopy d a)
    | 1 => some (.cpGather d a)
    | 2 => some (.cpScatter d a)
    | 3 => some (.cpTensor d a)
    | 4 => some (.cpFill d a)
    | _ => none
  | 0xC2 => match b with
    | 0 => some (.lvMax d a)
    | 1 => some (.lvSumexp d a)
    | 2 => some (.lvSoftmax d a)
    | 3 => some (.lvTopk d a)
    | 4 => some (.lvSample d a)
    | _ => none
  | 0xC3 => match b with
    | 0 => some (.rtOpen d a)
    | 1 => some (.rtRoute d a)
    | 2 => some (.rtReturn d a)
    | 3 => some (.rtctlBind d a)
    | _ => none
  | _ => none

/-- A lane word by its opcode in bits 95:86 (R48). -/
def laneFields (w : Nat) : Option Instr :=
  match w / 2 ^ 86 with
  | 0x001 => (laneAFields w).map .vadd
  | 0x002 => (laneAFields w).map .vsub
  | 0x003 => (laneAFields w).map .vmul
  | 0x004 => (laneAFields w).map .vmulh
  | 0x005 => (laneAFields w).map .vfma
  | 0x006 => (laneAFields w).map .vmin
  | 0x007 => (laneAFields w).map .vmax
  | 0x008 => (laneAFields w).map .vabs
  | 0x009 => (laneAFields w).map .vneg
  | 0x00A => (laneAFields w).map .vand
  | 0x00B => (laneAFields w).map .vor
  | 0x00C => (laneAFields w).map .vxor
  | 0x00D => (laneAFields w).map .vnot
  | 0x00E => (laneAFields w).map .vshl
  | 0x00F => (laneAFields w).map .vshr
  | 0x010 => (laneAFields w).map .vclz
  | 0x011 => (laneAFields w).map .vpopc
  | 0x020 => (laneAFields w).map .vcmpEq
  | 0x021 => (laneAFields w).map .vcmpNe
  | 0x022 => (laneAFields w).map .vcmpLt
  | 0x023 => (laneAFields w).map .vcmpLe
  | 0x024 => (laneAFields w).map .vcmpGt
  | 0x025 => (laneAFields w).map .vcmpGe
  | 0x026 => (laneAFields w).map .vcmpUn
  | 0x027 => (laneAFields w).map .vcmpOr
  | 0x030 => (laneAFields w).map .pand
  | 0x031 => (laneAFields w).map .por
  | 0x032 => (laneAFields w).map .pxor
  | 0x033 => (laneAFields w).map .pandn
  | 0x034 => (laneAFields w).map .pnot
  | 0x040 => (laneAFields w).map .vmov
  | 0x041 => (laneAFields w).map .vsel
  | 0x042 => (laneAFields w).map .mvs
  | 0x050 => (laneAFields w).map .vcvt
  | 0x051 => (laneAFields w).map .vpack
  | 0x052 => (laneAFields w).map .vunpack
  | 0x053 => (laneAFields w).map .vcbset
  | 0x054 => (laneAFields w).map .vcbw
  | 0x058 => (laneAFields w).map .vscacc
  | 0x080 => (laneAFields w).map .vrcp
  | 0x081 => (laneAFields w).map .vrsqrt
  | 0x082 => (laneAFields w).map .vsqrt
  | 0x083 => (laneAFields w).map .vexp2
  | 0x084 => (laneAFields w).map .vlog2
  | 0x085 => (laneAFields w).map .vsinpi
  | 0x086 => (laneAFields w).map .vcospi
  | 0x087 => (laneAFields w).map .vtanh
  | 0x0C0 => (laneAFields w).map .vperm
  | 0x0C1 => (laneAFields w).map .vpermX
  | 0x0C2 => (laneAFields w).map .vswap
  | 0x0C3 => (laneAFields w).map .vbcast
  | 0x0C4 => (laneAFields w).map .vredAdd
  | 0x0C5 => (laneAFields w).map .vredMin
  | 0x0C6 => (laneAFields w).map .vredMax
  | 0x0C7 => (laneAFields w).map .vscanAdd
  | 0x0C8 => (laneAFields w).map .vscanMin
  | 0x0C9 => (laneAFields w).map .vscanMax
  | 0x0CA => (laneAFields w).map .vballot
  | 0x0D0 => (laneAFields w).map .vrng
  | 0x100 => (laneMFields w).map .vldp
  | 0x101 => (laneMFields w).map .vstp
  | 0x102 => (laneMFields w).map .vlds
  | 0x103 => (laneMFields w).map .vsts
  | 0x104 => (laneMFields w).map .vld
  | 0x105 => (laneMFields w).map .vst
  | 0x106 => (laneMFields w).map .vldGspad
  | 0x107 => (laneMFields w).map .vstGspad
  | 0x140 => (laneMFields w).map .laneAmoAdd
  | 0x141 => (laneMFields w).map .laneAmoAnd
  | 0x142 => (laneMFields w).map .laneAmoOr
  | 0x143 => (laneMFields w).map .laneAmoXor
  | 0x144 => (laneMFields w).map .laneAmoMin
  | 0x145 => (laneMFields w).map .laneAmoMax
  | 0x146 => (laneMFields w).map .laneAmoSwap
  | 0x147 => (laneMFields w).map .laneAmoCas
  | 0x148 => (laneMFields w).map .laneAmoFadd
  | 0x150 => (laneMFields w).map .laneRedAdd
  | 0x151 => (laneMFields w).map .laneRedAnd
  | 0x152 => (laneMFields w).map .laneRedOr
  | 0x153 => (laneMFields w).map .laneRedXor
  | 0x154 => (laneMFields w).map .laneRedMin
  | 0x155 => (laneMFields w).map .laneRedMax
  | 0x156 => (laneMFields w).map .laneRedFadd
  | 0x180 => (laneAFields w).map .vpop
  | 0x181 => (laneAFields w).map .vexit
  | 0x182 => (laneAFields w).map .xch
  | _ => none

/-- An instruction that passes the word-only checks. -/
def guardLegal (i : Instr) : Option Instr := if i.legal then some i else none

/-- The scalar word `w` of 32 bits. -/
def decodeScalar (w : Nat) : Option Instr :=
  (scalarFields (w / 2 ^ 24) (w / 2 ^ 15 % 512) (w / 2 ^ 6 % 512) (w % 64) (w % 2 ^ 15) (w % 2 ^ 24)).bind guardLegal

/-- The lane word `w` of 96 bits. -/
def decodeLane (w : Nat) : Option Instr := (laneFields w).bind guardLegal

/-- Why bytes are no instruction. -/
inductive Reject where
  /-- Fewer bytes than a word has. -/
  | tooShort
  /-- The illegal-instruction trap of R50 and R51. -/
  | illegalInstruction
deriving DecidableEq, Repr

/-- The number that little-endian bytes hold (R7). -/
def ofBytes : List Byte → Nat
  | [] => 0
  | b :: bs => b.toNat + 256 * ofBytes bs

/-- The `n` little-endian bytes of a number (R7). -/
def toBytes : Nat → Nat → List Byte
  | 0, _ => []
  | n + 1, v => BitVec.ofNat 8 v :: toBytes n (v / 256)

/-- A scalar word from its 4 bytes (R14), with the bytes after it. -/
def decodeScalarBytes (bs : List Byte) : Except Reject (Instr × List Byte) :=
  if bs.length < 4 then .error .tooShort
  else match decodeScalar (ofBytes (bs.take 4)) with
    | some i => .ok (i, bs.drop 4)
    | none => .error .illegalInstruction

/-- A lane word from its 12 bytes (R14), with the bytes after it. -/
def decodeLaneBytes (bs : List Byte) : Except Reject (Instr × List Byte) :=
  if bs.length < 12 then .error .tooShort
  else match decodeLane (ofBytes (bs.take 12)) with
    | some i => .ok (i, bs.drop 12)
    | none => .error .illegalInstruction

/-- The instruction of a row of the opcode table: rows of at most 32 bits are scalar words (R14). -/
def decodeTableWord (nbits w : Nat) : Option Instr :=
  match if nbits ≤ 32 then decodeScalarBytes (toBytes 4 w) else decodeLaneBytes (toBytes 12 w) with
  | .ok (i, _) => some i
  | .error _ => none

/-! ## Encoding -/

/-- An SR or SM word (R32). -/
def wSR (op d a b : Nat) : Nat := op * 2 ^ 24 + d * 2 ^ 15 + a * 2 ^ 6 + b

/-- An SI word (R32). -/
def wSI (op d imm : Nat) : Nat := op * 2 ^ 24 + d * 2 ^ 15 + imm

/-- An SB word (R32). -/
def wSB (op a off : Nat) : Nat := op * 2 ^ 24 + a * 2 ^ 15 + off

/-- An SJ word (R32). -/
def wSJ (op off : Nat) : Nat := op * 2 ^ 24 + off

/-- An SX word (R32). -/
def wSX (op a b x : Nat) : Nat := op * 2 ^ 24 + a * 2 ^ 15 + b * 2 ^ 6 + x

/-- A lane word in layout A (R36, R40). -/
def LaneA.word (l : LaneA) (op : Nat) : Nat :=
  op * 2 ^ 86 + l.pred * 2 ^ 80 + l.neg.toNat * 2 ^ 79 + l.d * 2 ^ 70 + l.a * 2 ^ 61 + l.b * 2 ^ 52
    + l.c * 2 ^ 43 + l.ty.code * 2 ^ 38 + l.im.toNat * 2 ^ 37 + l.ftz.toNat * 2 ^ 36 + l.sat.toNat * 2 ^ 35
    + l.rnd.code * 2 ^ 32 + l.imm

/-- A lane word in layout M (R36, R40, R42). -/
def LaneM.word (l : LaneM) (op : Nat) : Nat :=
  op * 2 ^ 86 + l.pred * 2 ^ 80 + l.neg.toNat * 2 ^ 79 + l.d * 2 ^ 70 + l.a * 2 ^ 61 + l.b * 2 ^ 52
    + l.c * 2 ^ 43 + l.ty.code * 2 ^ 38 + osField l.ord l.sc * 2 ^ 32 + l.imm

/-- The word of an instruction, 32 bits for a scalar one and 96 for a lane one; an event has none. -/
def encodeWord : Instr → Option Nat
  | .nop => some (wSJ 0x01 0)
  | .yield => some (wSJ 0x02 0)
  | .exit => some (wSJ 0x03 0)
  | .trap n => some (wSI 0x04 0 n)
  | .xretRedo => some (wSJ 0x05 0)
  | .xretSkip => some (wSJ 0x06 0)
  | .settv off => some (wSJ 0x07 (low 24 off))
  | .sleep d imm => some (wSI 0x08 d imm)
  | .mfs d r => some (wSI 0x09 d r.number)
  | .mts d r => some (wSI 0x0A d r.number)
  | .wait d imm => some (wSI 0x0B d imm)
  | .add d a b => some (wSR 0x10 d a b)
  | .sub d a b => some (wSR 0x11 d a b)
  | .mul d a b => some (wSR 0x12 d a b)
  | .mulhI64 d a b => some (wSR 0x13 d a b)
  | .mulhN64 d a b => some (wSR 0x14 d a b)
  | .divI64 d a b => some (wSR 0x15 d a b)
  | .divN64 d a b => some (wSR 0x16 d a b)
  | .remI64 d a b => some (wSR 0x17 d a b)
  | .remN64 d a b => some (wSR 0x18 d a b)
  | .and d a b => some (wSR 0x19 d a b)
  | .or d a b => some (wSR 0x1A d a b)
  | .xor d a b => some (wSR 0x1B d a b)
  | .shl d a b => some (wSR 0x1C d a b)
  | .shrN64 d a b => some (wSR 0x1D d a b)
  | .shrI64 d a b => some (wSR 0x1E d a b)
  | .minI64 d a b => some (wSR 0x1F d a b)
  | .minN64 d a b => some (wSR 0x20 d a b)
  | .maxI64 d a b => some (wSR 0x21 d a b)
  | .maxN64 d a b => some (wSR 0x22 d a b)
  | .clz d a => some (wSR 0x23 d a 0)
  | .popc d a => some (wSR 0x24 d a 0)
  | .seq d a b => some (wSR 0x25 d a b)
  | .sne d a b => some (wSR 0x26 d a b)
  | .sltI64 d a b => some (wSR 0x27 d a b)
  | .sltN64 d a b => some (wSR 0x28 d a b)
  | .sleI64 d a b => some (wSR 0x29 d a b)
  | .sleN64 d a b => some (wSR 0x2A d a b)
  | .scadd2 d a b => some (wSR 0x2B d a b)
  | .scadd4 d a b => some (wSR 0x2C d a b)
  | .scadd8 d a b => some (wSR 0x2D d a b)
  | .scadd16 d a b => some (wSR 0x2E d a b)
  | .addi d imm => some (wSI 0x30 d (low 15 imm))
  | .muli d imm => some (wSI 0x31 d (low 15 imm))
  | .andi d imm => some (wSI 0x32 d (low 15 imm))
  | .ori d imm => some (wSI 0x33 d (low 15 imm))
  | .xori d imm => some (wSI 0x34 d (low 15 imm))
  | .shli d imm => some (wSI 0x35 d imm)
  | .shriN64 d imm => some (wSI 0x36 d imm)
  | .shriI64 d imm => some (wSI 0x37 d imm)
  | .sltiI64 d imm => some (wSI 0x38 d (low 15 imm))
  | .sltiN64 d imm => some (wSI 0x39 d (low 15 imm))
  | .seqi d imm => some (wSI 0x3A d (low 15 imm))
  | .movi d imm => some (wSI 0x3B d (low 15 imm))
  | .lim d imm => some (wSI 0x3C d imm)
  | .adr d imm => some (wSI 0x3D d (low 15 imm))
  | .lblk d imm => some (wSI 0x3E d imm)
  | .j off => some (wSJ 0x40 (low 24 off))
  | .call off => some (wSJ 0x41 (low 24 off))
  | .ret => some (wSJ 0x42 0)
  | .jr a off => some (wSB 0x43 a (low 15 off))
  | .callr a off => some (wSB 0x44 a (low 15 off))
  | .bz a off => some (wSB 0x45 a (low 15 off))
  | .bnz a off => some (wSB 0x46 a (low 15 off))
  | .bltz a off => some (wSB 0x47 a (low 15 off))
  | .bgez a off => some (wSB 0x48 a (low 15 off))
  | .bgtz a off => some (wSB 0x49 a (low 15 off))
  | .blez a off => some (wSB 0x4A a (low 15 off))
  | .callv t => some (wSB 0x4B t 0)
  | .lrun a b => some (wSX 0x50 a b 0)
  | .lwait n => some (wSI 0x51 0 n)
  | .chpub => some (wSJ 0x54 0)
  | .chsub tag a b => some (wSR 0x55 tag a b)
  | .chleave tag off => some (wSB 0x56 tag (low 15 off))
  | .rdv tag a => some (wSR 0x57 tag a 0)
  | .ldsI8 d a off => some (wSR 0x60 d a off)
  | .ldsN8 d a off => some (wSR 0x61 d a off)
  | .ldsI16 d a off => some (wSR 0x62 d a off)
  | .ldsN16 d a off => some (wSR 0x63 d a off)
  | .ldsI32 d a off => some (wSR 0x64 d a off)
  | .ldsN32 d a off => some (wSR 0x65 d a off)
  | .lds64 d a off => some (wSR 0x66 d a off)
  | .sts8 d a off => some (wSR 0x67 d a off)
  | .sts16 d a off => some (wSR 0x68 d a off)
  | .sts32 d a off => some (wSR 0x69 d a off)
  | .sts64 d a off => some (wSR 0x6A d a off)
  | .ldfe d a off => some (wSR 0x6B d a off)
  | .stfe d a off => some (wSR 0x6C d a off)
  | .ldf d a off => some (wSR 0x6D d a off)
  | .tagset d a off => some (wSR 0x6E d a off)
  | .xlat d a => some (wSR 0x6F d a 0)
  | .phase ord sc => some (wSR 0x70 0 0 (osField ord sc))
  | .fence pred succ => some (wSI 0x71 0 (pred * 64 + succ))
  | .arrive sc a b => some (wSR 0x72 sc.code a b)
  | .await sc a b => some (wSR 0x73 sc.code a b)
  | .arriveWait sc a b => some (wSR 0x74 sc.code a b)
  | .bjoin a b => some (wSR 0x75 0 a b)
  | .bleave a => some (wSR 0x76 0 a 0)
  | .waitaddr d a b => some (wSR 0x77 d a b)
  | .wake a b => some (wSR 0x78 0 a b)
  | .amoAdd d a ord sc => some (wSR 0x80 d a (osField ord sc))
  | .amoAnd d a ord sc => some (wSR 0x81 d a (osField ord sc))
  | .amoOr d a ord sc => some (wSR 0x82 d a (osField ord sc))
  | .amoXor d a ord sc => some (wSR 0x83 d a (osField ord sc))
  | .amoMinI64 d a ord sc => some (wSR 0x84 d a (osField ord sc))
  | .amoMinN64 d a ord sc => some (wSR 0x85 d a (osField ord sc))
  | .amoMaxI64 d a ord sc => some (wSR 0x86 d a (osField ord sc))
  | .amoMaxN64 d a ord sc => some (wSR 0x87 d a (osField ord sc))
  | .amoSwap d a ord sc => some (wSR 0x88 d a (osField ord sc))
  | .amoCas d a ord sc => some (wSR 0x89 d a (osField ord sc))
  | .redAdd d a ord sc => some (wSR 0x90 d a (osField ord sc))
  | .redAnd d a ord sc => some (wSR 0x91 d a (osField ord sc))
  | .redOr d a ord sc => some (wSR 0x92 d a (osField ord sc))
  | .redXor d a ord sc => some (wSR 0x93 d a (osField ord sc))
  | .redMinI64 d a ord sc => some (wSR 0x94 d a (osField ord sc))
  | .redMinN64 d a ord sc => some (wSR 0x95 d a (osField ord sc))
  | .redMaxI64 d a ord sc => some (wSR 0x96 d a (osField ord sc))
  | .redMaxN64 d a ord sc => some (wSR 0x97 d a (osField ord sc))
  | .qinit d a b => some (wSR 0xA0 d a b)
  | .qpush d imm => some (wSI 0xA1 d imm)
  | .qpop d imm => some (wSI 0xA2 d imm)
  | .launch a b => some (wSR 0xB0 0 a b)
  | .spawn d a b => some (wSR 0xB1 d a b)
  | .mxLoad a b => some (wSX 0xC0 a b 0)
  | .mxStream a b => some (wSX 0xC0 a b 1)
  | .mxDist a b => some (wSX 0xC0 a b 2)
  | .mxMips a b => some (wSX 0xC0 a b 3)
  | .cpCopy a b => some (wSX 0xC1 a b 0)
  | .cpGather a b => some (wSX 0xC1 a b 1)
  | .cpScatter a b => some (wSX 0xC1 a b 2)
  | .cpTensor a b => some (wSX 0xC1 a b 3)
  | .cpFill a b => some (wSX 0xC1 a b 4)
  | .lvMax a b => some (wSX 0xC2 a b 0)
  | .lvSumexp a b => some (wSX 0xC2 a b 1)
  | .lvSoftmax a b => some (wSX 0xC2 a b 2)
  | .lvTopk a b => some (wSX 0xC2 a b 3)
  | .lvSample a b => some (wSX 0xC2 a b 4)
  | .rtOpen a b => some (wSX 0xC3 a b 0)
  | .rtRoute a b => some (wSX 0xC3 a b 1)
  | .rtReturn a b => some (wSX 0xC3 a b 2)
  | .rtctlBind a b => some (wSX 0xC3 a b 3)
  | .rtctlUnbind a b => some (wSX 0xC3 a b 3)
  | .rtctlHoldSet a b => some (wSX 0xC3 a b 3)
  | .rtctlHoldClear a b => some (wSX 0xC3 a b 3)
  | .rtctlReadySet a b => some (wSX 0xC3 a b 3)
  | .rtctlReadyClear a b => some (wSX 0xC3 a b 3)
  | .rtctlConsume a b => some (wSX 0xC3 a b 3)
  | .rtctlFlush a b => some (wSX 0xC3 a b 3)
  | .vadd l => some (l.word 0x001)
  | .vsub l => some (l.word 0x002)
  | .vmul l => some (l.word 0x003)
  | .vmulh l => some (l.word 0x004)
  | .vfma l => some (l.word 0x005)
  | .vmin l => some (l.word 0x006)
  | .vmax l => some (l.word 0x007)
  | .vabs l => some (l.word 0x008)
  | .vneg l => some (l.word 0x009)
  | .vand l => some (l.word 0x00A)
  | .vor l => some (l.word 0x00B)
  | .vxor l => some (l.word 0x00C)
  | .vnot l => some (l.word 0x00D)
  | .vshl l => some (l.word 0x00E)
  | .vshr l => some (l.word 0x00F)
  | .vclz l => some (l.word 0x010)
  | .vpopc l => some (l.word 0x011)
  | .vcmpEq l => some (l.word 0x020)
  | .vcmpNe l => some (l.word 0x021)
  | .vcmpLt l => some (l.word 0x022)
  | .vcmpLe l => some (l.word 0x023)
  | .vcmpGt l => some (l.word 0x024)
  | .vcmpGe l => some (l.word 0x025)
  | .vcmpUn l => some (l.word 0x026)
  | .vcmpOr l => some (l.word 0x027)
  | .pand l => some (l.word 0x030)
  | .por l => some (l.word 0x031)
  | .pxor l => some (l.word 0x032)
  | .pandn l => some (l.word 0x033)
  | .pnot l => some (l.word 0x034)
  | .vmov l => some (l.word 0x040)
  | .vsel l => some (l.word 0x041)
  | .mvs l => some (l.word 0x042)
  | .vcvt l => some (l.word 0x050)
  | .vpack l => some (l.word 0x051)
  | .vunpack l => some (l.word 0x052)
  | .vcbset l => some (l.word 0x053)
  | .vcbw l => some (l.word 0x054)
  | .vscacc l => some (l.word 0x058)
  | .vrcp l => some (l.word 0x080)
  | .vrsqrt l => some (l.word 0x081)
  | .vsqrt l => some (l.word 0x082)
  | .vexp2 l => some (l.word 0x083)
  | .vlog2 l => some (l.word 0x084)
  | .vsinpi l => some (l.word 0x085)
  | .vcospi l => some (l.word 0x086)
  | .vtanh l => some (l.word 0x087)
  | .vperm l => some (l.word 0x0C0)
  | .vpermX l => some (l.word 0x0C1)
  | .vswap l => some (l.word 0x0C2)
  | .vbcast l => some (l.word 0x0C3)
  | .vredAdd l => some (l.word 0x0C4)
  | .vredMin l => some (l.word 0x0C5)
  | .vredMax l => some (l.word 0x0C6)
  | .vscanAdd l => some (l.word 0x0C7)
  | .vscanMin l => some (l.word 0x0C8)
  | .vscanMax l => some (l.word 0x0C9)
  | .vballot l => some (l.word 0x0CA)
  | .vrng l => some (l.word 0x0D0)
  | .vldp l => some (l.word 0x100)
  | .vstp l => some (l.word 0x101)
  | .vlds l => some (l.word 0x102)
  | .vsts l => some (l.word 0x103)
  | .vld l => some (l.word 0x104)
  | .vst l => some (l.word 0x105)
  | .vldGspad l => some (l.word 0x106)
  | .vstGspad l => some (l.word 0x107)
  | .laneAmoAdd l => some (l.word 0x140)
  | .laneAmoAnd l => some (l.word 0x141)
  | .laneAmoOr l => some (l.word 0x142)
  | .laneAmoXor l => some (l.word 0x143)
  | .laneAmoMin l => some (l.word 0x144)
  | .laneAmoMax l => some (l.word 0x145)
  | .laneAmoSwap l => some (l.word 0x146)
  | .laneAmoCas l => some (l.word 0x147)
  | .laneAmoFadd l => some (l.word 0x148)
  | .laneRedAdd l => some (l.word 0x150)
  | .laneRedAnd l => some (l.word 0x151)
  | .laneRedOr l => some (l.word 0x152)
  | .laneRedXor l => some (l.word 0x153)
  | .laneRedMin l => some (l.word 0x154)
  | .laneRedMax l => some (l.word 0x155)
  | .laneRedFadd l => some (l.word 0x156)
  | .vpop l => some (l.word 0x180)
  | .vexit l => some (l.word 0x181)
  | .xch l => some (l.word 0x182)
  | _ => none

/-- The lane words are those in layouts A and M (R48). -/
def Instr.isLane (i : Instr) : Bool :=
  match encodeWord i with
  | some w => decide (2 ^ 86 ≤ w)
  | none => false

/-- The bytes of an instruction as memory holds them (R14); none for an event. -/
def encode (i : Instr) : List Byte :=
  match encodeWord i with
  | some w => toBytes (if i.isLane then 12 else 4) w
  | none => []

end Sys2Proof
end

