-- ==== Sys2Proof/Config.lean ====
section
/-! DEFINITION. What one module fixes and the values the manual leaves open: constants without a body,
so that no proof can see what they are (log 2, 5, 6, 7). -/

namespace Sys2Proof.Config

/-- Whether the read numbered `fresh` of the unit numbered `unit` sees a result in flight or what was there
before it (R115 allows either; log 2). -/
opaque seesNew (fresh unit : Nat) : Bool

/-- A choice numbered `fresh` among things the manual does not order (log 1). -/
opaque pick (fresh : Nat) : Nat

/-- Whether look-up `n` of a home slice misses (R247; log 54). -/
opaque sliceMisses (n : Nat) : Bool

/-- Which of the results within the bound of R184 a special function gives: it depends on the function,
the type, `.ftz` and the input bits alone (R184; log 5). -/
opaque specialPick (fn ty : Nat) (ftz : Bool) (bits : Nat) : Nat

/-- Byte `i` of the native code the Ozzer translator makes of function `fn` of consignment `cid`, placed at physical address `at_`: its
references to other functions are to the stubs, whose addresses it is given by function (R27; log 6). -/
opaque nativeByte (cid fn at_ : Nat) (stubs : List (Nat × Nat)) (i : Nat) : Byte

/-- How many bytes of native code that function takes in the code heap (R27; log 6). -/
opaque nativeSize (cid fn : Nat) : Nat

/-- The virtual address at which an address space has the code heap (R27; log 6). -/
opaque heapVa (aspace : Nat) : Nat

/-- The place in HBM of a consignment's own copy of `.data` (R15; log 6). -/
opaque dataPlace (cid : Nat) : Nat

/-- Whether an ML-DSA-65 signature verifies under a public key over a digest (FIPS 204, R412; log 7). -/
opaque mldsaVerifies (key digest signature : List Byte) : Bool

/-- Byte `i` of the signature that Dwenath's identity key makes over a report (R413; log 7). -/
opaque signByte (report : List Byte) (i : Nat) : Byte

/-- Byte `i` of Dwenath's identity public key (R413; log 7). -/
opaque identityByte (i : Nat) : Byte

/-- The SHAKE256 digest of the accepted public key, held in fuses (R412; log 7). -/
opaque fusedKeyDigest : List Byte

/-- The fused security-version counter (R412; log 7). -/
opaque fusedVersion : Nat

/-- The module's serial number (R413; log 7). -/
opaque serialNumber : List Byte

/-- How many bytes of the save area lie unused before the context of entry `i` of save number `n`: R373 gives its items and no layout (R401;
log 7). -/
opaque contextGap (n i : Nat) : Nat

/-- How many bytes that context takes (R373, R401; log 7). -/
opaque contextSize (n i : Nat) : Nat

/-- Byte `j` of that context (R373, R400; log 7). -/
opaque contextByte (n i j : Nat) : Byte

/-- The number on die `die` of the router through which packets leave for die `next`, or for I/O die `next` - 4 (R345; log 36): a free value. -/
opaque bridgeRouter (die next : Nat) : Nat

end Sys2Proof.Config
end

