-- ==== Sys2Proof/Machine/State.lean ====
section
/-! DEFINITION. The state of one GX7 module: everything the manual gives it, as plain data.
A list of (number, record) pairs stands for an array of which only the entries that differ from the
reset record are listed; it is kept in ascending order of its numbers. -/

namespace Sys2Proof.Machine

/-- An array by number, sparse, in ascending order. -/
abbrev Arr (α : Type) := List (Nat × α)

/-! ## Waves -/

/-- The footprint record of R17. -/
structure Footprint where
  regs  : Nat
  acc   : Nat
  sregs : Nat
  priv  : Nat
  spad  : Nat
  stack : Nat
deriving DecidableEq, Repr

/-- A block in a lane queue (R82). `pos` counts the words issued; `id` numbers it among the module's operations. -/
structure LBlock where
  id    : Nat
  start : Nat
  count : Nat
  c0    : W32
  c1    : W32
  c2    : W32
  mask  : Word
  pos   : Nat
deriving DecidableEq, Repr

/-- Where a result lands (R114, R115). `vreg` and `spad` write, in each listed lane, the bits of `fld` (R171). -/
inductive Dest where
  | sreg (n : Nat) (v : Word)
  | vreg (n : Nat) (fld : W32) (vals : List (Nat × W32))
  | pred (n : Nat) (lanes v : Word)
  | cbook (n : Nat) (v : BitVec 256)
  | special (r : SpecialReg) (v : Word)
  | priv (bytes : List Host.Cell)
  | spad (key : Nat) (fld : W32) (vals : List (Nat × W32))
  | nothing
deriving DecidableEq, Repr

/-- A result in flight (R114): `due` is its landing cycle on the band's clock, `flags` what it raises
(R149), `raised` the lanes that raised an enabled exception (R150). -/
structure Landing where
  due    : Nat
  lane   : Bool
  seq    : Nat
  blk    : Option Nat
  dest   : Dest
  flags  : BitVec 5
  raised : Word
  trig   : BitVec 5
  lpcAt  : Nat
deriving DecidableEq, Repr

/-- What a variable-latency operation writes when its data arrives (R119). `sreg` is a scalar load of
`size` bytes, sign-extended when `signed`; `slot` is a scratchpad ring slot, by its storage key, and
`pipe` a pipe's slot, which the store operation `st` writes (R119, R129). -/
inductive OpDest where
  | none
  | sreg (n size : Nat) (signed : Bool)
  | vreg (n : Nat)
  | slot (key : Nat)
  | pipe (key st : Nat)
  | vals (d : Dest)
deriving DecidableEq, Repr

/-- The counters of R119. -/
inductive Ctr where
  | ld | st | sf | en | xc
deriving DecidableEq, Repr

/-- An operation that has issued and has not retired (R119). `need` counts the parts not yet done, `blk` is the
lane block it came from, `acq` an acquire it still performs (R296), `cov` that an `lwait` has covered its block (R84),
`spc` and `lpc` where it issued, `failed` the lanes answered with an error, with their addresses and whether it was an uncorrectable
error (R246, R253); `far` counts those of its open parts that lie in the host and peer windows (R230), and `aim` is the
register that an `xch` will write (R118); `lanes` are the lanes of a vector destination that are still to be written. -/
structure OutOp where
  id    : Nat
  ctr   : Ctr
  need  : Nat
  blk   : Option Nat
  dest  : OpDest
  acq   : Option Scope
  flags : BitVec 5
  cov   : Bool
  spc   : Nat
  lpc   : Nat
  failed : List (Nat × Nat × Bool)
  far    : Nat
  aim    : Option Nat
  lanes  : Word
deriving DecidableEq, Repr

/-- One end of a pipe (R122). -/
inductive PipeEnd where
  | none | producer (partner : Nat) (ring : Nat) | consumer (partner : Nat) (ring : Nat)
deriving DecidableEq, Repr

/-- A valid ring handle (R122). `head`, `tail` and `filled` count slots; `e` is E, the engine commands that reply here.
`pushes` and `pops` are the reports of R129 on their way to the other end; `own` are the slots that `qpush` published in the cycle of
`Wave.ringsAt`, and `made` says that `qinit` made the handle in it (R130). -/
structure Ring where
  scratch : Bool
  base    : Nat
  slots   : Nat
  head    : Nat
  tail    : Nat
  filled  : Nat
  e       : Nat
  pipe    : PipeEnd
  pushes  : Nat
  pops    : Nat
  own     : Nat
  made    : Bool
deriving DecidableEq, Repr

/-- The bits of a leaf entry other than FRAME (R232). -/
structure PageAttr where
  r    : Bool
  w    : Bool
  x    : Bool
  tier : Nat
  fe   : Bool
  pl   : Nat
  hd   : Nat
  hs   : Nat
  s64  : Bool
deriving DecidableEq, Repr

/-- A valid translation register (R237). -/
structure TReg where
  base  : Word
  frame : Nat
  limit : Nat
  attr  : PageAttr
deriving DecidableEq, Repr

/-- The tag of an accumulator row (R215): the class of each column in two bits, ER, ADJ and SEL. -/
structure RowTag where
  cls : BitVec 128
  er  : Int
  adj : Int
  sel : Bool
deriving DecidableEq, Repr

/-- Kinds of return-stack entries (R87). -/
inductive RetKind where
  | call | frame | round
deriving DecidableEq, Repr

/-- A return-stack entry (R87). -/
structure RetEntry where
  kind : RetKind
  addr : Nat
  mask : Word
deriving DecidableEq, Repr

/-- An entry of the membership list (R280). -/
structure Member where
  addr    : Word
  count   : Nat
  arrived : Bool
  phase   : Bool
deriving DecidableEq, Repr

/-- One lane's access to memory: where its bytes lie (a storage key), the virtual address it came from and its data;
a store leaves the bits of `data2` as they were. -/
structure Acc where
  lane  : Nat
  key   : Nat
  va    : Nat
  data  : Word
  data2 : Word
deriving DecidableEq, Repr

/-- What a memory instruction does at the home (R252, R258, R273, R274, R286). -/
inductive MemKind where
  | load
  | store
  | amo (op : AmoOp)
  | red (op : AmoOp)
  | ldfe | ldf | stfe
  | tagset (full : Bool)
deriving DecidableEq, Repr

/-- An entry of the operand log (R243). -/
structure LogEntry where
  op     : Nat
  lanePc : Bool
  spc    : Nat
  lpc    : Nat
  kind   : MemKind
  size   : Nat
  tag    : Bool
  lanes  : List Acc
deriving DecidableEq, Repr

/-- A fence still in force (R298): the classes that wait, the operations and commands they wait for (for a command,
whether its writes count and whether its reads do), the cycle at which the accumulator rows written before it have
landed, and its own number: lane words of blocks with greater numbers wait. -/
structure FenceRec where
  succ : BitVec 6
  ops  : List Nat
  cmds : List (Nat × Bool × Bool)
  rows : Nat
  id   : Nat
deriving DecidableEq, Repr

/-- An engine command of the wave whose accesses are not all complete (R299). -/
structure CmdRec where
  id     : Nat
  matrix : Bool
  reads  : Bool
  writes : Bool
deriving DecidableEq, Repr

/-- An asynchronous trap held until its boundary (R361). -/
structure HeldTrap where
  code : Nat
  lane : Bool
  addr : Word
  mask : Word
  trig : BitVec 5
  lpc  : Option Nat
deriving DecidableEq, Repr

/-- What holds a wave's scalar stream after the word that parked it (R108, R109): a barrier wait (R278) with its
scope, its register, the barrier's address, the request that waits and, once known, the phase it waits to leave; an acquire that completes
a wait; an address wait (R283) with its node and its deadline in ticks; a channel, a rendezvous, a `launch` (R71),
a `spawn` (R72), `sleep` (R394), an atomic with `.acq` (R296), an engine command held at the core (R187), a
translation (R29), an `xlat` (R238), or a page fault (R241, R278), of the lane stream's own fetch when `lane`. -/
inductive Park where
  | none
  | barrier (sc : Scope) (b : Nat) (va : Nat) (op : Nat) (phase : Option Bool)
  | acquire (sc : Scope)
  | address (d key node : Nat) (op : Nat) (deadline : Option Nat)
  | channel
  | rdvLead (tag : Nat) (deadline : Option Nat) (watch : List Nat)
  | rdvMember (tag : Nat) (deadline : Option Nat)
  | launch (op q : Nat) (manifest : List Byte)
  | spawn (d count entry : Nat) (arg : Word)
  | sleep (deadline : Nat)
  | atomic (op : Nat) (sc : Scope)
  | inbox (cmd : Nat)
  | translate (fn : Nat)
  | xlat
  | pageFault (lane : Bool) (va : Nat)
deriving DecidableEq, Repr

/-- A source operand as a lane word meets it (R37). -/
inductive Src where
  | reg (r : Nat)
  | spad (key : Nat)
  | cap (v : W32)
  | lid
  | zero
  | imm (v : W32)
deriving DecidableEq, Repr

/-- What a width convoy's lead still reads for a `vperm.x` that it has issued: the number of its result, the active lanes, and its sources
(R178). -/
structure PermX where
  seq : Nat
  act : Word
  a   : Src
  b   : Src
  x   : Src
deriving DecidableEq, Repr

/-- A published instruction (R95). `outcome` is the lead's next scalar PC, `kind` the kind its `ret` met,
`block` the start and count of its `lrun`, `cycle` its issue cycle; `due` is the cycle on the member's own clock in which its skew has passed
(R6, R96); `taken` says that its branch was taken, or that its `callv` round had lanes left (R98). -/
structure Pub where
  lane    : Bool
  word    : Nat
  pc      : Nat
  outcome : Nat
  kind    : Option RetKind
  block   : Option (Nat × Nat)
  cycle   : Nat
  due     : Nat
  taken   : Bool
deriving DecidableEq, Repr

/-- A wave's part in a convoy on a channel (R91-R105). -/
inductive Role where
  | none
  | lead
  | pending (chan tag : Nat) (mask : Word)
  | member (chan : Nat)
  | departed (chan : Nat)
  | lost
deriving DecidableEq, Repr

/-- Convoy state of a wave (R93-R104). `hops` and `fifo` hold published instructions (R97); `report` is how many it
has issued and `reported` how many the lead knows of (R101). `lastPub` holds the lead's and the wave's own cycle of the
published instruction that it issued last (R117). `leaving` and `arriving` are a departure and an arrival on their way to the
split table: address, tag and the cycle of their arrival there. `trapAt` is a lead's trapping word, whose re-issue is not
published (R95), `gather` the source lanes that a `vperm.x` of the convoy reads, by logical lane, and `permX` one whose sources are still to be read
(R178). `gen` is the number of the lead's publication
that the wave joined (R103). -/
structure Convoy where
  role     : Role
  homeTag  : Nat
  hops     : List Pub
  fifo     : List Pub
  skew     : Nat
  issued   : Nat
  reported : Nat
  leaving  : Option (Nat × Nat × Nat)
  arriving : Option (Nat × Nat × Nat)
  width    : Option (Nat × Nat × Nat)
  lastPub  : Option (Nat × Nat)
  trapAt   : Option (Bool × Nat)
  gather   : List (Nat × W32)
  permX    : Option PermX
  gen      : Nat
deriving DecidableEq, Repr

/-- Registers of a wave (R33, R37, R70): absent entries are zero. Vector slice (r, l) has number 64 r + l. -/
structure Regs where
  s    : Arr Word
  v    : Arr W32
  p    : Arr Word
  cb   : Arr (BitVec 256)
  tags : Arr RowTag
  priv : List Host.Cell
deriving DecidableEq, Repr

/-- The trap and control registers of a wave (R147, R148, R160, R358-R367). -/
structure Ctl where
  fpctl   : BitVec 5
  fpflags : BitVec 13
  xcause  : Word
  xmask   : Word
  xspc    : Word
  xlpc    : BitVec 24
  xaddr   : Word
  handler : Option Nat
  hmode   : Bool
  held    : List HeldTrap
  bps     : Arr Breakpoint
  trapBlk : Option (Option Nat × Nat × Nat)
deriving DecidableEq, Repr

/-- Whether a wave issues, and why not (R74, R369, R372, R377, R390): `halted` is pre-empted or at its honour point, `parked` shed,
`restored` waits for the rest of its convoy or for the commands moved with it; `exiting` waits for acknowledgements before it stops,
`draining` has stopped; both say whether it was killed. -/
inductive Life where
  | clearing | running | halted | parked | restored
  | exiting (killed : Bool)
  | draining (killed : Bool)
deriving DecidableEq, Repr

/-- What the scalar word issued last was, where that makes a boundary of R376 or R390: an `arrive` or `arrive.wait`, or a `phase`. -/
inductive Edge where
  | none | arrive | phase
deriving DecidableEq, Repr

/-- Why a stream's next word did not issue when it was tried: not at all, a stall of R108, a convoy wait for the next published
instruction (R96), or a long-latency dependence of R109. -/
inductive Hold where
  | none | stall | stream | long
deriving DecidableEq, Repr

/-- Scheduling state of a wave (R108-R111). Cycles are on the band's clock. `readyS` and `readyL` are the earliest
cycles of the next issue of each stream, `nS` and `nL` count the words issued, and `spill` is the cycle in which the stall of a
return-stack spill or refill ends (R88, R382). -/
structure Sched where
  active   : Bool
  entered  : Nat
  waiting  : Nat
  lastS    : Nat
  lastL    : Nat
  readyS   : Nat
  readyL   : Nat
  holdS    : Hold
  holdL    : Hold
  nS       : Nat
  nL       : Nat
  spill    : Option Nat
deriving DecidableEq, Repr

/-- A resident wave. Its number in `State.waves` is physical core × 96 + wave slot. `rings0` are the ring handles as they stood at the
start of cycle `ringsAt`, the last in which one changed (R130), and `safeAt` are the live registers of the safe point at which it stopped
(R22). `landed` are the results that have landed, with those of the present cycle among them (R116), and `under` is the park of the scalar
stream that a trap of the lane stream has interrupted (R364). -/
structure Wave where
  cid      : Nat
  lcore    : Nat
  wid      : Nat
  depth    : Nat
  width    : Nat
  fp       : Footprint
  sbase    : Nat
  pipeRun  : Option (Nat × Nat)
  pclass   : Nat
  launched : Word
  exited   : Word
  lmask    : Word
  spc      : Nat
  lpc      : Nat
  regs     : Regs
  ctl      : Ctl
  laneQ    : List LBlock
  handQ    : List LBlock
  ops      : List OutOp
  pend     : List Landing
  landed   : List Landing
  rings    : Arr Ring
  rings0   : Arr Ring
  ringsAt  : Option Nat
  tbs      : Arr TReg
  stack    : List RetEntry
  spilled  : Nat
  members  : List Member
  acks     : List Word
  oplog    : List LogEntry
  fences   : List FenceRec
  cmds     : List CmdRec
  park     : Park
  under    : Park
  convoy   : Convoy
  sched    : Sched
  life     : Life
  shedding : Bool
  edge     : Edge
  safeAt   : Option Nat
deriving DecidableEq, Repr

/-! ## Requests and answers in the fabric -/

/-- What a request asks of a home (R269-R286). -/
inductive ReqKind where
  | mem (k : MemKind)
  | arrive (n : Nat) (wait : Bool)
  | await (p : Bool)
  | join (n : Nat)
  | leave (n : Nat) (a p : Bool)
  | engineAdd (n : Nat) (last failed : Bool)
  | completion (failed : Bool)
  | waitaddr (v : Word)
  | wake (n : Nat)
  | ringWrite (bytes : List Byte)
deriving DecidableEq, Repr

/-- A request on its way (R270). `home` numbers the home, `wave` the issuer (a wave number, or a number from
147,456 on for an engine or the placement manager), `op` the outstanding operation it belongs to. `refusals` and `tickets` are those of
R288, by the number of the resource, and `retryAt` is the cycle of the issuing core at which it is retried. `born` is the tick at which
it was sent (R268), `replay` says that it comes from an operand log (R244), and `spc` and `lpc` are those of the word that made a
synchronising request (R246). -/
structure Req where
  id       : Nat
  wave     : Nat
  cid      : Nat
  pcore    : Nat
  home     : Nat
  op       : Nat
  kind     : ReqKind
  size     : Nat
  accs     : List Acc
  refusals : Arr Nat
  tickets  : Arr Nat
  retryAt  : Nat
  born     : Nat
  replay   : Bool
  spc      : Nat
  lpc      : Nat
deriving DecidableEq, Repr

/-- An answer on its way back: `vals` are the lanes' data, `failed` the lanes answered with an
error (R246); `phase` is the phase an acknowledgement found or, in an error answer, that a store-class operation failed. `far` says that the
part lies in a host or peer window (R230), `behind` are the requests of other waves of the core that an answer from the snapshot waits for,
and `notBefore` is the tick before which it does not land (R256, R258; log 14). -/
structure Resp where
  wave   : Nat
  cid    : Nat
  pcore  : Nat
  op     : Nat
  vals   : List (Nat × Word)
  failed : List (Nat × Nat)
  ue     : Bool
  ack    : Option Word
  phase  : Bool
  code   : Option Nat
  far    : Bool
  behind : List Nat
  notBefore : Nat
deriving DecidableEq, Repr

/-- A request waiting at its home in a park slot: a barrier wait or a tag request (R278, R286). -/
structure Parked where
  req   : Req
  phase : Bool
deriving DecidableEq, Repr

/-- A wait node (R282): node `node` of physical core `pcore`; a node is named by its logical core and number, as in the
link word. -/
structure Node where
  pcore : Nat
  node  : Nat
  wave  : Nat
  key   : Nat
  lcore : Nat
  next  : Option Nat
deriving DecidableEq, Repr

/-- Tickets of one resource (R288): the next number, those not served, lowest first, and the cycle of the resource's own clock since which the
lowest has been the lowest or was last presented. -/
structure Tickets where
  next   : Nat
  out    : List Nat
  since  : Nat
deriving DecidableEq, Repr

/-- A hotness entry (R247): COUNT and D0 to D3, what they were before the misses of cycle `at_`, those misses alone, and that cycle (R248). -/
structure HotEntry where
  counts : List Nat
  before : List Nat
  new    : List Nat
  at_    : Nat
deriving DecidableEq, Repr

/-- A page fault waiting for service (R241): of a wave, of a store that a wave which has ended has left in its operand log (by its
operation), of an engine, or of a dispatch. -/
inductive Fault1 where
  | wave (w : Nat) (aspace va : Nat)
  | orphan (op : Nat) (aspace va : Nat)
  | engine (pcore : Nat) (e : Engine) (aspace va : Nat)
  | dispatch (cid : Nat) (aspace va : Nat)
deriving DecidableEq, Repr

/-- An exchange offer (R350): `arrived` at the meeting band, `pair` the operation of the offer it is paired with. `refusals`,
`ticket` and `retryAt` are those of R288. -/
structure Offer where
  wave    : Nat
  cid     : Nat
  op      : Nat
  core    : Nat
  partner : Nat
  tag     : Nat
  d       : Nat
  mask    : Word
  vals    : List (Nat × W32)
  arrived : Bool
  pair    : Option Nat
  refusals : Nat
  ticket  : Option Nat
  retryAt : Nat
deriving DecidableEq, Repr

/-- A TLB entry (R239): the page's first virtual address, its size, its frame and attributes. -/
structure TlbEntry where
  aspace : Nat
  va     : Nat
  size   : Nat
  pa     : Nat
  attr   : PageAttr
deriving DecidableEq, Repr

/-! ## Engines -/

/-- Where an engine replies (R43). -/
inductive Reply where
  | none | counter | ring (q : Nat) | bar (off : Nat)
deriving DecidableEq, Repr

/-- A copy descriptor (R262). -/
inductive CopyOp where
  | copy (src dst len : Nat)
  | fill (pattern : Word) (dst len : Nat)
  | gather (src dst idx n rowb : Nat) (pitch : Int)
  | scatter (src dst idx n rowb : Nat) (pitch : Int)
  | tensor (src dst : Nat) (e : List Nat) (ss ds : List Int)
deriving DecidableEq, Repr

/-- A bind descriptor (R320). -/
structure BindDesc where
  tgts   : List Nat
  ntgt   : Nat
  fb     : Nat
  cap    : Nat
  sv     : Bool
  rv     : Bool
  fbv    : Bool
  ready  : Bool
  hold   : Bool
  res    : Bool
  inbox  : Nat
  slots  : Nat
  sb     : Nat
  thresh : Nat
  maxb   : Nat
  flush  : Nat
  entry  : Nat
  pair   : Nat
  arg    : Word
  fp     : Footprint
deriving DecidableEq, Repr

/-- An open descriptor (R330). -/
structure OpenDesc where
  out    : Word
  stat   : Word
  ctr    : Word
  done   : Word
  work   : Nat
  rows   : Nat
  ib     : Nat
  ob     : Nat
  k      : Nat
  policy : Nat
  renorm : Bool
  passT  : Bool
  limit  : Nat
deriving DecidableEq, Repr

/-- What an engine command does. -/
inductive CmdBody where
  | mxLoad (tag fmt : Nat) (norm : Bool) (addr k : Nat)
  | mxQuarter (mode tag afmt rows : Nat) (init : Bool) (src k abase stride ksel cbase : Nat)
  | copy (op : CopyOp)
  | lv (fn n src dst par : Nat)
  | rtOpen (t : Nat) (d : OpenDesc)
  | rtRoute (t tile vec : Nat)
  | rtReturn (origin off : Nat) (tag : Word)
  | rtctl (ch op n : Nat) (bind : Option BindDesc)
deriving DecidableEq, Repr

/-- An engine command after its SX word has issued (R43): `wid` is the issuer's number in its consignment, `lcore` the issuing logical core, `pcore` the target's
physical core, `since` the cycle it reached the inbox and `seq` its number among the arrivals; `done` counts the rows or chunks
done before a resume and `flags` what those rows raised (R226, R266), `moved` marks a command that follows its unit to another core or
leaves a saved context (R374, R377), `reload` a load that brings a plane back after a resume (R226), and `tcore` is the target's logical
core (R378). -/
structure Cmd where
  id    : Nat
  wave  : Nat
  cid   : Nat
  lcore : Nat
  from_ : Nat
  pcore : Nat
  eng   : Engine
  reply : Reply
  body  : CmdBody
  spc   : Nat
  since : Nat
  seq   : Nat
  done  : Nat
  moved : Bool
  wid   : Nat
  flags : BitVec 5
  reload : Bool
  tcore : Nat
deriving DecidableEq, Repr

/-- An entry of a range scoreboard (R267): the span of bytes from `lo` to `hi`, both included; it is in force for accesses that issue from tick
`from_` on (R268). -/
structure Span where
  cmd   : Nat
  lo    : Nat
  hi    : Nat
  write : Bool
  from_ : Nat
deriving DecidableEq, Repr

/-- A fetched chunk: stream bytes with their destinations, as storage keys and, in `dst`, as the addresses they were translated from
(R264). -/
structure Chunk where
  index : Nat
  bytes : List Host.Cell
  dst   : List Nat
deriving DecidableEq, Repr

/-- A running copy (R264, R265): `failedAt` is the chunk that failed and the address. `got` holds bytes that a peer module has
sent, by storage key, and `missing` counts those it has still to send; `acks` is how many writes of the chunk being committed a
peer module has still to answer. -/
structure CopyRun where
  cmd       : Cmd
  next      : Nat
  fetched   : List Chunk
  committed : Nat
  suspended : Bool
  failedAt  : Option (Nat × Nat)
  got       : Arr Byte
  missing   : Nat
  acks      : Nat
deriving DecidableEq, Repr

/-- The two digits of a cell in a plane, or in one of the two sub-planes of an INT8 plane (R202): `sel` in bits 1:0, `shift` in bits 5:2. -/
abbrev CellDigits := BitVec 6 × BitVec 6

/-- A plane (R202 to R204): the digits of each weight by 64 k + c, highest shift first, in `hi` and, of an INT8 weight with more than two, in
`lo`; scales and norms by column; `seq` is its load's number among the arrivals and `since` orders the installations. -/
structure Plane where
  tag    : Nat
  cid    : Nat
  fmt    : Nat
  k      : Nat
  norm   : Bool
  addr   : Nat
  hi     : Arr CellDigits
  lo     : Arr CellDigits
  scales : List (BitVec 8)
  norms  : List W32
  seq    : Nat
  since  : Nat
deriving DecidableEq, Repr

/-- A plane load that has left the inbox (R207, R208): whether it fills slot 0 and slot 1, the image bytes that a peer module has
sent, how many it has still to send, whether a page fault suspends it, and the address of an error that ends it. -/
structure MxLoad where
  cmd       : Cmd
  fill0     : Bool
  fill1     : Bool
  got       : Arr Byte
  missing   : Nat
  suspended : Bool
  failed    : Option Nat
deriving DecidableEq, Repr

/-- An activation row in a pass (R217): its command and number; once it has entered the aligner, the cycle it entered, its 64
results, its tag and its flags; and whether it has been written and only its reply is due. -/
structure PassRow where
  cmd     : Cmd
  row     : Nat
  entered : Option Nat
  vals    : List W32
  tag     : RowTag
  flags   : BitVec 5
  written : Bool
deriving DecidableEq, Repr

/-- A finished row that waits for a ring slot (R221). -/
structure HeldRow where
  cmd   : Cmd
  row   : Nat
  vals  : List W32
  tag   : RowTag
  flags : BitVec 5
  last  : Bool
deriving DecidableEq, Repr

/-- The matrix engine of a core (R201-R227): `nextAt` is the first cycle at which the next row may enter, `installs` counts
the planes installed. -/
structure MxEngine where
  inbox    : List Cmd
  slot0    : Option Plane
  slot1    : Option Plane
  pass     : List PassRow
  nextAt   : Nat
  held     : List HeldRow
  load     : Option MxLoad
  installs : Nat
deriving DecidableEq, Repr

/-- The m, S and U of a long-vector command's record, read when it reached the head of the inbox; `cmd` is its number (R187). -/
structure LvRec where
  cmd : Nat
  m   : Nat
  sum : Nat
  u   : Nat
deriving DecidableEq, Repr

/-- A running long-vector command (R187): its record, the elements read so far, and the first cycle in which more can be read. -/
structure LvRun where
  cmd    : Cmd
  fields : LvRec
  got    : List Nat
  nextAt : Nat
deriving DecidableEq, Repr

/-- The receive half of a route channel (R323): the tail T, the head H, `next` is B, and `times` are the arrivals, in ticks, of
rows B to T − 1. `flushed` is set by FLUSH, and `task` is a batch whose task wave has not been placed (R324): its first sequence
number and its rows. -/
structure RecvHalf where
  owner   : Nat
  desc    : BindDesc
  tail    : Nat
  head    : Nat
  next    : Nat
  times   : List Nat
  flushed : Bool
  task    : Option (Nat × Nat)
  lcore   : Nat
deriving DecidableEq, Repr

/-- The send half of a route channel (R320), bound on logical core `lcore` of its owner (R379). -/
structure SendHalf where
  owner : Nat
  desc  : BindDesc
  lcore : Nat
deriving DecidableEq, Repr

/-- What a dispatch decides on: READY, HOLD, T, H, B, the arrival of row B, and a FLUSH (R323). -/
structure ChanView where
  ready   : Bool
  hold    : Bool
  tail    : Nat
  head    : Nat
  next    : Nat
  oldest  : Option Nat
  flushed : Bool
deriving DecidableEq, Repr

/-- A route channel's entry (R320, R325). `was` is how it stood at the start of the cycle in which it changed last (R323, R326). -/
structure Channel where
  send   : Option SendHalf
  recv   : Option RecvHalf
  ready  : Bool
  hold   : Bool
  unbind : Option Cmd
  was    : Option (Nat × ChanView)
deriving DecidableEq, Repr

/-- States of a rank (R327). -/
inductive Rank where
  | absent | sent | arrived | dropped | timedOut
deriving DecidableEq, Repr

/-- States of a reassembly table (R327). -/
inductive TableState where
  | free | opened | routing | closed
deriving DecidableEq, Repr

/-- A reassembly table (R327-R336). Rank j of row r has number r k + j. `lcore` is the owner's logical core, `wave` the issuer of
`rt.route` and `wid` its number in the consignment, `deadline` in ticks; `sent` counts ranks written at their targets, `filled` says that a
tile was named, `wrote` counts the rows a close has written and `posted` is 1 once it has written the status and 2 once it has written the
counts too, `acks` are the writes that peer modules have still to answer, and a close may be suspended or have failed at an address. `closing` marks a table
whose owner has no wave left on the core (R329), and `timedAt` is the cycle of its timeout (R334). -/
structure RTable where
  state    : TableState
  gen      : Nat
  owner    : Nat
  lcore    : Nat
  desc     : OpenDesc
  ranks    : List Rank
  weights  : Arr Nat
  tile     : Nat
  wave     : Nat
  cmd      : Nat
  deadline : Option Nat
  sent     : Nat
  filled   : Bool
  wrote    : Nat
  suspended : Bool
  failed   : Option Nat
  wid      : Nat
  closing  : Bool
  timedAt  : Option Nat
  acks     : Nat
  posted   : Nat
deriving DecidableEq, Repr

/-- A running `rt.route` (R333): the next rank and the ranks used of each (channel, target). -/
structure RouteRun where
  cmd  : Cmd
  next : Nat
  used : List ((Nat × Nat) × Nat)
deriving DecidableEq, Repr

/-- A routed row, or a returned row when `back` (R333, R334), on its way from physical core `fromP` to logical core `target`;
`retryAt`, `refusals` and `ticket` are those of R288, and `slotP` is the core whose consignment slot counts the send (R75, R375). -/
structure RouteMsg where
  back     : Bool
  cid      : Nat
  fromP    : Nat
  target   : Nat
  ch       : Nat
  tag      : Word
  weight   : Nat
  bytes    : List Byte
  cmd      : Nat
  refusals : Nat
  ticket   : Option Nat
  retryAt  : Nat
  slotP    : Nat
deriving DecidableEq, Repr

/-- The route engine of a core (R320-R336). `opening` is an `rt.open` whose 16 zero bytes have still to be written at a peer (R331). -/
structure RtEngine where
  inbox  : List Cmd
  run    : Option RouteRun
  opening : Option Cmd
  chans  : Arr Channel
  tables : Arr RTable
deriving DecidableEq, Repr

/-! ## Cores -/

/-- A consignment slot of a core and its four counters (R75). -/
structure CSlot where
  cid    : Nat
  stores : Nat
  cmds   : Nat
  remote : Nat
  sends  : Nat
deriving DecidableEq, Repr

/-- A split-table entry (R99). -/
structure Split where
  wave    : Nat
  chan    : Nat
  addr    : Nat
  tag     : Nat
  arrived : Bool
  missed  : Bool
deriving DecidableEq, Repr

/-- A core's channel (R91-R101): its publishing wave, its split table, and the count of published instructions.
`gen` numbers the publications of the channel's leads, and `recAt` is the cycle after the one in which an arrival or a report was recorded last (R102). -/
structure ChanState where
  lead      : Option Nat
  splits    : List Split
  published : Nat
  gen       : Nat
  recAt     : Nat
deriving DecidableEq, Repr

/-- The three requesters of a lease table (R69). -/
inductive Requester where
  | spawn | head | task
deriving DecidableEq, Repr

/-- States of a leased row (R69). Kind 0 slots, 1 vector blocks, 2 scalar blocks, 3 private rows, 4 granules. -/
structure Lease where
  kind : Nat
  row  : Nat
  wave : Nat
  cid  : Nat
  draining : Bool
deriving DecidableEq, Repr

/-- A forwarding stub at an old physical core (R378): requests with numbers below `since` were resolved to it, `unacked` are the
cores that have not acknowledged the new table, and `granules` are those that have moved. -/
structure Stub where
  cid    : Nat
  lcore  : Nat
  target : Nat
  unacked : List Nat
  since  : Nat
  granules : List Nat
deriving DecidableEq, Repr

/-- A pre-emption in progress on a core (R370), with the named waves that have not been dealt with. -/
structure Preempt where
  cids   : List Nat
  waves  : List Nat
  source : PreemptSource
  since  : Nat
deriving DecidableEq, Repr

/-- Stores that a wave which has ended has left in its operand log: they are replayed although its rows are gone (R74, R243; log 21). -/
structure Orphan where
  wave  : Nat
  cid   : Nat
  lcore : Nat
  entry : LogEntry
deriving DecidableEq, Repr

/-- A partition's scheduler: the cycle of its last swap of R110 and of its last forced swap (R111), the cycles in which
each issue slot was last taken (R106), and the cycles from which the special-function unit and the core-local
cross-lane network are free (R107). -/
structure PartSched where
  lastSwap : Option Nat
  lastForced : Option Nat
  busyS : Option Nat
  busyL : Option Nat
  sfuAt : Nat
  netAt : Nat
deriving DecidableEq, Repr

/-- A physical core. `scal` are the sectors of the snapshot that the scalar data cache holds (R258). `turn` is the requester with which the next contest for its rows starts, and `turnAt` the cycle of the last one with
the requester served last in it (R69). -/
structure Core where
  leases : List Lease
  turn   : Requester
  turnAt : Option (Nat × Requester)
  slots  : List CSlot
  chan   : ChanState
  snap   : Arr (List Byte)
  scal   : List Nat
  tlb    : List TlbEntry
  spans  : List Span
  cpIn   : List Cmd
  cpRun  : Option CopyRun
  lvIn   : List Cmd
  lvRec  : Option LvRec
  lvRun  : Option LvRun
  mx     : MxEngine
  rt     : RtEngine
  temp   : Int
  warned : Bool
  stubs  : List Stub
  preempt : List Preempt
  parts  : Arr PartSched
  orphans : List Orphan
deriving DecidableEq, Repr

/-- A band's clock (R392, R398): the ratio, and the tick and cycle at which it last changed; for near-threshold mode the ticks at
which lane slots were lately used, the last tick of a matrix pass, since when some wave of the band has waited on loads in every
cycle, and when the band last left the mode. -/
structure Band where
  ratio     : Nat
  baseTick  : Nat
  baseClk   : Nat
  throttle  : Bool
  coolSince : Option Nat
  near      : Bool
  lanes     : List Nat
  lastPass  : Nat
  ldFrom    : Option Nat
  left      : Option Nat
deriving DecidableEq, Repr

/-! ## Launch -/

/-- A manifest (R59); `rsv` are the reserved bytes of its footprint, read as one number. -/
structure Manifest where
  code   : Nat
  entry  : Nat
  width  : Nat
  flags  : Nat
  pclass : Nat
  waves  : Nat
  last   : Nat
  mode   : Nat
  region : Nat
  base   : Nat
  per    : Nat
  gang   : Nat
  gsize  : Nat
  role   : Nat
  fp     : Footprint
  args   : Word
  done   : Word
  tag    : Word
  deps   : List Nat
  pipes  : List Nat
  rsv    : Nat
deriving DecidableEq, Repr

/-- Where the sections of a code object lie (R11, R12): offset from the object's start and size, by kind. -/
structure CodeObj where
  base  : Nat
  flags : Nat
  width : Nat
  entry : Nat
  fp    : Footprint
  sects : Arr (Nat × Nat)
deriving DecidableEq, Repr

/-- How far a consignment has come. -/
inductive Stage where
  | granted | placing | placed | completed
deriving DecidableEq, Repr

/-- A consignment from its grant to its record (R56-R78). `qslot` is the queue index that held the manifest, `placedG` the groups
placed, `handled` the dies whose engine has placed its groups, `total` the number of the next wave, `live` the waves that have not
ended, `gangCids` the members of its gang in role order, `debugger` that a debugger holds it (R358), and `blocks` the entries of its lane block table as they were loaded (R158). -/
structure Cons where
  queue    : Nat
  qslot    : Nat
  aspace   : Nat
  man      : Manifest
  obj      : CodeObj
  dataBase : Option Nat
  lct      : Arr (Option Nat)
  stage    : Stage
  placedG  : List Nat
  total    : Nat
  live     : Nat
  exited   : Nat
  killed   : Nat
  error    : Bool
  status   : Nat
  since    : Nat
  gangCids : List Nat
  handled  : List Nat
  blocks   : List Nat
  debugger : Bool
deriving DecidableEq, Repr

/-- The registers of a work queue (R53); `depHeld` says that its head was found to wait on a dependence word, which is read again after 256
cycles (R57). -/
structure WQueue where
  base     : Nat
  en       : Bool
  prio     : Nat
  log2size : Nat
  devsub   : Bool
  aspace   : Nat
  tail     : Nat
  head     : Nat
  cqTail   : Nat
  cqHead   : Nat
  cqBase   : Nat
  ovf      : Bool
  refused  : Bool
  blocked  : Bool
  inFlight : Nat
  reread   : Nat
  depHeld  : Bool
deriving DecidableEq, Repr

/-- The Ozzer translator's code heap (R27-R31): its region, the functions placed, oldest first, and the stubs; each with its
consignment, its function's number and its physical address, a function also with its size. -/
structure CodeHeap where
  base   : Nat
  size   : Nat
  placed : List (Nat × Nat × Nat × Nat)
  stubs  : List (Nat × Nat × Nat)
deriving DecidableEq, Repr

/-! ## System -/

/-- An error-log entry (R405). -/
structure LogRec where
  addr  : Nat
  spc   : Nat
  lpc   : Nat
  core  : Nat
  pcore : Nat
  slot  : Nat
  src   : Nat
  cause : Nat
  va    : Bool
  conv  : Bool
  nest  : Bool
  seq   : Nat
  tag   : Word
  ns    : Nat
deriving DecidableEq, Repr

/-- A die: its placement engine (R65), its error log (R405, R406) and its stitched bypasses (R341). `recent` are the log's entries of cycle
`recentAt`, in the order of their sequence numbers (R406). -/
structure Die where
  queue    : List Nat
  log      : Arr LogRec
  head     : Nat
  ce       : Nat
  ovf      : Bool
  rd       : Nat
  stitched : List Nat
  noRoute  : List Nat
  recent   : List LogRec
  recentAt : Nat
deriving DecidableEq, Repr

/-- A region descriptor (R343). -/
structure Region where
  kind : Nat
  die  : Nat
  bx0  : Nat
  by0  : Nat
  bw   : Nat
  bh   : Nat
  v    : Bool
deriving DecidableEq, Repr

/-- A migration record (R380). -/
structure MigRec where
  tag    : Word
  lcore  : Nat
  from_  : Nat
  dest   : Nat
  reason : Nat
  late   : Bool
  whole  : Bool
  waves  : Nat
  fwd    : Nat
  ns     : Nat
deriving DecidableEq, Repr

/-- A unit that has moved and waits for its first wave to issue again: its record is written then, with the time since `since` (R380). -/
structure Moved where
  cid   : Nat
  since : Nat
  entry : MigRec
deriving DecidableEq, Repr

/-- A migration in progress (R375, R376): `stopped` are the waves that have stopped, and `map` pairs each wave of the unit with the rows
leased for it on the target. -/
structure Migration where
  cid     : Nat
  lcore   : Nat
  target  : Nat
  reason  : Nat
  since   : Nat
  stopped : List Nat
  map     : List (Nat × Nat)
  late    : Bool
deriving DecidableEq, Repr

/-- A saved context (R373): the wave, the wave number it was saved from, whether every register was saved, its scratchpad granules
with their bytes and full tags by offset, the engine operations to be resumed, the finished rows still held, the answers that
arrived late (R371), and for the lead of a convoy its channel (R372). One written by an emergency save is `frozen` until a host asks for its restore (R411). -/
structure Context where
  wave     : Wave
  fromW    : Nat
  whole    : Bool
  granules : List Nat
  bytes    : List Host.Cell
  tags     : List Nat
  cmds     : List Cmd
  held     : List HeldRow
  answers  : List Resp
  chan     : Option ChanState
  frozen   : Bool
deriving DecidableEq, Repr

/-- A power class (R385, R389). -/
structure PClass where
  shedAt  : Nat
  restore : Nat
  hold    : Nat
deriving DecidableEq, Repr

/-- The power controller (R385-R391, R396, R400): `cad` is what every core holds (R388), `commit` the shadows that a COMMIT took and the
next frame boundary makes active, `limitAt` the end of the limit loop's last period, and `critAt` the `nsc` of a critical sample. -/
structure Power where
  limit    : Nat
  pbase    : Nat
  pmx      : Nat
  battlim  : Nat
  fnom     : Nat
  vnom     : Nat
  kv       : Int
  failsafe : Nat
  allow    : Int
  cadc     : Nat
  cadl     : Nat
  stale    : Bool
  badCurve : Bool
  freq     : Nat
  volt     : Nat
  state    : Nat
  seq      : Nat
  crcErr   : Nat
  gaps     : Nat
  lastAt   : Option Nat
  curveX   : List Int
  curveP   : List Nat
  classes  : Arr PClass
  actX     : List Int
  actP     : List Nat
  actC     : Arr PClass
  commit   : Option ((List Int × List Nat) × Arr PClass)
  shed     : List Nat
  holdFrom : Arr Nat
  shedAt   : Arr Nat
  warn     : Nat
  throttle : Nat
  critical : Nat
  esave    : Nat
  energy   : List Nat
  snaps    : List ((Nat × Nat) × Nat)
  lastE    : Nat
  under    : Nat
  cad      : Nat
  limitAt  : Nat
  critAt   : Option Nat
deriving DecidableEq, Repr

/-- Power states of the module (R399, R401): an emergency save with number `n` has written the contexts of the waves before the
`next`-th of `order`, each a wave or a saved context. -/
inductive Rails where
  | on
  | saving (n next : Nat) (order : List (Nat × Option Nat))
  | saved | tripped
deriving DecidableEq, Repr

/-- A router (R342, R347, R348): since which tick it has been idle, and the cycle of its core's clock at which a power change is over. -/
inductive RouterPower where
  | on (idleSince : Nat) | goingDown (at_ : Nat) | off | goingUp (at_ idleSince : Nat)
deriving DecidableEq, Repr

/-- An Ndoex port (R354); a flit that has not been acknowledged stands with the peer that it is for. -/
structure Port where
  expected : Nat
  nextSeq  : Nat
  unacked  : List (Nat × Nat)
  replays  : Arr Nat
  retrain  : Bool
  naks     : Nat
deriving DecidableEq, Repr

/-- A request to a peer module that has no response yet (R355). -/
structure PeerOut where
  seq    : Nat
  idem   : Bool
  req    : Req
  resent : Nat
  sentAt : Nat
deriving DecidableEq, Repr

/-- Sequencing with one peer module (R355-R357): `nextIn` is the first sequence number not applied yet; a record holds the stored
response, or none while its request is not complete; `waiting` are requests and held copies, `replies` the responses sent, and `owed` what
waits for a port's replay buffer: a response, or a flit of a port that has failed (R354). -/
structure Peer where
  nextOut : Nat
  out     : List PeerOut
  nextIn  : Nat
  low     : Nat
  records : Arr (Option (List Nat))
  waiting : List (Nat × PeerOp)
  replies : List (Nat × List Nat)
  owed    : List (Option (Nat × List Nat))
deriving DecidableEq, Repr

/-- Dwenath (R412, R413). -/
structure Dwenath where
  chain     : List (List Byte)
  running   : List Nat
  recovery  : Bool
  report    : Option (List Byte × List Byte)
deriving DecidableEq, Repr

/-- The bits of the ready map that decide what is usable, as they stood when a cycle began (R410). -/
structure ReadyBits where
  cores   : List Nat
  engines : List Nat
  hbm     : List Nat
  ports   : List Nat
  done    : Bool
deriving DecidableEq, Repr

/-- The ready map (R409): the numbers of the units whose bits are set, `good` the cores that have passed the test of their partitions and
scratchpad, whatever their routers have done; and by core the physical K-rows of its matrix array that its
self-test has found faulty, ascending (R227). `was` is the cycle in which the map changed last, with the bits as they
stood at its start (R410). -/
structure ReadyMap where
  cores    : List Nat
  good     : List Nat
  engines  : List Nat
  hbm      : List Nat
  lpddr    : List Nat
  ports    : List Nat
  service  : List Nat
  tested   : List SelfTestUnit
  done     : Bool
  badRows  : Arr (List Nat)
  was      : Option (Nat × ReadyBits)
deriving DecidableEq, Repr

/-- A restart report (R411): a tag, its complete waves and its incomplete waves. -/
structure Restart where
  tag        : Word
  complete   : Nat
  incomplete : Nat
deriving DecidableEq, Repr

/-- What moves next: a wave's scalar or lane stream, an event of the table, the passing of time, or something
the outside does that no row names: a write to memory by a host or a service core, the answer of a peer, a page-table root, the region
of the code heap, the retransmission time of R355, the end of a debugger halt, a sector that leaves a core's snapshot (R256), a read of
source elements by a long-vector engine (R187), an uncorrectable error that appears in a sector of storage or is repaired (R253), a read of a control register, by a service core or not (R8, R247), an entry of the
bring-up map (R64), a faulty physical K-row that the self-test of core `p`'s matrix array finds (R227), a debugger that takes hold of a
consignment or lets it go (R358), a memory error on a die that is corrected in place (R406), or what management reads of a core's `temp`
sample or of the restart report of a tag (R414). -/
inductive Turn where
  | scalar (w : Nat)
  | lane (w : Nat)
  | event (i : Instr)
  | time (ticks : Nat)
  | hostWrite (key : Nat) (bytes : List Byte)
  | peerAnswer (m seq : Nat) (vals : List (Nat × Word)) (failed : Bool)
  | setRoot (aspace root : Nat)
  | heapRegion (base size : Nat)
  | retryTime (ns : Nat)
  | debugResume (w : Nat)
  | evict (p sector : Nat)
  | lvRead (p : Nat)
  | memError (key : Nat) (on : Bool)
  | controlRead (service : Bool) (addr : Nat)
  | mapCore (l : Nat) (p : Option Nat)
  | rowFault (p r : Nat)
  | debugHold (cid : Nat) (on : Bool)
  | corrected (die : Nat)
  | tempRead (p : Nat)
  | restartRead (tag : Word)
deriving DecidableEq, Repr

/-- Why the machine stops. -/
inductive Fault where
  /-- Raised by the step of a module whose compute dies and HBM have no power (R399, R401) while nothing from
  outside is due. Safe: the hardware runs nothing then either. -/
  | noPower
deriving DecidableEq, Repr

/-- Why an instruction has no meaning. -/
inductive Refusal where
  /-- Raised by exec for an instruction not modelled yet. Safe: no claim about it can be proved. -/
  | notModelled (mnemonic : String)
deriving DecidableEq, Repr

/-- The whole module. `looks` numbers the look-ups of home slices, of each of which a free value says whether it misses (R247); `homeLast` holds for each home the cycle in which it last applied a request and that request's place in the order
of R270; `badMem` are the 32-byte sectors of storage in which the outside has put an uncorrectable error (R253), and `saved` names the
consignment of each entry of the last emergency save's directory (R400, R411). -/
structure State where
  now      : Nat
  fresh    : Nat
  agenda   : List Turn
  cur      : Nat
  nextId   : Nat
  rails    : Rails
  mem      : List Host.Cell
  full     : List Nat
  reqs     : List Req
  resps    : List Resp
  parked   : List Parked
  nodes    : List Node
  wqs      : List (Nat × Nat × Nat)
  tickets  : Arr Tickets
  faults   : List Fault1
  roots    : Arr Nat
  hot      : Arr HotEntry
  looks    : Nat
  homeLast : Arr (Nat × Nat)
  badMem   : List Nat
  offers   : List Offer
  routeMsgs : List RouteMsg
  held     : List Cmd
  waves    : Arr Wave
  cores    : Arr Core
  bands    : Arr Band
  dies     : Arr Die
  queues   : Arr WQueue
  arbPtr   : Arr Nat
  grantAt  : Option Nat
  cons     : Arr Cons
  bringup  : Arr (Option Nat)
  heap     : CodeHeap
  ready    : ReadyMap
  regions  : Arr Region
  migLog   : Arr MigRec
  migHead  : Nat
  migRd    : Nat
  migOvf   : Bool
  moves    : List Migration
  moved    : List Moved
  ctxs     : Arr Context
  pc       : Power
  routers  : Arr RouterPower
  bypass   : List Nat
  ports    : Arr Port
  retryNs  : Nat
  peers    : Arr Peer
  dwen     : Dwenath
  restarts : List Restart
  saved    : List Nat
  reads    : Arr Word
  events   : List (Nat × Nat)
deriving DecidableEq, Repr

/-! ## Reset -/

/-- A footprint of nothing. -/
def Footprint.empty : Footprint := ⟨0, 0, 0, 0, 0, 0⟩

/-- A matrix engine with empty slots. -/
def MxEngine.reset : MxEngine := ⟨[], none, none, [], 0, [], none, 0⟩

/-- A route engine with no channel bound and every table FREE with generation 0. -/
def RtEngine.reset : RtEngine := ⟨[], none, none, [], []⟩

/-- A core after module reset. -/
def Core.reset : Core where
  leases := []
  turn := .spawn
  turnAt := none
  slots := []
  chan := ⟨none, [], 0, 0, 0⟩
  snap := []
  scal := []
  tlb := []
  spans := []
  cpIn := []
  cpRun := none
  lvIn := []
  lvRec := none
  lvRun := none
  mx := MxEngine.reset
  rt := RtEngine.reset
  temp := 0
  warned := false
  stubs := []
  preempt := []
  parts := []
  orphans := []

/-- A band at ratio 1. -/
def Band.reset : Band := ⟨0, 0, 0, false, none, false, [], 0, none, none⟩

/-- A die with an empty placement engine and an empty log. -/
def Die.reset : Die := ⟨[], [], 0, 0, false, 0, [], [], [], 0⟩

/-- A work queue's registers at the Reset column of R53. -/
def WQueue.reset : WQueue :=
  ⟨0, false, 0, 1, false, 0, 0, 0, 0, 0, 0, false, false, false, 0, 0, false⟩

/-- An Ndoex port on which no flit has passed. -/
def Port.reset : Port := ⟨0, 0, [], [], false, 0⟩

/-- A peer with nothing outstanding. -/
def Peer.reset : Peer := ⟨0, [], 0, 0, [], [], [], []⟩

/-- Region descriptors read zero. -/
def Region.reset : Region := ⟨0, 0, 0, 0, 0, 0, false⟩

/-- The reset abscissae of the curve: −1,500 + 100 i mHz (R385). -/
def Power.resetX : List Int := [-1500, -1400, -1300, -1200, -1100, -1000, -900, -800,
  -700, -600, -500, -400, -300, -200, -100, 0]

/-- The power controller at the Reset columns of R385, R396 and R400. -/
def Power.reset : Power where
  limit := 4200
  pbase := 2200
  pmx := 1980
  battlim := 3000
  fnom := 50000
  vnom := 50000
  kv := 0
  failsafe := 2500
  allow := 2500
  cadc := 7
  cadl := 1
  stale := true
  badCurve := false
  freq := 0
  volt := 0
  state := 0
  seq := 0
  crcErr := 0
  gaps := 0
  lastAt := none
  curveX := Power.resetX
  curveP := List.replicate 16 4200
  classes := []
  actX := Power.resetX
  actP := List.replicate 16 4200
  actC := []
  commit := none
  shed := []
  holdFrom := []
  shedAt := []
  warn := 0x05F0
  throttle := 0x0690
  critical := 0x0730
  esave := 0x06F000000000
  energy := List.replicate 10 0
  snaps := []
  lastE := 0
  under := 0
  cad := 7
  limitAt := 0
  critAt := none

/-- The module right after reset: no wave, no consignment, empty queues, registers at their Reset columns,
memory with nothing listed (log 3, log 4). -/
def State.reset : State where
  now := 0
  fresh := 0
  agenda := []
  cur := 0
  nextId := 1
  rails := .on
  mem := []
  full := []
  reqs := []
  resps := []
  parked := []
  nodes := []
  wqs := []
  tickets := []
  faults := []
  roots := []
  hot := []
  looks := 0
  homeLast := []
  badMem := []
  offers := []
  routeMsgs := []
  held := []
  waves := []
  cores := []
  bands := []
  dies := []
  queues := []
  arbPtr := []
  grantAt := none
  cons := []
  bringup := []
  heap := ⟨0, 0, [], []⟩
  ready := ⟨[], [], [], [], [], [], [], [], false, [], none⟩
  regions := []
  migLog := []
  migHead := 0
  migRd := 0
  migOvf := false
  moves := []
  moved := []
  ctxs := []
  pc := Power.reset
  routers := []
  bypass := []
  ports := []
  retryNs := 20000
  peers := []
  dwen := ⟨[], [], false, none⟩
  restarts := []
  saved := []
  reads := []
  events := []

end Sys2Proof.Machine
end

