-- ==== Sys2Proof/Machine/Mem.lean ====
section
/-! DEFINITION. Sparse arrays, memory bytes and tags, and time. Memory lists (address, byte) pairs in strictly
rising order and lists no byte that is 0x00, the value an unlisted address reads as (log 3). -/

namespace Sys2Proof.Machine

/-- What a step answers. -/
abbrev Out := Host.Outcome State Fault Refusal

/-! ## Sparse arrays -/

/-- The entry of number `n`. -/
def look {α : Type} : Arr α → Nat → Option α
  | [], _ => none
  | (k, v) :: l, n => if k = n then some v else look l n

/-- The entry of number `n`, or `d`. -/
def lookD {α : Type} (l : Arr α) (n : Nat) (d : α) : α := (look l n).getD d

/-- The array with entry `n` set. -/
def put {α : Type} : Arr α → Nat → α → Arr α
  | [], n, v => [(n, v)]
  | (k, u) :: l, n, v =>
    if n < k then (n, v) :: (k, u) :: l else if n = k then (n, v) :: l else (k, u) :: put l n v

/-- The array without entry `n`. -/
def del {α : Type} : Arr α → Nat → Arr α
  | [], _ => []
  | (k, u) :: l, n => if n = k then l else (k, u) :: del l n

/-! ## Memory -/

/-- Memory as the state holds it. -/
abbrev Memory := List Host.Cell

/-- The addresses rise strictly and none is below `lo`; no listed byte is the byte an unlisted address reads as. -/
def Memory.wfFrom (lo : Nat) : Memory → Bool
  | [] => true
  | (a, b) :: m => decide (lo ≤ a) && b != 0 && wfFrom (a + 1) m

/-- The canonical form of memory. -/
def Memory.wf (m : Memory) : Bool := Memory.wfFrom 0 m

/-- The byte at an address: 0x00 where none is listed (log 3). -/
def Memory.get : Memory → Nat → Byte
  | [], _ => 0
  | (a, b) :: m, k => if a = k then b else Memory.get m k

/-- A byte written; writing 0x00 removes the entry. -/
def Memory.set : Memory → Nat → Byte → Memory
  | [], k, v => if v = 0 then [] else [(k, v)]
  | (a, b) :: m, k, v =>
    if k < a then (if v = 0 then (a, b) :: m else (k, v) :: (a, b) :: m)
    else if k = a then (if v = 0 then m else (k, v) :: m)
    else (a, b) :: Memory.set m k v

/-- `n` bytes read from `k` upwards. -/
def Memory.getN (m : Memory) : Nat → Nat → List Byte
  | 0, _ => []
  | n + 1, k => m.get k :: Memory.getN m n (k + 1)

/-- Bytes written from `k` upwards. -/
def Memory.setN (m : Memory) : Nat → List Byte → Memory
  | _, [] => m
  | k, b :: bs => Memory.setN (m.set k b) (k + 1) bs

/-- Cells written in order, so that a later one to the same byte stays. -/
def Memory.setCells (m : Memory) : List Host.Cell → Memory
  | [] => m
  | (k, b) :: cs => Memory.setCells (m.set k b) cs

/-- The number in `n` little-endian bytes from `k` (R7). -/
def Memory.num (m : Memory) (n k : Nat) : Nat := ofBytes (m.getN n k)

/-- A number written as `n` little-endian bytes from `k` (R7). -/
def Memory.setNum (m : Memory) (n k v : Nat) : Memory := m.setN k (toBytes n v)

/-- Bytes of the module's storage, by storage key. -/
def State.bytes (s : State) (n k : Nat) : List Byte := Memory.getN s.mem n k

/-- A number in storage. -/
def State.num (s : State) (n k : Nat) : Nat := Memory.num s.mem n k

/-- Bytes written to storage. -/
def State.write (s : State) (k : Nat) (bs : List Byte) : State := { s with mem := Memory.setN s.mem k bs }

/-- A number written to storage. -/
def State.writeNum (s : State) (n k v : Nat) : State := { s with mem := Memory.setNum s.mem n k v }

/-- Cells written to storage. -/
def State.writeCells (s : State) (cs : List Host.Cell) : State := { s with mem := Memory.setCells s.mem cs }

/-- Some of `n` bytes of storage from `k` lie in a sector with an uncorrectable error (R253; log 57). -/
def State.memBad (s : State) (k n : Nat) : Bool := s.badMem.any fun x => decide (k / 32 ≤ x) && decide (x ≤ (k + n - 1) / 32)

/-! ## Full/empty tags -/

/-- An ascending list with `n` in it. -/
def insertNat : List Nat → Nat → List Nat
  | [], n => [n]
  | k :: l, n => if n < k then n :: k :: l else if n = k then k :: l else k :: insertNat l n

/-- The list without `n`. -/
def eraseNat : List Nat → Nat → List Nat
  | [], _ => []
  | k :: l, n => if n = k then l else k :: eraseNat l n

/-- Whether the word at storage key `k` is full (R285). -/
def State.isFull (s : State) (k : Nat) : Bool := s.full.contains (k / 8)

/-- The tag of the word at `k` set (R285, R286). -/
def State.setTag (s : State) (k : Nat) (t : Bool) : State :=
  { s with full := if t then insertNat s.full (k / 8) else eraseNat s.full (k / 8) }

/-! ## Time -/

/-- Ticks of 1/21 ns in a cycle: 4/7 ns at ratio 1, 16/21 at 3/4, 8/7 at 1/2 (R1, R6, R160). -/
def cycTicks : Nat → Nat
  | 0 => 12
  | 1 => 16
  | _ => 24

/-- The band of a physical core (R1, R64). -/
def bandOf (p : Nat) : Nat := p / 4

/-- The die of a core (R64). -/
def dieOf (p : Nat) : Nat := p / 384

/-- The stack group of a core: (n div 384) × 4 + (b div 8) div 3 with b the in-die band (R64). -/
def groupOf (p : Nat) : Nat := p / 384 * 4 + p % 384 / 4 / 8 / 3

/-- A band's clock. -/
def State.band (s : State) (b : Nat) : Band := lookD s.bands b Band.reset

/-- Cycles of physical core `p`'s clock since module reset (`clk` of R160). -/
def State.clk (s : State) (p : Nat) : Nat :=
  (s.band (bandOf p)).baseClk + (s.now - (s.band (bandOf p)).baseTick) / cycTicks (s.band (bandOf p)).ratio

/-- The tick at which cycle `c` of physical core `p` begins, at the ratio in force. -/
def State.tickOf (s : State) (p c : Nat) : Nat :=
  (s.band (bandOf p)).baseTick + (c - (s.band (bandOf p)).baseClk) * cycTicks (s.band (bandOf p)).ratio

/-- Nanoseconds since module reset (`nsc` of R160). -/
def State.nsc (s : State) : Nat := s.now / 21

/-! ## Records of the state -/

/-- The wave of a number: physical core × 96 + wave slot. -/
def State.wave (s : State) (n : Nat) : Option Wave := look s.waves n

/-- A wave written. -/
def State.setWave (s : State) (n : Nat) (w : Wave) : State := { s with waves := put s.waves n w }

/-- A wave changed, where there is one. -/
def State.onWave (s : State) (n : Nat) (f : Wave → Wave) : State :=
  match s.wave n with
  | some w => s.setWave n (f w)
  | none => s

/-- The physical core of a wave number. -/
def coreOfWave (n : Nat) : Nat := n / 96

/-- The partition of a wave number: 24 slots each (R1). -/
def partOfWave (n : Nat) : Nat := n % 96 / 24

/-- A core. -/
def State.core (s : State) (p : Nat) : Core := lookD s.cores p Core.reset

/-- A core written. -/
def State.setCore (s : State) (p : Nat) (c : Core) : State := { s with cores := put s.cores p c }

/-- A core changed. -/
def State.onCore (s : State) (p : Nat) (f : Core → Core) : State := s.setCore p (f (s.core p))

/-- A consignment. -/
def State.con (s : State) (c : Nat) : Option Cons := look s.cons c

/-- A consignment changed, where there is one. -/
def State.onCon (s : State) (c : Nat) (f : Cons → Cons) : State :=
  match s.con c with
  | some x => { s with cons := put s.cons c (f x) }
  | none => s

/-- A die. -/
def State.die (s : State) (d : Nat) : Die := lookD s.dies d Die.reset

/-- A die changed. -/
def State.onDie (s : State) (d : Nat) (f : Die → Die) : State := { s with dies := put s.dies d (f (s.die d)) }

/-- A work queue. -/
def State.queue (s : State) (q : Nat) : WQueue := lookD s.queues q WQueue.reset

/-- A work queue changed. -/
def State.onQueue (s : State) (q : Nat) (f : WQueue → WQueue) : State :=
  { s with queues := put s.queues q (f (s.queue q)) }

/-- A fresh number for an operation, a command or a consignment. -/
def State.bumpId (s : State) : State := { s with nextId := s.nextId + 1 }

/-- A fresh number for a free value. -/
def State.bumpFresh (s : State) : State := { s with fresh := s.fresh + 1 }

/-- The bits of a ready map that decide what is usable. -/
def ReadyMap.now (r : ReadyMap) : ReadyBits := ⟨r.cores, r.engines, r.hbm, r.ports, r.done⟩

/-- The ready map's bits as they stood at the start of this cycle (R410; log 54). -/
def State.readyNow (s : State) : ReadyBits :=
  match s.ready.was with
  | some (c, x) => if c = s.now / 12 then x else s.ready.now
  | none => s.ready.now

/-- The ready map changed; its units are used as it then says from the next cycle on (R410). -/
def State.setReady (s : State) (r : ReadyMap) : State := { s with ready := { r with was := some (s.now / 12, s.readyNow) } }

/-- A core may be placed on: its bit and the four of its engines were set in the ready map at the start of this cycle (R409, R410). -/
def State.coreReady (s : State) (p : Nat) : Bool :=
  let x := s.readyNow
  x.cores.contains p && (List.range 4).all fun e => x.engines.contains (4 * p + e)

end Sys2Proof.Machine
end

