-- ==== Sys2Proof/Machine/Address.lean ====
section
/-! DEFINITION. Addresses: canonical form, page tables, homes and the TLB (R228-R239, R249). -/

namespace Sys2Proof.Machine

/-! ## Address forms -/

/-- A 64-bit value is canonical when bits 63:57 all equal bit 56 (R228). -/
def canonical (v : Nat) : Bool :=
  decide (v / 2 ^ 56 = 0) || decide (v / 2 ^ 56 = 255)

/-- The 57 bits that a walk indexes. -/
def va57 (v : Nat) : Nat := v % 2 ^ 57

/-- A scratchpad address has 0xFE in bits 63:56 (R249). -/
def isSpad (v : Nat) : Bool := decide (v / 2 ^ 56 = 254)

/-- Where the scratchpads begin (R229). -/
def spadBase : Nat := 0x080000000000

/-- The storage key of byte `off` of physical core `p`'s scratchpad. -/
def spadKey (p off : Nat) : Nat := spadBase + p * 2 ^ 20 + off

/-- A storage key lies in a scratchpad. -/
def keyIsSpad (k : Nat) : Bool := decide (spadBase ≤ k) && decide (k < spadBase + 1536 * 2 ^ 20)

/-- The physical core of a scratchpad key. -/
def keyCore (k : Nat) : Nat := (k - spadBase) / 2 ^ 20

/-- The scratchpad offset of a scratchpad key. -/
def keyOff (k : Nat) : Nat := (k - spadBase) % 2 ^ 20

/-- A storage key in HBM (R229). -/
def keyIsHbm (k : Nat) : Bool := decide (k < 2 ^ 40)

/-- A storage key in the host window (R229). -/
def keyIsHost (k : Nat) : Bool := decide (0x100000000000 ≤ k) && decide (k < 0x800000000000)

/-- A storage key in a peer window (R229). -/
def keyIsPeer (k : Nat) : Bool := decide (0x800000000000 ≤ k)

/-- The module a peer window belongs to (R229). -/
def keyPeer (k : Nat) : Nat := (k - 0x800000000000) / 2 ^ 37

/-- Logical core to physical core under a consignment's table; `none` outside it (R64, R230). -/
def Cons.phys (c : Cons) (l : Nat) : Option Nat :=
  if l < 1536 then (look c.lct l).getD (some l) else none

/-- The bring-up map (R64). -/
def State.bringupPhys (s : State) (l : Nat) : Option Nat :=
  if l < 1536 then (look s.bringup l).getD (some l) else none

/-- The logical core that the bring-up map gives a physical core. -/
def Cons.logical (c : Cons) (p : Nat) : Option Nat :=
  match c.lct.find? (fun e => e.2 = some p) with
  | some e => some e.1
  | none => if (look c.lct p).isSome then none else some p

/-! ## Homes (R235) -/

/-- The storage key of a physical address under a placement: HBM is numbered by stack and offset. -/
def storageKey (pa pl hd hs : Nat) : Nat :=
  if pa < 2 ^ 40 then
    let d0 := (pa / 2 ^ 12 % 4) ^^^ (pa / 2 ^ 20 % 4) ^^^ (pa / 2 ^ 28 % 4) ^^^ (pa / 2 ^ 36 % 4)
    let k0 := (pa / 2 ^ 14 % 4) ^^^ (pa / 2 ^ 22 % 4)
    let d := if pl = 0 then d0 else hd
    let k := if pl = 2 then hs else k0
    let g := if pl = 0 then pa / 2 ^ 16 % 2 ^ 24 else if pl = 1 then pa / 2 ^ 16 % 2 ^ 22 * 4 + pa / 2 ^ 12 % 4
      else pa / 2 ^ 12 % 2 ^ 24
    (4 * d + k) * 2 ^ 36 + g * 4096 + pa % 4096
  else pa

/-- The home of a storage key: 0 to 383 a home slice (die × 96 + in-die band), 1,000 + p a scratchpad, 4,000 the host
window, 5,000 + m a peer (R235, R269). -/
def homeOf (k : Nat) : Nat :=
  if keyIsHbm k then
    k / 2 ^ 36 / 4 * 96 + k / 2 ^ 36 % 4 * 24 + k % 2 ^ 36 / 64 % 24
  else if k < 0x070000000000 then
    ((k / 2 ^ 12 % 4) ^^^ (k / 2 ^ 20 % 4) ^^^ (k / 2 ^ 28 % 4) ^^^ (k / 2 ^ 36 % 4)) * 96 + k / 64 % 96
  else if keyIsSpad k then 1000 + keyCore k
  else if keyIsPeer k then 5000 + keyPeer k
  else 4000

/-- The die of a home (R236, R407). -/
def homeDie (h : Nat) : Nat := if h < 384 then h / 96 else if 1000 ≤ h ∧ h < 2536 then (h - 1000) / 384 else 0

/-- The 64-byte line of a storage key. -/
def lineOf (key : Nat) : Nat := key / 64

/-- The home's queue has an entry for a line. -/
def State.hasEntry (s : State) (h line : Nat) : Bool := s.wqs.any fun e => e.1 == h && e.2.1 == line

/-! ## Hotness (R247, R248) -/

/-- An HBM stack's hotness entry, by stack × 32,768 + entry. -/
def hotIndex (key : Nat) : Nat := key / 2 ^ 36 * 32768 + key % 2 ^ 36 / 2 ^ 21

/-- A hotness entry. -/
def State.hotness (s : State) (i : Nat) : HotEntry := lookD s.hot i ⟨[0, 0, 0, 0, 0], [0, 0, 0, 0, 0], [0, 0, 0, 0, 0], 0⟩

/-- The cycle of the home slices of entry `i`: that of the first band of the stack's group (log 54). -/
def State.hotClk (s : State) (i : Nat) : Nat :=
  let st := i / 32768
  s.clk (384 * (st / 4) + 96 * (st % 4))

/-- One miss of a core of die `d` counted, with saturation. -/
def countMiss (d : Nat) (c : List Nat) : List Nat :=
  [min (c.getD 0 0 + 1) 0xFFFF, min (c.getD 1 0 + (d == 0).toNat) 15, min (c.getD 2 0 + (d == 1).toNat) 15,
    min (c.getD 3 0 + (d == 2).toNat) 15, min (c.getD 4 0 + (d == 3).toNat) 15]

/-- What a read of an entry in this cycle returns: its value before the misses of the cycle (R248). -/
def State.hotRead (s : State) (i : Nat) : List Nat :=
  let e := s.hotness i
  if e.at_ = s.hotClk i then e.before else e.counts

/-- A miss at the home slice of a storage key, of a request from core `p` (R247). -/
def State.countHot (s : State) (p key : Nat) : State :=
  let i := hotIndex key
  let e := s.hotness i
  let new := if e.at_ = s.hotClk i then e.new else [0, 0, 0, 0, 0]
  { s with hot := put s.hot i ⟨countMiss (dieOf p) e.counts, s.hotRead i, countMiss (dieOf p) new, s.hotClk i⟩ }

/-- The access of core `p` to a storage key at its home slice, where a write-queue entry does not serve it, misses the slice or not, as a
free value says; every such miss reads or writes HBM (R247). -/
def State.missedAt (s : State) (p key : Nat) : State :=
  if keyIsHbm key ∧ !s.hasEntry (homeOf key) (lineOf key) then
    { s with looks := s.looks + 1, hot := if Config.sliceMisses s.looks then (s.countHot p key).hot else s.hot }
  else s

/-- The lines that a list of storage keys names, looked up at their home slices (R247). -/
def State.missedKeys (s : State) (p : Nat) (keys : List Nat) : State :=
  ((keys.filter keyIsHbm).map lineOf).eraseDups.foldl (fun s l => s.missedAt p (64 * l)) s

/-! ## Page entries and walks (R231-R234) -/

/-- The attributes of a leaf entry (R232). -/
def attrOf (e : Nat) : PageAttr where
  r := e / 2 % 2 == 1
  w := e / 4 % 2 == 1
  x := e / 8 % 2 == 1
  tier := e / 32 % 4
  fe := e / 128 % 2 == 1
  pl := e / 256 % 4
  hd := e / 1024 % 4
  hs := e / 4096 % 4
  s64 := e / 16384 % 2 == 1

/-- PA[47:12] of an entry (R232). -/
def frameOf (e : Nat) : Nat := e / 2 ^ 16 % 2 ^ 36

/-- What a walk finds (R233); `lost` is a table in an HBM stack that is not ready, whose read is answered with an error (R410; log 70). -/
inductive Walk where
  | ok (base pa size : Nat) (attr : PageAttr)
  | absent
  | bad
  | lost
deriving DecidableEq, Repr

/-- The storage key lies in an HBM stack that is not ready (R410). -/
def State.stackDown (s : State) (k : Nat) : Bool := keyIsHbm k && !s.readyNow.hbm.contains (k / 2 ^ 36)

/-- A physical range lies inside the range of a tier (R229). -/
def inTier (tier lo size : Nat) : Bool :=
  match tier with
  | 0 => decide (lo + size ≤ 2 ^ 40)
  | 1 => decide (0x010000000000 ≤ lo) && decide (lo + size ≤ 0x070000000000)
  | _ => decide (0x100000000000 ≤ lo) && decide (lo + size ≤ 2 ^ 48)

/-- A leaf entry with none of the defects of R233 that the entry alone shows. -/
def leafGood (e lvl : Nat) : Bool :=
  let a := attrOf e
  let pa := frameOf e * 4096
  let size := 2 ^ (12 + 9 * lvl)
  e / 2 ^ 15 % 2 == 0 && e / 2 ^ 52 == 0 && a.tier != 3 && a.pl != 3 && decide (lvl ≤ 2)
    && (!a.s64 || lvl == 0) && pa % size == 0 && inTier a.tier pa size
    && (!a.fe || a.tier == 0) && (a.tier == 0 || a.pl == 0 && a.hd == 0 && a.hs == 0)
    && (a.tier != 0 || a.pl != 1 || pa / 2 ^ 38 % 4 == 0) && (a.tier != 0 || a.pl != 2 || pa / 2 ^ 36 % 16 == 0)

/-- A pointer entry: only V and FRAME are nonzero, and the next table lies in HBM or LPDDR-6 (R232, R233). -/
def pointerGood (e : Nat) : Bool :=
  e % 2 ^ 16 == 1 && e / 2 ^ 52 == 0 && (inTier 0 (frameOf e * 4096) 4096 || inTier 1 (frameOf e * 4096) 4096)

/-- The sixteen entries of a 64 KiB page agree (R234). `i` entries are still to be looked at. -/
def groupGood (s : State) (tab first attrs f : Nat) : Nat → Bool
  | 0 => true
  | i + 1 =>
    s.num 8 (storageKey (tab + 8 * (first + i)) 0 0 0) == attrs + (f + i) * 2 ^ 16 && groupGood s tab first attrs f i

/-- Walks from level `lvl` of the table at physical address `tab` (R231). Tables in HBM are read with placement 00
(log 8). -/
def walkFrom (s : State) (va : Nat) : Nat → Nat → Walk
  | lvl, tab =>
    let i := va / 2 ^ (12 + 9 * lvl) % 512
    let e := s.num 8 (storageKey (tab + 8 * i) 0 0 0)
    if s.stackDown (storageKey (tab + 8 * i) 0 0 0) then .lost
    else if e % 2 = 0 then .absent
    else if e / 16 % 2 = 1 then
      if !leafGood e lvl then .bad
      else if (attrOf e).s64 then
        let f := frameOf e - i % 16
        if i % 16 ≤ frameOf e ∧ f % 16 = 0 ∧ groupGood s tab (i - i % 16) (e - frameOf e * 2 ^ 16) f 16
        then .ok (va - va % 65536) (f * 4096) 65536 (attrOf e) else .bad
      else .ok (va - va % 2 ^ (12 + 9 * lvl)) (frameOf e * 4096) (2 ^ (12 + 9 * lvl)) (attrOf e)
    else match lvl with
      | 0 => .bad
      | l + 1 => if pointerGood e then walkFrom s va l (frameOf e * 4096) else .bad

/-- The walk of an address space's tree; a space whose root is not set has no page present (R231). -/
def walk (s : State) (aspace va : Nat) : Walk :=
  match look s.roots aspace with
  | some root => walkFrom s (va57 va) 4 root
  | none => .absent

/-- The storage keys of the table entries that a walk from level `lvl` reads, those of a 64 KiB page's group among them (R231, R234). -/
def walkKeys (s : State) (va : Nat) : Nat → Nat → List Nat
  | lvl, tab =>
    let i := va / 2 ^ (12 + 9 * lvl) % 512
    let k := storageKey (tab + 8 * i) 0 0 0
    let e := s.num 8 k
    k :: (if e % 2 = 0 then []
      else if e / 16 % 2 = 1 then
        (if lvl = 0 ∧ (attrOf e).s64 then (List.range 16).map fun j => storageKey (tab + 8 * (i - i % 16 + j)) 0 0 0 else [])
      else match lvl with
      | 0 => []
      | l + 1 => walkKeys s va l (frameOf e * 4096))

/-- A walk for core `p` looks up its entries at their home slices (R231, R247). -/
def State.walked (s : State) (p aspace va : Nat) : State :=
  match look s.roots aspace with
  | some root => s.missedKeys p (walkKeys s (va57 va) 4 root)
  | none => s

/-! ## The TLB (R239) -/

/-- An entry of the TLB that maps `va`. -/
def tlbHit (es : List TlbEntry) (aspace va : Nat) : Option TlbEntry :=
  es.find? fun e => e.aspace == aspace && decide (e.va ≤ va57 va) && decide (va57 va < e.va + e.size)

/-- A translation through physical core `p`'s TLB, or a walk on a miss (R239). -/
def translate (s : State) (p aspace va : Nat) : Walk :=
  match tlbHit (s.core p).tlb aspace va with
  | some e => .ok e.va e.pa e.size e.attr
  | none => walk s aspace va

/-- A translation of `va` through core `p`'s TLB walks where the TLB misses, whatever the walk finds (R239, R247). -/
def State.walkedFor (s : State) (p aspace va : Nat) : State :=
  if (tlbHit (s.core p).tlb aspace va).isSome then s else s.walked p aspace va

/-- The TLB after an access to `va`: a miss that finds a page fills an entry, and the oldest of 2,048 leaves. -/
def fillTlb (s : State) (p aspace va : Nat) : State :=
  match tlbHit (s.core p).tlb aspace va with
  | some _ => s
  | none => match walk s aspace va with
    | .ok b pa z a => (s.walked p aspace va).onCore p fun c => { c with tlb := (⟨aspace, b, z, pa, a⟩ :: c.tlb).take 2048 }
    | _ => s.walked p aspace va

/-- What an access does with a page (R239, R232). -/
inductive Need where
  | read | write | tagRead | tagWrite | exec
deriving DecidableEq, Repr

/-- The page allows the access (checks 3 and 4 of R239). -/
def allows (a : PageAttr) : Need → Bool
  | .read => a.r
  | .write => a.w
  | .tagRead => a.r && a.fe
  | .tagWrite => a.w && a.fe
  | .exec => a.x

/-- Where an access goes, or why it goes nowhere. -/
inductive Place where
  | at (key : Nat)
  | fault
  | violation
deriving DecidableEq, Repr

/-- The consignment runs an Ozzer object (R11, R24). -/
def Cons.ozz (c : Cons) : Bool := c.obj.flags % 2 == 1

/-- The virtual address at which an address space has the code heap: that of a page (R27; log 6). -/
def heapVa (aspace : Nat) : Nat := va57 (Config.heapVa aspace) / 4096 * 4096

/-- The physical address of byte `va` of the code heap, where the loader maps the heap for an Ozzer object (R27; log 6). -/
def State.heapAt (s : State) (c : Cons) (va : Nat) : Option Nat :=
  let lo := heapVa c.aspace
  if c.ozz ∧ lo ≤ va57 va ∧ va57 va < lo + s.heap.size then some (s.heap.base + (va57 va - lo)) else none

/-- Where byte `va` of `.data` lies in the consignment's own copy, as a physical address (R15; log 6). -/
def Cons.dataAt (c : Cons) (va : Nat) : Option Nat :=
  match c.dataBase with
  | none => none
  | some d =>
    let o := (look c.obj.sects 4).getD (0, 0)
    let lo := va57 (c.obj.base + o.1)
    if lo ≤ va57 va ∧ va57 va < lo + o.2 then some (d + (va57 va - lo)) else none

/-- The kind of the section of the consignment's code object that byte `va` lies in (R12). -/
def Cons.sectAt (c : Cons) (va : Nat) : Option Nat :=
  (c.obj.sects.find? fun e => decide (va57 (c.obj.base + e.2.1) ≤ va57 va) && decide (va57 va < va57 (c.obj.base + e.2.1) + e.2.2)).map Prod.fst

/-- The attributes of a page as the loader maps the object's `.scalar`, `.lane` and `.const` on it: read-only, and the first two executable
(R15; log 56). -/
def Cons.mapped (c : Cons) (va : Nat) (a : PageAttr) : PageAttr := match c.sectAt va with
  | some 1 => { a with r := true, w := false, x := true }
  | some 2 => { a with r := true, w := false, x := true }
  | some 3 => { a with r := true, w := false, x := false }
  | _ => a

/-- A virtual address under the checks of R239 in their order. R15 does not say whether the consignment's own copy of `.data` carries full/empty
tags; in this model it has none, so that a tag operation on it is an access violation (log 6). -/
def placeVirtual (s : State) (p : Nat) (c : Cons) (va : Nat) (n : Need) : Place :=
  if !canonical va then .violation
  else match c.dataAt va with
    | some pa => if n = .tagRead ∨ n = .tagWrite ∨ n = .exec then .violation else .at (storageKey pa 0 0 0)
    | none => match translate s p c.aspace va with
      | .ok b pa _ a =>
        if allows (c.mapped va a) n then .at (storageKey (pa + (va57 va - b)) a.pl a.hd a.hs) else .violation
      | .lost => .violation
      | _ => .fault

/-- A scratchpad address of R249 as wave and consignment see it; the lease is checked where it arrives. -/
def placeSpad (c : Cons) (p va : Nat) : Place :=
  if va / 2 ^ 32 % 2 ^ 24 ≠ 0 then .violation
  else if 0xFE000 ≤ va % 2 ^ 20 then .violation
  else if va / 2 ^ 20 % 4096 = 4095 then .at (spadKey p (va % 2 ^ 20))
  else match c.phys (va / 2 ^ 20 % 4096) with
    | some q => .at (spadKey q (va % 2 ^ 20))
    | none => .violation

/-- A 64-bit address: scratchpad form or virtual (R249, R258). -/
def place (s : State) (c : Cons) (p va : Nat) (n : Need) : Place :=
  if isSpad va then placeSpad c p va else placeVirtual s p c va n

/-! ## Leases of scratchpad granules (R69, R249) -/

/-- Granule `g` of core `p` is leased to consignment `cid`. -/
def granuleOf (s : State) (p g cid : Nat) : Bool :=
  (s.core p).leases.any fun l => l.kind == 4 && l.row == g && l.cid == cid

/-- The bytes from `off` to `off + n - 1` of core `p`'s scratchpad are leased to `cid` and outside the reserve. -/
def spadLeased (s : State) (p off n cid : Nat) : Bool :=
  decide (off + n ≤ 0xFE000) && granuleOf s p (off / 4096) cid && granuleOf s p ((off + n - 1) / 4096) cid

/-! ## Code objects (R11-R14) -/

/-- Where section `kind` begins, as an offset of the object, and its size; (0, 0) when it is absent. -/
def CodeObj.sect (o : CodeObj) (kind : Nat) : Nat × Nat := (look o.sects kind).getD (0, 0)

/-- The virtual address at which `.scalar` begins. -/
def CodeObj.scalarBase (o : CodeObj) : Nat := va57 (o.base + (o.sect 1).1)

/-- The bytes of `.scalar`. -/
def CodeObj.scalarSize (o : CodeObj) : Nat := (o.sect 1).2

/-- The lane words of `.lane`. -/
def CodeObj.laneWords (o : CodeObj) : Nat := (o.sect 2).2 / 12

/-- The virtual address of lane word `k`. -/
def CodeObj.laneAt (o : CodeObj) (k : Nat) : Nat := va57 (o.base + (o.sect 2).1 + 12 * k)

/-- Where the byte of code at `va` lies: in the code heap, or through the page tables; `none` on an absent page. -/
def codeKey (s : State) (c : Cons) (p va : Nat) : Option Nat :=
  match s.heapAt c va with
  | some a => some (storageKey a 0 0 0)
  | none => match translate s p c.aspace va with
    | .ok b pa _ a => some (storageKey (pa + (va57 va - b)) a.pl a.hd a.hs)
    | _ => none

/-- `n` bytes of code from an address; a byte of an absent page reads as nothing. -/
def codeBytes (s : State) (c : Cons) (p va : Nat) : Nat → List Byte
  | 0 => []
  | n + 1 => (match codeKey s c p va with
    | some k => Memory.get s.mem k
    | none => 0) :: codeBytes s c p (va + 1) n

end Sys2Proof.Machine
end

