-- ==== Sys2Proof/Machine/Ops.lean ====
section
/-! DEFINITION. The named operations over registers, results in flight, counters, requests, the error log, and
taking an exception with the return from it (R87, R88, R114-R121, R269, R358-R368, R405). -/

namespace Sys2Proof.Machine

/-! ## Register names (R18, R33) -/

/-- A legal scalar register name. -/
def Wave.sOk (w : Wave) (n : Nat) : Bool := decide (n < w.fp.sregs) && decide (n < 384)

/-- A legal vector register name. -/
def Wave.vOk (w : Wave) (n : Nat) : Bool :=
  decide (n < w.fp.regs) && decide (n < 192) || decide (192 ≤ n) && decide (n < 192 + w.fp.acc) && decide (n < 320)

/-- The first field that names no legal scalar register. -/
def Wave.badS (w : Wave) (fs : List Nat) : Option Nat := fs.find? fun f => !w.sOk f

/-! ## Results in flight (R114-R116, R171) -/

/-- A landing aimed at scalar register `n`. -/
def Landing.toS (n : Nat) (l : Landing) : Option Word :=
  match l.dest with
  | .sreg m v => if m = n then some v else none
  | _ => none

/-- What a read of one unit may see: each result aimed at it that has landed, and each that has not if the free value
says so (R115; log 2). -/
def overlay {α : Type} (fr clk unit : Nat) (aim : Landing → α → Option α) : List Landing → α → α
  | [], v => v
  | l :: ls, v =>
    match aim l v with
    | some x => overlay fr clk unit aim ls
        (if l.due ≤ clk then x else if Config.seesNew fr (unit + 2 ^ 20 * l.seq) then x else v)
    | none => overlay fr clk unit aim ls v

/-- Scalar register `n`; s0 reads as zero (R33). -/
def Wave.readS (w : Wave) (fr clk n : Nat) : Word :=
  if n = 0 then 0 else overlay fr clk n (fun l _ => l.toS n) w.pend (lookD w.regs.s n 0)

/-- The bits of slice (r, lane) that a landing leaves there: only the bits of its field change (R171). -/
def Landing.toV (r lane : Nat) (l : Landing) (old : W32) : Option W32 :=
  match l.dest with
  | .vreg m fld vals => if m = r then (look vals lane).map fun v => (old &&& ~~~fld) ||| (v &&& fld) else none
  | _ => none

/-- A special function's result that has not completed, as a result in flight: each slice may be read old or new
(R183). -/
def OutOp.inFlight (clk : Nat) (o : OutOp) : Option Landing :=
  match o.dest with
  | .vals d => if o.need = 0 then none else some ⟨clk + 1, true, o.id, o.blk, d, 0, 0, 0, 0⟩
  | _ => none

/-- The bits of slice (r, lane) that a landing writes; none where it writes no bit there. -/
def Landing.bitsV (r lane : Nat) (l : Landing) : Option (W32 × W32) :=
  match l.dest with
  | .vreg m fld vals => if m = r then (look vals lane).map fun v => (fld, v) else none
  | _ => none

/-- The unit of R115 that bit `b` of a slice belongs to, among the fields that writes in flight aim at it (R171): 0 for a bit that only
whole-slice writes reach, and otherwise 1 more than the lowest bit of the first field it lies in. -/
def fieldUnit (flds : List W32) (b : Nat) : Nat :=
  match flds.find? fun f => f.getLsbD b with
  | some f => 1 + ((List.range 32).find? fun i => f.getLsbD i).getD 0
  | none => 0

/-- The bits of a slice that a read sees new, where a result with field `fld` is in flight: the choice is made for each unit (R115, R171). -/
def seenBits (fr unit seq : Nat) (flds : List W32) (fld : W32) : W32 :=
  (List.range 32).foldl (fun m b =>
    if fld.getLsbD b && Config.seesNew fr (unit + 2 ^ 20 * seq + 2 ^ 60 * fieldUnit flds b) then m ||| BitVec.twoPow 32 b else m) 0

/-- What a read of a slice sees of the results aimed at it, in landing order (R115, R171). -/
def overlayV (fr clk unit r lane : Nat) (flds : List W32) : List Landing → W32 → W32
  | [], v => v
  | l :: ls, v =>
    match l.bitsV r lane with
    | some (fld, x) =>
      let m := if l.due ≤ clk then fld else seenBits fr unit l.seq flds fld
      overlayV fr clk unit r lane flds ls ((v &&& ~~~m) ||| (x &&& m))
    | none => overlayV fr clk unit r lane flds ls v

/-- A matrix result row that has not been written yet, as a result in flight to its accumulator row (R115, R222). -/
abbrev RowsDue := List Landing

/-- The slice of vector register `r` in `lane`, with the matrix rows that are on their way to the wave. -/
def Wave.readVWith (w : Wave) (rows : RowsDue) (fr clk r lane : Nat) : W32 :=
  let ls := (w.pend ++ w.ops.filterMap (OutOp.inFlight clk) ++ rows).filter fun l => (l.bitsV r lane).isSome
  overlayV fr clk (1024 + 64 * r + lane) r lane
    ((ls.filterMap fun l => (l.bitsV r lane).map Prod.fst).filter fun f => f != BitVec.allOnes 32) ls (lookD w.regs.v (64 * r + lane) 0)

/-- The slice of vector register `r` in `lane`. -/
def Wave.readV (w : Wave) (fr clk r lane : Nat) : W32 := w.readVWith [] fr clk r lane

/-- A landing aimed at predicate `n` in `lane`. -/
def Landing.toP (n lane : Nat) (l : Landing) : Option Bool :=
  match l.dest with
  | .pred m lanes v => if m = n ∧ lanes.getLsbD lane then some (v.getLsbD lane) else none
  | _ => none

/-- Predicate `n` in `lane`; p0 is always true (R36, R37). -/
def Wave.readP (w : Wave) (fr clk n lane : Nat) : Bool :=
  if n = 0 then true
  else overlay fr clk (32768 + 64 * n + lane) (fun l _ => l.toP n lane) w.pend ((lookD w.regs.p n 0).getLsbD lane)

/-- Codebook table `n` as a whole (R137, R174). -/
def Wave.readCb (w : Wave) (fr clk n : Nat) : BitVec 256 :=
  overlay fr clk (40000 + n) (fun l _ => match l.dest with
    | .cbook m v => if m = n then some v else none
    | _ => none) w.pend (lookD w.regs.cb n 0)

/-- A landing before another: earlier cycle, then scalar before lane, then order of issue (R116). -/
def Landing.before (a b : Landing) : Bool :=
  decide (a.due < b.due) || a.due == b.due && (!a.lane && b.lane || a.lane == b.lane && decide (a.seq < b.seq))

/-- A landing put in its place among those in flight. -/
def insertLanding (l : Landing) : List Landing → List Landing
  | [] => [l]
  | x :: xs => if l.before x then l :: x :: xs else x :: insertLanding l xs

/-- A result sent to land in scalar register `n` at cycle `due`; s0 discards it (R33). -/
def Wave.sendS (w : Wave) (seq due n : Nat) (v : Word) : Wave :=
  if n = 0 then w else
    { w with pend := insertLanding ⟨due, false, seq, none, .sreg n v, 0, 0, 0, 0⟩ w.pend }

/-- A write of `lmask`, `fpctl`, `fpflags` or a trap register that takes effect at cycle `due` (R114). -/
def Wave.sendSpecial (w : Wave) (seq due : Nat) (r : SpecialReg) (v : Word) : Wave :=
  { w with pend := insertLanding ⟨due, false, seq, none, .special r v, 0, 0, 0, 0⟩ w.pend }

/-- The slices that a list of lane values writes, by field. -/
def writeSlices (v : Arr W32) (r : Nat) (fld : W32) : List (Nat × W32) → Arr W32
  | [] => v
  | (l, x) :: xs =>
    writeSlices (put v (64 * r + l) ((lookD v (64 * r + l) 0 &&& ~~~fld) ||| (x &&& fld))) r fld xs

/-- Writes a writable special register: reserved bits are ignored (R9, R147, R148, R159, R359). -/
def Wave.setSpecial (w : Wave) (r : SpecialReg) (v : Word) : Wave :=
  match r with
  | .lmask => { w with lmask := v }
  | .fpctl => { w with ctl := { w.ctl with fpctl := v.setWidth 5 } }
  | .fpflags => { w with ctl := { w.ctl with fpflags := (v &&& 0x1F1F).setWidth 13 } }
  | .xcause => { w with ctl := { w.ctl with xcause := v &&& 0xFFFF0FFF } }
  | .xmask => { w with ctl := { w.ctl with xmask := v } }
  | .xspc => { w with ctl := { w.ctl with xspc := v &&& 0x1FFFFFFFFFFFFFF } }
  | .xlpc => { w with ctl := { w.ctl with xlpc := v.setWidth 24 } }
  | .xaddr => { w with ctl := { w.ctl with xaddr := v } }
  | _ => w

/-- A result lands in its destination in the wave (R114). -/
def Wave.land (w : Wave) : Dest → Wave
  | .sreg n v => if n = 0 then w else { w with regs := { w.regs with s := put w.regs.s n v } }
  | .vreg n fld vals => { w with regs := { w.regs with v := writeSlices w.regs.v n fld vals } }
  | .pred n lanes v =>
    if n = 0 then w else
      { w with regs := { w.regs with p := put w.regs.p n ((lookD w.regs.p n 0 &&& ~~~lanes) ||| (v &&& lanes)) } }
  | .cbook n v => { w with regs := { w.regs with cb := put w.regs.cb n v } }
  | .special r v => w.setSpecial r v
  | .priv bs => { w with regs := { w.regs with priv := Memory.setCells w.regs.priv bs } }
  | .spad _ _ _ => w
  | .nothing => w

/-- Exception flags raised (R149). -/
def Wave.raise (w : Wave) (f : BitVec 5) : Wave :=
  { w with ctl := { w.ctl with fpflags := w.ctl.fpflags ||| f.setWidth 13 } }

/-- Lane values written into a 256-byte slot, only the bits of `fld` in each lane (R124, R171). -/
def State.writeSlot (s : State) (key : Nat) (fld : W32) : List (Nat × W32) → State
  | [] => s
  | (l, v) :: vs =>
    (s.writeNum 4 (key + 4 * l) ((BitVec.ofNat 32 (s.num 4 (key + 4 * l)) &&& ~~~fld) ||| (v &&& fld)).toNat).writeSlot
      key fld vs

/-- A result's destination written, a scratchpad ring slot's bytes too (R114, R124). -/
def State.landDest (s : State) (n : Nat) (d : Dest) : State :=
  let s := s.onWave n fun w => w.land d
  match d with
  | .spad key fld vals => s.writeSlot key fld vals
  | _ => s

/-- A result that has landed, kept with the others of its cycle in their order (R116). -/
def Wave.noteLanded (w : Wave) (l : Landing) : Wave :=
  { w with landed := insertLanding l (w.landed.filter fun x => x.due == l.due) }

/-- A result lands: its destination and its flags (R114, R149). -/
def State.landOne (s : State) (n : Nat) (l : Landing) : State :=
  (s.landDest n l.dest).onWave n fun w => (w.raise l.flags).noteLanded l

/-- A destination that holds a value of R115. -/
def Dest.isValue : Dest → Bool
  | .special _ _ => false
  | .nothing => false
  | _ => true

/-- The results of cycle `clk` that `after` picks stand over what has been written in that cycle since (R116). -/
def State.reland (s : State) (n clk : Nat) (after : Landing → Bool) : State :=
  let ls : List Landing := match s.wave n with
    | some w => w.landed.filter fun x => x.due == clk && x.dest.isValue && after x
    | none => []
  ls.foldl (fun s x => s.landDest n x.dest) s

/-! ## Lane queues (R82, R83, R365) -/

/-- The queue whose words issue: the handler queue in handler mode (R365). -/
def Wave.queue (w : Wave) : List LBlock := if w.ctl.hmode then w.handQ else w.laneQ

/-- The queue written back. -/
def Wave.setQueue (w : Wave) (q : List LBlock) : Wave :=
  if w.ctl.hmode then { w with handQ := q } else { w with laneQ := q }

/-- The block whose next word issues next: the first with words left. -/
def nextBlock : List LBlock → Option LBlock
  | [] => none
  | b :: bs => if b.pos < b.count then some b else nextBlock bs

/-- The index of the lane word that would issue next; with none queued, `lpc` as R79 leaves it. -/
def Wave.nextLpc (w : Wave) (q : List LBlock) : Nat :=
  match nextBlock q with
  | some b => b.start + b.pos
  | none => w.lpc

/-- A block of the queue changed. -/
def updBlock (id : Nat) (f : LBlock → LBlock) : List LBlock → List LBlock
  | [] => []
  | b :: bs => if b.id = id then f b :: bs else b :: updBlock id f bs

/-- Every fixed-latency result of the block's words is written and no lane atomic with `.acq` of it is open (R83, R296). -/
def Wave.blockDone (w : Wave) (b : LBlock) : Bool :=
  b.pos == b.count && w.pend.all (fun l => l.blk != some b.id) && w.ops.all (fun o => o.blk != some b.id || o.acq.isNone)

/-- Blocks that have finished leave the front of a queue (R83). -/
def Wave.pruneList (w : Wave) : List LBlock → List LBlock
  | [] => []
  | b :: bs => if w.blockDone b then w.pruneList bs else b :: bs

/-- Finished blocks leave both queues. -/
def Wave.prune (w : Wave) : Wave := { w with laneQ := w.pruneList w.laneQ, handQ := w.pruneList w.handQ }

/-- The unfinished blocks (`lbusy`, R83). -/
def Wave.lbusy (w : Wave) : Nat := (w.prune.queue).length

/-! ## Issue (R79, R108) -/

/-- A scalar word has issued: the scalar PC moves and the stream is next ready `k` cycles later. -/
def Wave.advance (w : Wave) (clk next k : Nat) : Wave :=
  { w with
    spc := next % 2 ^ 57, edge := .none
    sched := { w.sched with lastS := clk, readyS := clk + k, holdS := .none, nS := w.sched.nS + 1, spill := none } }

/-- A wave written back after its scalar word issued; the partition's scalar slot is taken in this cycle (R107). -/
def State.issuedS (s : State) (n : Nat) (w : Wave) : State :=
  let p := coreOfWave n
  let ps := lookD (s.core p).parts (partOfWave n) ⟨none, none, none, none, 0, 0⟩
  { ((s.setWave n w).onCore p fun c => { c with parts := put c.parts (partOfWave n) { ps with busyS := some (s.clk p) } })
    with fresh := s.fresh + 1, nextId := s.nextId + 1 }

/-- A scalar word that goes on to the next one, with the wave changed by `f`. -/
def State.step4 (s : State) (n : Nat) (w : Wave) (f : Wave → Wave) : State :=
  s.issuedS n ((f w).advance (s.clk (coreOfWave n)) (w.spc + 4) 1)

/-- A scalar word that does not issue in this cycle: nothing but the scheduler's view of it changes. -/
def State.holdS (s : State) (n : Nat) (w : Wave) (h : Hold) : State :=
  s.setWave n { w with sched := { w.sched with holdS := h, readyS := s.clk (coreOfWave n) + 1 } }

/-- A scalar word that a return-stack spill or refill of 12 cycles holds before it issues; the stall that has begun runs on (R88, R382). -/
def State.stallSpill (s : State) (n : Nat) (w : Wave) : State :=
  let clk := s.clk (coreOfWave n)
  let t := w.sched.spill.getD (clk + 12)
  s.setWave n { w with sched := { w.sched with holdS := .stall, readyS := max (clk + 1) t, spill := some t } }

/-- The stall of a spill or refill is over in cycle `clk`. -/
def Wave.spillOver (w : Wave) (clk : Nat) : Bool := w.sched.spill.any fun t => decide (t ≤ clk)

/-- A lane word that does not issue in this cycle. -/
def State.holdL (s : State) (n : Nat) (w : Wave) (h : Hold) : State :=
  s.setWave n { w with sched := { w.sched with holdL := h, readyL := s.clk (coreOfWave n) + 1 } }

/-! ## Counters (R119, R120) -/

/-- The operations of a counter that have not retired. -/
def Wave.count (w : Wave) (c : Ctr) : Nat := (w.ops.filter fun o => o.ctr == c).length

/-- The counter of a code (R119). -/
def Ctr.ofCode : Nat → Ctr
  | 0 => .ld | 1 => .st | 2 => .sf | 3 => .en | _ => .xc

/-- An operation changed. -/
def updOp (id : Nat) (f : OutOp → OutOp) : List OutOp → List OutOp
  | [] => []
  | o :: os => if o.id = id then f o :: os else o :: updOp id f os

/-- The complete operations at the front of a counter leave: retirement in issue order (R119). -/
def retire (c : Ctr) : List OutOp → List OutOp
  | [] => []
  | o :: os =>
    if o.ctr = c then (if o.need = 0 ∧ o.acq = none then retire c os else o :: os) else o :: retire c os

/-- The four counters of the consignment's slot on a core (R75). -/
inductive SlotCtr where
  | stores | cmds | remote | sends
deriving DecidableEq, Repr

/-- A slot's counter raised or lowered. -/
def CSlot.bump (c : CSlot) (k : SlotCtr) (up : Bool) : CSlot :=
  let g := fun n => if up then n + 1 else n - 1
  match k with
  | .stores => { c with stores := g c.stores }
  | .cmds => { c with cmds := g c.cmds }
  | .remote => { c with remote := g c.remote }
  | .sends => { c with sends := g c.sends }

/-- The consignment's slot on core `p` counts (R75). -/
def State.slotCount (s : State) (p cid : Nat) (k : SlotCtr) (up : Bool) : State :=
  s.onCore p fun c => { c with slots := c.slots.map fun x => if x.cid = cid then x.bump k up else x }

/-- Operations ordered before a scalar word: scalar ones, and lane ones of a block an `lwait` has covered (R85). -/
def Wave.beforeScalar (w : Wave) : List OutOp :=
  w.ops.filter fun o => o.blk.isNone || o.cov

/-- Operations ordered before a lane word of block `b`: lane ones, and scalar ones issued before its `lrun` (R85). -/
def Wave.beforeLane (w : Wave) (b : Nat) : List OutOp :=
  w.ops.filter fun o => o.blk.isSome || decide (o.id < b)

/-- A boundary at scope `sc` waits for an operation no more: its parts are done but for those in the host and peer windows, which it covers
only at `.sy` (R230). -/
def OutOp.doneFor (sc : Scope) (o : OutOp) : Bool := o.need == 0 || decide (o.need ≤ o.far) && sc.code != 5

/-- Every load, atomic, store, reduction, tag operation and `launch` of a list has completed as far as a release at `sc` covers it (R230,
R294). -/
def released (sc : Scope) (os : List OutOp) : Bool := os.all fun o => (o.ctr != .ld && o.ctr != .st) || o.doneFor sc

/-- Every read of a list has landed as far as an acquire at `sc` covers it (R230, R295). -/
def readsLanded (sc : Scope) (os : List OutOp) : Bool := os.all fun o => o.ctr != .ld || o.doneFor sc

/-- An access of a wave to a barrier or a wait pair that the wave itself does not wait for (R278, R280, R284). -/
def ReqKind.posted : ReqKind → Bool
  | .arrive _ _ | .join _ | .leave _ _ _ | .wake _ => true
  | _ => false

/-- A posted access of wave `n`, with a number that `before` allows, has not been performed; one to a peer counts at `.sy` until its answer
is back (R230, R289, R294). -/
def State.postedOpen (s : State) (n : Nat) (sc : Scope) (before : Nat → Bool) : Bool :=
  let mine := fun (r : Req) => r.wave == n && r.kind.posted && before r.id
  s.reqs.any (fun r => mine r && (decide (r.home < 4000) || sc.code == 5))
    || sc.code == 5 && s.peers.any fun e => e.2.out.any fun x => mine x.req

/-- A release at `sc` by a scalar word of wave `n` completes: every access ordered before it has been performed (R85, R294). -/
def State.releasedS (s : State) (n : Nat) (w : Wave) (sc : Scope) : Bool :=
  released sc w.beforeScalar && !s.postedOpen n sc fun _ => true

/-- The same for a lane word of block `b`. -/
def State.releasedL (s : State) (n : Nat) (w : Wave) (sc : Scope) (b : Nat) : Bool :=
  released sc (w.beforeLane b) && !s.postedOpen n sc fun i => decide (i < b)

/-- The removal that ends an acquire at `.bd` or wider (R295). -/
def State.acquire (s : State) (p : Nat) (sc : Scope) : State :=
  if 2 ≤ sc.code then s.onCore p fun c => { c with snap := [], scal := [] } else s

/-! ## Fences (R298, R299) -/

/-- Classes of R299, by bit. -/
inductive Cls where
  | r | w | cr | cw | mr | mw
deriving DecidableEq, Repr

/-- The bit of a class. -/
def Cls.bit : Cls → Nat
  | .r => 0 | .w => 1 | .cr => 2 | .cw => 3 | .mr => 4 | .mw => 5

/-- A fence still waits for something. -/
def Wave.fenceOpen (w : Wave) (clk : Nat) (f : FenceRec) : Bool :=
  w.ops.any (fun o => f.ops.contains o.id && o.need != 0)
    || w.cmds.any (fun c => f.cmds.any fun x => x.1 == c.id && (x.2.1 && c.writes || x.2.2 && c.reads))
    || decide (clk < f.rows)

/-- An access of class `c` must wait for a fence ordered before it; `blk` is its lane block (R298). -/
def Wave.fenced (w : Wave) (clk : Nat) (c : Cls) (blk : Option Nat) : Bool :=
  w.fences.any fun f => f.succ.getLsbD c.bit && w.fenceOpen clk f &&
    match blk with
    | none => true
    | some b => decide (f.id < b)

/-! ## Ring handles (R130) -/

/-- The ring handles as they stood at the start of cycle `clk`: what every wait on a handle sees (R130). -/
def Wave.ringsSeen (w : Wave) (clk : Nat) : Arr Ring := if w.ringsAt = some clk then w.rings0 else w.rings

/-- The cycle on the clock of the core of wave `n`; a saved context has none of its own. -/
def State.clkOf (s : State) (n : Nat) : Nat := if n < 147456 then s.clk (coreOfWave n) else 0

/-- The wave with its handles as a word that issues in cycle `clk` sees them. -/
def Wave.seen (w : Wave) (clk : Nat) : Wave := { w with rings := w.ringsSeen clk }

/-- The handles are about to change in cycle `clk`: how they stood is kept (R130). -/
def Wave.touchRings (w : Wave) (clk : Nat) : Wave :=
  if w.ringsAt = some clk then w
  else { w with rings0 := w.rings, ringsAt := some clk, rings := w.rings.map fun e => (e.1, { e.2 with own := 0, made := false }) }

/-- A ring handle of a wave changed in cycle `clk`, where it is valid. -/
def Wave.onRing (w : Wave) (clk q : Nat) (f : Ring → Ring) : Wave :=
  let w := w.touchRings clk
  match look w.rings q with
  | some r => { w with rings := put w.rings q (f r) }
  | none => w

/-- The lane stream's update of a handle: it comes before a `qinit` of the same cycle, which stands (R130). -/
def Wave.onRingL (w : Wave) (clk q : Nat) (f : Ring → Ring) : Wave := w.onRing clk q fun r => if r.made then r else f r

/-! ## Requests (R256, R269, R270) -/

/-- A request that writes, or that synchronises and so may. -/
def ReqKind.writes : ReqKind → Bool
  | .mem .load => false
  | _ => true

/-- A request touches the sector of a storage key. -/
def Req.inSector (r : Req) (key : Nat) : Bool := r.accs.any fun a => a.key / 32 == key / 32

/-- The requests on their way, waiting at their homes, or unanswered by a peer. -/
def State.openReqs (s : State) : List Req :=
  s.reqs ++ s.parked.map Parked.req ++ s.peers.flatMap fun e => e.2.out.map PeerOut.req

/-- The plain stores of core `p`'s waves to a sector that have not been performed, oldest first. -/
def State.storesTo (s : State) (p key : Nat) : List Req :=
  s.openReqs.filter fun r => r.pcore == p && r.kind == .mem .store && r.inSector key

/-- A request of wave `n` to a sector, other than a plain store, has not been answered: the snapshot serves the wave no read of that sector
before (R305; log 14). -/
def State.readsTo (s : State) (n key : Nat) : Bool := s.openReqs.any fun r => r.wave == n && r.kind != .mem .store && r.inSector key

/-- Some synchronising request of core `p` to a sector has not been performed. -/
def State.syncsTo (s : State) (p key : Nat) : Bool :=
  s.openReqs.any fun r => r.pcore == p && r.kind.writes && r.kind != .mem .store && r.inSector key

/-- A request from the operand log of wave `n` to the page of a virtual address has not been performed (R244). -/
def State.replaying (s : State) (n va : Nat) : Bool :=
  s.openReqs.any fun r => r.wave == n && r.replay && r.accs.any fun a => a.va / 4096 == va / 4096

/-- A sector of storage is held in the core's snapshot (R256). -/
def Core.held (c : Core) (key : Nat) : Option (List Byte) := look c.snap (key / 32)

/-- `n` bytes of a held sector. -/
def sectorNum (sec : List Byte) (key n : Nat) : Nat := ofBytes ((sec.drop (key % 32)).take n)

/-- Bytes of a sector replaced, from position `i`. -/
def patch : List Byte → Nat → List Byte → List Byte
  | sec, _, [] => sec
  | [], _, _ => []
  | _ :: xs, 0, b :: bs => b :: patch xs 0 bs
  | x :: xs, i + 1, bs => x :: patch xs i bs

/-- A store updates the sector where it is held (R256). -/
def Core.patchSnap (c : Core) (key : Nat) (bs : List Byte) : Core :=
  match c.held key with
  | some sec => { c with snap := put c.snap (key / 32) (patch sec (key % 32) bs) }
  | none => c

/-- A sector leaves the snapshot, and with it the scalar data cache (R256, R258). -/
def Core.dropSector (c : Core) (x : Nat) : Core := { c with snap := del c.snap x, scal := eraseNat c.scal x }

/-- An atomic, a reduction or a tag operation removes the sector (R269), and so does every other access that acts at its home, which a later
read of the wave may not fall behind (R305). -/
def Core.dropSnap (c : Core) (key : Nat) : Core := c.dropSector (key / 32)

/-- Sectors removed from a snapshot. -/
def Core.dropSectors (c : Core) : List Nat → Core
  | [] => c
  | x :: xs => (c.dropSector x).dropSectors xs

/-- What an engine writes leaves the snapshots of its own core and of core `q`, where the wave that issued its command now runs, so that a
read ordered after the write finds it (R300, R301, R306; log 24). -/
def State.engineWrote (s : State) (p q : Nat) (cells : List Host.Cell) : State :=
  let xs := (cells.map fun x => x.1 / 32).dedup
  let f := fun (c : Core) => if c.snap.isEmpty then c else c.dropSectors xs
  (s.onCore p f).onCore q f

/-- A request put on its way. -/
def State.send (s : State) (r : Req) : State :=
  { s with reqs := s.reqs ++ [{ r with id := s.nextId, born := s.now }], nextId := s.nextId + 1 }

/-- A request from wave or unit `n` of physical core `p` to a home. -/
def Req.make (n cid p home op : Nat) (k : ReqKind) (size : Nat) (as : List Acc) : Req where
  id := 0
  wave := n
  cid := cid
  pcore := p
  home := home
  op := op
  kind := k
  size := size
  accs := as
  refusals := []
  tickets := []
  retryAt := 0
  born := 0
  replay := false
  spc := 0
  lpc := 0

/-- A request of wave `n` for operation `op`. -/
def mkReq (n cid op : Nat) (k : ReqKind) (size : Nat) (as : List Acc) : Req :=
  Req.make n cid (coreOfWave n) (homeOf ((as.head?.map Acc.key).getD 0)) op k size as

/-- An answer to operation `op` of wave `n` of core `p`: the lanes' values, those that failed, and whether with an uncorrectable error. -/
def Resp.make (n cid p op : Nat) (vals : List (Nat × Word)) (failed : List (Nat × Nat)) (ue stores far : Bool) : Resp where
  wave := n
  cid := cid
  pcore := p
  op := op
  vals := vals
  failed := failed
  ue := ue
  ack := none
  phase := stores
  code := none
  far := far
  behind := []
  notBefore := 0

/-- A storage key in the host window or in a peer window (R230). -/
def farKey (k : Nat) : Bool := keyIsHost k || keyIsPeer k

/-- The accesses of one number each in a group, in lane order; the groups in order of their first lane. -/
def groupAccs (f : Acc → Nat) (as : List Acc) : List (List Acc) :=
  as.foldl (fun gs a =>
    if gs.any (fun g => g.any fun z => f z == f a)
    then gs.map fun g => if g.any (fun y => f y == f a) then g ++ [a] else g
    else gs ++ [[a]]) []

/-- The accesses grouped by sector (R256). -/
def bySector (as : List Acc) : List (List Acc) := groupAccs (fun a => a.key / 32) as

/-- The pass that serves an access to a core's own scratchpad: how many other bank words of its bank the lanes before it name first; a bank
holds every 32nd word of 8 bytes (R255). -/
def bankPass (words : List Nat) (a : Acc) : Nat :=
  ((words.takeWhile fun x => x != a.key / 8).filter fun x => x % 32 == a.key / 8 % 32).length

/-- The accesses of a lane word to its core's own scratchpad, grouped by the passes of the banks (R255). -/
def byPass (as : List Acc) : List (List Acc) := groupAccs (bankPass ((as.map fun a => a.key / 8).eraseDups)) as

/-! ## The error log (R405, R406) -/

/-- An entry comes before another of its cycle: by physical core, then by wave slot (R406). -/
def LogRec.before (a b : LogRec) : Bool := decide (a.pcore < b.pcore) || a.pcore == b.pcore && decide (a.slot < b.slot)

/-- An entry in its place among those of its cycle (R406). -/
def insertRec (r : LogRec) : List LogRec → List LogRec
  | [] => [r]
  | x :: xs => if r.before x then r :: x :: xs else x :: insertRec r xs

/-- Sequence numbers from `n` on (R405). -/
def numberRecs : Nat → List LogRec → List LogRec
  | _, [] => []
  | n, r :: rs => { r with seq := n } :: numberRecs ((n + 1) % 2 ^ 32) rs

/-- The entries that a die's log has taken in cycle `c`. -/
def Die.entriesOf (d : Die) (c : Nat) : List LogRec := if d.recentAt = c then d.recent else []

/-- An entry written into a die's log in cycle `c`: the entries of one cycle stand in the order of R406, each under the number that HEAD had
for it. -/
def Die.record (d : Die) (c : Nat) (r : LogRec) : Die :=
  let old := d.entriesOf c
  let l := numberRecs ((d.head + 2 ^ 32 - old.length) % 2 ^ 32) (insertRec r old)
  { d with
    log := l.foldl (fun m x => put m (x.seq % 64) x) d.log
    recent := l
    recentAt := c
    ovf := d.ovf || decide (64 ≤ (d.head + 2 ^ 32 - d.rd) % 2 ^ 32)
    head := (d.head + 1) % 2 ^ 32 }

/-- Writes an entry into a die's log and raises the fault relay's interrupt (R406; log 54 on the cycle). -/
def State.log (s : State) (d : Nat) (r : LogRec) : State :=
  let s := s.onDie d fun x => x.record (s.now / 12) { r with ns := s.nsc }
  { s with events := s.events ++ [(0, d)] }

/-- The manifest's tag, or zero (R405). -/
def State.tagOf (s : State) (cid : Nat) : Word := match s.con cid with
  | some c => c.man.tag
  | none => 0

/-- An entry about a wave. -/
def State.logWave (s : State) (n : Nat) (w : Wave) (addr cause : Nat) (va conv nest : Bool) : State :=
  s.log (dieOf (coreOfWave n))
    ⟨addr, w.ctl.xspc.toNat, w.ctl.xlpc.toNat, w.lcore, coreOfWave n, n % 96, 0, cause, va, conv, nest, 0, s.tagOf w.cid, 0⟩

/-- An entry about an engine, a home, a link or the placement (R405, R407). -/
def State.logUnit (s : State) (d addr spc core pcore src cause cid : Nat) (va : Bool) : State :=
  s.log d ⟨addr, spc, 0, core, pcore, 255, src, cause, va, false, false, 0, s.tagOf cid, 0⟩

/-- A consignment's error flag set (R78). -/
def State.flagError (s : State) (cid : Nat) : State := s.onCon cid fun c => { c with error := true }

/-! ## Wait pairs (R282-R284) -/

/-- The name of a node in a link word. -/
def Node.name (x : Node) : Nat := x.lcore * 256 + x.node

/-- The nodes from one on, along their next links. -/
def chainFrom (ns : List Node) (key : Nat) : Nat → Nat → Option (List Node)
  | 0, _ => none
  | f + 1, i =>
    match ns.find? fun x => x.key == key && x.name == i with
    | none => none
    | some x => match x.next with
      | none => some [x]
      | some j => (chainFrom ns key f j).map (x :: ·)

/-- The waiters of a well-formed link word in order; `none` for a malformed one (R283). -/
def linked (s : State) (key : Nat) : Option (List Node) :=
  let v := s.num 8 (key + 8)
  if v = 0xFFFFFFFFFF then some []
  else match chainFrom s.nodes key (s.nodes.length + 1) (v % 2 ^ 20) with
    | none => none
    | some ns =>
      if (ns.getLast?.map Node.name) = some (v / 2 ^ 20 % 2 ^ 20) ∧ ns.length = v / 2 ^ 40 % 2 ^ 16 ∧ v / 2 ^ 56 = 0
      then some ns else none

/-- The link word of a queue (R282). -/
def linkWord : List Node → Nat
  | [] => 0xFFFFFFFFFF
  | x :: xs => x.name + ((x :: xs).getLast?.map Node.name).getD 0 * 2 ^ 20 + (xs.length + 1) * 2 ^ 40

/-- The nodes of a queue with their next links set. -/
def setLinks : List Node → List Node
  | [] => []
  | [x] => [{ x with next := none }]
  | x :: y :: xs => { x with next := some y.name } :: setLinks (y :: xs)

/-- A queue written: its nodes and the link word. -/
def State.putQueue (s : State) (key : Nat) (old new : List Node) : State :=
  let s := s.writeNum 8 (key + 8) (linkWord new)
  { s with nodes := s.nodes.filter (fun x => !old.contains x) ++ setLinks new }

/-- A waiter's node unlinked; a node that the link word no longer reaches is freed and the word left (R283). -/
def State.unlink (s : State) (n key : Nat) : State :=
  let mine := fun (x : Node) => x.wave == n && x.key == key
  match linked s key with
  | some ns =>
    if ns.any mine then s.putQueue key ns (ns.filter fun x => !mine x)
    else { s with nodes := s.nodes.filter fun x => !mine x }
  | none => { s with nodes := s.nodes.filter fun x => !mine x }

/-- Every node of a wave unlinked (R283). -/
def State.unlinkAll (s : State) (n : Nat) : List Node → State
  | [] => s
  | x :: xs => (if x.wave = n then s.unlink n x.key else s).unlinkAll n xs

/-! ## Stopping a wave (R74, R281, R329, R368) -/

/-- The first address of a list of barriers that cannot be placed now because of a page fault. -/
def leaveFault (s : State) (c : Cons) (p : Nat) : List Member → Option Nat
  | [] => none
  | m :: ms => match place s c p m.addr.toNat .write with
    | .fault => some m.addr.toNat
    | _ => leaveFault s c p ms

/-- The leave that each entry of a membership list sends; a violation sends none and is logged with the error flag
(R281). -/
def sendLeaves (s : State) (n : Nat) (w : Wave) (c : Cons) : List Member → State
  | [] => s
  | m :: ms =>
    let p := coreOfWave n
    match place s c p m.addr.toNat .write with
    | .at k => sendLeaves
        ((s.send { mkReq n w.cid 0 (.leave m.count m.arrived m.phase) 8 [⟨0, k, m.addr.toNat, 0, 0⟩] with
          spc := w.spc, lpc := w.nextLpc w.queue }).slotCount
          p w.cid .remote true) n w c ms
    | _ => sendLeaves ((s.logWave n w m.addr.toNat 4 true false false).flagError w.cid) n w c ms

/-- A wave of a consignment is on core `p`. -/
def State.wavesOn (s : State) (p cid : Nat) : Bool := s.waves.any fun e => e.1 / 96 == p && e.2.cid == cid && match e.2.life with
  | .draining _ => false
  | _ => true

/-- When the last wave of a consignment on a core has gone, its open tables there close as if their timers had passed (R329): what
follows is TABLE_TIMEOUT and TABLE_CLOSE. -/
def closeTables (s : State) (p cid : Nat) : State :=
  if s.wavesOn p cid then s
  else s.onCore p fun c =>
    { c with rt := { c.rt with tables := c.rt.tables.map fun e =>
        if e.2.owner = cid ∧ (e.2.state = .opened ∨ e.2.state = .routing) then (e.1, { e.2 with closing := true }) else e } }

/-- Split entries and convoy roles that name a wave which leaves for good (R99, R103). -/
def dropSplits (s : State) (n : Nat) : State :=
  { s with cores := s.cores.map fun e =>
      (e.1, { e.2 with chan := { e.2.chan with splits := e.2.chan.splits.filter fun x => x.wave ≠ n } }) }

/-- The log entry of an access answered with an error (R246, R253, R405). -/
def State.logError (s : State) (n cid : Nat) (o : Option OutOp) (failed : List (Nat × Nat)) (ue virt : Bool) : State :=
  let lcore := match s.wave n with
    | some w => w.lcore
    | none => 0xFFFF
  s.log (dieOf (coreOfWave n)) ⟨(failed.map Prod.snd).min?.getD 0, (o.map OutOp.spc).getD 0, (o.map OutOp.lpc).getD 0, lcore,
    coreOfWave n, n % 96, 0, if ue then 5 else 4, virt, false, false, 0, s.tagOf cid, 0⟩

/-- The log entries of the failed lanes of a list of operations: one for each code (R246; log 23). -/
def State.logOps (s : State) (n cid : Nat) : List OutOp → State
  | [] => s
  | o :: os =>
    let one := fun (s : State) (ue : Bool) =>
      let fs := (o.failed.filter fun e => e.2.2 == ue).map fun e => (e.1, e.2.1)
      if fs.isEmpty then s else s.logError n cid (some o) fs ue true
    (one (one s false) true).logOps n cid os

/-- A killed wave's requests that only wait are withdrawn: an `await`, a `waitaddr`, and what an `arrive.wait` does after its arrive (R283,
R368). -/
def State.dropWaits (s : State) (n : Nat) : State :=
  { s with reqs := s.reqs.filterMap fun r =>
      if r.wave ≠ n then some r else match r.kind with
        | .await _ => none
        | .waitaddr _ => none
        | .arrive k true => some { r with kind := .arrive k false }
        | _ => some r }

/-- The operation of a `launch` that a wave is parked in (R71). -/
def Park.launchOp : Park → Option Nat
  | .launch op _ _ => some op
  | _ => Option.none

/-- A wave killed while it is parked in a `launch` submits nothing: the operation is over (R71, R75). -/
def State.dropLaunch (s : State) (n : Nat) : State :=
  match s.wave n with
  | none => s
  | some w => match w.park.launchOp.or w.under.launchOp with
    | none => s
    | some op => (s.setWave n { w with ops := w.ops.filter fun o => o.id != op }).slotCount (coreOfWave n) w.cid .stores false

/-- The wave stops and its rows drain (R74): it leaves its barriers, its own part in convoys ends, its offers and
waiting requests are withdrawn when it is killed, and the consignment counts it (R77). Lanes in its operand log are still served. -/
def State.stopWave (s : State) (n : Nat) (w : Wave) (killed : Bool) : State :=
  match s.con w.cid with
  | none => s.setWave n { w with life := .draining killed }
  | some c =>
    let p := coreOfWave n
    let s := (sendLeaves (if killed then s.dropWaits n else s) n w c w.members).logOps n w.cid w.ops
    let lost := s.parked.filter fun q => killed && q.req.wave == n
    let gone := (s.offers.filter fun o => killed && o.wave == n && o.pair.isNone).map Offer.op ++ lost.map fun q => q.req.op
    let s := s.setWave n { w with
      life := .draining killed, members := [], park := .none, under := .none, laneQ := [], handQ := []
      convoy := { w.convoy with role := .none, leaving := none, arriving := none, hops := [], fifo := [] }
      ops := (w.ops.filter fun o => !gone.contains o.id).map fun o => { o with failed := [] }
      pend := [] }
    let s := { s with
      offers := s.offers.filter fun o => !(o.wave == n && gone.contains o.op)
      parked := s.parked.filter fun q => !(killed && q.req.wave == n) }
    let s := s.unlinkAll n s.nodes
    let s := lost.foldl (fun s q => if q.req.kind == .mem .stfe then s.slotCount p w.cid .stores false else s) s
    let s := s.onCon w.cid fun c => { c with
      live := c.live - 1
      exited := if killed then c.exited else c.exited + 1
      killed := if killed then c.killed + 1 else c.killed
      error := c.error || killed || w.ops.any fun o => !o.failed.isEmpty }
    closeTables (dropSplits s n) p w.cid

/-- A wave that ends waits for the acknowledgements of its arrives, and for the service of a page fault on a barrier it
leaves (R281). -/
def State.finishExit (s : State) (n : Nat) (w : Wave) (killed : Bool) : State :=
  let wait := s.setWave n { w with life := .exiting killed, park := .none, under := .none }
  match s.con w.cid with
  | none => s.stopWave n w killed
  | some c =>
    if w.acks ≠ [] then wait
    else match leaveFault s c (coreOfWave n) w.members with
      | some va => if wait.faults.contains (.wave n c.aspace va) then wait else { wait with faults := wait.faults ++ [.wave n c.aspace va] }
      | none => s.stopWave n w killed

/-- The published words that a wave has begun and that a stall or a dependence holds. -/
def Wave.begun (w : Wave) : List Pub :=
  let at_ := fun (lane : Bool) (h : Hold) => match h with
    | .stall | .long => w.convoy.fifo.find? fun q => q.lane == lane
    | _ => none
  let s := at_ false w.sched.holdS
  let l := at_ true w.sched.holdL
  w.convoy.fifo.filter fun q => s == some q || l == some q

/-- A channel-abort trap held for a wave: its wait for its lead's stream ends, whatever has still to reach it, and a word that it has begun
and that stalls goes on first (R103, R361). -/
def Wave.abort (w : Wave) (lcore : Nat) : Wave :=
  { w with
    ctl := { w.ctl with held := w.ctl.held ++ [⟨8, false, BitVec.ofNat 64 lcore, 0, 0, none⟩] }
    park := match w.park with
      | .channel => .none
      | .rdvMember _ _ => .none
      | x => x
    sched := { w.sched with
      holdS := if w.sched.holdS = .stream then .none else w.sched.holdS
      holdL := if w.sched.holdL = .stream then .none else w.sched.holdL }
    convoy := { w.convoy with role := .none, fifo := w.begun, hops := [], leaving := none, arriving := none } }

/-- A wave's part in the stream of lead `lw` on channel `lcore`: subscribed to it, departed from it with its entry written or on its way, or
pending on the channel (R103). -/
def Wave.follows (w : Wave) (cid lcore gen : Nat) : Bool := w.cid == cid && match w.convoy.role with
  | .member c => c == lcore && w.convoy.gen == gen
  | .departed c => c == lcore && w.convoy.gen == gen
  | .pending c _ _ => c == lcore
  | _ => false

/-- A killed lead (R103): its channel is free and its split table empty; members, waves with an entry or with one on its way, and pending
subscribers take channel-abort traps, held for their next boundary; a wait for the lead's stream ends. -/
def State.abortChannel (s : State) (n cid lcore : Nat) : State :=
  let ch := (s.core (coreOfWave n)).chan
  if ch.lead ≠ some n then s else
  let s := s.onCore (coreOfWave n) fun c => { c with chan := ⟨none, [], 0, ch.gen, 0⟩ }
  { s with waves := s.waves.map fun e => if e.2.follows cid lcore ch.gen then (e.1, e.2.abort lcore) else e }

/-- The other members of a width convoy whose lead is killed take channel aborts too (R103, R105). Such a convoy has no channel, and the manual
gives the trap's `xaddr` as the channel (R358): the model's value is 0 (log 61). -/
def State.abortWidth (s : State) (n : Nat) : State :=
  { s with waves := s.waves.map fun e =>
      match e.2.convoy.width with
      | some (lead, _, _) => if lead = n ∧ e.1 ≠ n then (e.1, e.2.abort 0) else e
      | none => e }

/-- A wave is killed (R368): logged with its cause (VA where R358 gives that cause an address), error flag set, stopped as by R74 once its arrives are
acknowledged (R281). -/
def State.kill (s : State) (n cause addr : Nat) (nest : Bool) : State :=
  match s.wave n with
  | none => s
  | some w =>
    let s := s.logWave n w addr cause (decide (3 ≤ cause) && decide (cause ≤ 5)) (w.ctl.xcause.getLsbD 10) nest
    let s := s.flagError w.cid
    let s := ((s.abortChannel n w.cid w.lcore).abortWidth n).dropLaunch n
    match s.wave n with
    | none => s
    | some w => s.finishExit n w true

/-! ## Taking an exception (R358-R368) -/

/-- Everything in flight lands at once: fixed-latency results and special functions (the drain of R364). A lane
result that raises an enabled exception is held as an asynchronous trap (R361). -/
def State.drain (s : State) (n : Nat) : State :=
  match s.wave n with
  | none => s
  | some w =>
    let ls := w.pend
    let s := s.setWave n { w with pend := [] }
    let sfs := w.ops.filterMap fun o => match o.dest with
      | .vals d => if o.ctr == Ctr.sf && o.need != 0
          then some (⟨s.clk (coreOfWave n), true, o.id, o.blk, d, o.flags, 0, 0, 0⟩ : Landing) else none
      | _ => none
    let s := (ls ++ sfs).foldl (fun s l => s.landOne n l) s
    let traps := (ls.filter fun l => l.raised != 0).map fun l =>
      (⟨6, true, 0, l.raised, l.trig, none⟩ : HeldTrap)
    s.onWave n fun w =>
      ({ w with ops := w.ops.filter (fun o => o.ctr != Ctr.sf), landed := [], ctl := { w.ctl with held := w.ctl.held ++ traps } }).prune

/-- What a trap brings (R358, R359). `lpc` is the trapping lane word or the lane PC to resume at, `blk` the block
that a floating-point trap winds back to its word. -/
structure TrapInfo where
  code  : Nat
  lane  : Bool
  async : Bool
  arg   : Nat
  addr  : Word
  mask  : Word
  trig  : BitVec 5
  lpc   : Option Nat
  blk   : Option Nat

/-- The bits of `xcause` (R359). -/
def causeWord (t : TrapInfo) (conv nest : Bool) : Word :=
  BitVec.ofNat 64 (t.code % 256 + t.lane.toNat * 256 + t.async.toNat * 512 + conv.toNat * 1024 + nest.toNat * 2048
    + t.arg % 65536 * 65536)

/-- The block `id` set to issue lane word `k` next; with none, the queue as it is (R360, R367). -/
def rewind (id : Option Nat) (k : Nat) (q : List LBlock) : List LBlock :=
  match id with
  | some i => updBlock i (fun b => { b with pos := k - b.start }) q
  | none => q

/-- The cause registers and the stop point of a trap (R359, R360): `k` is the lane word of `xlpc`. -/
def Wave.noteTrap (w : Wave) (t : TrapInfo) (k : Nat) (conv nest : Bool) : Wave :=
  { w with ctl := { w.ctl with
      xcause := causeWord t conv nest, xmask := t.mask, xaddr := t.addr, xspc := BitVec.ofNat 64 w.spc, xlpc := BitVec.ofNat 24 k } }

/-- Both things that a wave's scalar stream may wait for changed: its park, and the one that a handler has interrupted (R364). -/
def Wave.onParks (w : Wave) (f : Park → Park) : Wave := { w with park := f w.park, under := f w.under }

/-- The wait of the scalar stream is over, or the one that a handler has interrupted (R364). -/
def Wave.parkOver (w : Wave) (under : Bool) : Wave := if under then { w with under := .none } else { w with park := .none }

/-- What the scalar stream waits for when a trap of the lane stream interrupts it: a wait whose word has issued goes on under the handler; a
word that has not issued is tried again after the handler's return (R360, R364; log 16). -/
def Park.kept : Park → Park
  | .translate _ | .pageFault _ _ | .channel | .rdvLead _ _ _ | .rdvMember _ _ => .none
  | p => p

/-- A trap of a hazard or a breakpoint goes to the debugger that holds the consignment (R358): the wave stops at the word, with the cause
registers and the stop point written, until the debugger lets it go on (log 44). -/
def toDebugger (c : Cons) (code : Nat) : Bool := c.debugger && (code == 7 || code == 10)

/-- Taking a trap, the one entry for every cause (R358, R360, R364, R366): the saved registers are written, the mode
changes and the scalar PC goes to the handler; without a handler, in handler mode, or with a handler address that
is misaligned or outside `.scalar`, the wave is killed. A subscribed member leaves its convoy (R104). -/
def State.takeTrap (s : State) (n : Nat) (t : TrapInfo) : State :=
  match s.wave n with
  | none => s
  | some w =>
    match s.con w.cid with
    | none => s
    | some c =>
      let wasMember := match w.convoy.role with
        | .member _ => true
        | _ => false
      let conv := wasMember && w.convoy.width.isNone
      let k := t.lpc.getD (w.nextLpc w.queue)
      let good := !w.ctl.hmode && (match w.ctl.handler with
        | some h => h % 4 == 0 && decide (c.obj.scalarBase ≤ h) && decide (h < c.obj.scalarBase + c.obj.scalarSize)
        | none => false)
      let nest := w.ctl.hmode
      if toDebugger c t.code then
        s.setWave n { w.noteTrap t k false false with life := .halted, sched := { w.sched with active := false, holdS := .none, holdL := .none } }
      else
      let w := if nest then w else { w with
        laneQ := rewind t.blk k w.laneQ
        convoy := if conv then { w.convoy with
            role := (match w.convoy.role with
              | .member ch => .departed ch
              | r => r)
            fifo := [], hops := []
            leaving := some (w.spc, w.convoy.homeTag, s.clk (coreOfWave n) + w.convoy.skew) }
          else { w.convoy with trapAt := if t.async then none else some (t.lane, if t.lane then k else w.spc) } }
      if !good then
        (s.setWave n (w.noteTrap t k conv nest)).kill n t.code t.addr.toNat nest
      else
        let q := w.laneQ
        let blk := match nextBlock q with
          | some b => (some b.id, b.start, b.start + b.count)
          | none => (none, k, k)
        let due := w.pend.foldl (fun m l => max m l.due) (s.clk (coreOfWave n))
        let s := (s.setWave n w).drain n
        s.onWave n fun v => let w := v.noteTrap t k conv nest; { w with
          park := .none
          under := w.park.kept
          ctl := { w.ctl with
            hmode := true, trapBlk := some blk
            fpflags := if t.code = 6 then (w.ctl.fpflags &&& 0x1F) ||| ((t.trig.setWidth 13) <<< 8) else w.ctl.fpflags }
          spc := w.ctl.handler.getD 0
          sched := { w.sched with readyS := due + 1, holdS := .none, holdL := .none, spill := none } }

/-- A synchronous trap at the scalar word that is issuing; the scalar PC stays at it (R51, R360). -/
def State.trapS (s : State) (n code : Nat) (addr : Word) (mask : Word) (arg : Nat) : State :=
  s.takeTrap n ⟨code, false, false, arg, addr, mask, 0, none, none⟩

/-- A synchronous trap at the lane word that is issuing (R51, R360). -/
def State.trapL (s : State) (n code : Nat) (addr : Word) (mask : Word) : State :=
  s.takeTrap n ⟨code, true, false, 0, addr, mask, 0, none, none⟩

/-- An asynchronous trap held until its boundary (R361). -/
def State.holdTrap (s : State) (n : Nat) (h : HeldTrap) : State :=
  s.onWave n fun w => { w with ctl := { w.ctl with held := w.ctl.held ++ [h] } }

/-- The held trap of the lowest code (R361). -/
def lowestTrap : List HeldTrap → Option HeldTrap
  | [] => none
  | h :: hs => match lowestTrap hs with
    | some x => if x.code < h.code then some x else some h
    | none => some h

/-- A channel abort that kills a member of a width convoy: the wave is logged with this trap's cause and stop point, and the error flag is
set (R105, R360, R368). -/
def State.abortKill (s : State) (n addr : Nat) : State :=
  (s.onWave n fun w => w.noteTrap ⟨8, false, true, 0, BitVec.ofNat 64 addr, 0, 0, none, none⟩ (w.nextLpc w.queue) false false).kill
    n 8 addr false

/-- No stall, dependence or park holds the stream of a held trap (R361). -/
def Wave.freeFor (w : Wave) (h : HeldTrap) : Bool :=
  if h.lane then w.sched.holdL == .none else w.sched.holdS == .none && w.park == .none

/-- The held trap of the lowest code whose stream is free is taken, if the wave is outside its handler; in a
width convoy a channel abort kills (R105, R358, R361). -/
def State.takeHeld (s : State) (n : Nat) : State :=
  match s.wave n with
  | none => s
  | some w =>
    if w.ctl.hmode || w.life ≠ .running then s else
    match lowestTrap (w.ctl.held.filter w.freeFor) with
    | none => s
    | some h =>
      let s := s.setWave n { w with ctl := { w.ctl with held := w.ctl.held.erase h } }
      if h.code = 8 ∧ w.convoy.width.isSome then s.abortKill n h.addr.toNat
      else s.takeTrap n ⟨h.code, h.lane, true, 0, h.addr, h.mask, h.trig, h.lpc, none⟩

/-- The return from a handler (R367): the streams resume at `xspc` and `xlpc`, a skip past the trapping word of a
synchronous trap; a resume point that fails its check kills the wave with cause 0x16. A word that is to issue again keeps its mark for
R95; in a member of a width convoy one that is passed over keeps it too (log 20). -/
def State.leaveHandler (s : State) (n : Nat) (w : Wave) (c : Cons) (skip : Bool) : State :=
  let async := w.ctl.xcause.getLsbD 9
  let lane := w.ctl.xcause.getLsbD 8
  let sp := if skip && !async && !lane then (w.ctl.xspc.toNat + 4) % 2 ^ 57 else w.ctl.xspc.toNat
  let k := if skip && !async && lane then w.ctl.xlpc.toNat + 1 else w.ctl.xlpc.toNat
  let blk := w.ctl.trapBlk.getD (none, k, k)
  let again := w.convoy.trapAt == some (lane, if lane then k else sp)
  let w := { w with
    park := w.under
    under := .none
    ctl := { w.ctl with hmode := false, trapBlk := none }
    convoy := { w.convoy with trapAt := if again || w.convoy.width.any (fun x => x.2.1 != 0) then w.convoy.trapAt else none } }
  if sp % 4 = 0 ∧ c.obj.scalarBase ≤ sp ∧ sp < c.obj.scalarBase + c.obj.scalarSize ∧ blk.2.1 ≤ k ∧ k ≤ blk.2.2 then
    let w := { w with laneQ := rewind blk.1 k w.laneQ, lpc := k }
    s.issuedS n ((w.prune).advance (s.clk (coreOfWave n)) sp 1)
  else (s.setWave n w).kill n 0x16 w.ctl.xaddr.toNat false

/-- A late-rendezvous trap of a wave that waits in its `rdv` or has just tried it (R102, R358). -/
def State.lateRdv (s : State) (n tag : Nat) : State :=
  (s.onWave n fun w => { w with park := .none, convoy := { w.convoy with role := .none } }).trapS n 9
    (BitVec.ofNat 64 tag) 0 0

/-- Late-rendezvous traps of the waves of a list that wait in their `rdv`; the others lose their entry (R103). -/
def State.loseSplits (s : State) : List Nat → State
  | [] => s
  | m :: ms =>
    match s.wave m with
    | some w => match w.park with
      | .rdvMember tag _ => (s.lateRdv m tag).loseSplits ms
      | _ => (s.setWave m { w with convoy := { w.convoy with role := .lost, leaving := none, arriving := none } }).loseSplits ms
    | none => s.loseSplits ms

/-- A lead that exits (R103): its channel is free and its split table is cleared. -/
def State.endLead (s : State) (n : Nat) : State :=
  let p := coreOfWave n
  match s.wave n with
  | none => s
  | some w =>
    if (s.core p).chan.lead ≠ some n then s else
    (s.onCore p fun c => { c with chan := ⟨none, [], 0, c.chan.gen, 0⟩ }).loseSplits
      ((s.waves.filter fun e => e.2.cid == w.cid && e.2.convoy.role == .departed w.lcore).map Prod.fst)

/-! ## Landing in time (R114, R150) -/

/-- The results due by now land in order; an enabled exception that one raises is a trap at its word (R150). -/
def State.settleList (s : State) (n clk : Nat) : List Landing → State
  | [] => s.onWave n fun w => { w with pend := [] }
  | l :: ls =>
    if l.due ≤ clk then
      let s := s.landOne n l
      if l.raised != 0 then
        (s.onWave n fun w => { w with pend := ls }).takeTrap n ⟨6, true, false, 0, 0, l.raised, l.trig, some l.lpcAt, l.blk⟩
      else s.settleList n clk ls
    else s.onWave n fun w => { w with pend := l :: ls }

/-- Wave `n` brought up to the present cycle: results land and finished blocks leave the lane queue (R83, R114). -/
def State.settle (s : State) (n : Nat) : State :=
  match s.wave n with
  | none => s
  | some w => (s.settleList n (s.clk (coreOfWave n)) w.pend).onWave n Wave.prune

/-- A result that comes in the present cycle lands: those of the cycle that are ordered after it stay (R116). -/
def State.landNow (s : State) (n : Nat) (l : Landing) : State :=
  (((s.settle n).landOne n l).reland n l.due fun x => l.before x)

/-- Wave `n` changed after the results that are due have landed, so that none of them overwrites the change (R116, R149). -/
def State.onSettled (s : State) (n : Nat) (f : Wave → Wave) : State := (s.settle n).onWave n f

/-! ## The hazard checker (R118) -/

/-- The manifest's DEBUG flag. -/
def Cons.debug (c : Cons) : Bool := c.man.flags % 2 == 1

/-- Scalar register `n` has a result aimed at it that is not in it at cycle `clk`. -/
def Wave.lateS (w : Wave) (clk n : Nat) : Bool :=
  n != 0 && (w.pend.any (fun l => (l.toS n).isSome && decide (clk < l.due))
    || w.ops.any fun o => o.need != 0 && match o.dest with
      | .sreg m _ _ => m == n
      | _ => false)

/-- The first register that a scalar word reads early, or that its result would reach before an older one (R118). -/
def Wave.hazardS (w : Wave) (clk : Nat) (reads : List Nat) (dst : Option (Nat × Nat)) : Option Nat :=
  match reads.find? (w.lateS clk) with
  | some n => some n
  | none => match dst with
    | some (d, lat) => if w.lateS (clk + lat) d then some d else none
    | none => none

/-! ## The frame of a scalar word -/

/-- A scalar word of the current wave: the register checks in field order, then the hazard checker under DEBUG, then
its effect. `fields` are the scalar registers it names in word order, `reads` those it reads. -/
def scalarWord (s : State) (fields reads : List Nat) (dst : Option (Nat × Nat)) (body : Wave → Cons → State) : Out :=
  match s.wave s.cur with
  | none => .next s
  | some w => match s.con w.cid with
    | none => .next s
    | some c =>
      match w.badS fields with
      | some f => .next (s.trapS s.cur 2 (BitVec.ofNat 64 f) 0 0)
      | none =>
        match if c.debug then w.hazardS (s.clk (coreOfWave s.cur)) reads dst else none with
        | some f => .next (s.trapS s.cur 7 (BitVec.ofNat 64 f) 0 0)
        | none => .next (body w c)

/-- The wave's read of a scalar register in this step. -/
def State.rS (s : State) (w : Wave) (n : Nat) : Word := w.readS s.fresh (s.clk (coreOfWave s.cur)) n

/-- The cycle of this step on the current wave's clock. -/
def State.clkCur (s : State) : Nat := s.clk (coreOfWave s.cur)

end Sys2Proof.Machine
end

