-- ==== Sys2Proof/Machine/Flags.lean ====
section
/-! DEFINITION. Number formats, rounding, special values, conversions and the exception flags they raise
(R131-R149). -/

namespace Sys2Proof

/-! ## Formats (R131, R132) -/

/-- A floating-point format: mantissa bits, exponent of the smallest normal, place of the sign bit, and the magnitude
bits of the largest finite value, of infinity and of the canonical NaN. -/
structure Fmt where
  man    : Nat
  emin   : Int
  sign   : Nat
  maxFin : Nat
  inf    : Option Nat
  nan    : Option Nat
deriving DecidableEq, Repr

/-- FP32. -/
def fmtF32 : Fmt := ⟨23, -126, 31, 0x7F7FFFFF, some 0x7F800000, some 0x7FC00000⟩

/-- The format of a floating-point type; any other type has FP32's (never asked for). -/
def Ty.fmt : Ty → Fmt
  | .f16 => ⟨10, -14, 15, 0x7BFF, some 0x7C00, some 0x7E00⟩
  | .bf16 => ⟨7, -126, 15, 0x7F7F, some 0x7F80, some 0x7FC0⟩
  | .e5m2 => ⟨2, -14, 7, 0x7B, some 0x7C, some 0x7E⟩
  | .e4m3 => ⟨3, -6, 7, 0x7E, none, some 0x7F⟩
  | .e3m2 => ⟨2, -2, 5, 0x1F, none, none⟩
  | .e2m3 => ⟨3, 0, 5, 0x1F, none, none⟩
  | .e2m1 => ⟨1, 0, 3, 0x7, none, none⟩
  | _ => fmtF32

/-- The floating-point types of R131. -/
def Ty.isFloat : Ty → Bool
  | .f32 | .f16 | .bf16 | .e4m3 | .e5m2 | .e3m2 | .e2m3 | .e2m1 => true
  | _ => false

/-- The signed integer types of R134. -/
def Ty.signed : Ty → Bool
  | .i4 | .i8 | .i16 | .i32 => true
  | _ => false

/-- A type whose elements are integers for the purposes of R143. -/
def Ty.isIntSource : Ty → Bool
  | .i4 | .i8 | .i16 | .i32 | .n4 | .n8 | .n16 | .n32 | .t2 => true
  | _ => false



/-! ## Flags (R147) -/

/-- Exceptions raised, in the bit order of R147. -/
abbrev Flags := BitVec 5

/-- Invalid operation. -/
def fNV : Flags := 1
/-- Division by zero. -/
def fDZ : Flags := 2
/-- Overflow. -/
def fOF : Flags := 4
/-- Underflow. -/
def fUF : Flags := 8
/-- Inexact. -/
def fNX : Flags := 16

/-- A flag raised when a condition holds. -/
def raiseIf (c : Bool) (f : Flags) : Flags := if c then f else 0

/-! ## Exact values -/

/-- An exact value: ±n/d, with a signed zero; an infinity; or a NaN, which may be signalling. -/
inductive Num where
  | fin (neg : Bool) (n d : Nat)
  | inf (neg : Bool)
  | nan (sig : Bool)
deriving DecidableEq, Repr

/-- ± m × 2^e. -/
def Num.scaled (neg : Bool) (m : Nat) (e : Int) : Num :=
  match e with
  | .ofNat k => .fin neg (m * 2 ^ k) 1
  | .negSucc k => .fin neg m (2 ^ (k + 1))

/-- An integer; zero is +0. -/
def Num.ofInt (i : Int) : Num := .fin (decide (i < 0)) i.natAbs 1

/-- The value of an encoding (R131-R133). -/
def Fmt.value (f : Fmt) (b : Nat) : Num :=
  let mag := b % 2 ^ f.sign
  let neg := b / 2 ^ f.sign % 2 == 1
  if f.inf = some mag then .inf neg
  else if f.maxFin < mag then .nan (f.inf.isSome && mag / 2 ^ (f.man - 1) % 2 == 0)
  else if mag / 2 ^ f.man = 0 then .scaled neg mag (f.emin - f.man)
  else .scaled neg (2 ^ f.man + mag % 2 ^ f.man) (f.emin + (mag / 2 ^ f.man : Nat) - 1 - f.man)

/-- An integer from sign and magnitude. -/
def withSign (neg : Bool) (n : Nat) : Int := if neg then -(n : Int) else (n : Int)

/-- A NaN that an operation raises NV for (R133). -/
def Num.isSig : Num → Bool
  | .nan s => s
  | _ => false

/-- A NaN. -/
def Num.isNan : Num → Bool
  | .nan _ => true
  | _ => false

/-- A zero. -/
def Num.isZero : Num → Bool
  | .fin _ n _ => n == 0
  | _ => false

/-- The sign of a number that is no NaN. -/
def Num.isNeg : Num → Bool
  | .fin neg _ _ => neg
  | .inf neg => neg
  | .nan _ => false

/-- The sign flipped. -/
def Num.negate : Num → Num
  | .fin neg n d => .fin (!neg) n d
  | .inf neg => .inf (!neg)
  | .nan s => .nan s

/-- floor(log2 (n/d)) for positive n and d. -/
def ilog2 (n d : Nat) : Int :=
  let l : Int := (Nat.log2 n : Int) - (Nat.log2 d : Int)
  match l with
  | .ofNat k => if n < d * 2 ^ k then l - 1 else l
  | .negSucc k => if n * 2 ^ (k + 1) < d then l - 1 else l

/-- n/d below 2^e. -/
def belowPow (n d : Nat) (e : Int) : Bool :=
  match e with
  | .ofNat k => decide (n < d * 2 ^ k)
  | .negSucc k => decide (n * 2 ^ (k + 1) < d)

/-- Quotient and remainder of (n/d) / 2^e, as (k, rem, den): n/d = (k + rem/den) × 2^e. -/
def divPow (n d : Nat) (e : Int) : Nat × Nat × Nat :=
  match e with
  | .ofNat j => (n / (d * 2 ^ j), n % (d * 2 ^ j), d * 2 ^ j)
  | .negSucc j => (n * 2 ^ (j + 1) / d, n * 2 ^ (j + 1) % d, d)

/-- The integer that a mode makes of k + rem/den with this sign (R139). -/
def roundInt (m : Rnd) (neg : Bool) (k rem den : Nat) : Nat :=
  if rem = 0 then k else
  match m with
  | .rz => k
  | .rup => if neg then k else k + 1
  | .rdn => if neg then k + 1 else k
  | .rne => if 2 * rem < den then k else if den < 2 * rem then k + 1 else k + k % 2
  | .rna => if 2 * rem < den then k else k + 1

/-- Sign and magnitude as an encoding. -/
def Fmt.pack (f : Fmt) (neg : Bool) (mag : Nat) : Nat := neg.toNat * 2 ^ f.sign + mag

/-- The canonical NaN, sign 0 (R133). -/
def Fmt.canon (f : Fmt) : Nat := f.nan.getD 0

/-- The result of an overflow (R140). -/
def Fmt.overflow (f : Fmt) (neg : Bool) (m : Rnd) (sat : Bool) : Nat :=
  let toMax := sat || match m with
    | .rz => true
    | .rup => neg
    | .rdn => !neg
    | _ => false
  if toMax then f.pack neg f.maxFin
  else match f.inf, f.nan with
    | some i, _ => f.pack neg i
    | none, some c => c
    | none, none => f.pack neg f.maxFin

/-- A finite exact value rounded once, and its flags (R139, R140, R142). -/
def Fmt.round (f : Fmt) (m : Rnd) (sat ftz : Bool) (neg : Bool) (n d : Nat) : Nat × Flags :=
  if n = 0 then (f.pack neg 0, 0)
  else if ftz && belowPow n d f.emin then (f.pack neg 0, fUF ||| fNX)
  else
    let x := max (ilog2 n d) f.emin
    let r := divPow n d (x - f.man)
    let k := roundInt m neg r.1 r.2.1 r.2.2
    let mag := (x - f.emin).toNat * 2 ^ f.man + k
    let nx := r.2.1 != 0
    if f.maxFin < mag then (f.overflow neg m sat, fOF ||| fNX)
    else (f.pack neg mag, raiseIf nx fNX ||| raiseIf (nx && belowPow n d f.emin) fUF)

/-- A subnormal input replaced by a zero of its sign under `.ftz` (R142). -/
def Fmt.flushIn (f : Fmt) (ftz : Bool) (b : Nat) : Nat :=
  if ftz && decide (b % 2 ^ f.sign < 2 ^ f.man) then f.pack (b / 2 ^ f.sign % 2 == 1) 0 else b

/-! ## Arithmetic (R141, R164) -/

/-- The sum of two exact values with its NV; opposite infinities are invalid; an exact zero takes the sign of
R141. -/
def Num.add (m : Rnd) (a b : Num) : Num × Flags :=
  match a, b with
  | .nan s, y => (.nan false, raiseIf (s || y.isSig) fNV)
  | x, .nan s => (.nan false, raiseIf (s || x.isSig) fNV)
  | .inf p, .inf q => if p = q then (.inf p, 0) else (.nan false, fNV)
  | .inf p, _ => (.inf p, 0)
  | _, .inf q => (.inf q, 0)
  | .fin p n d, .fin q k e =>
    let x : Int := withSign p (n * e) + withSign q (k * d)
    if x = 0 then
      if n = 0 ∧ p = q then (.fin p 0 1, 0) else (.fin (m == .rdn) 0 1, 0)
    else (.fin (decide (x < 0)) x.natAbs (d * e), 0)

/-- The product of two exact values; 0 × ∞ is invalid. -/
def Num.mul (a b : Num) : Num × Flags :=
  match a, b with
  | .nan s, y => (.nan false, raiseIf (s || y.isSig) fNV)
  | x, .nan s => (.nan false, raiseIf (s || x.isSig) fNV)
  | .inf p, y => if y.isZero then (.nan false, fNV) else (.inf (p != y.isNeg), 0)
  | x, .inf q => if x.isZero then (.nan false, fNV) else (.inf (x.isNeg != q), 0)
  | .fin p n d, .fin q k e => (.fin (p != q) (n * k) (d * e), 0)

/-- The quotient of two exact values; a zero divisor is the caller's case. -/
def Num.div (a b : Num) : Num × Flags :=
  match a, b with
  | .nan s, y => (.nan false, raiseIf (s || y.isSig) fNV)
  | x, .nan s => (.nan false, raiseIf (s || x.isSig) fNV)
  | .inf p, .inf _ => (.nan false, fNV)
  | .inf p, .fin q _ _ => (.inf (p != q), 0)
  | x, .inf q => (.fin (x.isNeg != q) 0 1, 0)
  | .fin p n d, .fin q k e => if k = 0 then (.inf (p != q), fDZ) else (.fin (p != q) (n * e) (d * k), 0)

/-- A product plus a third operand with no rounding between; 0 × ∞ raises NV even beside a quiet NaN (R164). -/
def Num.fma (m : Rnd) (a b c : Num) : Num × Flags :=
  let p := Num.mul a b
  let r := Num.add m p.1 c
  (r.1, p.2 ||| r.2)

/-- An exact result delivered in a format (R133, R139, R140, R142). -/
def Fmt.deliver (f : Fmt) (m : Rnd) (sat ftz : Bool) (r : Num × Flags) : Nat × Flags :=
  match r.1 with
  | .nan _ => (f.canon, r.2)
  | .inf neg => (f.pack neg (f.inf.getD f.maxFin), r.2)
  | .fin neg n d => let q := f.round m sat ftz neg n d; (q.1, r.2 ||| q.2)

/-- Strictly less, false where one is a NaN, with −0 below +0 when `zeros` says so (R164, R165). -/
def Num.lt (zeros : Bool) (a b : Num) : Bool :=
  match a, b with
  | .nan _, _ => false
  | _, .nan _ => false
  | .inf p, .inf q => p && !q
  | .inf p, _ => p
  | _, .inf q => !q
  | .fin p n d, .fin q k e =>
    if n = 0 ∧ k = 0 then zeros && p && !q
    else decide (withSign p (n * e) < withSign q (k * d))

/-- Equal numbers, +0 = −0 (R165). -/
def Num.eq (a b : Num) : Bool := !a.isNan && !b.isNan && !Num.lt false a b && !Num.lt false b a

/-- `vmin` and `vmax` on floating-point bits (R164). -/
def Fmt.minMax (f : Fmt) (isMax : Bool) (a b : Nat) : Nat × Flags :=
  let x := f.value a
  let y := f.value b
  let nv := raiseIf (x.isSig || y.isSig) fNV
  if x.isNan && y.isNan then (f.canon, nv)
  else if x.isNan then (b, nv)
  else if y.isNan then (a, nv)
  else if isMax then (if Num.lt true x y then b else a, nv)
  else (if Num.lt true y x then b else a, nv)

/-! ## Integers (R134, R163) -/

/-- Element bits of width `w` read as signed or natural. -/
def readInt (sgn : Bool) (w b : Nat) : Int := if sgn then sext w (b % 2 ^ w) else ((b % 2 ^ w : Nat) : Int)

/-- The least value of an integer type. -/
def minOf (sgn : Bool) (w : Nat) : Int := if sgn then -(2 ^ (w - 1) : Int) else 0

/-- The greatest value of an integer type. -/
def maxOf (sgn : Bool) (w : Nat) : Int := if sgn then 2 ^ (w - 1) - 1 else 2 ^ w - 1

/-- A value clamped to a range. -/
def clampTo (lo hi i : Int) : Int := if i < lo then lo else if hi < i then hi else i

/-- An integer delivered in `w` bits: the low bits, or clamped with `.sat` (R163). -/
def narrow (sgn : Bool) (w : Nat) (sat : Bool) (i : Int) : Nat :=
  low w (if sat then clampTo (minOf sgn w) (maxOf sgn w) i else i)

/-! ## Conversions (R143-R146) -/

/-- An exact value rounded to an integer by a mode. -/
def Num.toInt (m : Rnd) (neg : Bool) (n d : Nat) : Int :=
  let k := roundInt m neg (n / d) (n % d) d
  if neg then -(k : Int) else k

/-- The value of a source element, and NV for a reserved `.t2` encoding (R131, R134-R136). -/
def sourceValue (t : Ty) (b : Nat) : Num × Flags :=
  match t with
  | .t2 => match b % 4 with
    | 0 => (.fin false 0 1, 0)
    | 1 => (.fin false 1 1, 0)
    | 3 => (.fin true 1 1, 0)
    | _ => (.fin false 0 1, fNV)
  | .e8m0 => if b % 256 = 255 then (.nan false, 0) else (.scaled false 1 ((b % 256 : Nat) - 127 : Int), 0)
  | .cb4 => ((Ty.bf16).fmt.value b, 0)
  | t => if t.isFloat then (t.fmt.value (b % 2 ^ (t.fmt.sign + 1)), 0) else (.ofInt (readInt t.signed t.bits b), 0)

/-- A conversion to E8M0 (R145). -/
def toE8M0 (m : Rnd) (x : Num) : Nat × Flags :=
  match x with
  | .nan _ => (255, fNV)
  | .inf _ => (255, fNV)
  | .fin neg n d =>
    if n = 0 ∨ neg then (255, fNV)
    else
      let j := ilog2 n d
      let r := divPow n d j
      let up := match m with
        | .rz | .rdn => false
        | .rup => r.2.1 != 0
        | .rna => decide (r.2.2 ≤ 2 * r.2.1)
        | .rne => decide (r.2.2 < 2 * r.2.1) || 2 * r.2.1 == r.2.2 && (j + 127) % 2 != 0
      let e := (if up then j + 1 else j) + 127
      if 254 < e then (0xFE, fOF ||| fNX)
      else if e < 0 then (0, fUF ||| fNX)
      else (e.toNat, raiseIf (up || r.2.1 != 0) fNX)

/-- A conversion to an integer type (R143, R144). -/
def toInteger (t : Ty) (m : Rnd) (fromInt : Bool) (sat : Bool) (x : Num) : Nat × Flags :=
  let lo := minOf t.signed t.bits
  let hi := maxOf t.signed t.bits
  match x with
  | .nan _ => (0, fNV)
  | .inf neg => (low t.bits (if neg then lo else hi), fNV)
  | .fin neg n d =>
    let k := Num.toInt m neg n d
    if fromInt then (narrow t.signed t.bits sat k, 0)
    else if k < lo ∨ hi < k then (low t.bits (clampTo lo hi k), fNV)
    else (low t.bits k, raiseIf (n % d != 0) fNX)

/-- A conversion to `.t2` (R143, R144). -/
def toT2 (m : Rnd) (x : Num) : Nat × Flags :=
  match x with
  | .nan _ => (0, fNV)
  | .inf neg => (if neg then 3 else 1, fNV)
  | .fin neg n d =>
    let k := clampTo (-1) 1 (Num.toInt m neg n d)
    (low 2 k, raiseIf (n % d != 0 || Num.toInt m neg n d != k) fNX)

/-- A conversion to a floating-point type (R143, R144). -/
def toFloat (t : Ty) (m : Rnd) (sat ftz : Bool) (x : Num) : Nat × Flags :=
  let f := t.fmt
  match x with
  | .nan sig => match f.nan with
    | some c => (c, raiseIf sig fNV)
    | none => (0, fNV)
  | .inf neg => match f.inf with
    | some i => (f.pack neg i, 0)
    | none => match f.nan with
      | some c => (if sat then f.pack neg f.maxFin else c, fNV)
      | none => (f.pack neg f.maxFin, fNV)
  | .fin neg n d => f.round m sat ftz neg n d

/-- One element converted (R142-R145). A `.cb4` source arrives as the BF16 bits of its entry. -/
def convert (d s : Ty) (m : Rnd) (sat ftz : Bool) (b : Nat) : Nat × Flags :=
  let b := if s.isFloat then s.fmt.flushIn ftz b else b
  let x := sourceValue s b
  let r := match d with
    | .t2 => toT2 m x.1
    | .e8m0 => toE8M0 m x.1
    | d => if d.isFloat then toFloat d m sat ftz x.1 else toInteger d m s.isIntSource sat x.1
  let r := if s.isIntSource && d.isFloat then (match x.1 with
    | .fin _ 0 _ => (0, 0)
    | _ => r) else r
  (r.1, x.2 ||| r.2)

/-- The entries of a codebook table (R137). -/
def cbEntry (t : BitVec 256) (i : Nat) : Nat := t.toNat / 2 ^ (16 * i) % 2 ^ 16

/-- |x − y| as a fraction, or nothing for an infinite distance (R146). -/
def distance (x y : Num) : Option (Nat × Nat) :=
  match (Num.add .rne x y.negate).1 with
  | .fin _ n d => some (n, d)
  | _ => none

/-- A distance is strictly less than another. -/
def nearer (a b : Option (Nat × Nat)) : Bool :=
  match a, b with
  | some (n, d), some (k, e) => decide (n * e < k * d)
  | some _, none => true
  | none, _ => false

/-- The lowest index of the best entry among those from `i` on: `better y z` says that y beats z. -/
def bestEntry (t : BitVec 256) (better : Num → Num → Bool) : Nat → Nat → Option Nat → Option Nat
  | 0, _, best => best
  | k + 1, i, best =>
    let y := (Ty.bf16).fmt.value (cbEntry t i)
    let best := if y.isNan then best else match best with
      | none => some i
      | some j => if better y ((Ty.bf16).fmt.value (cbEntry t j)) then some i else some j
    bestEntry t better k (i + 1) best

/-- The nearest entry's index and the flags; an infinite value raises no NX (R146). -/
def nearest (x : Num) (t : BitVec 256) : Nat × Flags :=
  let nv := raiseIf x.isSig fNV
  match x with
  | .nan _ => match (List.range 16).find? fun i => ((Ty.bf16).fmt.value (cbEntry t i)).isNan with
    | some i => (i, nv)
    | none => (0, fNV)
  | x =>
    let better : Num → Num → Bool := fun y z => match x with
      | .inf neg => if neg then Num.lt false y z else Num.lt false z y
      | _ => nearer (distance x y) (distance x z)
    match bestEntry t better 16 0 none with
    | none => (0, fNV)
    | some i => (i, raiseIf (match x with
        | .inf _ => false
        | _ => !Num.eq ((Ty.bf16).fmt.value (cbEntry t i)) x) fNX)

/-! ## Elements of a lane (R138) -/

/-- Element `k` of width `w`. -/
def elem (w k : Nat) (b : W32) : Nat := b.toNat / 2 ^ (w * k) % 2 ^ w

/-- Elements from number 0 on put side by side. -/
def packElems (w : Nat) : List Nat → Nat
  | [] => 0
  | x :: xs => x % 2 ^ w + 2 ^ w * packElems w xs

/-- Every element of a lane computed on its own, with the flags of all (R149, R161). -/
def mapElems (w : Nat) (f : Nat → Nat × Flags) : W32 × Flags :=
  let rs := (List.range (32 / w)).map f
  (BitVec.ofNat 32 (packElems w (rs.map Prod.fst)), rs.foldl (fun a r => a ||| r.2) 0)

end Sys2Proof
end

