-- ==== Sys2Proof/Machine/Operands.lean ====
section
/-! DEFINITION. Every operand form of a lane word, which lanes are active, and how a lane word issues and sends its
results (R9, R10, R37, R38, R81-R83, R114, R118, R122, R124, R150). -/

namespace Sys2Proof.Machine

/-! ## Lanes -/

/-- The 64 lanes. -/
def lanes64 : List Nat := List.range 64

/-- The lanes of a mask, ascending. -/
def lanesOf (m : Word) : List Nat := lanes64.filter fun l => m.getLsbD l

/-- A mask from a test on lanes. -/
def maskOf (f : Nat → Bool) : Word := BitVec.ofNat 64 (lanes64.foldl (fun m l => if f l then m + 2 ^ l else m) 0)

/-- The lanes where `active(l)` holds: the predicate, the block's mask, launched and not exited (R9, R82). -/
def Wave.active (w : Wave) (fr clk : Nat) (mask : Word) (pred : Nat) (neg : Bool) : Word :=
  mask &&& w.launched &&& ~~~w.exited &&& maskOf fun l => w.readP fr clk pred l != neg

/-! ## Rings (R122) -/

/-- Numbers from here on name saved contexts in place of waves (R371). -/
def ctxBase : Nat := 200000

/-- The filled slots, F. -/
def Ring.f (r : Ring) : Nat := r.filled

/-- The vector register of slot `j` of a register ring. -/
def Ring.reg (r : Ring) (j : Nat) : Nat := r.base + j % r.slots

/-- The storage key of slot `j` of a scratchpad ring: in the wave's core, or for a pipe's producer in the consumer's
(R63, R129). -/
def Ring.key (r : Ring) (n j : Nat) : Nat :=
  let p := match r.pipe with
    | .producer m _ => coreOfWave m
    | _ => coreOfWave n
  spadKey p (r.base + 256 * (j % r.slots))

/-- A pipe's producer end. -/
def Ring.isProducer (r : Ring) : Bool := match r.pipe with
  | .producer _ _ => true
  | _ => false

/-- A pipe's producer whose consumer is saved: its slots cannot be reached. -/
def Ring.away (r : Ring) : Bool := match r.pipe with
  | .producer m _ => decide (ctxBase ≤ m)
  | _ => false

/-- A pipe's consumer end. -/
def Ring.isConsumer (r : Ring) : Bool := match r.pipe with
  | .consumer _ _ => true
  | _ => false

/-! ## Operands (R37) -/

/-- A destination operand: a register, a local scratchpad slot, or a pipe's slot. -/
inductive Dst where
  | reg (r : Nat)
  | spad (key : Nat)
  | pipe (key : Nat)
  | none
deriving DecidableEq, Repr

/-- What comes of looking at an operand field. -/
inductive Look (α : Type) where
  | ok (x : α)
  | illegal
  | wait
deriving DecidableEq, Repr

/-- A source field with its slot index (R37, R38, R124). -/
def Wave.src (w : Wave) (n : Nat) (b : LBlock) (f i : Nat) : Look Src :=
  if f < 320 then (if w.vOk f then .ok (.reg f) else .illegal)
  else if f < 336 then
    match look w.rings (f - 320) with
    | none => .illegal
    | some r =>
      if r.slots ≤ i then .illegal
      else if r.f ≤ i then .wait
      else if r.scratch then .ok (.spad (r.key n (r.head + i))) else .ok (.reg (r.reg (r.head + i)))
  else if f = 336 then .ok (.cap b.c0)
  else if f = 337 then .ok (.cap b.c1)
  else if f = 338 then .ok (.cap b.c2)
  else if f = 339 then .ok .lid
  else if f = 340 then .ok .zero
  else .illegal

/-- A destination field with its slot index (R37, R38, R124). -/
def Wave.dst (w : Wave) (n : Nat) (f i : Nat) : Look Dst :=
  if f < 320 then (if w.vOk f then .ok (.reg f) else .illegal)
  else if f < 336 then
    match look w.rings (f - 320) with
    | none => .illegal
    | some r =>
      if r.slots ≤ i then .illegal
      else if r.slots - r.f ≤ i || r.away then .wait
      else if !r.scratch then .ok (.reg (r.reg (r.tail + i)))
      else if r.isProducer then .ok (.pipe (r.key n (r.tail + i))) else .ok (.spad (r.key n (r.tail + i)))
  else .illegal

/-! ## Rows of the matrix engine (R222, R225) -/

/-- The three quarter operations. -/
inductive MxMode where
  | stream | dist | mips
deriving DecidableEq, Repr

/-- The field x of a quarter operation. -/
def MxMode.code : MxMode → Nat
  | .stream => 1 | .dist => 2 | .mips => 3

/-- The quarter operation of a field x. -/
def MxMode.ofCode : Nat → MxMode
  | 1 => .stream | 2 => .dist | _ => .mips

/-- FP32 bits of a NaN. -/
def f32nan (x : Nat) : Bool := (fmtF32.value x).isNan

/-- A key that orders FP32 bits: a NaN above every number, −0 below +0 (R192, R195). -/
def f32key (x : Nat) : Int :=
  if f32nan x then 2 ^ 40 else if 2 ^ 31 ≤ x then -((x - 2 ^ 31 : Nat) : Int) - 1 else (x : Int)

/-- One candidate: its FP32 bits and its index. -/
abbrev Pair := Nat × Nat

/-- The order of R225: better first, NaN last, −0 below +0, and the lower index first among equals. -/
def betterPair (m : MxMode) (x y : Pair) : Bool :=
  if f32nan x.1 != f32nan y.1 then f32nan y.1
  else if f32key x.1 = f32key y.1 then decide (x.2 < y.2)
  else if m = .dist then decide (f32key x.1 < f32key y.1) else decide (f32key y.1 < f32key x.1)

/-- A candidate put in its place; earlier ones stay before equal ones. -/
def insertPair (m : MxMode) (x : Pair) : List Pair → List Pair
  | [] => [x]
  | y :: ys => if betterPair m x y then x :: y :: ys else y :: insertPair m x ys

/-- The selection row: the best k of the new pairs and those the row holds (R225). -/
def selectRow (m : MxMode) (init : Bool) (ksel cbase : Nat) (vals old : List W32) : List W32 :=
  let k := ksel + 1
  let new : List Pair := vals.zipIdx.map fun v => (v.1.toNat, cbase * 64 + v.2)
  let held : List Pair := if init then [] else (List.range k).map fun j =>
    ((old.getD j 0).toNat, (old.getD (16 + j) 0).toNat)
  let best := (held ++ new).foldl (fun l x => (insertPair m x l).take k) []
  let empty := if m = .dist then 0x7F800000 else 0xFF800000
  lanes64.map fun l =>
    if l < 16 then (match best[l]? with
      | some x => BitVec.ofNat 32 x.1
      | none => BitVec.ofNat 32 empty)
    else if l < 32 then (match best[l - 16]? with
      | some x => BitVec.ofNat 32 x.2
      | none => 0xFFFFFFFF)
    else 0

/-- The 64 slices of a vector register. -/
def Wave.slices (w : Wave) (r : Nat) : List W32 := lanes64.map fun l => lookD w.regs.v (64 * r + l) 0

/-- The reply of a quarter goes to a ring. -/
def Reply.isRing : Reply → Bool
  | .ring _ => true
  | _ => false

/-- What a row of quarter operation `m` writes over `old`: its values, or the best pairs (R216, R225). -/
def MxMode.over (m : MxMode) (init : Bool) (ksel cbase : Nat) (vals old : List W32) : List W32 :=
  if m = .stream then vals else selectRow m init ksel cbase vals old

/-- The registers that a quarter operation of wave `n` writes, from row `lo` on, where it writes accumulator rows (R216). -/
def Cmd.rowRegs (c : Cmd) (n lo : Nat) : List Nat :=
  match c.body with
  | .mxQuarter _ _ _ rows _ _ _ abase _ _ _ =>
    if c.wave = n ∧ c.reply.isRing = false then ((List.range rows).drop lo).map fun r => 192 + abase + r else []
  | _ => []

/-- The accumulator rows aimed at by the quarter operations that wave `n` has issued, and not written yet (R118, R222). -/
def State.rowsAimed (s : State) (n : Nat) : List Nat :=
  s.held.flatMap (fun c => c.rowRegs n c.done) ++ s.cores.flatMap fun e =>
    e.2.mx.inbox.flatMap (fun c => c.rowRegs n c.done)
      ++ (e.2.mx.pass.filter fun r => !r.written).flatMap fun r => (r.cmd.rowRegs n r.row).take 1

/-- Finished rows and rows in a pass on their way to the register ring `q` of wave `n`, the first to be pushed first (R221). -/
def MxEngine.ringRows (m : MxEngine) (n q : Nat) : List (List W32) :=
  (m.held.filter fun h => h.cmd.wave == n && h.cmd.reply == .ring q).map HeldRow.vals
    ++ (m.pass.filter fun r => r.cmd.wave == n && r.cmd.reply == .ring q && !r.written && !r.vals.isEmpty).map PassRow.vals

/-- A row of values on its way to register `r`, as a result in flight. -/
def rowLanding (clk seq r : Nat) (vs : List W32) : Landing :=
  ⟨clk + 1, true, seq, none, .vreg r (BitVec.allOnes 32) (vs.zipIdx.map fun v => (v.2, v.1)), 0, 0, 0, 0⟩

/-- The rows that the matrix engines have computed for wave `n`, which is `w`, and not yet written, as results in flight to its
accumulator rows and to the slots of its register rings; a reader may see each old or new (R115, R222). A row that has not been computed has
no new value yet (log 25). -/
def State.rowsDue (s : State) (n clk : Nat) (w : Wave) : RowsDue :=
  s.cores.flatMap fun e =>
    (e.2.mx.pass.filterMap fun r => match r.cmd.body with
      | .mxQuarter m _ _ _ init _ _ abase _ ksel cbase =>
        if r.cmd.wave = n ∧ r.written = false ∧ r.vals.isEmpty = false ∧ r.cmd.reply.isRing = false
        then some (rowLanding clk (r.cmd.id + r.row) (192 + abase + r.row)
          ((MxMode.ofCode m).over init ksel cbase r.vals (w.slices (192 + abase + r.row))))
        else none
      | _ => none)
    ++ w.rings.flatMap fun q => if q.2.scratch then [] else
      ((e.2.mx.ringRows n q.1).zipIdx.filter fun v => decide (q.2.filled + v.2 < q.2.slots)).map fun v =>
        rowLanding clk (clk + v.2) (q.2.reg (q.2.tail + v.2)) v.1

/-- A source's value in a lane of wave `n`, which is `w`. -/
def Src.val (x : Src) (s : State) (n : Nat) (w : Wave) (fr clk l : Nat) : W32 :=
  match x with
  | .reg r => w.readVWith (s.rowsDue n clk w) fr clk r l
  | .spad k => BitVec.ofNat 32 (s.num 4 (k + 4 * l))
  | .cap v => v
  | .lid => BitVec.ofNat 32 l
  | .zero => 0
  | .imm v => v

/-- A source read from a scratchpad ring costs 8 cycles more (R114). -/
def Src.late : Src → Nat
  | .spad _ => 8
  | _ => 0

/-! ## The frame of a lane word -/

/-- What a field of a lane word holds; `row` is an accumulator row or a register ring over accumulator rows (R223). -/
inductive FUse where
  | none | src | dst | pdst | psrc | sdst | row
deriving DecidableEq, Repr

/-- A write to a pipe slot that would raise `st` above 255 does not issue (R119, R120). -/
def Wave.pipeFull (w : Wave) (d : Dst) : Bool := match d with
  | .pipe _ => decide (255 ≤ w.count .st)
  | _ => false

/-- What a lane word sees when it issues; `rows` are the accumulator rows that the matrix engines have still to write. -/
structure LaneCtx where
  n   : Nat
  w   : Wave
  c   : Cons
  blk : LBlock
  act : Word
  fr  : Nat
  clk : Nat
  d   : Dst
  a   : Src
  b   : Src
  x   : Src
  rows : List Nat

/-- A source's value in a lane. -/
def LaneCtx.val (k : LaneCtx) (s : State) (x : Src) (l : Nat) : W32 := x.val s k.n k.w k.fr k.clk l

/-- A field names an accumulator row, or a register ring whose slots are accumulator rows (R223). -/
def Wave.rowOk (w : Wave) (f : Nat) : Bool :=
  if f < 320 then decide (192 ≤ f) && w.vOk f
  else (look w.rings (f - 320)).any fun r => decide (f < 336) && !r.scratch && decide (192 ≤ r.base)

/-- An operand field is illegal for its use: the value that `xaddr` takes (R37, R358). -/
def Wave.badField (w : Wave) (n : Nat) (b : LBlock) (u : FUse) (f i : Nat) : Option Nat :=
  match u with
  | .none => none
  | .src => match w.src n b f i with
    | .illegal => some f
    | _ => none
  | .dst => match w.dst n f i with
    | .illegal => some f
    | _ => none
  | .pdst => if f = 0 then some 512 else if f < 64 then none else some f
  | .psrc => if f < 64 then none else some f
  | .sdst => if w.sOk f then none else some f
  | .row => if !w.rowOk f then some f else match w.src n b f i with
    | .illegal => some f
    | _ => none

/-- An operand field waits for a ring slot (R124). -/
def Wave.waits (w : Wave) (n : Nat) (b : LBlock) (u : FUse) (f i : Nat) : Bool :=
  match u with
  | .src => w.src n b f i == .wait
  | .row => w.src n b f i == .wait
  | .dst => w.dst n f i == .wait
  | _ => false

/-- The source of a field, or zero where the field is none. -/
def Wave.srcOf (w : Wave) (n : Nat) (b : LBlock) (u : FUse) (f i : Nat) : Src :=
  if u = .src ∨ u = .row then match w.src n b f i with
    | .ok x => x
    | _ => .zero
  else .zero

/-- The destination of a field. -/
def Wave.dstOf (w : Wave) (n : Nat) (u : FUse) (f i : Nat) : Dst :=
  match u with
  | .dst => match w.dst n f i with
    | .ok x => x
    | _ => .none
  | _ => .none

/-- A slice of register `r` in a lane of `m` has a result aimed at it, in a bit of `fld`, that is not in it at cycle `clk` (R118, R171). -/
def Wave.lateV (w : Wave) (clk r : Nat) (m : Word) (fld : W32 := BitVec.allOnes 32) : Bool :=
  w.pend.any (fun x => decide (clk < x.due) && match x.dest with
    | .vreg q g vals => q == r && (g &&& fld) != 0 && vals.any fun e => m.getLsbD e.1
    | _ => false)
  || w.ops.any fun o => o.need != 0 && match o.dest with
    | .vreg q => q == r && (o.lanes &&& m) != 0
    | .vals (.vreg q _ vals) => q == r && vals.any fun e => m.getLsbD e.1
    | .none => o.ctr == .xc && o.aim == some r && (o.lanes &&& m) != 0
    | _ => false

/-- The same, with the accumulator rows that the matrix engines have still to write (R118, R222). -/
def State.lateV (s : State) (n : Nat) (w : Wave) (clk r : Nat) (m : Word) : Bool := w.lateV clk r m || (s.rowsAimed n).contains r

/-- The same for a lane word. -/
def LaneCtx.lateV (k : LaneCtx) (clk r : Nat) (m : Word) (fld : W32 := BitVec.allOnes 32) : Bool :=
  k.w.lateV clk r m fld || k.rows.contains r

/-- Predicate `p` has a result aimed at it that is not in it at cycle `clk`, in a lane of `m`. -/
def Wave.lateP (w : Wave) (clk p : Nat) (m : Word) : Bool :=
  p != 0 && w.pend.any fun x => decide (clk < x.due) && match x.dest with
    | .pred q ls _ => q == p && (ls &&& m) != 0
    | _ => false

/-- A source register read early in the bits of `fld`, by its operand-field value (R118, R171). -/
def LaneCtx.lateSrc (k : LaneCtx) (m : Word) (x : Src) (fld : W32 := BitVec.allOnes 32) : Option Nat :=
  match x with
  | .reg r => if k.lateV k.clk r m fld then some r else none
  | _ => none

/-- The first of several. -/
def firstSome : List (Option Nat) → Option Nat
  | [] => none
  | some x :: _ => some x
  | none :: xs => firstSome xs

/-- What the sources that lie in a scratchpad ring cost (R114). -/
def LaneCtx.late (k : LaneCtx) : Nat := max (max k.a.late k.b.late) k.x.late

/-- The hazard of a lane word with this latency (R118); `m` are the lanes in which it reads its first source and `rfld` the bits of it there,
and `fld` the bits that it writes in each slice of its destination (R171). -/
def LaneCtx.hazard (k : LaneCtx) (pred : Nat) (uses : List (FUse × Nat)) (lat : Nat) (m : Word) (fld : W32 := BitVec.allOnes 32)
    (rfld : W32 := BitVec.allOnes 32) : Option Nat :=
  firstSome
    [ if k.w.lateP k.clk pred (BitVec.allOnes 64) then some (512 + pred) else none,
      k.lateSrc m k.a rfld, k.lateSrc k.act k.b, k.lateSrc k.act k.x,
      firstSome (uses.map fun u => match u.1 with
        | .psrc => if k.w.lateP k.clk u.2 k.act then some (512 + u.2) else none
        | .pdst => if k.w.lateP (k.clk + lat) u.2 k.act then some (512 + u.2) else none
        | .sdst => if k.w.lateS (k.clk + lat) u.2 then some u.2 else none
        | _ => none),
      match k.d with
      | .reg r => if k.lateV (k.clk + lat) r k.act fld then some r else none
      | _ => none ]

/-- A lane word that reads or writes an accumulator row waits for a fence as its class says (R298, R299). -/
def LaneCtx.accWaits (k : LaneCtx) : Bool :=
  let acc : Src → Bool := fun x => match x with
    | .reg r => decide (192 ≤ r)
    | _ => false
  ((acc k.a || acc k.b || acc k.x) && k.w.fenced k.clk .r (some k.blk.id)) ||
    match k.d with
    | .reg r => decide (192 ≤ r) && k.w.fenced k.clk .w (some k.blk.id)
    | .pipe _ => k.w.fenced k.clk .w (some k.blk.id)
    | _ => false

/-- An entry of the scoreboard that was in force at tick `t`, when an access of `n` bytes at offset `off` issued, stalls it: a load on write
entries, any other on both (R268). -/
def Span.stalls (x : Span) (t : Nat) (load : Bool) (off n : Nat) : Bool :=
  decide (x.from_ ≤ t) && (x.write || !load) && decide (x.lo ≤ off + n - 1) && decide (off ≤ x.hi)

/-- The accesses of wave `n` that are on their way or wait at their home, with the numbers of their operations. -/
def State.inFlight (s : State) (n : Nat) : List Req :=
  s.reqs.filter (fun r => r.wave == n) ++ (s.parked.filter fun q => q.req.wave == n).map Parked.req

/-- A lane word that reads (`load`) or writes the slot at `key` of a scratchpad ring of its own core stalls on a scoreboard entry, and on the
wave's own earlier accesses to those bytes, which come first at the banks (R268, R308; log 55). -/
def LaneCtx.slotHeld (k : LaneCtx) (s : State) (load : Bool) (key : Nat) : Bool :=
  let p := coreOfWave k.n
  let mine := k.w.beforeLane k.blk.id
  let old := (s.inFlight k.n).filter fun r => (!load || r.kind != .mem .load) && mine.any fun o => o.id == r.op
  (lanesOf k.act).any fun l =>
    (s.core p).spans.any (fun x => x.stalls s.now load (keyOff key + 4 * l) 4)
      || old.any fun r => r.accs.any fun a => decide (a.key < key + 4 * l + 4) && decide (key + 4 * l < a.key + r.size)

/-- What holds a lane word whose operands are there: a fence, or a slot that is not free to be read or written (R268, R298, R308). -/
def LaneCtx.held (k : LaneCtx) (s : State) : Bool :=
  let src : Src → Bool := fun x => match x with
    | .spad key => k.slotHeld s true key
    | _ => false
  k.accWaits || src k.a || src k.b || src k.x || match k.d with
    | .spad key => k.slotHeld s false key
    | _ => false

/-- A lane word of layout A of the current wave: operand checks in the order d, a, b, c, then the ring slot waits on the
handles as the cycle began (R130), then the hazard checker under DEBUG, then its effect. `idx` says that imm carries slot indices (R38), `imB` that imm
stands for operand b (R40), and `rd` gives the lanes in which the first source is read from the active ones, `rfld` the bits of it that are
read, and `fld` the bits that it writes in each slice. With no lane block queued there is no lane word to issue. -/
def laneFrame (s : State) (l : LaneA) (ud ua ub uc : FUse) (idx imB : Bool) (rd : Word → Word) (lat : Nat)
    (body : LaneCtx → State) (fld : W32 := BitVec.allOnes 32) (rfld : W32 := BitVec.allOnes 32) : Out :=
  let ub := if imB then .none else ub
  match s.wave s.cur with
  | none => .next s
  | some w => match s.con w.cid, nextBlock w.queue with
    | some c, some blk =>
      let n := s.cur
      let clk := s.clkCur
      let v := w.seen clk
      let act := w.active s.fresh clk blk.mask l.pred l.neg
      let ia := if idx then l.imm % 256 else 0
      let ib := if idx then l.imm / 256 % 256 else 0
      let ic := if idx then l.imm / 65536 % 256 else 0
      let id := if idx then l.imm / 16777216 else 0
      match firstSome [v.badField n blk ud l.d id, v.badField n blk ua l.a ia, v.badField n blk ub l.b ib,
          v.badField n blk uc l.c ic] with
      | some f => .next (s.trapL n 2 (BitVec.ofNat 64 f) act)
      | none =>
        if v.waits n blk ud l.d id || v.waits n blk ua l.a ia || v.waits n blk ub l.b ib || v.waits n blk uc l.c ic
            || w.pipeFull (v.dstOf n ud l.d id)
        then .next (s.holdL n w .long)
        else
          let k : LaneCtx := ⟨n, w, c, blk, act, s.fresh, clk, v.dstOf n ud l.d id, v.srcOf n blk ua l.a ia,
            (if imB then .imm (BitVec.ofNat 32 l.imm) else v.srcOf n blk ub l.b ib),
            v.srcOf n blk uc l.c ic, s.rowsAimed n⟩
          if k.held s then .next (s.holdL n w .long) else
          match if c.debug then k.hazard l.pred [(ud, l.d), (ua, l.a), (ub, l.b), (uc, l.c)] (lat + k.late) (rd act) fld rfld
            else none with
          | some f => .next (s.trapL n 7 (BitVec.ofNat 64 f) act)
          | none => .next (body k)
    | _, _ => .next s

/-! ## Issue and results of a lane word -/

/-- A lane word has issued: its block, the lane PC and the scheduler move on (R79, R107); the next lane word may issue
`k` cycles later. -/
def Wave.advanceL (w : Wave) (blk : LBlock) (clk k : Nat) : Wave :=
  let w := w.setQueue (updBlock blk.id (fun b => { b with pos := b.pos + 1 }) w.queue)
  { w with lpc := blk.start + blk.pos + 1
           sched := { w.sched with lastL := clk, readyL := clk + k, holdL := .none, nL := w.sched.nL + 1 } }

/-- A lane slot of band `b` used now; slots used more than 2 µs ago are forgotten (R392). -/
def State.usedLane (s : State) (b : Nat) : State :=
  let x := s.band b
  { s with bands := put s.bands b { x with lanes := x.lanes.filter (fun t => decide (s.now < t + 42000)) ++ [s.now] } }

/-- A wave written back after its lane word issued; the partition's lane slot is taken in this cycle (R107, R392). -/
def State.issuedL (s : State) (n : Nat) (w : Wave) : State :=
  let p := coreOfWave n
  let ps := lookD (s.core p).parts (partOfWave n) ⟨none, none, none, none, 0, 0⟩
  { ((s.setWave n w).onCore p fun c => { c with parts := put c.parts (partOfWave n) { ps with busyL := some (s.clk p) } }).usedLane (bandOf p)
    with fresh := s.fresh + 1, nextId := s.nextId + 1 }

/-- A lane result with its lane values and flags, sent to land `lat` cycles after issue (R114); with an enabled
exception among those it `can` raise, the next lane word waits for it (R150). `raised` are the lanes that raised an enabled one. -/
def State.sendLane (s : State) (k : LaneCtx) (lat gap : Nat) (fld : W32) (vals : List (Nat × W32)) (fl : Flags)
    (raised : Word) (trig : Flags) (can : Flags) : State :=
  let at_ := k.blk.start + k.blk.pos
  let mk : Dest → Landing := fun d => ⟨k.clk + lat, true, s.nextId, some k.blk.id, d, fl, raised, trig, at_⟩
  let gap := if (can &&& k.w.ctl.fpctl) != 0 then max gap lat else gap
  let w := k.w.advanceL k.blk k.clk gap
  match k.d with
  | .reg r => s.issuedL k.n { w with pend := insertLanding (mk (.vreg r fld vals)) w.pend }
  | .spad key => s.issuedL k.n { w with pend := insertLanding (mk (.spad key fld vals)) w.pend }
  | .pipe key =>
    if vals.isEmpty then s.issuedL k.n { w with pend := insertLanding (mk .nothing) w.pend }
    else
      let op : OutOp := ⟨s.nextId, .st, 1, some k.blk.id, .none, none, 0, false, k.w.spc, at_, [], if farKey key then 1 else 0, none, 0⟩
      let r := mkReq k.n w.cid s.nextId (.mem .store) 4
        (vals.map fun e => ⟨e.1, key + 4 * e.1, key + 4 * e.1, e.2.setWidth 64, (~~~fld).setWidth 64⟩)
      ((s.issuedL k.n { w with pend := insertLanding (mk .nothing) w.pend, ops := w.ops ++ [op] }).slotCount
        (coreOfWave k.n) w.cid .stores true).send r
  | .none => s.issuedL k.n { w with pend := insertLanding (mk .nothing) w.pend }

/-- A lane result that writes only some element fields of each slice, each field a result of its own in flight (R171); `flds` are their
bits. -/
def State.sendFields (s : State) (k : LaneCtx) (lat : Nat) (flds : List W32) (vals : List (Nat × W32)) (fl : Flags) (raised : Word)
    (trig can : Flags) : State :=
  match k.d, flds with
  | .reg r, f :: fs =>
    let at_ := k.blk.start + k.blk.pos
    let s := s.sendLane k lat 1 f vals fl raised trig can
    s.onWave k.n fun w => { w with pend := fs.foldl (fun ls g =>
      insertLanding ⟨k.clk + lat, true, s.nextId, some k.blk.id, .vreg r g vals, 0, 0, 0, at_⟩ ls) w.pend }
  | _, _ => s.sendLane k lat 1 (flds.foldl (· ||| ·) 0) vals fl raised trig can

/-- A lane word that sends a result other than lane values (R114). -/
def State.sendDest (s : State) (k : LaneCtx) (lat gap : Nat) (d : Dest) (fl : Flags) (raised : Word) (trig : Flags)
    (can : Flags) : State :=
  let at_ := k.blk.start + k.blk.pos
  let gap := if (can &&& k.w.ctl.fpctl) != 0 then max gap lat else gap
  let w := k.w.advanceL k.blk k.clk gap
  s.issuedL k.n { w with pend := insertLanding ⟨k.clk + lat, true, s.nextId, some k.blk.id, d, fl, raised, trig, at_⟩ w.pend }

/-- What a computation over the active lanes gives: the values, all flags, the lanes that raised an enabled exception
and which (R149, R150). -/
structure LaneOut where
  vals   : List (Nat × W32)
  flags  : Flags
  raised : Word
  trig   : Flags

/-- Runs a computation in every active lane. -/
def overLanes (act : Word) (fpctl : Flags) (f : Nat → W32 × Flags) : LaneOut :=
  let rs := (lanesOf act).map fun l => (l, f l)
  let fl := rs.foldl (fun a r => a ||| r.2.2) 0
  ⟨rs.map fun r => (r.1, r.2.1), fl, maskOf (fun l => rs.any fun r => r.1 == l && (r.2.2 &&& fpctl) != 0), fl &&& fpctl⟩

/-- A lane word whose result is one value a lane, in `lat` cycles plus what scratchpad sources cost. -/
def State.laneResult (s : State) (k : LaneCtx) (lat : Nat) (can : Flags) (f : Nat → W32 × Flags) : State :=
  let r := overLanes k.act k.w.ctl.fpctl f
  s.sendLane k (lat + k.late) 1 (BitVec.allOnes 32) r.vals r.flags r.raised r.trig can

end Sys2Proof.Machine
end

