-- ==== Sys2Proof/Machine/Sched.lean ====
section
/-! DEFINITION. The partitions' active and pending sets and their swaps (R106-R113). -/

namespace Sys2Proof.Machine

/-- A partition's scheduler. -/
def State.part (s : State) (p i : Nat) : PartSched :=
  lookD (s.core p).parts i ⟨none, none, none, none, 0, 0⟩

/-- A partition's scheduler written. -/
def State.setPart (s : State) (p i : Nat) (x : PartSched) : State :=
  s.onCore p fun c => { c with parts := put c.parts i x }

/-- The waves of partition `i` of core `p`. -/
def State.inPart (s : State) (p i : Nat) : List (Nat × Wave) :=
  s.waves.filter fun e => coreOfWave e.1 == p && partOfWave e.1 == i

/-- A wave that runs. -/
def Wave.runs (w : Wave) : Bool := match w.life with
  | .running => true
  | .exiting _ => true
  | _ => false

/-- Ready in the scalar stream at cycle `clk`, as far as its last try shows (R108). -/
def Wave.readyS (w : Wave) (clk : Nat) : Bool :=
  w.runs && w.park == .none && w.sched.holdS == .none && decide (w.sched.readyS ≤ clk)

/-- Ready in the lane stream (R108). -/
def Wave.readyL (w : Wave) (clk : Nat) : Bool :=
  w.runs && w.sched.holdL == .none && (nextBlock w.queue).isSome && decide (w.sched.readyL ≤ clk)

/-- Ready in a stream. -/
def Wave.isReady (w : Wave) (clk : Nat) : Bool := w.readyS clk || w.readyL clk

/-- A stream whose word of this cycle has issued had something ready in it (R109). -/
def Wave.hadS (w : Wave) (clk : Nat) : Bool := w.readyS clk || w.sched.holdS == .none && w.sched.lastS == clk && w.sched.entered != clk

/-- The same of the lane stream. -/
def Wave.hadL (w : Wave) (clk : Nat) : Bool := w.readyL clk || w.sched.holdL == .none && w.sched.lastL == clk && w.sched.entered != clk

/-- One stream waits on a long-latency dependence and the other has nothing ready (R109). -/
def Wave.blocked (w : Wave) (clk : Nat) : Bool :=
  w.runs && ((w.park != .none || w.sched.holdS == .long) && !w.hadL clk || w.sched.holdL == .long && !w.hadS clk)

/-- The ready pending wave that has waited longest; of several with equal waits, which the manual leaves open, the lowest in number (R110;
log 69). -/
def State.longestPending (s : State) (p i : Nat) : Option (Nat × Wave) :=
  (s.inPart p i).foldl (fun best e =>
    if !e.2.sched.active && e.2.isReady (s.clk p) then
      match best with
      | some b => if e.2.sched.waiting < b.2.sched.waiting then some e else best
      | none => some e
    else best) none

/-- A wave of the active set: one that exits leaves it (R110). -/
def Wave.isActive (w : Wave) : Bool := w.sched.active && w.life == .running

/-- How many waves are active in a partition. -/
def State.activeCount (s : State) (p i : Nat) : Nat := ((s.inPart p i).filter fun e => e.2.isActive).length

/-- A wave enters the pending set as ready: a stall that still holds it shows when it is next looked at (R111, R113). -/
def Wave.asReady (w : Wave) : Wave := { w with sched := { w.sched with holdS := .none, holdL := .none } }

/-- A wave leaves the active set; it next issues two cycles later at the earliest (R110). -/
def Wave.swapOut (w : Wave) (clk : Nat) : Wave :=
  { w with sched := { w.sched with
      active := false, waiting := clk, readyS := max w.sched.readyS (clk + 2), readyL := max w.sched.readyL (clk + 2) } }

/-- A wave enters the active set; its entry counts as its last issue (R108, R110). -/
def Wave.swapIn (w : Wave) (clk : Nat) : Wave :=
  { w with sched := { w.sched with
      active := true, entered := clk, lastS := clk, lastL := clk
      readyS := max w.sched.readyS (clk + 2), readyL := max w.sched.readyL (clk + 2) } }

/-- A swap: `out` leaves, if a wave does, and `in_` enters. -/
def State.swap (s : State) (p : Nat) (out : Option Nat) (in_ : Nat) : State :=
  let s := match out with
    | some n => s.onWave n fun w => w.swapOut (s.clk p)
    | none => s
  s.onWave in_ fun w => w.swapIn (s.clk p)

/-- A swap of R110, or of R113 by `yield`; at most one starts in a cycle. -/
def State.swapOrdinary (s : State) (p i : Nat) (out : Option Nat) (in_ : Nat) : State :=
  (s.swap p out in_).setPart p i { s.part p i with lastSwap := some (s.clk p) }

/-- Whether a partition has started a swap in this cycle. -/
def State.swapped (s : State) (p i : Nat) : Bool :=
  (s.part p i).lastSwap == some (s.clk p) || (s.part p i).lastForced == some (s.clk p)

/-- Meaning of PARTITION_SWAP (R110): a blocked active wave gives way to the longest-waiting ready pending wave, or a
free place of the active set is filled. With no such wave nothing happens. Of several blocked waves the lowest in number leaves, which the
manual leaves open (log 69). -/
def execPartitionSwap (pcore part : Nat) (s : State) : Out :=
  if s.swapped pcore part then .next s else
  match s.longestPending pcore part with
  | none => .next s
  | some e =>
    if s.activeCount pcore part < 8 then .next (s.swapOrdinary pcore part none e.1)
    else match (s.inPart pcore part).find? fun x => x.2.isActive && x.2.blocked (s.clk pcore) with
      | some x => .next (s.swapOrdinary pcore part (some x.1) e.1)
      | none => .next s

/-- A swap that R110 requires now has been made. -/
def State.ordinaryDue (s : State) (p i : Nat) : State := match execPartitionSwap p i s with
  | .next t => t
  | _ => s

/-- The active wave that has stayed longest in the active set (R111). -/
def State.longestActive (s : State) (p i : Nat) : Option (Nat × Wave) :=
  (s.inPart p i).foldl (fun best e =>
    if e.2.isActive then
      match best with
      | some b => if e.2.sched.entered < b.2.sched.entered then some e else best
      | none => some e
    else best) none

/-- Meaning of FORCED_SWAP (R111): at the start of a window of 256 cycles, when a ready pending wave has waited at
least 256 cycles and the window before admitted none, the longest-active wave gives way. The windows begin at the multiples of 256 of the
band's cycle count, in every partition alike; a swap of R110 in the window's first cycle comes first, and the window then makes no forced one
(log 69). -/
def execForcedSwap (pcore part : Nat) (s : State) : Out :=
  let clk := s.clk pcore
  if clk % 256 ≠ 0 ∨ s.swapped pcore part then .next s else
  match s.longestPending pcore part, s.longestActive pcore part with
  | some i, some o =>
    let admitted := match (s.part pcore part).lastSwap with
      | some c => decide (clk ≤ c + 256)
      | none => false
    if 256 ≤ clk - i.2.sched.waiting ∧ !admitted then
      .next (((s.onWave o.1 Wave.asReady).swap pcore (some o.1) i.1).setPart pcore part { s.part pcore part with lastForced := some clk })
    else .next s
  | _, _ => .next s

/-- The partitions with a wave that waits in their pending sets. -/
def State.pendingParts (s : State) : List (Nat × Nat) :=
  ((s.waves.filter fun e => e.2.runs && !e.2.sched.active).map fun e => (coreOfWave e.1, partOfWave e.1)).dedup

/-- The swaps that R110 and R111 require of this cycle, made before time moves on. -/
def State.dueSwaps (s : State) : State :=
  s.pendingParts.foldl (fun s e => match execForcedSwap e.1 e.2 (s.ordinaryDue e.1 e.2) with
    | .next t => t
    | _ => s) s

end Sys2Proof.Machine
end

