-- ==== Sys2Proof/Machine/Scalar.lean ====
section
/-! DEFINITION. Scalar arithmetic, address instructions, special registers, `nop`, `yield` and `wait`
(R113, R121, R152-R160). -/

namespace Sys2Proof.Machine

/-! ## Shared shapes -/

/-- A register form `mnemonic sD, sA, sB` (R153): the result lands `lat` cycles later (R114). -/
def aluR (d a b lat : Nat) (f : Word → Word → Word) (s : State) : Out :=
  scalarWord s [d, a, b] [a, b] (some (d, lat)) fun w _ =>
    s.step4 s.cur w fun w => w.sendS s.nextId (s.clkCur + lat) d (f (s.rS w a) (s.rS w b))

/-- A one-source form `mnemonic sD, sA` (R153). -/
def aluA (d a lat : Nat) (f : Word → Word) (s : State) : Out :=
  scalarWord s [d, a] [a] (some (d, lat)) fun w _ =>
    s.step4 s.cur w fun w => w.sendS s.nextId (s.clkCur + lat) d (f (s.rS w a))

/-- An immediate form whose destination is its first source (R155). -/
def aluI (d lat : Nat) (f : Word → Word) (s : State) : Out :=
  scalarWord s [d] [d] (some (d, lat)) fun w _ =>
    s.step4 s.cur w fun w => w.sendS s.nextId (s.clkCur + lat) d (f (s.rS w d))

/-- A truth value as a register value. -/
def ofTest (b : Bool) : Word := if b then 1 else 0

/-- The sign-extended immediate. -/
def immWord (i : Int) : Word := BitVec.ofInt 64 i

/-! ## Division (R154) -/

/-- Signed quotient, truncated toward zero; all ones for a zero divisor. -/
def divS (a b : Word) : Word := if b = 0 then BitVec.allOnes 64 else BitVec.ofInt 64 (Int.tdiv a.toInt b.toInt)

/-- Natural quotient; all ones for a zero divisor. -/
def divU (a b : Word) : Word := if b = 0 then BitVec.allOnes 64 else BitVec.ofNat 64 (a.toNat / b.toNat)

/-- Signed remainder, with the sign of the dividend; the dividend for a zero divisor. -/
def remS (a b : Word) : Word := if b = 0 then a else BitVec.ofInt 64 (Int.tmod a.toInt b.toInt)

/-- Natural remainder. -/
def remU (a b : Word) : Word := if b = 0 then a else BitVec.ofNat 64 (a.toNat % b.toNat)

/-! ## Bit counts -/

/-- Leading zero bits among the low `w` bits of `n`. -/
def clzNat (w n : Nat) : Nat := if n = 0 then w else w - 1 - Nat.log2 n

/-- One bits among the low `w` bits of `n`. -/
def popcNat : Nat → Nat → Nat
  | 0, _ => 0
  | w + 1, n => n % 2 + popcNat w (n / 2)

/-! ## Register forms (R153) -/

/-- ADD (R153). -/
def execAdd (d a b : Nat) (s : State) : Out := aluR d a b 2 (· + ·) s
/-- SUB (R153). -/
def execSub (d a b : Nat) (s : State) : Out := aluR d a b 2 (· - ·) s
/-- MUL (R153). -/
def execMul (d a b : Nat) (s : State) : Out := aluR d a b 4 (· * ·) s
/-- MULH_I64 (R153): bits 127:64 of the signed product. -/
def execMulhI64 (d a b : Nat) (s : State) : Out :=
  aluR d a b 4 (fun x y => BitVec.ofInt 64 (x.toInt * y.toInt / 2 ^ 64)) s
/-- MULH_N64 (R153): bits 127:64 of the natural product. -/
def execMulhN64 (d a b : Nat) (s : State) : Out :=
  aluR d a b 4 (fun x y => BitVec.ofNat 64 (x.toNat * y.toNat / 2 ^ 64)) s
/-- DIV_I64 (R154). -/
def execDivI64 (d a b : Nat) (s : State) : Out := aluR d a b 20 divS s
/-- DIV_N64 (R154). -/
def execDivN64 (d a b : Nat) (s : State) : Out := aluR d a b 20 divU s
/-- REM_I64 (R154). -/
def execRemI64 (d a b : Nat) (s : State) : Out := aluR d a b 20 remS s
/-- REM_N64 (R154). -/
def execRemN64 (d a b : Nat) (s : State) : Out := aluR d a b 20 remU s
/-- AND (R153). -/
def execAnd (d a b : Nat) (s : State) : Out := aluR d a b 2 (· &&& ·) s
/-- OR (R153). -/
def execOr (d a b : Nat) (s : State) : Out := aluR d a b 2 (· ||| ·) s
/-- XOR (R153). -/
def execXor (d a b : Nat) (s : State) : Out := aluR d a b 2 (· ^^^ ·) s
/-- SHL (R153). -/
def execShl (d a b : Nat) (s : State) : Out := aluR d a b 2 (fun x y => x <<< (y.toNat % 64)) s
/-- SHR_N64 (R153). -/
def execShrN64 (d a b : Nat) (s : State) : Out := aluR d a b 2 (fun x y => x >>> (y.toNat % 64)) s
/-- SHR_I64 (R153). -/
def execShrI64 (d a b : Nat) (s : State) : Out := aluR d a b 2 (fun x y => x.sshiftRight (y.toNat % 64)) s
/-- MIN_I64 (R153). -/
def execMinI64 (d a b : Nat) (s : State) : Out := aluR d a b 2 (fun x y => if x.toInt ≤ y.toInt then x else y) s
/-- MIN_N64 (R153). -/
def execMinN64 (d a b : Nat) (s : State) : Out := aluR d a b 2 (fun x y => if x.toNat ≤ y.toNat then x else y) s
/-- MAX_I64 (R153). -/
def execMaxI64 (d a b : Nat) (s : State) : Out := aluR d a b 2 (fun x y => if x.toInt ≤ y.toInt then y else x) s
/-- MAX_N64 (R153). -/
def execMaxN64 (d a b : Nat) (s : State) : Out := aluR d a b 2 (fun x y => if x.toNat ≤ y.toNat then y else x) s
/-- CLZ (R153). -/
def execClz (d a : Nat) (s : State) : Out := aluA d a 2 (fun x => BitVec.ofNat 64 (clzNat 64 x.toNat)) s
/-- POPC (R153). -/
def execPopc (d a : Nat) (s : State) : Out := aluA d a 2 (fun x => BitVec.ofNat 64 (popcNat 64 x.toNat)) s
/-- SEQ (R153). -/
def execSeq (d a b : Nat) (s : State) : Out := aluR d a b 2 (fun x y => ofTest (x == y)) s
/-- SNE (R153). -/
def execSne (d a b : Nat) (s : State) : Out := aluR d a b 2 (fun x y => ofTest (x != y)) s
/-- SLT_I64 (R153). -/
def execSltI64 (d a b : Nat) (s : State) : Out := aluR d a b 2 (fun x y => ofTest (decide (x.toInt < y.toInt))) s
/-- SLT_N64 (R153). -/
def execSltN64 (d a b : Nat) (s : State) : Out := aluR d a b 2 (fun x y => ofTest (decide (x.toNat < y.toNat))) s
/-- SLE_I64 (R153). -/
def execSleI64 (d a b : Nat) (s : State) : Out := aluR d a b 2 (fun x y => ofTest (decide (x.toInt ≤ y.toInt))) s
/-- SLE_N64 (R153). -/
def execSleN64 (d a b : Nat) (s : State) : Out := aluR d a b 2 (fun x y => ofTest (decide (x.toNat ≤ y.toNat))) s
/-- SCADD_2 (R153). -/
def execScadd2 (d a b : Nat) (s : State) : Out := aluR d a b 2 (fun x y => x + y * 2) s
/-- SCADD_4 (R153). -/
def execScadd4 (d a b : Nat) (s : State) : Out := aluR d a b 2 (fun x y => x + y * 4) s
/-- SCADD_8 (R153). -/
def execScadd8 (d a b : Nat) (s : State) : Out := aluR d a b 2 (fun x y => x + y * 8) s
/-- SCADD_16 (R153). -/
def execScadd16 (d a b : Nat) (s : State) : Out := aluR d a b 2 (fun x y => x + y * 16) s

/-! ## Immediate forms (R155-R158) -/

/-- ADDI (R155). -/
def execAddi (d : Nat) (imm : Int) (s : State) : Out := aluI d 2 (fun x => x + immWord imm) s
/-- MULI (R155). -/
def execMuli (d : Nat) (imm : Int) (s : State) : Out := aluI d 4 (fun x => x * immWord imm) s
/-- ANDI (R155). -/
def execAndi (d : Nat) (imm : Int) (s : State) : Out := aluI d 2 (fun x => x &&& immWord imm) s
/-- ORI (R155). -/
def execOri (d : Nat) (imm : Int) (s : State) : Out := aluI d 2 (fun x => x ||| immWord imm) s
/-- XORI (R155). -/
def execXori (d : Nat) (imm : Int) (s : State) : Out := aluI d 2 (fun x => x ^^^ immWord imm) s
/-- SHLI (R155). -/
def execShli (d imm : Nat) (s : State) : Out := aluI d 2 (fun x => x <<< (imm % 64)) s
/-- SHRI_N64 (R155). -/
def execShriN64 (d imm : Nat) (s : State) : Out := aluI d 2 (fun x => x >>> (imm % 64)) s
/-- SHRI_I64 (R155). -/
def execShriI64 (d imm : Nat) (s : State) : Out := aluI d 2 (fun x => x.sshiftRight (imm % 64)) s
/-- SLTI_I64 (R155). -/
def execSltiI64 (d : Nat) (imm : Int) (s : State) : Out :=
  aluI d 2 (fun x => ofTest (decide (x.toInt < (immWord imm).toInt))) s
/-- SLTI_N64 (R155). -/
def execSltiN64 (d : Nat) (imm : Int) (s : State) : Out :=
  aluI d 2 (fun x => ofTest (decide (x.toNat < (immWord imm).toNat))) s
/-- SEQI (R155). -/
def execSeqi (d : Nat) (imm : Int) (s : State) : Out := aluI d 2 (fun x => ofTest (x == immWord imm)) s

/-- MOVI (R155): the old sD is not read. -/
def execMovi (d : Nat) (imm : Int) (s : State) : Out :=
  scalarWord s [d] [] (some (d, 2)) fun w _ =>
    s.step4 s.cur w fun w => w.sendS s.nextId (s.clkCur + 2) d (immWord imm)

/-- LIM (R156). -/
def execLim (d imm : Nat) (s : State) : Out := aluI d 2 (fun x => (x <<< 15) ||| BitVec.ofNat 64 (imm % 2 ^ 15)) s

/-- ADR (R157): relative to the `adr` word itself. -/
def execAdr (d : Nat) (imm : Int) (s : State) : Out :=
  scalarWord s [d] [] (some (d, 2)) fun w _ =>
    s.step4 s.cur w fun w => w.sendS s.nextId (s.clkCur + 2) d (BitVec.ofNat 64 w.spc + 4 * immWord imm)

/-- LBLK (R158): the entry's start and length into bits 31:0; an entry beyond the table is an illegal operand. -/
def execLblk (d imm : Nat) (s : State) : Out :=
  scalarWord s [d] [d] (some (d, 2)) fun w c =>
    let t := c.obj.sect 5
    if t.2 / 8 ≤ imm then s.trapS s.cur 2 (BitVec.ofNat 64 imm) 0 0
    else
      let e := c.blocks.getD imm 0
      s.step4 s.cur w fun w => w.sendS s.nextId (s.clkCur + 2) d
        ((s.rS w d &&& 0xFFFFFFFF00000000)
          ||| BitVec.ofNat 64 (e % 2 ^ 32))

/-! ## Special registers (R159, R160) -/

/-- What `mfs` reads. -/
def specialVal (s : State) (n : Nat) (w : Wave) : SpecialReg → Word
  | .spc => BitVec.ofNat 64 w.spc
  | .lpc => BitVec.ofNat 64 (w.nextLpc w.queue % 2 ^ 24)
  | .wid => BitVec.ofNat 64 (w.wid % 2 ^ 32)
  | .width => BitVec.ofNat 64 w.width
  | .core => BitVec.ofNat 64 w.lcore
  | .pcore => BitVec.ofNat 64 (coreOfWave n)
  | .lbusy => BitVec.ofNat 64 w.lbusy
  | .lmask => w.lmask
  | .sbase => BitVec.ofNat 64 w.sbase
  | .fpctl => w.ctl.fpctl.setWidth 64
  | .fpflags => w.ctl.fpflags.setWidth 64
  | .xcause => w.ctl.xcause
  | .xmask => w.ctl.xmask
  | .xspc => w.ctl.xspc
  | .xlpc => w.ctl.xlpc.setWidth 64
  | .xaddr => w.ctl.xaddr
  | .cad => BitVec.ofNat 64 s.pc.cad
  | .clk => BitVec.ofNat 64 (s.clk (coreOfWave n))
  | .nsc => BitVec.ofNat 64 s.nsc
  | .ratio => BitVec.ofNat 64 (s.band (bandOf (coreOfWave n))).ratio
  | .temp => (BitVec.ofInt 16 (s.core (coreOfWave n)).temp).setWidth 64
  | .pclass => BitVec.ofNat 64 w.pclass

/-- MFS (R159). -/
def execMfs (d : Nat) (r : SpecialReg) (s : State) : Out :=
  scalarWord s [d] [] (some (d, 4)) fun w _ =>
    s.step4 s.cur w fun w => w.sendS s.nextId (s.clkCur + 4) d (specialVal s s.cur w r)

/-- The word of an instruction, for the `xaddr` of an illegal-instruction trap (R358). -/
def wordOf (i : Instr) : Word := BitVec.ofNat 64 ((encodeWord i).getD 0)

/-- MTS (R159): the new value governs instructions issued 2 cycles later or after; a read-only register is an
illegal-instruction trap. -/
def execMts (d : Nat) (r : SpecialReg) (s : State) : Out :=
  if !r.writable then .next (s.trapS s.cur 1 (wordOf (.mts d r)) 0 0)
  else scalarWord s [d] [d] none fun w _ =>
    s.step4 s.cur w fun w => w.sendSpecial s.nextId (s.clkCur + 2) r (s.rS w d)

/-! ## nop, yield, wait (R113, R121) -/

/-- NOP (R113). -/
def execNop (s : State) : Out := scalarWord s [] [] none fun w _ => s.step4 s.cur w id

/-- YIELD (R113): as `nop`, and the wave gives its place to the longest-waiting ready pending wave, if there is one. In a cycle in which its
partition has already started a swap the word waits (R110). -/
def execYield (s : State) : Out :=
  scalarWord s [] [] none fun w _ =>
    let n := s.cur
    let s' := s.step4 n w id
    match s.longestPending (coreOfWave n) (partOfWave n) with
    | some e =>
      if !w.sched.active then s'
      else if s.swapped (coreOfWave n) (partOfWave n) then s.holdS n w .stall
      else s'.swapOrdinary (coreOfWave n) (partOfWave n) (some n) e.1
    | none => s'

/-- WAIT (R121): the scalar stream is held until the counter is at most the immediate. -/
def execWait (d imm : Nat) (s : State) : Out :=
  scalarWord s [] [] none fun w _ =>
    if w.count (Ctr.ofCode d) ≤ imm then s.step4 s.cur w id else s.holdS s.cur w .long

end Sys2Proof.Machine
end

