-- ==== Sys2Proof/Machine/LaneArith.lean ====
section
/-! DEFINITION. Lane arithmetic, compares, predicate logic, moves, conversions and codebooks (R161-R175). -/

namespace Sys2Proof.Machine

/-! ## Shapes -/

/-- The exceptions that floating-point arithmetic can raise (R149). -/
def fArith : Flags := fNV ||| fOF ||| fUF ||| fNX

/-- `mnemonic vd, va, vb` on lanes (R161). -/
def lane2 (l : LaneA) (lat : Nat) (can : Flags) (f : W32 → W32 → W32 × Flags) (s : State) : Out :=
  laneFrame s l .dst .src .src .none (!l.im) l.im id lat fun k =>
    s.laneResult k lat can fun i => f (k.val s k.a i) (k.val s k.b i)

/-- `mnemonic vd, va` on lanes, which reads the bits `rfld` of its source (R161, R171). -/
def lane1 (l : LaneA) (lat : Nat) (can : Flags) (f : W32 → W32 × Flags) (s : State) (rfld : W32 := BitVec.allOnes 32) : Out :=
  laneFrame s l .dst .src .none .none (!l.im) false id lat (rfld := rfld) fun k =>
    s.laneResult k lat can fun i => f (k.val s k.a i)

/-- An integer operation on every element of a lane (R163). -/
def intElems (ty : Ty) (sat : Bool) (op : Int → Int → Int) (a b : W32) : W32 × Flags :=
  mapElems ty.bits fun k =>
    (narrow ty.signed ty.bits sat
      (op (readInt ty.signed ty.bits (elem ty.bits k a)) (readInt ty.signed ty.bits (elem ty.bits k b))), 0)

/-- A one-source integer operation on every element (R163). -/
def intElems1 (ty : Ty) (sat : Bool) (op : Int → Int) (a : W32) : W32 × Flags :=
  mapElems ty.bits fun k => (narrow ty.signed ty.bits sat (op (readInt ty.signed ty.bits (elem ty.bits k a))), 0)

/-- The value of a floating-point element, subnormals flushed under `.ftz` (R142). -/
def fval (ty : Ty) (ftz : Bool) (k : Nat) (b : W32) : Num := ty.fmt.value (ty.fmt.flushIn ftz (elem ty.bits k b))

/-- A floating-point operation on every element, rounded once (R164). -/
def floatElems (l : LaneA) (op : Rnd → Num → Num → Num × Flags) (a b : W32) : W32 × Flags :=
  mapElems l.ty.bits fun k => l.ty.fmt.deliver l.rnd l.sat l.ftz (op l.rnd (fval l.ty l.ftz k a) (fval l.ty l.ftz k b))

/-- An operation with an integer and a floating-point form. -/
def arith (l : LaneA) (iop : Int → Int → Int) (fop : Rnd → Num → Num → Num × Flags) (s : State) : Out :=
  if l.ty.isFloat then lane2 l 6 fArith (floatElems l fop) s else lane2 l 4 0 (intElems l.ty l.sat iop) s

/-- VADD (R163, R164). -/
def execVadd (l : LaneA) (s : State) : Out := arith l (· + ·) Num.add s
/-- VSUB (R163, R164). -/
def execVsub (l : LaneA) (s : State) : Out := arith l (· - ·) (fun m x y => Num.add m x y.negate) s
/-- VMUL (R163, R164). -/
def execVmul (l : LaneA) (s : State) : Out := arith l (· * ·) (fun _ x y => Num.mul x y) s
/-- VMULH (R163): bits 2w-1 to w of the product. -/
def execVmulh (l : LaneA) (s : State) : Out :=
  lane2 l 4 0 (intElems l.ty false fun x y => x * y / 2 ^ l.ty.bits) s

/-- VFMA (R164): one rounding of va × vb + vc. -/
def execVfma (l : LaneA) (s : State) : Out :=
  laneFrame s l .dst .src .src .src (!l.im) l.im id 6 fun k =>
    s.laneResult k 6 fArith fun i =>
      mapElems l.ty.bits fun e => l.ty.fmt.deliver l.rnd l.sat l.ftz
        (Num.fma l.rnd (fval l.ty l.ftz e (k.val s k.a i)) (fval l.ty l.ftz e (k.val s k.b i))
          (fval l.ty l.ftz e (k.val s k.x i)))

/-- `vmin` and `vmax` (R163, R164). -/
def minMax (l : LaneA) (isMax : Bool) (s : State) : Out :=
  if l.ty.isFloat then
    lane2 l 6 fNV (fun a b => mapElems l.ty.bits fun e =>
      l.ty.fmt.minMax isMax (l.ty.fmt.flushIn l.ftz (elem l.ty.bits e a)) (l.ty.fmt.flushIn l.ftz (elem l.ty.bits e b))) s
  else lane2 l 4 0 (intElems l.ty false (if isMax then max else min)) s

/-- VMIN (R163, R164). -/
def execVmin (l : LaneA) (s : State) : Out := minMax l false s
/-- VMAX (R163, R164). -/
def execVmax (l : LaneA) (s : State) : Out := minMax l true s

/-- A sign operation: on the sign bit of a float, exactly on an integer (R163, R164). -/
def signOp (l : LaneA) (iop : Int → Int) (fop : Nat → Nat → Nat) (s : State) : Out :=
  if l.ty.isFloat then
    lane1 l 6 0 (fun a => mapElems l.ty.bits fun e => (fop l.ty.fmt.sign (elem l.ty.bits e a), 0)) s
  else lane1 l 4 0 (intElems1 l.ty l.sat iop) s

/-- VABS (R163, R164). -/
def execVabs (l : LaneA) (s : State) : Out := signOp l (fun x => (x.natAbs : Int)) (fun p b => b % 2 ^ p) s
/-- VNEG (R163, R164). -/
def execVneg (l : LaneA) (s : State) : Out := signOp l (fun x => -x) (fun p b => (b + 2 ^ p) % 2 ^ (p + 1)) s
/-- VAND (R163). -/
def execVand (l : LaneA) (s : State) : Out := lane2 l 4 0 (fun a b => (a &&& b, 0)) s
/-- VOR (R163). -/
def execVor (l : LaneA) (s : State) : Out := lane2 l 4 0 (fun a b => (a ||| b, 0)) s
/-- VXOR (R163). -/
def execVxor (l : LaneA) (s : State) : Out := lane2 l 4 0 (fun a b => (a ^^^ b, 0)) s
/-- VNOT (R163). -/
def execVnot (l : LaneA) (s : State) : Out := lane1 l 4 0 (fun a => (~~~a, 0)) s

/-- VSHL (R163). -/
def execVshl (l : LaneA) (s : State) : Out :=
  lane2 l 4 0 (fun a b => mapElems l.ty.bits fun e =>
    (low l.ty.bits ((elem l.ty.bits e a * 2 ^ (elem l.ty.bits e b % l.ty.bits) : Nat) : Int), 0)) s

/-- VSHR (R163): arithmetic on a signed type, logical on a natural one. -/
def execVshr (l : LaneA) (s : State) : Out :=
  lane2 l 4 0 (fun a b => mapElems l.ty.bits fun e =>
    (low l.ty.bits (readInt l.ty.signed l.ty.bits (elem l.ty.bits e a) / 2 ^ (elem l.ty.bits e b % l.ty.bits)), 0)) s

/-- VCLZ (R163). -/
def execVclz (l : LaneA) (s : State) : Out :=
  lane1 l 4 0 (fun a => mapElems l.ty.bits fun e => (clzNat l.ty.bits (elem l.ty.bits e a), 0)) s
/-- VPOPC (R163). -/
def execVpopc (l : LaneA) (s : State) : Out :=
  lane1 l 4 0 (fun a => mapElems l.ty.bits fun e => (popcNat l.ty.bits (elem l.ty.bits e a), 0)) s

/-! ## Compares (R165) -/

/-- A compare of one 32-bit element per lane into a predicate; `on` gives the outcome on numbers, `anyNan` says that
any NaN raises NV. -/
def compare (l : LaneA) (iop : Int → Int → Bool) (fop : Num → Num → Bool) (anyNan : Bool) (s : State) : Out :=
  let lat := if l.ty.isFloat then 6 else 4
  laneFrame s l .pdst .src .src .none (!l.im) l.im id lat fun k =>
    let rs := (lanesOf k.act).map fun i =>
      if l.ty.isFloat then
        let x := fval l.ty l.ftz 0 (k.val s k.a i)
        let y := fval l.ty l.ftz 0 (k.val s k.b i)
        (i, fop x y, raiseIf (if anyNan then x.isNan || y.isNan else x.isSig || y.isSig) fNV)
      else (i, iop (readInt l.ty.signed 32 (k.val s k.a i).toNat) (readInt l.ty.signed 32 (k.val s k.b i).toNat), 0)
    let fl := rs.foldl (fun a r => a ||| r.2.2) 0
    let en := k.w.ctl.fpctl
    s.sendDest k (lat + k.late) 1 (.pred l.d k.act (maskOf fun i => rs.any fun r => r.1 == i && r.2.1)) fl
      (maskOf fun i => rs.any fun r => r.1 == i && (r.2.2 &&& en) != 0) (fl &&& en)
      (if l.ty.isFloat then fNV else 0)

/-- Less or equal on numbers. -/
def Num.le (x y : Num) : Bool := Num.lt false x y || Num.eq x y

/-- VCMP_EQ (R165). -/
def execVcmpEq (l : LaneA) (s : State) : Out := compare l (fun x y => x == y) Num.eq false s
/-- VCMP_NE (R165). -/
def execVcmpNe (l : LaneA) (s : State) : Out := compare l (fun x y => x != y) (fun x y => !Num.eq x y) false s
/-- VCMP_LT (R165). -/
def execVcmpLt (l : LaneA) (s : State) : Out := compare l (fun x y => decide (x < y)) (Num.lt false) true s
/-- VCMP_LE (R165). -/
def execVcmpLe (l : LaneA) (s : State) : Out := compare l (fun x y => decide (x ≤ y)) Num.le true s
/-- VCMP_GT (R165). -/
def execVcmpGt (l : LaneA) (s : State) : Out :=
  compare l (fun x y => decide (y < x)) (fun x y => Num.lt false y x) true s
/-- VCMP_GE (R165). -/
def execVcmpGe (l : LaneA) (s : State) : Out := compare l (fun x y => decide (y ≤ x)) (fun x y => Num.le y x) true s
/-- VCMP_UN (R165). -/
def execVcmpUn (l : LaneA) (s : State) : Out := compare l (fun _ _ => false) (fun x y => x.isNan || y.isNan) false s
/-- VCMP_OR (R165). -/
def execVcmpOr (l : LaneA) (s : State) : Out :=
  compare l (fun _ _ => true) (fun x y => !x.isNan && !y.isNan) false s

/-! ## Predicate logic (R166) -/

/-- Predicate logic on the active lanes; `two` says that the b field names a predicate. -/
def predOp (l : LaneA) (two : Bool) (f : Bool → Bool → Bool) (s : State) : Out :=
  laneFrame s l .pdst .psrc (if two then .psrc else .none) .none false false id 2 fun k =>
    s.sendDest k 2 1 (.pred l.d k.act
      (maskOf fun i => k.act.getLsbD i && f (k.w.readP k.fr k.clk l.a i) (k.w.readP k.fr k.clk l.b i))) 0 0 0 0

/-- PAND (R166). -/
def execPand (l : LaneA) (s : State) : Out := predOp l true (fun x y => x && y) s
/-- POR (R166). -/
def execPor (l : LaneA) (s : State) : Out := predOp l true (fun x y => x || y) s
/-- PXOR (R166). -/
def execPxor (l : LaneA) (s : State) : Out := predOp l true (fun x y => x != y) s
/-- PANDN (R166). -/
def execPandn (l : LaneA) (s : State) : Out := predOp l true (fun x y => x && !y) s
/-- PNOT (R166). -/
def execPnot (l : LaneA) (s : State) : Out := predOp l false (fun x _ => !x) s

/-! ## Moves (R167-R169) -/

/-- VMOV (R167). -/
def execVmov (l : LaneA) (s : State) : Out :=
  laneFrame s l .dst (if l.im then .none else .src) .none .none (!l.im) false id 2 fun k =>
    s.laneResult k 2 0 fun i => (if l.im then BitVec.ofNat 32 l.imm else k.val s k.a i, 0)

/-- VSEL (R168). -/
def execVsel (l : LaneA) (s : State) : Out :=
  laneFrame s l .dst .src .src .psrc (!l.im) l.im id 4 fun k =>
    s.laneResult k 4 0 fun i => (if k.w.readP k.fr k.clk l.c i then k.val s k.a i else k.val s k.b i, 0)

/-- MVS (R169): the named lane is read whatever its mask, launch or exit state. -/
def execMvs (l : LaneA) (s : State) : Out :=
  laneFrame s l .sdst .src .none .none true false (fun _ => 1#64 <<< (l.c % 64)) 10 fun k =>
    s.sendDest k (10 + k.late) 1 (.sreg l.d ((k.val s k.a (l.c % 64)).setWidth 64)) 0 0 0 0

/-! ## Conversions (R170-R173) -/

/-- The field bits of elements `lo` to `lo + n - 1` of width `w` (R171). -/
def fieldMask (w lo n : Nat) : W32 := BitVec.ofNat 32 ((2 ^ (w * n) - 1) * 2 ^ (w * lo))

/-- The exceptions a conversion can raise: none between plain integers (R143). -/
def canCvt (d s : Ty) : Flags :=
  if s.isIntSource && s != .t2 && d.isIntSource && d != .t2 then 0 else fArith

/-- The `n` element fields of width `w` from number `lo` on, each of them (R171). -/
def fieldMasks (w lo n : Nat) : List W32 := (List.range n).map fun e => fieldMask w (lo + e) 1

/-- VCVT (R170): part `p` of the wider side; where the result is the narrower side, each field lands by itself (R171). -/
def execVcvt (l : LaneA) (s : State) : Out :=
  let src := (Ty.ofCode l.c).getD .raw
  let ns := 32 / src.bits
  let nd := 32 / l.ty.bits
  let n := min ns nd
  let p := l.imm % 16
  let lo := if ns < nd then p * n else 0
  let lat := if src == .cb4 then 8 else 6
  let fields := if ns < nd then fieldMasks l.ty.bits lo n else [BitVec.allOnes 32]
  laneFrame s l .dst .src .none .none false false id lat (fld := if ns < nd then fieldMask l.ty.bits lo n else BitVec.allOnes 32)
      (rfld := if nd < ns then fieldMask src.bits (p * n) n else BitVec.allOnes 32) fun k =>
    let cb := k.w.readCb k.fr k.clk (l.imm / 16 % 4)
    let r := overLanes k.act k.w.ctl.fpctl fun i =>
      let es := (List.range n).map fun e =>
        let b := elem src.bits (e + if nd < ns then p * n else 0) (k.val s k.a i)
        convert l.ty src l.rnd l.sat l.ftz (if src == .cb4 then cbEntry cb b else b)
      (BitVec.ofNat 32 (packElems l.ty.bits (es.map Prod.fst) * 2 ^ (l.ty.bits * lo)),
        es.foldl (fun a e => a ||| e.2) 0)
    s.sendFields k (lat + k.late) fields r.vals r.flags r.raised r.trig (canCvt l.ty src)

/-- An element narrowed to a type (Narrow of R172). -/
def narrowTo (t : Ty) (sat : Bool) (w2 x : Nat) : Nat :=
  let i := readInt (t.signed || t == .t2) w2 x
  if sat then (if t == .t2 then low 2 (clampTo (-1) 1 i) else low t.bits (clampTo (minOf t.signed t.bits) (maxOf t.signed t.bits) i))
  else x % 2 ^ t.bits

/-- VPACK (R172). -/
def execVpack (l : LaneA) (s : State) : Out :=
  let w := l.ty.bits
  let h := 32 / w / 2
  lane2 l 4 0 (fun a b => mapElems w fun k =>
    (narrowTo l.ty l.sat (2 * w) (if k < h then elem (2 * w) k a else elem (2 * w) (k - h) b), 0)) s

/-- VUNPACK (R173): a `.t2` source widens to `.i4`, its reserved encoding to 0 with NV. -/
def execVunpack (l : LaneA) (s : State) : Out :=
  let w := l.ty.bits
  let h := 32 / w / 2
  lane1 l 4 (if l.ty == .t2 then fNV else 0) (fun a => mapElems (2 * w) fun k =>
    let e := elem w (k + l.c % 2 * h) a
    if l.ty == .t2 then (if e = 2 then (0, fNV) else (low 4 (sext 2 e), 0))
    else (low (2 * w) (readInt l.ty.signed w e), 0)) s (rfld := fieldMask w (l.c % 2 * h) h)

/-! ## Codebooks (R174, R175) -/

/-- VCBSET (R174): lanes 0 to 7 are read whatever their mask. -/
def execVcbset (l : LaneA) (s : State) : Out :=
  laneFrame s l .none .src .none .none true false (fun _ => 0xFF) 4 fun k =>
    s.sendDest k (4 + k.late) 1 (.cbook (l.d % 4)
      (BitVec.ofNat 256 (packElems 32 ((List.range 8).map fun i => (k.val s k.a i).toNat)))) 0 0 0 0

/-- VCBW (R175): the nearest entries' indices into the named fields, each of which lands by itself (R171). -/
def execVcbw (l : LaneA) (s : State) : Out :=
  let ns := 32 / l.ty.bits
  let lo := l.c / 4 % 8 * ns
  laneFrame s l .dst .src .none .none true false id 8 (fld := fieldMask 4 lo ns) fun k =>
    let cb := k.w.readCb k.fr k.clk (l.c % 4)
    let r := overLanes k.act k.w.ctl.fpctl fun i =>
      let es := (List.range ns).map fun e => nearest (fval l.ty false e (k.val s k.a i)) cb
      (BitVec.ofNat 32 (packElems 4 (es.map Prod.fst) * 2 ^ (4 * lo)), es.foldl (fun a e => a ||| e.2) 0)
    s.sendFields k (8 + k.late) (fieldMasks 4 lo ns) r.vals r.flags r.raised r.trig (fNV ||| fNX)

end Sys2Proof.Machine
end

