-- ==== Sys2Proof/Machine/CrossLane.lean ====
section
/-! DEFINITION. Cross-lane instructions and `vrng` (R176-R182, R198-R200). -/

namespace Sys2Proof.Machine

/-- The reach W of a wave's own lanes (R176). -/
def Wave.reach (w : Wave) : Nat := if w.width = 16 ∨ w.width = 32 then w.width else 64

/-- A lane that was launched and has not exited (R176). -/
def Wave.present (w : Wave) (l : Nat) : Bool := w.launched.getLsbD l && !w.exited.getLsbD l

/-- A lane word that fails a check made at issue takes an illegal-instruction trap (R51, R358). Checks of this form come after the hazard
checker, to which the manual gives no order (log 58). -/
def laneIllegal (l : LaneA) (i : Instr) (s : State) : Out :=
  laneFrame s l .none .none .none .none false false id 0 fun k =>
    s.trapL k.n 1 (BitVec.ofNat 64 ((encodeWord i).getD 0 / 2 ^ 32)) k.act

/-! ## Permutes (R177-R179) -/

/-- VPERM (R177): a present lane's value, else the fill. -/
def execVperm (l : LaneA) (s : State) : Out :=
  laneFrame s l .dst .src .src .src true false (fun _ => BitVec.allOnes 64) 8 fun k =>
    s.laneResult k 8 0 fun i =>
      let j := (k.val s k.b i).toNat % k.w.reach
      (if k.w.present j then k.val s k.a j else k.val s k.x i, 0)

/-- The members of a width convoy, with their places. -/
def State.widthMembers (s : State) (lead : Nat) : List (Nat × Wave) :=
  s.waves.filter fun e => e.2.convoy.width.any fun x => x.1 == lead

/-- A slice of a scratchpad slot of core `p` as it stands at cycle `clk`, with the results in flight that land there by then (R114, R178). -/
def State.slotAt (s : State) (p clk key l : Nat) : W32 :=
  let due := ((s.waves.filter fun e => coreOfWave e.1 == p).flatMap fun e => e.2.pend.filter fun x => decide (x.due ≤ clk)).foldl
    (fun ls x => insertLanding x ls) []
  due.foldl (fun v x => match x.dest with
    | .spad k fld vals => if k = key then ((look vals l).map fun y => (v &&& ~~~fld) ||| (y &&& fld)).getD v else v
    | _ => v) (BitVec.ofNat 32 (s.num 4 (key + 4 * l)))

/-- A source's value in a lane of wave `w` as it stands at cycle `clk`. -/
def Src.valAt (x : Src) (s : State) (n : Nat) (w : Wave) (fr clk l : Nat) : W32 := match x with
  | .spad k => s.slotAt (coreOfWave n) clk k l
  | x => x.val s n w fr clk l

/-- The source lanes of a wave by logical lane, as they stand at cycle `at_`. -/
def Src.lanesAt (x : Src) (s : State) (n : Nat) (w : Wave) (fr at_ place : Nat) : List (Nat × W32) :=
  (lanes64.filter w.present).map fun l => (64 * place + l, x.valAt s n w fr at_ l)

/-- The source lanes of every member of a width convoy by logical lane, as they stand at cycle `at_`: of the lead those of the word that it
has issued, where it has. A member whose ring slot is still empty (R124) counts as absent, which the manual leaves open (log 20). -/
def State.gatherX (s : State) (lead fr clk at_ f i : Nat) : List (Nat × W32) :=
  (s.widthMembers lead).flatMap fun e =>
    match e.2.convoy.width, e.2.convoy.permX, nextBlock e.2.queue with
    | some (_, place, _), some px, _ => px.a.lanesAt s e.1 e.2 fr at_ place
    | some (_, place, _), none, some b =>
      match (e.2.seen clk).src e.1 b f i with
      | .ok x => x.lanesAt s e.1 e.2 fr at_ place
      | _ => []
    | _, _, _ => []

/-- A destination with other lane values. -/
def Dest.withVals (vals : List (Nat × W32)) : Dest → Dest
  | .vreg r fld _ => .vreg r fld vals
  | .spad key fld _ => .spad key fld vals
  | d => d

/-- The value that index `j` names among the gathered lanes, or the fill. -/
def pickX (g : List (Nat × W32)) (width j : Nat) (fill : W32) : W32 := ((g.find? fun e => e.1 == j % width).map Prod.snd).getD fill

/-- The first member to issue the lead's `vperm.x` reads every member's sources, two cycles after the lead issued, and the lead's own result
is made from them (R178). -/
def State.readX (s : State) (lead fr clk f i : Nat) : State :=
  match (s.wave lead).bind fun w => w.convoy.permX.map fun px => (w, px) with
  | none => s
  | some (w, px) =>
    let g := s.gatherX lead fr clk clk f i
    let vals := (lanesOf px.act).map fun l =>
      (l, pickX g w.width (px.b.valAt s lead w fr clk l).toNat (px.x.valAt s lead w fr clk l))
    let w := { w with
      pend := w.pend.map fun x => if x.seq = px.seq then { x with dest := x.dest.withVals vals } else x
      convoy := { w.convoy with permX := none } }
    { s with waves := (put s.waves lead w).map fun e =>
        if e.2.convoy.width.any (fun x => x.1 == lead) then (e.1, { e.2 with convoy := { e.2.convoy with gather := g } }) else e }

/-- VPERM_X (R178): in a width convoy the index names a logical lane of any member. The lead waits until every member has
issued all before it; the sources are read when the members issue, two cycles later, and each uses what was read. -/
def execVpermX (l : LaneA) (s : State) : Out :=
  laneFrame s l .dst .src .src .src true false (fun _ => BitVec.allOnes 64) 14 fun k =>
    let p := coreOfWave k.n
    let part := s.part p (partOfWave k.n)
    if k.clk < part.netAt then s.holdL k.n k.w .stall else
    let busy : State → State := fun s => s.setPart p (partOfWave k.n) { s.part p (partOfWave k.n) with netAt := k.clk + 2 }
    match k.w.convoy.width with
    | none => busy (s.laneResult k 14 0 fun i =>
        let j := (k.val s k.b i).toNat % k.w.reach
        (if k.w.present j then k.val s k.a j else k.val s k.x i, 0))
    | some (lead, place, _) =>
      let others := s.widthMembers lead
      if place = 0 ∧ others.any (fun e => e.1 ≠ k.n && (!e.2.convoy.fifo.isEmpty || !e.2.convoy.hops.isEmpty))
      then s.holdL k.n k.w .stall
      else
        if place = 0 then
          let g := s.gatherX lead k.fr k.clk (k.clk + 2) l.a (l.imm % 256)
          let px : PermX := ⟨s.nextId, k.act, k.a, k.b, k.x⟩
          busy ((s.laneResult k 14 0 fun i => (pickX g k.w.width (k.val s k.b i).toNat (k.val s k.x i), 0)).onWave k.n fun w =>
            { w with convoy := { w.convoy with permX := some px } })
        else
          let s := s.readX lead k.fr k.clk l.a (l.imm % 256)
          let g := ((s.wave k.n).getD k.w).convoy.gather
          busy (s.laneResult k 14 0 fun i => (pickX g k.w.width (k.val s k.b i).toNat (k.val s k.x i), 0))

/-- VSWAP (R179). -/
def execVswap (l : LaneA) (s : State) : Out :=
  if (s.wave s.cur).any (fun w => l.c = 0 || w.reach ≤ l.c) then laneIllegal l (.vswap l) s
  else laneFrame s l .dst .src .none .none true false (fun _ => BitVec.allOnes 64) 6 fun k =>
    s.laneResult k 6 0 fun i => (if k.w.present (i ^^^ l.c) then k.val s k.a (i ^^^ l.c) else 0, 0)

/-- VBCAST (R179). -/
def execVbcast (l : LaneA) (s : State) : Out :=
  if (s.wave s.cur).any (fun w => w.reach ≤ l.c) then laneIllegal l (.vbcast l) s
  else laneFrame s l .dst .src .none .none true false (fun _ => BitVec.allOnes 64) 6 fun k =>
    s.laneResult k 6 0 fun _ => (if k.w.present l.c then k.val s k.a l.c else 0, 0)

/-! ## Reductions and scans (R180, R181) -/

/-- A node of the tree: a value and the present lanes under it, or ABSENT. -/
abbrev TNode := Option (Int × Word)

/-- One level of the tree: the nodes above, the flags raised and the lanes under nodes that raised an enabled one. -/
def treeLevel (op : Int → Int → Int × Flags) (en : Flags) : List TNode → List TNode × Flags × Word
  | a :: b :: rest =>
    let r := treeLevel op en rest
    match a, b with
    | some (x, m), some (y, q) =>
      let z := op x y
      (some (z.1, m ||| q) :: r.1, z.2 ||| r.2.1, (if (z.2 &&& en) != 0 then m ||| q else 0) ||| r.2.2)
    | some x, none => (some x :: r.1, r.2)
    | none, y => (y :: r.1, r.2)
  | l => (l, 0, 0)

/-- Tree(op, x, present) over `h` levels (R180). -/
def tree (op : Int → Int → Int × Flags) (en : Flags) : Nat → List TNode → TNode × Flags × Word
  | 0, l => (l.head?.getD none, 0, 0)
  | h + 1, l =>
    let r := treeLevel op en l
    let t := tree op en h r.1
    (t.1, r.2.1 ||| t.2.1, r.2.2 ||| t.2.2)

/-- What a reduction combines. -/
inductive RedOp where
  | add | min | max
deriving DecidableEq, Repr

/-- Op on FP32 bits: the `vadd`, `vmin` or `vmax` of R164. -/
def RedOp.f32 : RedOp → Int → Int → Int × Flags
  | .add, x, y =>
    let r := fmtF32.deliver .rne false false (Num.add .rne (fmtF32.value x.toNat) (fmtF32.value y.toNat))
    ((r.1 : Int), r.2)
  | .min, x, y => let r := fmtF32.minMax false x.toNat y.toNat; ((r.1 : Int), r.2)
  | .max, x, y => let r := fmtF32.minMax true x.toNat y.toNat; ((r.1 : Int), r.2)

/-- Op on integers. -/
def RedOp.int : RedOp → Int → Int → Int × Flags
  | .add, x, y => (x + y, 0)
  | .min, x, y => (Min.min x y, 0)
  | .max, x, y => (Max.max x y, 0)

/-- Op of a type. -/
def RedOp.on (o : RedOp) (t : Ty) : Int → Int → Int × Flags := if t.isFloat then o.f32 else o.int

/-- A slice as the reduction reads it. -/
def redVal (t : Ty) (b : W32) : Int := if t.isFloat then (b.toNat : Int) else readInt t.signed 32 b.toNat

/-- The result of a reduction with no active lane (R180). -/
def redEmpty (o : RedOp) (t : Ty) : Int :=
  match o with
  | .add => 0
  | .min => if t.isFloat then 0x7F800000 else maxOf t.signed 32
  | .max => if t.isFloat then 0xFF800000 else minOf t.signed 32

/-- The exceptions a reduction can raise. -/
def redCan (o : RedOp) (t : Ty) : Flags := if t.isFloat then (if o == .add then fArith else fNV) else 0

/-- `vred` (R180). -/
def vred (l : LaneA) (o : RedOp) (s : State) : Out :=
  let lat := if l.ty.isFloat then 16 else 12
  laneFrame s l .sdst .src .none .none (!l.im) false id lat fun k =>
    let en := k.w.ctl.fpctl
    let r := tree (o.on l.ty) en 6 (lanes64.map fun i =>
      if k.act.getLsbD i then some (redVal l.ty (k.val s k.a i), 1#64 <<< i) else none)
    let v := match r.1 with
      | some x => x.1
      | none => redEmpty o l.ty
    s.sendDest k (lat + k.late) 1 (.sreg l.d (BitVec.ofInt 64 v)) r.2.1 r.2.2 (r.2.1 &&& en) (redCan o l.ty)

/-- VRED_ADD (R180). -/
def execVredAdd (l : LaneA) (s : State) : Out := vred l .add s
/-- VRED_MIN (R180). -/
def execVredMin (l : LaneA) (s : State) : Out := vred l .min s
/-- VRED_MAX (R180). -/
def execVredMax (l : LaneA) (s : State) : Out := vred l .max s

/-- The running values over the active lanes: lane, bits, flags (R181). -/
def scan (step : Int → Int → Int × Flags) : Option Int → List (Nat × Int) → List (Nat × Int × Flags)
  | _, [] => []
  | none, (l, x) :: xs => (l, x, 0) :: scan step (some x) xs
  | some r, (l, x) :: xs => let z := step r x; (l, z.1, z.2) :: scan step (some z.1) xs

/-- A step of a scan: integers keep 32 bits, or clamp with `.sat` (R181). -/
def scanStep (l : LaneA) (o : RedOp) (x y : Int) : Int × Flags :=
  if l.ty.isFloat then o.f32 x y
  else
    let z := (o.int x y).1
    (if l.sat then clampTo (minOf l.ty.signed 32) (maxOf l.ty.signed 32) z else readInt l.ty.signed 32 (low 32 z), 0)

/-- `vscan` (R181). -/
def vscan (l : LaneA) (o : RedOp) (s : State) : Out :=
  let lat := if l.ty.isFloat then 16 else 12
  laneFrame s l .dst .src .none .none (!l.im) false id lat fun k =>
    let rs := scan (scanStep l o) none ((lanesOf k.act).map fun i => (i, redVal l.ty (k.val s k.a i)))
    let en := k.w.ctl.fpctl
    let fl := rs.foldl (fun a r => a ||| r.2.2) 0
    s.sendLane k (lat + k.late) 1 (BitVec.allOnes 32) (rs.map fun r => (r.1, BitVec.ofInt 32 r.2.1)) fl
      (maskOf fun i => rs.any fun r => r.1 == i && (r.2.2 &&& en) != 0) (fl &&& en) (redCan o l.ty)

/-- VSCAN_ADD (R181). -/
def execVscanAdd (l : LaneA) (s : State) : Out := vscan l .add s
/-- VSCAN_MIN (R181). -/
def execVscanMin (l : LaneA) (s : State) : Out := vscan l .min s
/-- VSCAN_MAX (R181). -/
def execVscanMax (l : LaneA) (s : State) : Out := vscan l .max s

/-- VBALLOT (R182). -/
def execVballot (l : LaneA) (s : State) : Out :=
  laneFrame s l .sdst .psrc .none .none false false id 8 fun k =>
    s.sendDest k 8 1 (.sreg l.d (maskOf fun i => k.act.getLsbD i && k.w.readP k.fr k.clk l.a i)) 0 0 0 0

/-! ## vrng (R198, R199) -/

/-- Rounds `r` on of Rng with the rotations still to come. -/
def rngRounds (k x : BitVec 64) : Nat → List Nat → BitVec 64
  | _, [] => x
  | r, n :: ns =>
    rngRounds k (((x ^^^ (k + BitVec.ofNat 64 r * 0x9E3779B97F4A7C15#64)) * 0xB5AD4ECEDA1CE2A9#64).rotateLeft n) (r + 1) ns

/-- Rng(K, Q) (R199). -/
def rng (k q : BitVec 64) : W32 := (rngRounds k q 0 [27, 13, 41, 19, 33, 7] >>> 32).setWidth 32

/-- A pair of vector registers, or a special operand, as 64 bits in a lane (R198). -/
def rngOperand (s : State) (k : LaneCtx) (f i : Nat) : BitVec 64 :=
  if f < 320 then (k.val s (.reg (f + 1)) i).setWidth 64 <<< 32 ||| (k.val s (.reg f) i).setWidth 64
  else if f = 336 then k.blk.c1.setWidth 64 <<< 32 ||| k.blk.c0.setWidth 64
  else if f = 339 then k.blk.c2.setWidth 64 <<< 32 ||| BitVec.ofNat 64 i
  else 0

/-- The first field of a pair that leaves the declared ranges (R198). -/
def pairBad (w : Wave) (l : LaneA) : Option Nat :=
  firstSome [if l.a < 320 ∧ !w.vOk (l.a + 1) then some l.a else none, if l.b < 320 ∧ !w.vOk (l.b + 1) then some l.b else none]

/-- The second register of a pair that is read early, under DEBUG (R118). -/
def pairLate (k : LaneCtx) (l : LaneA) : Option Nat :=
  if !k.c.debug then none
  else firstSome [if l.a < 320 then k.lateSrc k.act (.reg (l.a + 1)) else none,
    if l.b < 320 then k.lateSrc k.act (.reg (l.b + 1)) else none]

/-- VRNG (R199): 32 random bits, or a uniform FP32 value from 24 of them. The second register of a pair is checked after the ring slot waits
and the hazard checker; the manual gives them no order (log 58). -/
def execVrng (l : LaneA) (s : State) : Out :=
  laneFrame s l .dst .src .src .none false false id 10 fun k =>
    match pairBad k.w l with
    | some f => s.trapL k.n 2 (BitVec.ofNat 64 f) k.act
    | none => match pairLate k l with
    | some f => s.trapL k.n 7 (BitVec.ofNat 64 f) k.act
    | none => s.laneResult k 10 0 fun i =>
      let b := rng (rngOperand s k l.a i) (rngOperand s k l.b i)
      (if l.ty.isFloat then BitVec.ofNat 32 (fmtF32.round .rne false false false (b.toNat / 256) (2 ^ 24)).1 else b, 0)

end Sys2Proof.Machine
end

