-- ==== Sys2Proof/Machine/SpecialFn.lean ====
section
/-! DEFINITION. Special functions (R183-R186): special and exact inputs as R185 gives them; otherwise a result within
the bound of R184, chosen by a free value that depends on the input bits alone (log 5). -/

namespace Sys2Proof.Machine

/-- The functions of R184. -/
inductive Fn where
  | rcp | rsqrt | sqrt | exp2 | log2 | sinpi | cospi | tanh
deriving DecidableEq, Repr

/-- A number for each function. -/
def Fn.code : Fn → Nat
  | .rcp => 0 | .rsqrt => 1 | .sqrt => 2 | .exp2 => 3 | .log2 => 4 | .sinpi => 5 | .cospi => 6 | .tanh => 7

/-! ## Fixed-point values: a number stands for itself over 2^256; every step rounds down, and all errors together stay
below 2^40 units -/

/-- The places. -/
def places : Nat := 256

/-- One. -/
def fxOne : Nat := 2 ^ places

/-- The product of two. -/
def fxMul (a b : Nat) : Nat := a * b / fxOne

/-- n/d. -/
def fxRat (n d : Nat) : Nat := n * fxOne / d

/-- Σ over odd j from `j` on of t × q^… / j, with `t` the first power and `q` the ratio. -/
def fxOddSeries (q : Nat) : Nat → Nat → Nat → Nat
  | 0, _, _ => 0
  | k + 1, j, t => t / j + fxOddSeries q k (j + 2) (fxMul t q)

/-- The same with alternating signs, as the pair of the positive and the negative terms. -/
def fxOddAlt (q : Nat) : Nat → Nat → Nat → Nat × Nat
  | 0, _, _ => (0, 0)
  | k + 1, j, t => let r := fxOddAlt q k (j + 2) (fxMul t q); (t / j + r.2, r.1)

/-- 2 artanh t. -/
def fxArtanh2 (t : Nat) : Nat := 2 * fxOddSeries (fxMul t t) 90 1 t

/-- arctan t for t below 1/2. -/
def fxArctan (t : Nat) : Nat := let r := fxOddAlt (fxMul t t) 70 1 t; r.1 - r.2

/-- ln 2. -/
def fxLn2 : Nat := fxArtanh2 (fxRat 1 3)

/-- π (Machin). -/
def fxPi : Nat := 16 * fxArctan (fxRat 1 5) - 4 * fxArctan (fxRat 1 239)

/-- Terms of e^z from the k-th on. -/
def fxExpSeries (z : Nat) : Nat → Nat → Nat → Nat
  | 0, _, _ => 0
  | n + 1, k, t => t + fxExpSeries z n (k + 1) (fxMul t z / (k + 1))

/-- e^z for z below 1. -/
def fxExp (z : Nat) : Nat := fxExpSeries z 80 0 fxOne

/-- 2^r for r from 0 to 1. -/
def fxPow2 (r : Nat) : Nat := fxExp (fxMul r fxLn2)

/-- Terms of sin z: positive and negative sums. -/
def fxSinSeries (q : Nat) : Nat → Nat → Nat → Nat × Nat
  | 0, _, _ => (0, 0)
  | n + 1, k, t => let r := fxSinSeries q n (k + 2) (fxMul t q / ((k + 1) * (k + 2))); (t + r.2, r.1)

/-- sin z for z from 0 to π/2. -/
def fxSin (z : Nat) : Nat := let r := fxSinSeries (fxMul z z) 45 1 z; r.1 - r.2

/-! ## Results within a bound -/

/-- A bracket of a positive value: from `lo`/`den` to `hi`/`den`. -/
structure Bracket where
  lo  : Nat
  hi  : Nat
  den : Nat

/-- The bracket around a fixed-point value. -/
def around (a : Nat) : Bracket := ⟨a - 2 ^ 40, a + 2 ^ 40, fxOne⟩

/-- |v − z| is at most `b` spacings at z, for z = n/d and v of magnitude `mag` (R184). -/
def withinUlps (f : Fmt) (b mag n d : Nat) : Bool :=
  match f.value mag with
  | .fin _ vn vd =>
    let x := if n = 0 then f.emin else max (ilog2 n d) f.emin
    let dist : Nat := (((vn * d : Nat) : Int) - ((n * vd : Nat) : Int)).natAbs
    let r := divPow dist (vd * d) (x - f.man)
    decide (r.1 < b) || r.1 == b && r.2.1 == 0
  | _ => false

/-- The magnitudes within `b` ulp of the bracket; the infinity where the value exceeds the largest finite one, and only subnormals and zero
where it lies below the smallest normal (R184). -/
def candidates (f : Fmt) (b : Nat) (z : Bracket) : List Nat :=
  let m0 := (f.round .rz true false false z.lo z.den).1
  let big := match f.value f.maxFin with
    | .fin _ n d => decide (n * z.den < z.hi * d)
    | _ => false
  ((List.range 8).filterMap fun i =>
    let m := m0 + i - 3
    if 3 ≤ m0 + i ∧ m ≤ f.maxFin ∧ (belowPow z.hi z.den f.emin → m < 2 ^ f.man) ∧ withinUlps f b m z.lo z.den ∧ withinUlps f b m z.hi z.den then some m else none)
  ++ (if big then [f.inf.getD f.maxFin] else [])

/-- A function's result at a bracketed value that is not exact: one of the candidates, with the flags of R184. -/
def chooseResult (f : Fmt) (fn : Fn) (tyc : Nat) (ftz : Bool) (bits b : Nat) (neg : Bool) (z : Bracket) : Nat × Flags :=
  if ftz && belowPow z.hi z.den f.emin then (f.pack neg 0, fUF ||| fNX)
  else
    let cs := candidates f b z
    let m := (cs[Config.specialPick fn.code tyc ftz bits % cs.length]?).getD ((f.round .rne false false false z.lo z.den).1)
    if f.inf = some m then (f.pack neg m, fOF ||| fNX)
    else (f.pack neg m, fNX ||| raiseIf (belowPow z.hi z.den f.emin) fUF)

/-! ## The functions -/

/-- The bound of R184 in ulp. -/
def Fn.bound (fn : Fn) (t : Ty) : Nat :=
  match fn, t with
  | .rcp, _ => 1
  | _, .f32 => 2
  | _, _ => 1

/-- A power of two: its exponent. -/
def powerOf2 (n d : Nat) : Option Int :=
  let e := ilog2 n d
  let r := divPow n d e
  if r.1 = 1 ∧ r.2.1 = 0 then some e else none

/-- 2^e as an exact value. -/
def pow2Num (neg : Bool) (e : Int) : Num := .scaled neg 1 e

/-- `vrcp` of a finite nonzero value: 2^k gives 2^−k, which may lie beyond the largest finite value (R184, R185). -/
def rcpFin (f : Fmt) (t : Ty) (ftz : Bool) (bits : Nat) (neg : Bool) (n d : Nat) : Nat × Flags :=
  match powerOf2 n d with
  | some e => f.deliver .rne false ftz (pow2Num neg (-e), 0)
  | none => chooseResult f .rcp t.code ftz bits 1 neg ⟨d, d, n⟩

/-- √(n/d) over 2^200, with whether it is exact. -/
def sqrtFx (n d : Nat) : Nat × Bool :=
  let q := n * 4 ^ 200 / d
  let r := Nat.sqrt q
  (r, r * r == q && n * 4 ^ 200 % d == 0)

/-- `vsqrt` of a positive value, correctly rounded (R184). -/
def sqrtFin (f : Fmt) (ftz : Bool) (n d : Nat) : Nat × Flags :=
  let r := sqrtFx n d
  f.round .rne false ftz false (2 * r.1 + (!r.2).toNat) (2 ^ 201)

/-- `vrsqrt` of a positive value: 4^k is exact (R185). -/
def rsqrtFin (f : Fmt) (t : Ty) (ftz : Bool) (bits n d : Nat) : Nat × Flags :=
  match powerOf2 n d with
  | some e =>
    if e % 2 = 0 then f.deliver .rne false ftz (pow2Num false (-(e / 2)), 0)
    else
      let r := (sqrtFx d n).1
      chooseResult f .rsqrt t.code ftz bits (Fn.bound .rsqrt t) false ⟨r, r + 1, 2 ^ 200⟩
  | none =>
    let r := (sqrtFx d n).1
    chooseResult f .rsqrt t.code ftz bits (Fn.bound .rsqrt t) false ⟨r, r + 1, 2 ^ 200⟩

/-- `vexp2` of a finite nonzero value: an integer gives 2^n, rounded under R139. -/
def exp2Fin (f : Fmt) (t : Ty) (ftz : Bool) (bits : Nat) (neg : Bool) (n d : Nat) : Nat × Flags :=
  let x := withSign neg n
  let e := x / (d : Int)
  let r := (x % (d : Int)).toNat
  let b := Fn.bound .exp2 t
  if 1024 ≤ e then (f.pack false (f.inf.getD f.maxFin), fOF ||| fNX)
  else if e < -1024 then
    if r = 0 then (0, fUF ||| fNX) else chooseResult f .exp2 t.code ftz bits b false ⟨0, 1, 2 ^ 1024⟩
  else if r = 0 then f.deliver .rne false ftz (pow2Num false e, 0)
  else
    let y := fxPow2 (fxRat r d)
    chooseResult f .exp2 t.code ftz bits b false
      (match e with
        | .ofNat k => ⟨(y - 2 ^ 40) * 2 ^ k, (y + 2 ^ 40) * 2 ^ k, fxOne⟩
        | .negSucc k => ⟨y - 2 ^ 40, y + 2 ^ 40, fxOne * 2 ^ (k + 1)⟩)

/-- `vlog2` of a positive value: a power of two gives its exponent. -/
def log2Fin (f : Fmt) (t : Ty) (ftz : Bool) (bits n d : Nat) : Nat × Flags :=
  match powerOf2 n d with
  | some e => f.deliver .rne false ftz (Num.ofInt e, 0)
  | none =>
    let e := ilog2 n d
    let m : Nat × Nat := match e with
      | .ofNat k => (n, d * 2 ^ k)
      | .negSucc k => (n * 2 ^ (k + 1), d)
    let l := fxRat (fxArtanh2 (fxRat (m.1 - m.2) (m.1 + m.2))) fxLn2
    let v : Int := e * fxOne + l
    chooseResult f .log2 t.code ftz bits (Fn.bound .log2 t) (decide (v < 0)) (around v.natAbs)

/-- sin(π n/d) and cos(π n/d) reduced: its sign, and the first-quadrant argument w/(2d) of a sine (R186). -/
def reduceSin (n d : Nat) : Bool × Nat :=
  let t := n % (2 * d)
  let neg := decide (d ≤ t)
  let t := if d ≤ t then t - d else t
  (neg, if d < 2 * t then 2 * (d - t) else 2 * t)

/-- The same for a cosine. -/
def reduceCos (n d : Nat) : Bool × Nat :=
  let t := n % (2 * d)
  let t := if d < t then 2 * d - t else t
  (decide (d < 2 * t), if 2 * t ≤ d then d - 2 * t else 2 * t - d)

/-- The bits of r = x − 2 × RoundToIntegerTiesEven(x / 2), the argument that the functions evaluate on; it is exact in the format (R186). -/
def reducedBits (f : Fmt) (neg : Bool) (n d : Nat) : Nat :=
  let m := n % (2 * d)
  let down := decide (m < d) || m == d && n / (2 * d) % 2 == 0
  (f.round .rz true false (neg != !down) (if down then m else 2 * d - m) d).1

/-- The value of a reduced sine: zero, one, or a choice within the bound. -/
def sinReduced (f : Fmt) (fn : Fn) (t : Ty) (ftz : Bool) (bits : Nat) (neg : Bool) (w d : Nat) (zeroNeg : Bool) : Nat × Flags :=
  if w = 0 then (f.pack zeroNeg 0, 0)
  else if w = d then f.deliver .rne false ftz (.fin neg 1 1, 0)
  else chooseResult f fn t.code ftz bits (fn.bound t) neg (around (fxSin (fxMul fxPi (fxRat w (2 * d)))))

/-- `vtanh` of a finite nonzero value. -/
def tanhFin (f : Fmt) (t : Ty) (ftz : Bool) (bits : Nat) (neg : Bool) (n d : Nat) : Nat × Flags :=
  let big := match t with
    | .f32 => decide (19 * d ≤ 2 * n)
    | .f16 => decide (5 * d ≤ n)
    | _ => decide (9 * d ≤ 2 * n)
  if big then ((f.deliver .rne false false (.fin neg 1 1, 0)).1, fNX)
  else
    let y := fxRat (fxRat (2 * n) d) fxLn2
    let v := fxRat fxOne (fxPow2 (y % fxOne)) / 2 ^ (y / fxOne)
    chooseResult f .tanh t.code ftz bits (Fn.bound .tanh t) neg (around (fxRat (fxOne - v) (fxOne + v)))

/-- A special function of one element (R184, R185). -/
def special (fn : Fn) (t : Ty) (ftz : Bool) (b : Nat) : Nat × Flags :=
  let f := t.fmt
  let b := f.flushIn ftz b
  let inf := fun (neg : Bool) => f.pack neg (f.inf.getD f.maxFin)
  let one := fun (neg : Bool) => (f.deliver .rne false false (.fin neg 1 1, 0)).1
  match f.value b with
  | .nan sig => (f.canon, raiseIf sig fNV)
  | .inf neg =>
    match fn with
    | .rcp => (f.pack neg 0, 0)
    | .rsqrt => if neg then (f.canon, fNV) else (0, 0)
    | .sqrt => if neg then (f.canon, fNV) else (inf false, 0)
    | .exp2 => if neg then (0, 0) else (inf false, 0)
    | .log2 => if neg then (f.canon, fNV) else (inf false, 0)
    | .sinpi => (f.canon, fNV)
    | .cospi => (f.canon, fNV)
    | .tanh => (one neg, 0)
  | .fin neg n d =>
    if n = 0 then
      match fn with
      | .rcp => (inf neg, fDZ)
      | .rsqrt => (inf neg, fDZ)
      | .sqrt => (f.pack neg 0, 0)
      | .exp2 => (one false, 0)
      | .log2 => (inf true, fDZ)
      | .sinpi => (f.pack neg 0, 0)
      | .cospi => (one false, 0)
      | .tanh => (f.pack neg 0, 0)
    else
      match fn with
      | .rcp => rcpFin f t ftz b neg n d
      | .rsqrt => if neg then (f.canon, fNV) else rsqrtFin f t ftz b n d
      | .sqrt => if neg then (f.canon, fNV) else sqrtFin f ftz n d
      | .exp2 => exp2Fin f t ftz b neg n d
      | .log2 => if neg then (f.canon, fNV) else log2Fin f t ftz b n d
      | .sinpi => let r := reduceSin n d; sinReduced f .sinpi t ftz (reducedBits f neg n d) (r.1 != neg) r.2 d neg
      | .cospi => let r := reduceCos n d; sinReduced f .cospi t ftz (reducedBits f neg n d) r.1 r.2 d false
      | .tanh => tanhFin f t ftz b neg n d

/-! ## The words (R183) -/

/-- A special function's word: `sf` is raised, the lanes land when it completes, and it never traps. The unit takes 16
lanes a cycle (R107). A result for a pipe slot travels as the store of R129. The hazard checker takes the result, whose landing is not known
at issue, to land 1 cycle later (R118; log 25). -/
def specialWord (fn : Fn) (l : LaneA) (s : State) : Out :=
  laneFrame s l .dst .src .none .none (!l.im) false id 1 fun k =>
    let p := coreOfWave k.n
    let i := partOfWave k.n
    if k.clk < (s.part p i).sfuAt then s.holdL k.n k.w .stall
    else if 255 ≤ k.w.count .sf then s.holdL k.n k.w .long
    else
      let r := overLanes k.act 0 fun x => mapElems l.ty.bits fun e => special fn l.ty l.ftz (elem l.ty.bits e (k.val s k.a x))
      let d : Dest := match k.d with
        | .reg q => .vreg q (BitVec.allOnes 32) r.vals
        | .spad key => .spad key (BitVec.allOnes 32) r.vals
        | _ => .nothing
      let op : OutOp := ⟨s.nextId, .sf, 1, some k.blk.id, .vals d, none, r.flags, false, k.w.spc, k.blk.start + k.blk.pos, [], 0, none, 0⟩
      let w := { k.w with ops := k.w.ops ++ [op] }
      let s := s.setPart p i { s.part p i with sfuAt := k.clk + 4 }
      match k.d with
      | .pipe _ => s.bumpId.sendLane { k with w := w } 1 1 (BitVec.allOnes 32) r.vals 0 0 0 0
      | _ => s.issuedL k.n (w.advanceL k.blk k.clk 1)

/-- VRCP (R184, R185). -/
def execVrcp (l : LaneA) (s : State) : Out := specialWord .rcp l s
/-- VRSQRT (R184, R185). -/
def execVrsqrt (l : LaneA) (s : State) : Out := specialWord .rsqrt l s
/-- VSQRT (R184, R185). -/
def execVsqrt (l : LaneA) (s : State) : Out := specialWord .sqrt l s
/-- VEXP2 (R184, R185). -/
def execVexp2 (l : LaneA) (s : State) : Out := specialWord .exp2 l s
/-- VLOG2 (R184, R185). -/
def execVlog2 (l : LaneA) (s : State) : Out := specialWord .log2 l s
/-- VSINPI (R186). -/
def execVsinpi (l : LaneA) (s : State) : Out := specialWord .sinpi l s
/-- VCOSPI (R186). -/
def execVcospi (l : LaneA) (s : State) : Out := specialWord .cospi l s
/-- VTANH (R184, R185). -/
def execVtanh (l : LaneA) (s : State) : Out := specialWord .tanh l s

/-- The first special function that has not completed. -/
def firstSf : List OutOp → Option OutOp
  | [] => none
  | o :: os => if o.ctr = .sf ∧ o.need ≠ 0 then some o else firstSf os

/-- SPECIAL_FUNCTION_COMPLETE (R116, R183): what is due by now lands first; then every lane is written, the flags enter `fpflags`, and `sf` retires. -/
def execSpecialFunctionComplete (n : Nat) (s : State) : Out :=
  let s := s.settle n
  match s.wave n with
  | none => .next s
  | some w =>
    match firstSf w.ops with
    | none => .next s
    | some o =>
      let d := match o.dest with
        | .vals d => d
        | _ => .nothing
      let s := s.landOne n ⟨s.clk (coreOfWave n), true, o.id, o.blk, d, o.flags, 0, 0, 0⟩
      .next (s.onWave n fun w => { w with ops := retire .sf (updOp o.id (fun o => { o with need := 0 }) w.ops) })

end Sys2Proof.Machine
end

