-- ==== Sys2Proof/Machine/Access.lean ====
section
/-! DEFINITION. How a memory instruction issues: placing its lanes, faults and the operand log, the counters, the
snapshot, the range scoreboard, and the requests it sends (R239-R246, R249-R258, R267-R269). -/

namespace Sys2Proof.Machine

/-- One lane's access with the place it goes to; `tlb` says that it took the TLB path (R239), and `virt` that its address is a virtual
one. -/
structure Want where
  acc  : Acc
  pl   : Place
  tlb  : Bool
  virt : Bool

/-- The access with its storage key. -/
def Want.keyed (e : Want) : Acc := match e.pl with
  | .at k => { e.acc with key := k }
  | _ => e.acc

/-- What an operation needs of its page (R239). -/
def MemKind.need : MemKind → Need
  | .load => .read
  | .ldfe | .ldf => .tagRead
  | .stfe | .tagset _ => .tagWrite
  | _ => .write

/-- The class of an operation's accesses (R299). -/
def MemKind.cls : MemKind → Cls
  | .load | .amo _ | .ldfe | .ldf => .r
  | _ => .w

/-- The counter of an operation (R119). -/
def MemKind.ctr : MemKind → Ctr
  | .load | .amo _ | .ldfe | .ldf => .ld
  | _ => .st

/-- An operation that synchronises: it acts at the home and never in a snapshot (R269). -/
def MemKind.syncs : MemKind → Bool
  | .load | .store => false
  | _ => true

/-- Synchronising operations on the host window are access violations (R230). -/
def barHost (k : MemKind) (p : Place) : Place := match p with
  | .at key => if k.syncs && keyIsHost key then .violation else p
  | _ => p

/-! ## Forming addresses -/

/-- An access through translation register `t` at an offset; both paths give one outcome, so the consignment's own copy of `.data` is met on
either (R15, R239). -/
def wantTb (s : State) (c : Cons) (p : Nat) (k : MemKind) (t : TReg) (lane : Nat) (off : Int) (d d2 : Word) : Want :=
  let va := (t.base + BitVec.ofInt 64 off).toNat
  let a : Acc := ⟨lane, 0, va, d, d2⟩
  if 0 ≤ off ∧ off < t.limit ∧ c.dataAt va = none then
    ⟨a, barHost k (if canonical va && allows (c.mapped va t.attr) k.need
      then .at (storageKey (t.frame + off.toNat) t.attr.pl t.attr.hd t.attr.hs) else .violation), false, true⟩
  else ⟨a, barHost k (placeVirtual s p c va k.need), true, true⟩

/-- An access at a 64-bit address (R249, R258). -/
def want64 (s : State) (c : Cons) (p : Nat) (k : MemKind) (lane va : Nat) (d d2 : Word) : Want :=
  ⟨⟨lane, 0, va, d, d2⟩, barHost k (place s c p va k.need), !isSpad va, !isSpad va⟩

/-- An access at a local scratchpad offset (R250, R251). -/
def wantLocal (p lane off n : Nat) (d d2 : Word) : Want :=
  ⟨⟨lane, 0, off, d, d2⟩, if off + n ≤ 0xFE000 then .at (spadKey p off) else .violation, false, false⟩

/-- An access at a lane scratchpad address (R249, R251). -/
def wantSpad (c : Cons) (p lane x : Nat) (d d2 : Word) : Want :=
  ⟨⟨lane, 0, 254 * 2 ^ 56 + x, d, d2⟩, placeSpad c p (254 * 2 ^ 56 + x), false, false⟩

/-! ## What holds a memory instruction -/

/-- The wave's operand log names the page of a virtual address (R244). -/
def Wave.pageLogged (w : Wave) (va : Nat) : Bool := w.oplog.any fun g => g.lanes.any fun a => a.va / 4096 == va / 4096

/-- The lane faults, or its page has a logged lane before it, whatever its own checks would say (R243, R244). -/
def Want.faults (w : Wave) (e : Want) : Bool := match e.pl with
  | .fault => true
  | _ => e.virt && w.pageLogged e.acc.va

/-- The wave's own access to its core's scratchpad overlaps an entry in force at tick `now` (R268). -/
def localStall (c : Core) (p now : Nat) (k : MemKind) (n : Nat) (es : List Want) : Bool :=
  es.any fun e => match e.pl with
    | .at key => keyIsSpad key && keyCore key == p && c.spans.any fun x => x.stalls now (k == .load) (keyOff key) n
    | _ => false

/-- A memory instruction does not issue in this cycle: a full operand log, a counter at its limit, a fence or a
scoreboard entry holds it (R120, R245, R268, R298). -/
def memHeld (s : State) (n : Nat) (w : Wave) (k : MemKind) (size : Nat) (blk : Option Nat) (es : List Want) : Bool :=
  decide (4 ≤ w.oplog.length) || decide (255 ≤ w.count k.ctr) || w.fenced (s.clk (coreOfWave n)) k.cls blk
    || localStall (s.core (coreOfWave n)) (coreOfWave n) s.now k size es

/-- What a request is to the scoreboard: every synchronising one counts as a store (R269). -/
def ReqKind.asMem : ReqKind → MemKind
  | .mem .load => .load
  | _ => .store

/-- A read of a descriptor or manifest of 128 bytes at issue waits for a fence before it, for the scoreboard, or for the wave's own
earlier stores to those bytes that have not been performed (R259, R261, R268, R298, R308). -/
def descHeld (s : State) (n : Nat) (w : Wave) (desc : Option Nat) : Bool :=
  let p := coreOfWave n
  match desc with
  | some off => w.fenced (s.clk p) .r none || (s.core p).spans.any (fun x => x.stalls s.now true off 128)
      || (s.inFlight n).any fun r => r.kind.asMem != .load && w.beforeScalar.any (fun o => o.id == r.op) && r.accs.any fun a =>
        keyIsSpad a.key && decide (keyCore a.key = p) && decide (keyOff a.key < off + 128)
          && decide (off < keyOff a.key + r.size)
  | none => false

/-! ## Sending -/

/-- The data of an access as bytes, without the bits that a partial write keeps. -/
def Acc.newBytes (s : State) (size : Nat) (a : Acc) : List Byte :=
  toBytes size (((BitVec.ofNat 64 (s.num size a.key)) &&& a.data2) ||| (a.data &&& ~~~a.data2)).toNat

/-- What an operation does to the issuing core's snapshot when it issues: a store updates a sector that is held, and any other write drops it
(R256, R269, R305). -/
def snapAt (c : Core) (k : MemKind) (size : Nat) : List Acc → Core
  | [] => c
  | a :: as =>
    let c := match k with
      | .load => c
      | .store => if keyIsSpad a.key then c else c.patchSnap a.key (toBytes size a.data.toNat)
      | _ => c.dropSnap a.key
    snapAt c k size as

/-- The sector that the core's snapshot serves a load of wave `n` from: one that it holds and, for a scalar load, that lies in the scalar data
cache; the wave has no other access to it under way that reads or synchronises, and no logged one to its page (R244, R256, R258, R305; log 14). -/
def State.snapFor (s : State) (n : Nat) (scalar : Bool) (key va : Nat) : Option (List Byte) :=
  let c := s.core (coreOfWave n)
  if keyIsSpad key || s.readsTo n key || s.replaying n va || scalar && !c.scal.contains (key / 32) then none else c.held key

/-- The requests of other waves of the core that a hit waits for: the stores to the sector that have updated the snapshot and not yet their
home (R256, R305; log 14). -/
def State.hitBehind (s : State) (n key : Nat) : List Nat :=
  ((s.storesTo (coreOfWave n) key).filter fun r => r.wave != n).map Req.id

/-- The answer to a load of one sector out of the snapshot; a scalar one lands 6 cycles after issue at the earliest (R256, R258). -/
def State.hitResp (s : State) (n cid op : Nat) (scalar : Bool) (size : Nat) (sec : List Byte) (g : List Acc) : Resp :=
  let p := coreOfWave n
  { Resp.make n cid p op (g.map fun a => (a.lane, BitVec.ofNat 64 (sectorNum sec a.key size))) [] false false false with
    behind := s.hitBehind n ((g.head?.map Acc.key).getD 0)
    notBefore := if scalar then s.tickOf p (s.clk p + 6) else 0 }

/-- One request or, for a load that the snapshot serves, one answer for a sector (R256). -/
def sendSector (s : State) (n cid op : Nat) (k : MemKind) (scalar replay : Bool) (size : Nat) (g : List Acc) : State :=
  let key := (g.head?.map Acc.key).getD 0
  match if k == .load && !replay then s.snapFor n scalar key ((g.head?.map Acc.va).getD 0) else none with
  | some sec => { s with resps := s.resps ++ [s.hitResp n cid op scalar size sec g] }
  | none => s.send { mkReq n cid op (.mem k) size g with replay := replay }

/-- Every sector sent. -/
def sendSectors (s : State) (n cid op : Nat) (k : MemKind) (scalar replay : Bool) (size : Nat) : List (List Acc) → State
  | [] => s
  | g :: gs => sendSectors (sendSector s n cid op k scalar replay size g) n cid op k scalar replay size gs

/-- The TLB entries that a list of accesses uses, and the walks of those that find none (R239, R247). -/
def fillAll (s : State) (p aspace : Nat) : List Want → State
  | [] => s
  | e :: es => fillAll (if e.tlb then match e.pl with
      | .at _ => fillTlb s p aspace e.acc.va
      | _ => if canonical e.acc.va then s.walkedFor p aspace e.acc.va else s
    else s) p aspace es

/-- The page faults of a list of lanes, one a page (R241). -/
def addFaults (n aspace : Nat) : List Fault1 → List Want → List Fault1
  | fs, [] => fs
  | fs, e :: es =>
    let known := fs.any fun f => match f with
      | .wave m a v => m == n && a == aspace && v / 4096 == e.acc.va / 4096
      | _ => false
    addFaults n aspace (if known then fs else fs ++ [.wave n aspace e.acc.va]) es

/-- A counter of the consignment's slot raised by `k`. -/
def State.slotAdd (s : State) (p cid : Nat) (c : SlotCtr) : Nat → State
  | 0 => s
  | k + 1 => (s.slotCount p cid c true).slotAdd p cid c k

/-- The groups in which the lanes of a memory instruction are performed: by pass of the banks in the local form, which names the core's own
scratchpad only, and else by sector (R255, R256, R257). -/
def accGroups (passes : Bool) (as : List Acc) : List (List Acc) := if passes then byPass as else bySector as

/-- A group of accesses lies in the host window or in a peer window (R230). -/
def farGroup (g : List Acc) : Bool := g.any fun a => farKey a.key

/-- The store operation of a load whose destination is a pipe's slot: it is open until the load has landed and every store that this makes
has been performed (R119, R129). -/
def State.openPipe (s : State) (n cid : Nat) (d : OpDest) (blk : Option Nat) (spc lpc : Nat) : State × OpDest :=
  match d with
  | .pipe key _ =>
    (((s.onWave n fun w => { w with ops := w.ops ++ [⟨s.nextId, .st, 1, blk, .none, none, 0, false, spc, lpc, [], 0, none, 0⟩] }).slotCount
      (coreOfWave n) cid .stores true).bumpId, .pipe key s.nextId)
  | _ => (s, d)

/-- A memory instruction that has issued as operation `op` makes its accesses: lanes that fault go to the operand log, lanes that violate
are answered with an error, and the others go out in their groups, by passes of the banks where `passes` says so (R243, R244, R246, R252,
R255, R256, R257). -/
def State.access (s : State) (n op : Nat) (c : Cons) (k : MemKind) (passes : Bool) (size : Nat) (dest : OpDest) (blk : Option Nat)
    (acq : Option Scope) (spc lpc : Nat) (es : List Want) : State :=
  match s.wave n with
  | none => s
  | some w =>
    let p := coreOfWave n
    let flt := es.filter (Want.faults w)
    let bad := es.filter fun e => e.pl == .violation && !e.faults w
    let ok := (es.filter fun e => e.pl != .violation && !e.faults w).map Want.keyed
    let groups := accGroups passes ok
    let need := groups.length + (!bad.isEmpty).toNat + (!flt.isEmpty).toNat
    let (s, dest) := if need = 0 then (s, dest) else s.openPipe n w.cid dest blk spc lpc
    let w := (s.wave n).getD w
    let lanes := maskOf fun i => es.any fun e => e.acc.lane == i
    let w := if need = 0 ∧ acq = none then w else
      { w with ops := w.ops ++ [⟨op, k.ctr, need, blk, dest, acq, 0, false, spc, lpc, [], groups.countP farGroup, none, lanes⟩] }
    let w := if flt.isEmpty then w else
      { w with oplog := w.oplog ++ [⟨op, blk.isSome, spc, lpc, k, size, k.syncs, flt.map Want.acc⟩] }
    let s := (s.setWave n w).onCore p fun c => snapAt c k size ok
    let s := fillAll s p c.aspace es
    let s := { s with faults := addFaults n c.aspace s.faults (flt.filter fun e => e.pl == .fault) }
    let s := if bad.isEmpty then s else
      { s with resps := s.resps ++ [Resp.make n w.cid p op [] (bad.map fun e => (e.acc.lane, e.acc.va)) false (k.ctr == .st) false] }
    let s := if k.ctr == .st then s.slotAdd p w.cid .stores need else s
    sendSectors s n w.cid op k blk.isNone false size groups

/-! ## Parts done (R119) -/

/-- The trap of an operation's lanes that were answered with an error of code `code` (R246). -/
def OutOp.errorTrap (o : OutOp) (code : Nat) : List HeldTrap :=
  let fs := o.failed.filter fun e => e.2.2 == (code == 5)
  if fs.isEmpty then [] else
    [⟨code, o.blk.isSome, BitVec.ofNat 64 ((fs.map fun e => e.2.1).min?.getD 0), maskOf (fun i => fs.any fun e => e.1 == i), 0, none⟩]

/-- One part of an operation is done, in a host or peer window when `far`; the operation retires when all are and those before it have. The lanes
of it that were answered with errors make one asynchronous trap of each code, held once all its parts are done (R230, R246; log 23). -/
def Wave.partDone (w : Wave) (op : Nat) (far : Bool) : Wave :=
  let traps := (w.ops.filter fun o => o.id == op && o.need == 1).flatMap fun o => o.errorTrap 4 ++ o.errorTrap 5
  let os := updOp op (fun o => { o with need := o.need - 1, far := o.far - far.toNat }) w.ops
  { w with ops := retire .ld (retire .st (retire .en (retire .xc os))), ctl := { w.ctl with held := w.ctl.held ++ traps } }

/-- A wave, resident or in a saved context, changed. -/
def State.onAny (s : State) (n : Nat) (f : Wave → Wave) : State :=
  if n < ctxBase then s.onWave n f
  else match look s.ctxs (n - ctxBase) with
    | some x => { s with ctxs := put s.ctxs (n - ctxBase) { x with wave := f x.wave } }
    | none => s

/-- One part of an operation is done; with the last one, the lanes of it that were answered with errors are logged (R246; log 23). -/
def State.partLogged (s : State) (n op : Nat) (far : Bool) : State :=
  let s := match s.wave n with
    | some w => s.logOps n w.cid (w.ops.filter fun o => o.id == op && o.need == 1)
    | none => s
  s.onAny n fun w => w.partDone op far

/-- One part of a store-class operation is done, for its wave and for its consignment's slot (R75). -/
def State.storeDone (s : State) (n pcore cid op : Nat) (far : Bool) : State :=
  (s.partLogged n op far).slotCount pcore cid .stores false

/-- The operation of a number. -/
def Wave.opOf (w : Wave) (op : Nat) : Option OutOp := w.ops.find? fun o => o.id == op

/-- A wave, resident or in a saved context. -/
def State.anyWave (s : State) (n : Nat) : Option Wave :=
  if n < ctxBase then s.wave n else (look s.ctxs (n - ctxBase)).map Context.wave

/-- One part of an operation is done; the last part of a load into a pipe's slot leaves only the stores that it made there (R119, R129). -/
def State.opPart (s : State) (n op : Nat) (far : Bool) : State :=
  let pipe := (s.anyWave n).bind fun w => (w.opOf op).bind fun o => match o.dest with
    | .pipe _ st => if o.need = 1 then some (st, w.cid) else none
    | _ => none
  let s := s.partLogged n op far
  match pipe with
  | some (st, cid) => s.storeDone n (coreOfWave n) cid st false
  | none => s

/-- What values of operation `o` write, as a result of the present cycle (R115, R116). -/
def OutOp.landing (o : OutOp) (clk : Nat) (d : Dest) : Landing := ⟨clk, o.blk.isSome, o.id, o.blk, d, 0, 0, 0, 0⟩

/-- A load's data lands (R115, R116, R256, R258): lanes of a vector register, a scalar register, or a ring slot; for a pipe's slot it goes on
as a store to the consumer's scratchpad (R129). -/
def State.landVals (s : State) (n : Nat) (o : OutOp) (vals : List (Nat × Word)) : State :=
  let now := fun (s : State) d => s.landNow n (o.landing (s.clkOf n) d)
  let narrow := vals.map fun e => (e.1, e.2.setWidth 32)
  match o.dest with
  | .sreg r size signed =>
    match vals with
    | [] => s
    | (_, v) :: _ => now s (.sreg r (if signed then BitVec.ofInt 64 (readInt true (8 * size) v.toNat) else v))
  | .vreg r =>
    let m := maskOf fun i => vals.any fun e => e.1 == i
    now (s.onWave n fun w => { w with ops := updOp o.id (fun o => { o with lanes := o.lanes &&& ~~~m }) w.ops }) (.vreg r (BitVec.allOnes 32) narrow)
  | .slot key => now s (.spad key (BitVec.allOnes 32) narrow)
  | .pipe key st => match s.wave n, vals with
    | some w, _ :: _ => (s.onWave n fun w => { w with ops := updOp st (fun o => { o with need := o.need + 1 }) w.ops }).slotCount
        (coreOfWave n) w.cid .stores true |>.send
        (mkReq n w.cid st (.mem .store) 4 (vals.map fun e => ⟨e.1, key + 4 * e.1, key + 4 * e.1, e.2.setWidth 32 |>.setWidth 64, 0⟩))
    | _, _ => s
  | _ => s

/-- The wave of an access is there and has not stopped. -/
def State.waveHere (s : State) (n cid : Nat) : Bool := match s.wave n with
  | some w => w.cid == cid && (w.runs || match w.life with
    | .draining _ => false
    | _ => true)
  | none => false

/-- An access answered with an error as a whole (R246, R253): the address is logged, and the wave takes an asynchronous trap at its next
boundary; a wave that has exited sets its consignment's error flag. -/
def State.answerError (s : State) (n cid : Nat) (o : Option OutOp) (failed : List (Nat × Nat)) (ue virt : Bool) : State :=
  let here := s.waveHere n cid
  let s := s.logError n cid o failed ue virt
  if here then s.holdTrap n ⟨if ue then 5 else 4, match o with
      | some o => o.blk.isSome
      | none => false, BitVec.ofNat 64 ((failed.map Prod.snd).min?.getD 0),
      maskOf (fun i => failed.any fun (e : Nat × Nat) => e.1 == i), 0, none⟩
  else s.flagError cid

/-- One answer of an operation is an error (R246, R253): zero lands in the failing lanes, which the operation keeps for its trap and its log
entry; for a wave that has exited the address is logged and its consignment's error flag set. -/
def State.noteError (s : State) (n cid : Nat) (o : Option OutOp) (failed : List (Nat × Nat)) (ue : Bool) : State :=
  match s.waveHere n cid, o with
  | true, some o =>
    (s.landVals n o (failed.map fun (e : Nat × Nat) => (e.1, (0 : Word)))).onWave n fun w =>
      { w with ops := updOp o.id (fun o => { o with failed := o.failed ++ failed.map fun e => (e.1, e.2, ue) }) w.ops }
  | _, _ => (s.logError n cid o failed ue true).flagError cid

end Sys2Proof.Machine
end

