-- ==== Sys2Proof/Machine/Control.lean ====
section
/-! DEFINITION. Control transfers, the return stack, lane blocks, `sleep`, `exit`, and the words of traps and
handlers (R74, R79-R90, R362, R363, R367, R394). -/

namespace Sys2Proof.Machine

/-! ## Transfers (R34, R35, R86) -/

/-- A word offset from the current word (R34). -/
def Wave.target (w : Wave) (off : Int) : Nat := (BitVec.ofNat 57 w.spc + 4 * BitVec.ofInt 57 off).toNat

/-- A scalar word that issues and goes to `next`; the next scalar issue is `k` cycles later (R114). -/
def State.goTo (s : State) (n : Nat) (w : Wave) (next k : Nat) : State :=
  s.issuedS n (w.advance (s.clk (coreOfWave n)) next k)

/-- A conditional branch (R86). -/
def branch (a : Nat) (off : Int) (test : Word → Bool) (s : State) : Out :=
  scalarWord s [a] [a] none fun w _ =>
    if test (s.rS w a) then s.goTo s.cur w (w.target off) 3 else s.goTo s.cur w (w.spc + 4) 1

/-- BZ (R86). -/
def execBz (a : Nat) (off : Int) (s : State) : Out := branch a off (fun x => x == 0) s
/-- BNZ (R86). -/
def execBnz (a : Nat) (off : Int) (s : State) : Out := branch a off (fun x => x != 0) s
/-- BLTZ (R86). -/
def execBltz (a : Nat) (off : Int) (s : State) : Out := branch a off (fun x => decide (x.toInt < 0)) s
/-- BGEZ (R86). -/
def execBgez (a : Nat) (off : Int) (s : State) : Out := branch a off (fun x => decide (0 ≤ x.toInt)) s
/-- BGTZ (R86). -/
def execBgtz (a : Nat) (off : Int) (s : State) : Out := branch a off (fun x => decide (0 < x.toInt)) s
/-- BLEZ (R86). -/
def execBlez (a : Nat) (off : Int) (s : State) : Out := branch a off (fun x => decide (x.toInt ≤ 0)) s

/-- J (R86). -/
def execJ (off : Int) (s : State) : Out :=
  scalarWord s [] [] none fun w _ => s.goTo s.cur w (w.target off) 3

/-- The target of `jr` and `callr` (R35). -/
def indirect (x : Word) (off : Int) : Word := x + 4 * BitVec.ofInt 64 off

/-- JR (R35, R86): a misaligned target is a trap at the jump. -/
def execJr (a : Nat) (off : Int) (s : State) : Out :=
  scalarWord s [a] [a] none fun w _ =>
    let t := indirect (s.rS w a) off
    if t.toNat % 4 ≠ 0 then s.trapS s.cur 3 t 0 0 else s.goTo s.cur w t.toNat 3

/-! ## The return stack (R87, R88) -/

/-- The code of an entry's kind (R87). -/
def RetKind.code : RetKind → Nat
  | .call => 0 | .frame => 1 | .round => 2

/-- Word 0 of an entry (R87). -/
def RetEntry.word0 (e : RetEntry) : Nat := e.addr % 2 ^ 57 + e.kind.code * 2 ^ 62

/-- The entry that two words hold (R87): a kind of 11 reads as a call. -/
def RetEntry.ofWords (a m : Nat) : RetEntry where
  kind := match a / 2 ^ 62 % 4 with
    | 1 => .frame
    | 2 => .round
    | _ => .call
  addr := a % 2 ^ 57
  mask := BitVec.ofNat 64 m

/-- The storage key of spill chunk `i` (R88). -/
def Wave.chunkKey (w : Wave) (n i : Nat) : Nat := spadKey (coreOfWave n) (w.sbase + w.fp.spad + 64 * i)

/-- An entry's sixteen bytes. -/
def RetEntry.bytes (e : RetEntry) : List Byte := toBytes 8 e.word0 ++ toBytes 8 e.mask.toNat

/-- A push (R88): the state, the wave and whether a spill happened; `none` where the spill area is full. The list of
held entries has its top first. -/
def pushRet (s : State) (n : Nat) (w : Wave) (e : RetEntry) : Option (State × Wave × Bool) :=
  if w.stack.length < 16 then some (s, { w with stack := e :: w.stack }, false)
  else if w.spilled = w.fp.stack / 64 then none
  else some (s.write (w.chunkKey n w.spilled) (((w.stack.drop 12).reverse).flatMap RetEntry.bytes),
    { w with stack := e :: w.stack.take 12, spilled := w.spilled + 1 }, true)

/-- The four entries of a chunk, newest first. -/
def readChunk (s : State) (k : Nat) : List RetEntry :=
  [3, 2, 1, 0].map fun i => RetEntry.ofWords (s.num 8 (k + 16 * i)) (s.num 8 (k + 16 * i + 8))

/-- A pop (R88): the entry, the wave and whether a refill happened; `none` where the stack is empty. -/
def popRet (s : State) (n : Nat) (w : Wave) : Option (RetEntry × Wave × Bool) :=
  match w.stack with
  | e :: es => some (e, { w with stack := es }, false)
  | [] =>
    if w.spilled = 0 then none
    else match readChunk s (w.chunkKey n (w.spilled - 1)) with
      | e :: es => some (e, { w with stack := es, spilled := w.spilled - 1 }, true)
      | [] => none

/-- A transfer with its effect on the return stack: where that spills or refills (`sp`), the word is held for 12 cycles before it issues, and
is not issued yet (R88, R382). `s` and `w` are the state and the wave before the word, `s'` and `w'` those after it. -/
def State.goAfter (s : State) (n : Nat) (w : Wave) (sp : Bool) (s' : State) (w' : Wave) (t : Nat) : State :=
  if sp && !w.spillOver (s.clk (coreOfWave n)) then s.stallSpill n w else s'.goTo n w' t 3

/-- CALL and CALLR with a target that has passed R35 (R89). -/
def callTo (s : State) (w : Wave) (t : Nat) : State :=
  match pushRet s s.cur w ⟨.call, (w.spc + 4) % 2 ^ 57, w.lmask⟩ with
  | none => s.trapS s.cur 4 (BitVec.ofNat 64 (w.chunkKey s.cur w.spilled)) 0 0
  | some r => s.goAfter s.cur w r.2.2 r.1 r.2.1 t

/-- CALL (R89). -/
def execCall (off : Int) (s : State) : Out := scalarWord s [] [] none fun w _ => callTo s w (w.target off)

/-- CALLR (R89). -/
def execCallr (a : Nat) (off : Int) (s : State) : Out :=
  scalarWord s [a] [a] none fun w _ =>
    let t := indirect (s.rS w a) off
    if t.toNat % 4 ≠ 0 then s.trapS s.cur 3 t 0 0 else callTo s w t.toNat

/-! ## callv (R90) -/

/-- The live lanes of a mask. -/
def Wave.live (w : Wave) (m : Word) : Word := m &&& w.launched &&& ~~~w.exited

/-- The per-lane targets of the lanes of `r`. -/
def Wave.targets (w : Wave) (fr clk t : Nat) (r : Word) : List (Nat × Nat) :=
  (lanesOf r).map fun l => (l, (w.readV fr clk t l).toNat)

/-- The lowest of a list of lane targets. -/
def lowestTarget (ts : List (Nat × Nat)) : Nat := (ts.map Prod.snd).min?.getD 0

/-- The check of every lane's target: the trap code, the lanes and the lowest failing offset. -/
def callvFails (ts : List (Nat × Nat)) (size : Nat) : Option (Nat × Word × Nat) :=
  let mis := ts.filter fun e => e.2 % 4 != 0
  let out := ts.filter fun e => decide (size ≤ e.2)
  let mask := fun (l : List (Nat × Nat)) => maskOf fun i => l.any fun e => e.1 == i
  if !mis.isEmpty then some (3, mask mis, lowestTarget mis)
  else if !out.isEmpty then some (4, mask out, lowestTarget out)
  else none

/-- One round: the lanes of the lowest target run, the others wait in a round entry (R90). `s0` and `w0` are the state and the wave before the
word, and `sp` says that it has spilled or refilled. -/
def callvRound (s0 : State) (w0 : Wave) (s : State) (w : Wave) (c : Cons) (t : Nat) (r : Word) (ts : List (Nat × Nat)) (sp : Bool) : State :=
  let lo := lowestTarget ts
  let l := maskOf fun i => ts.any fun e => e.1 == i && e.2 == lo
  match pushRet s s.cur w ⟨.round, t, r &&& ~~~l⟩ with
  | none => s0.trapS s0.cur 4 (BitVec.ofNat 64 (w.chunkKey s0.cur w.spilled)) 0 0
  | some x => s0.goAfter s0.cur w0 (sp || x.2.2) x.1 { x.2.1 with lmask := l } (c.obj.scalarBase + lo)

/-- Both entries of a `callv` fit (every check precedes any change, R88). -/
def Wave.roomForTwo (w : Wave) : Bool :=
  decide (w.stack.length + 2 ≤ 16) || decide (w.spilled < w.fp.stack / 64)

/-- CALLV (R90). -/
def execCallv (t : Nat) (s : State) : Out :=
  scalarWord s [] [] none fun w c =>
    let n := s.cur
    let r := w.live w.lmask
    if !w.vOk t then s.trapS n 2 (BitVec.ofNat 64 t) 0 0
    else if c.debug && s.lateV n w s.clkCur t r then s.trapS n 7 (BitVec.ofNat 64 t) 0 0
    else if r = 0 then s.step4 n w id
    else
      let ts := w.targets s.fresh s.clkCur t r
      match callvFails ts c.obj.scalarSize with
      | some (code, mask, addr) => s.trapS n code (BitVec.ofNat 64 addr) mask 0
      | none =>
        if !w.roomForTwo then s.trapS n 4 (BitVec.ofNat 64 (w.chunkKey n w.spilled)) 0 0
        else match pushRet s n w ⟨.frame, w.spc, w.lmask⟩ with
          | none => s.trapS n 4 (BitVec.ofNat 64 (w.chunkKey n w.spilled)) 0 0
          | some x => callvRound s w x.1 x.2.1 c t r ts x.2.2

/-- The round entry on top at a `ret` (CallvRound of R90): `w` has popped it and `w0` still holds it. A frame that a store into the spill
area has made misaligned traps at the `ret` (R35, R88). -/
def callvNext (s : State) (w0 w : Wave) (c : Cons) (e : RetEntry) (sp : Bool) : State :=
  let n := s.cur
  let r := w.live e.mask
  if r = 0 then
    match popRet s n w with
    | some (f, w, sp') =>
      if (f.addr + 4) % 4 ≠ 0 then s.trapS n 3 (BitVec.ofNat 64 ((f.addr + 4) % 2 ^ 57)) 0 0
      else s.goAfter n w0 (sp || sp') s { w with lmask := f.mask } (f.addr + 4)
    | none => s.trapS n 2 0 0 0
  else
    let t := e.addr % 512
    if !w0.vOk t then s.trapS n 2 (BitVec.ofNat 64 t) 0 0
    else if c.debug && s.lateV n w0 s.clkCur t r then s.trapS n 7 (BitVec.ofNat 64 t) 0 0
    else
      let ts := w.targets s.fresh s.clkCur t r
      match callvFails ts c.obj.scalarSize with
      | some (code, mask, addr) => s.trapS n code (BitVec.ofNat 64 addr) mask 0
      | none => callvRound s w0 s w c t r ts sp

/-- RET (R89, R90). -/
def execRet (s : State) : Out :=
  scalarWord s [] [] none fun w c =>
    let n := s.cur
    match popRet s n w with
    | none => s.trapS n 2 0 0 0
    | some (e, w', sp) =>
      match e.kind with
      | .call =>
        if e.addr % 4 ≠ 0 then s.trapS n 3 (BitVec.ofNat 64 e.addr) 0 0
        else s.goAfter n w sp s { w' with lmask := e.mask } e.addr
      | .frame => s.trapS n 2 0 0 0
      | .round => callvNext s w w' c e sp

/-! ## Lane blocks (R81-R85) -/

/-- LRUN (R81, R82). A block may begin near the last index that `lpc` holds; its later words then have indices beyond 2^24 − 1, of
which the manual says nothing, and the lane PC runs on (R14, R16; log 60). -/
def execLrun (a b : Nat) (s : State) : Out :=
  scalarWord s [a, b] [a, b] none fun w c =>
    let x := (s.rS w a).toNat
    let y := (s.rS w b).toNat
    let start := x % 2 ^ 24
    let k := if x / 2 ^ 24 % 256 = 0 then 256 else x / 2 ^ 24 % 256
    if c.obj.laneWords < start + k then s.trapS s.cur 2 (BitVec.ofNat 64 a) 0 0
    else if w.lbusy = 8 then s.holdS s.cur w .stall
    else s.step4 s.cur w fun w => w.setQueue (w.prune.queue ++
      [⟨s.nextId, start, k, BitVec.ofNat 32 (x / 2 ^ 32), BitVec.ofNat 32 y, BitVec.ofNat 32 (y / 2 ^ 32), w.lmask, 0⟩])

/-- The lane operations of finished blocks are ordered before what follows an `lwait` (R84, R85). -/
def Wave.cover (w : Wave) : Wave :=
  let open_ := (w.prune.laneQ ++ w.prune.handQ).map LBlock.id
  { w with ops := w.ops.map fun o => match o.blk with
      | some b => if open_.contains b then o else { o with cov := true }
      | none => o }

/-- LWAIT (R84). -/
def execLwait (k : Nat) (s : State) : Out :=
  scalarWord s [] [] none fun w _ =>
    if w.lbusy ≤ k then s.step4 s.cur w Wave.cover else s.holdS s.cur w .stall

/-! ## sleep (R394) and exit (R74) -/

/-- A scalar word that issues and parks: the scalar PC is already at the next word. -/
def State.parkS (s : State) (n : Nat) (w : Wave) (k : Park) : State := s.step4 n w fun w => { w with park := k }

/-- SLEEP (R394). -/
def execSleep (d imm : Nat) (s : State) : Out :=
  scalarWord s [d] [d] none fun w _ =>
    let t := min ((s.rS w d).toNat + imm) (2 ^ 64 - 1)
    if t = 0 then s.step4 s.cur w id else s.parkS s.cur w (.sleep (s.nsc + t))

/-- EXIT (R74): after every lane block has finished. Leaves follow the acknowledgements of the wave's arrives (R281);
a lead's split table is cleared (R103). -/
def execExit (s : State) : Out :=
  scalarWord s [] [] none fun w _ =>
    let n := s.cur
    if w.lbusy ≠ 0 then s.holdS n w .stall
    else
      let s := (s.step4 n w Wave.cover).endLead n
      match s.wave n with
      | none => s
      | some w => s.finishExit n w false

/-! ## Traps and handlers (R362, R363, R367) -/

/-- SETTV (R362). -/
def execSettv (off : Int) (s : State) : Out :=
  scalarWord s [] [] none fun w _ =>
    s.step4 s.cur w fun w => { w with ctl := { w.ctl with handler := if off = 0 then none else some (w.target off) } }

/-- TRAP (R28, R29, R363): a user trap, translate-on-call, or an illegal instruction. -/
def execTrap (k : Nat) (s : State) : Out :=
  scalarWord s [] [] none fun w c =>
    let n := s.cur
    if k < 0x7F00 then s.trapS n 0x0B (BitVec.ofNat 64 k) 0 k
    else if k = 0x7FFF then
      let f := ofBytes (codeBytes s c (coreOfWave n) (w.spc + 4) 4)
      s.setWave n { w with park := .translate f }
    else s.trapS n 1 (wordOf (.trap k)) 0 0

/-- Both forms of `xret` (R367). -/
def xret (i : Instr) (skip : Bool) (s : State) : Out :=
  scalarWord s [] [] none fun w c =>
    let n := s.cur
    if !w.ctl.hmode then s.trapS n 1 (wordOf i) 0 0
    else if w.lbusy ≠ 0 then s.holdS n w .stall
    else s.leaveHandler n w.cover c skip

/-- XRET_REDO (R367). -/
def execXretRedo (s : State) : Out := xret .xretRedo false s
/-- XRET_SKIP (R367). -/
def execXretSkip (s : State) : Out := xret .xretSkip true s

end Sys2Proof.Machine
end

