-- ==== Sys2Proof/Machine/LoadStore.lean ====
section
/-! DEFINITION. Scalar and lane loads and stores, tag operations and `xlat` (R237-R239, R249-R258, R285, R286). -/

namespace Sys2Proof.Machine

/-! ## Scalar (R258, R285) -/

/-- A scalar memory word with its address formed: the alignment trap, what holds it, and its access. `size` is in bytes. -/
def scalarAccess (s : State) (w : Wave) (c : Cons) (va : Word) (size align : Nat) (k : MemKind) (dest : OpDest)
    (d d2 : Word) : State :=
  let n := s.cur
  let es := [want64 s c (coreOfWave n) k 0 va.toNat d d2]
  if va.toNat % align ≠ 0 then s.trapS n 3 va 0 0
  else if memHeld s n w k size none es then s.holdS n w .long
  else (s.step4 n w id).access n s.nextId c k false size dest none none w.spc (w.nextLpc w.queue) es

/-- A latency longer than that of any result in flight, for a destination whose value comes at a time not known at issue (R118). -/
def lateLat : Nat := 1000

/-- A scalar load of `size` bytes (R258). -/
def scalarLoad (d a off size : Nat) (signed : Bool) (s : State) : Out :=
  scalarWord s [d, a] [a] (some (d, lateLat)) fun w c =>
    scalarAccess s w c (s.rS w a + BitVec.ofNat 64 (off * size)) size size .load (.sreg d size signed) 0 0

/-- A scalar store of `size` bytes (R258). -/
def scalarStore (d a off size : Nat) (s : State) : Out :=
  scalarWord s [d, a] [d, a] none fun w c =>
    scalarAccess s w c (s.rS w a + BitVec.ofNat 64 (off * size)) size size .store .none
      (s.rS w d &&& BitVec.ofNat 64 (2 ^ (8 * size) - 1)) 0

/-- LDS_I8 (R258). -/
def execLdsI8 (d a off : Nat) (s : State) : Out := scalarLoad d a off 1 true s
/-- LDS_N8 (R258). -/
def execLdsN8 (d a off : Nat) (s : State) : Out := scalarLoad d a off 1 false s
/-- LDS_I16 (R258). -/
def execLdsI16 (d a off : Nat) (s : State) : Out := scalarLoad d a off 2 true s
/-- LDS_N16 (R258). -/
def execLdsN16 (d a off : Nat) (s : State) : Out := scalarLoad d a off 2 false s
/-- LDS_I32 (R258). -/
def execLdsI32 (d a off : Nat) (s : State) : Out := scalarLoad d a off 4 true s
/-- LDS_N32 (R258). -/
def execLdsN32 (d a off : Nat) (s : State) : Out := scalarLoad d a off 4 false s
/-- LDS_64 (R258). -/
def execLds64 (d a off : Nat) (s : State) : Out := scalarLoad d a off 8 false s
/-- STS_8 (R258). -/
def execSts8 (d a off : Nat) (s : State) : Out := scalarStore d a off 1 s
/-- STS_16 (R258). -/
def execSts16 (d a off : Nat) (s : State) : Out := scalarStore d a off 2 s
/-- STS_32 (R258). -/
def execSts32 (d a off : Nat) (s : State) : Out := scalarStore d a off 4 s
/-- STS_64 (R258). -/
def execSts64 (d a off : Nat) (s : State) : Out := scalarStore d a off 8 s

/-- LDFE (R286). -/
def execLdfe (d a off : Nat) (s : State) : Out :=
  scalarWord s [d, a] [a] (some (d, lateLat)) fun w c =>
    scalarAccess s w c (s.rS w a + BitVec.ofNat 64 (off * 8)) 8 8 .ldfe (.sreg d 8 false) 0 0
/-- STFE (R286). -/
def execStfe (d a off : Nat) (s : State) : Out :=
  scalarWord s [d, a] [d, a] none fun w c =>
    scalarAccess s w c (s.rS w a + BitVec.ofNat 64 (off * 8)) 8 8 .stfe .none (s.rS w d) 0
/-- LDF (R286). -/
def execLdf (d a off : Nat) (s : State) : Out :=
  scalarWord s [d, a] [a] (some (d, lateLat)) fun w c =>
    scalarAccess s w c (s.rS w a + BitVec.ofNat 64 (off * 8)) 8 8 .ldf (.sreg d 8 false) 0 0
/-- TAGSET (R286). -/
def execTagset (d a off : Nat) (s : State) : Out :=
  scalarWord s [a] [a] none fun w c =>
    scalarAccess s w c (s.rS w a + BitVec.ofNat 64 (off * 8)) 8 8 (.tagset (d == 1)) .none 0 0

/-! ## xlat (R238) -/

/-- Bytes of the contiguous run that follows a page of `size` bytes at `va`, within the same last-level table. -/
def runLength (s : State) (aspace size : Nat) (a : PageAttr) : Nat → Nat → Nat → Nat
  | 0, _, _ => 0
  | k + 1, va, pa =>
    let span := if size = 65536 then 2 ^ 21 else 512 * size
    if (va + size) / span ≠ va / span ∨ 2 ^ 57 ≤ va + size then 0
    else match walk s aspace (va + size) with
      | .ok b q z t =>
        if b = va + size ∧ z = size ∧ t = a ∧ q = pa + size then size + runLength s aspace size a k (va + size) (pa + size)
        else 0
      | _ => 0

/-- The pages after the first that `xlat` looks at: the run with the page that ends it (R238). -/
def xlatRun (s : State) (c : Cons) (p : Nat) (va : Word) : List Nat :=
  match translate s p c.aspace va.toNat with
  | .ok b pa z a =>
    let span := if z = 65536 then 2 ^ 21 else 512 * z
    ((List.range (runLength s c.aspace z a 512 b pa / z + 1)).map fun i => b + (i + 1) * z).filter fun x =>
      decide (x / span = b / span) && decide (x < 2 ^ 57)
  | _ => []

/-- The walks to pages of a list look up their entries (R247). -/
def State.runWalked (s : State) (p aspace : Nat) : List Nat → State
  | [] => s
  | va :: vas => (s.walked p aspace va).runWalked p aspace vas

/-- The translation register that `xlat` writes (R238). -/
def xlatReg (s : State) (p : Nat) (c : Cons) (va : Word) : TReg :=
  let none_ : TReg := ⟨va, 0, 0, attrOf 0⟩
  if !canonical va.toNat then none_
  else match c.dataAt va.toNat with
    | some pa => ⟨va, pa, va57 (c.obj.base + (c.obj.sect 4).1) + (c.obj.sect 4).2 - va57 va.toNat, attrOf 6⟩
    | none => match translate s p c.aspace va.toNat with
      | .ok b pa z a =>
        let off := va57 va.toNat - b
        ⟨va, pa + off, z - off + runLength s c.aspace z a 512 b pa, a⟩
      | _ => none_

/-- XLAT (R238): the register is written, with limit 0 where no page maps the pointer; the scalar stream is parked, and goes on 8 cycles
later or, after a miss, when the walk has ended. -/
def execXlat (d a : Nat) (s : State) : Out :=
  scalarWord s [a] [a] none fun w c =>
    let n := s.cur
    let p := coreOfWave n
    let va := s.rS w a
    let t := xlatReg s p c va
    let s := if canonical va.toNat then (fillTlb s p c.aspace va.toNat).runWalked p c.aspace (xlatRun s c p va) else s
    s.goTo n { w with tbs := put w.tbs (d % 8) t, park := .xlat } (w.spc + 4) 8

/-! ## Lane words (R251-R257) -/

/-- The operand fields of a memory word as those of layout A. -/
def asA (l : LaneM) : LaneA :=
  ⟨l.pred, l.neg, l.d, l.a, l.b, l.c, l.ty, .rne, false, false, false, l.imm⟩

/-- The three address forms (R251, R274). -/
inductive MemForm where
  | tb (n : Nat) | gspad | loc
deriving DecidableEq, Repr

/-- The access of a lane at the address of a form. -/
def laneWant (s : State) (k : LaneCtx) (f : MemForm) (m : MemKind) (imm i : Nat) (d d2 : Word) : Want :=
  let p := coreOfWave k.n
  let x := (k.val s k.a i).toNat
  match f with
  | .tb t => wantTb s k.c p m ((look k.w.tbs t).getD ⟨0, 0, 0, attrOf 0⟩) i (sext 32 x + sext 32 imm) d d2
  | .gspad => wantSpad k.c p i ((x + imm) % 2 ^ 32) d d2
  | .loc => wantLocal p i (x + imm) 4 d d2

/-- The form names an invalid translation register (R239). -/
def badTb (w : Wave) (f : MemForm) : Bool := match f with
  | .tb t => (look w.tbs t).isNone
  | _ => false

/-- What a load writes. -/
def LaneCtx.opDest (k : LaneCtx) : OpDest := match k.d with
  | .reg r => .vreg r
  | .spad key => .slot key
  | .pipe key => .pipe key 0
  | .none => .none

/-- The address x(l) of a lane as `xaddr` takes it: in the scratchpad form the 32 bits that R251 forms (R252). -/
def xAddr (f : MemForm) (e : Want) : Nat := match f with
  | .gspad => e.acc.va % 2 ^ 32
  | _ => e.acc.va

/-- A lane memory word that uses a counter (R252): the translation-register check, the alignment trap, a release for
`.rel`, what holds it, and its accesses; `readsD` says that it reads its destination too. The check of the register comes after the ring slot waits and the hazard checker; the manual
gives them no order (log 58). -/
def laneAccess (l : LaneM) (ud ub : FUse) (f : MemForm) (m : MemKind) (rel : Option Scope) (acq : Option Scope)
    (data : LaneCtx → Nat → Word × Word) (s : State) (readsD : Bool := false) : Out :=
  laneFrame s (asA l) ud .src ub .none false false id lateLat fun k =>
    if badTb k.w f then s.trapL k.n 2 (BitVec.ofNat 64 l.c) k.act
    else if readsD && k.c.debug && k.lateV k.clk l.d k.act then s.trapL k.n 7 (BitVec.ofNat 64 l.d) k.act
    else
      let es := (lanesOf k.act).map fun i => let d := data k i; laneWant s k f m l.imm i d.1 d.2
      let mis := es.filter fun e => e.acc.va % 4 != 0
      if !mis.isEmpty then
        s.trapL k.n 3 (BitVec.ofNat 64 ((mis.map (xAddr f)).min?.getD 0))
          (maskOf fun i => mis.any fun e => e.acc.lane == i)
      else if rel.any (fun sc => !s.releasedL k.n k.w sc k.blk.id) || memHeld s k.n k.w m 4 (some k.blk.id) es
      then s.holdL k.n k.w .long
      else (s.issuedL k.n (k.w.advanceL k.blk k.clk 1)).access k.n s.nextId k.c m (f == .loc) 4 k.opDest (some k.blk.id) acq
        k.w.spc (k.blk.start + k.blk.pos) es

/-- A lane load. -/
def laneLoad (l : LaneM) (f : MemForm) (s : State) : Out :=
  laneAccess l .dst .none f .load none none (fun _ _ => (0, 0)) s

/-- A lane store: its data is read at issue. -/
def laneStore (l : LaneM) (f : MemForm) (s : State) : Out :=
  laneAccess l .none .src f .store none none (fun k i => ((k.val s k.b i).setWidth 64, 0)) s

/-- VLDS (R255). -/
def execVlds (l : LaneM) (s : State) : Out := laneLoad l .loc s
/-- VSTS (R255). -/
def execVsts (l : LaneM) (s : State) : Out := laneStore l .loc s
/-- VLD (R256). -/
def execVld (l : LaneM) (s : State) : Out := laneLoad l (.tb (l.c % 8)) s
/-- VST (R256). -/
def execVst (l : LaneM) (s : State) : Out := laneStore l (.tb (l.c % 8)) s
/-- VLD_GSPAD (R257). -/
def execVldGspad (l : LaneM) (s : State) : Out := laneLoad l .gspad s
/-- VST_GSPAD (R257). -/
def execVstGspad (l : LaneM) (s : State) : Out := laneStore l .gspad s

/-! ## Lane-private store (R254) -/

/-- The place of byte `off` of lane `i`'s private slice. -/
def privKey (i off : Nat) : Nat := 512 * i + off

/-- Lanes that name a misaligned or an absent private byte, and the offsets they name. -/
def privLanes (s : State) (k : LaneCtx) (imm : Nat) (bad : Nat → Bool) : List (Nat × Nat) :=
  ((lanesOf k.act).map fun i => (i, (k.val s k.a i).toNat + imm)).filter fun e => bad e.2

/-- A private access at or beyond the wave's `.private` bytes is answered as R246 says (R253, R254). -/
def State.answerPriv (s : State) (k : LaneCtx) (bad : List (Nat × Nat)) : State :=
  if bad.isEmpty then s
  else s.answerError k.n k.w.cid
    (some ⟨0, .ld, 0, some k.blk.id, .none, none, 0, false, k.w.spc, k.blk.start + k.blk.pos, [], 0, none, 0⟩) bad false false

/-- The trap of misaligned private accesses. -/
def privTrap (s : State) (k : LaneCtx) (mis : List (Nat × Nat)) : State :=
  s.trapL k.n 3 (BitVec.ofNat 64 ((mis.map Prod.snd).min?.getD 0)) (maskOf fun i => mis.any fun e => e.1 == i)

/-- VLDP (R254): 10 cycles, and zero where the access violates. -/
def execVldp (l : LaneM) (s : State) : Out :=
  laneFrame s (asA l) .dst .src .none .none false false id 10 fun k =>
    let mis := privLanes s k l.imm fun x => x % 4 != 0
    let bad := privLanes s k l.imm fun x => decide (k.w.fp.priv < x + 4)
    if !mis.isEmpty then privTrap s k mis
    else if 4 ≤ k.w.oplog.length then s.holdL k.n k.w .long
    else
      let s' := s.laneResult k 10 0 fun i =>
        let x := (k.val s k.a i).toNat + l.imm
        (if k.w.fp.priv < x + 4 then 0 else BitVec.ofNat 32 (Memory.num k.w.regs.priv 4 (privKey i x)), 0)
      s'.answerPriv k bad

/-- Private bytes written by the lanes of a list. -/
def writePriv (m : Memory) : List (Nat × Nat × W32) → Memory
  | [] => m
  | (i, x, v) :: es => writePriv (Memory.setNum m 4 (privKey i x) v.toNat) es

/-- VSTP (R254): performed for every later `vldp` of the wave (R114, R259). -/
def execVstp (l : LaneM) (s : State) : Out :=
  laneFrame s (asA l) .none .src .src .none false false id 4 fun k =>
    let mis := privLanes s k l.imm fun x => x % 4 != 0
    let bad := privLanes s k l.imm fun x => decide (k.w.fp.priv < x + 4)
    let good := privLanes s k l.imm fun x => decide (x + 4 ≤ k.w.fp.priv)
    if !mis.isEmpty then privTrap s k mis
    else if 4 ≤ k.w.oplog.length then s.holdL k.n k.w .long
    else
      let w := { k.w with regs := { k.w.regs with
        priv := writePriv k.w.regs.priv (good.map fun e => (e.1, e.2, k.val s k.b e.1)) } }
      (s.sendDest { k with w := w } (4 + k.late) 1 .nothing 0 0 0 0).answerPriv k bad

end Sys2Proof.Machine
end

