-- ==== Sys2Proof/Machine/Atomics.lean ====
section
/-! DEFINITION. Atomics and reductions, scalar and lane (R272-R275, R296). -/

namespace Sys2Proof.Machine

/-! ## The arithmetic at the home (R273-R275) -/

/-- The new word of an operation on `w` bits: `m` is the word, `x` the operand, `y` the second operand of `cas`. -/
def applyAmo (op : AmoOp) (w m x y : Nat) : Nat :=
  match op with
  | .add => (m + x) % 2 ^ w
  | .and => m &&& x
  | .or => m ||| x
  | .xor => m ^^^ x
  | .minS => if readInt true w m ≤ readInt true w x then m else x
  | .minU => if m ≤ x then m else x
  | .maxS => if readInt true w m ≤ readInt true w x then x else m
  | .maxU => if m ≤ x then x else m
  | .swap => x
  | .cas => if m = x then y else m
  | .fadd => (fmtF32.deliver .rne false false (Num.add .rne (fmtF32.value m) (fmtF32.value x))).1

/-! ## Scalar forms (R273) -/

/-- The order has a release. -/
def hasRel : Order → Bool
  | .rel | .ar => true
  | _ => false

/-- The scope of an order's release. -/
def relScope (ord : Order) (sc : Scope) : Option Scope := if hasRel ord then some sc else none

/-- The order has an acquire. -/
def hasAcq : Order → Bool
  | .acq | .ar => true
  | _ => false

/-- A scalar atomic or reduction: `.rel` holds it until the release is complete, `.acq` holds the stream after it (R296). -/
def scalarAtomic (d a : Nat) (ord : Order) (sc : Scope) (k : MemKind) (dest : OpDest) (reads : List Nat)
    (d2 : Wave → Word) (s : State) : Out :=
  scalarWord s [d, a] reads (match dest with
      | .sreg r _ _ => some (r, lateLat)
      | _ => none) fun w c =>
    let n := s.cur
    let va := s.rS w a
    let es := [want64 s c (coreOfWave n) k 0 va.toNat (s.rS w d) (d2 w)]
    if va.toNat % 8 ≠ 0 then s.trapS n 3 va 0 0
    else if (hasRel ord && !s.releasedS n w sc) || memHeld s n w k 8 none es then s.holdS n w .long
    else
      let s' := (s.step4 n w id).access n s.nextId c k false 8 dest none none w.spc (w.nextLpc w.queue) es
      if hasAcq ord then s'.onWave n fun w => { w with park := .atomic s.nextId sc } else s'

/-- A scalar `amo` other than `cas`. -/
def amo (op : AmoOp) (d a : Nat) (ord : Order) (sc : Scope) (s : State) : Out :=
  scalarAtomic d a ord sc (.amo op) (.sreg d 8 false) [d, a] (fun _ => 0) s

/-- A scalar `red`. -/
def red (op : AmoOp) (d a : Nat) (ord : Order) (sc : Scope) (s : State) : Out :=
  scalarAtomic d a ord sc (.red op) .none [d, a] (fun _ => 0) s

/-- AMO_ADD (R273). -/
def execAmoAdd (d a : Nat) (ord : Order) (sc : Scope) (s : State) : Out := amo .add d a ord sc s
/-- AMO_AND (R273). -/
def execAmoAnd (d a : Nat) (ord : Order) (sc : Scope) (s : State) : Out := amo .and d a ord sc s
/-- AMO_OR (R273). -/
def execAmoOr (d a : Nat) (ord : Order) (sc : Scope) (s : State) : Out := amo .or d a ord sc s
/-- AMO_XOR (R273). -/
def execAmoXor (d a : Nat) (ord : Order) (sc : Scope) (s : State) : Out := amo .xor d a ord sc s
/-- AMO_MIN_I64 (R273). -/
def execAmoMinI64 (d a : Nat) (ord : Order) (sc : Scope) (s : State) : Out := amo .minS d a ord sc s
/-- AMO_MIN_N64 (R273). -/
def execAmoMinN64 (d a : Nat) (ord : Order) (sc : Scope) (s : State) : Out := amo .minU d a ord sc s
/-- AMO_MAX_I64 (R273). -/
def execAmoMaxI64 (d a : Nat) (ord : Order) (sc : Scope) (s : State) : Out := amo .maxS d a ord sc s
/-- AMO_MAX_N64 (R273). -/
def execAmoMaxN64 (d a : Nat) (ord : Order) (sc : Scope) (s : State) : Out := amo .maxU d a ord sc s
/-- AMO_SWAP (R273). -/
def execAmoSwap (d a : Nat) (ord : Order) (sc : Scope) (s : State) : Out := amo .swap d a ord sc s

/-- AMO_CAS (R47, R273): s(d+1) is the new value. -/
def execAmoCas (d a : Nat) (ord : Order) (sc : Scope) (s : State) : Out :=
  if (s.wave s.cur).any (fun w => w.sOk d && (decide (382 < d) || !w.sOk (d + 1)))
  then scalarWord s [] [] none fun _ _ => s.trapS s.cur 2 (BitVec.ofNat 64 d) 0 0
  else scalarAtomic d a ord sc (.amo .cas) (.sreg d 8 false) [d, d + 1, a] (fun w => s.rS w (d + 1)) s

/-- RED_ADD (R273). -/
def execRedAdd (d a : Nat) (ord : Order) (sc : Scope) (s : State) : Out := red .add d a ord sc s
/-- RED_AND (R273). -/
def execRedAnd (d a : Nat) (ord : Order) (sc : Scope) (s : State) : Out := red .and d a ord sc s
/-- RED_OR (R273). -/
def execRedOr (d a : Nat) (ord : Order) (sc : Scope) (s : State) : Out := red .or d a ord sc s
/-- RED_XOR (R273). -/
def execRedXor (d a : Nat) (ord : Order) (sc : Scope) (s : State) : Out := red .xor d a ord sc s
/-- RED_MIN_I64 (R273). -/
def execRedMinI64 (d a : Nat) (ord : Order) (sc : Scope) (s : State) : Out := red .minS d a ord sc s
/-- RED_MIN_N64 (R273). -/
def execRedMinN64 (d a : Nat) (ord : Order) (sc : Scope) (s : State) : Out := red .minU d a ord sc s
/-- RED_MAX_I64 (R273). -/
def execRedMaxI64 (d a : Nat) (ord : Order) (sc : Scope) (s : State) : Out := red .maxS d a ord sc s
/-- RED_MAX_N64 (R273). -/
def execRedMaxN64 (d a : Nat) (ord : Order) (sc : Scope) (s : State) : Out := red .maxU d a ord sc s

/-- The wait of a scalar atomic with `.acq` looked at again: its value has landed, and every read before it (R295,
R296). -/
def State.pollAtomic (s : State) (n : Nat) (w : Wave) (op : Nat) (sc : Scope) (under : Bool) : State :=
  if w.ops.all (fun o => o.id != op || o.need == 0) && readsLanded sc w.beforeScalar then
    (s.setWave n (w.parkOver under)).acquire (coreOfWave n) sc
  else s

/-! ## Lane forms (R274) -/

/-- The address form of c (R274). -/
def memForm (l : LaneM) : MemForm :=
  if l.c / 128 = 0 then .tb (l.c % 8) else if l.c / 128 = 1 then .gspad else .loc

/-- A lane `amo`: d must name a vector register, and `.acq` makes the operation one that still acquires. -/
def laneAmo (l : LaneM) (op : AmoOp) (s : State) : Out :=
  if 320 ≤ l.d then
    laneFrame s (asA l) .none .none .none .none false false id 1 fun k => s.trapL k.n 2 (BitVec.ofNat 64 l.d) k.act
  else laneAccess l .dst .src (memForm l) (.amo op) (relScope l.ord l.sc) (if hasAcq l.ord then some l.sc else none)
    (fun k i => if op = .cas then ((k.val s (.reg l.d) i).setWidth 64, (k.val s k.b i).setWidth 64)
      else ((k.val s k.b i).setWidth 64, 0)) s (op == .cas)

/-- A lane `red`. -/
def laneRed (l : LaneM) (op : AmoOp) (s : State) : Out :=
  laneAccess l .none .src (memForm l) (.red op) (relScope l.ord l.sc) none (fun k i => ((k.val s k.b i).setWidth 64, 0)) s

/-- The minimum or maximum of a type. -/
def minMaxOp (t : Ty) (isMax : Bool) : AmoOp :=
  if t.signed then (if isMax then .maxS else .minS) else (if isMax then .maxU else .minU)

/-- LANE_AMO_ADD (R274). -/
def execLaneAmoAdd (l : LaneM) (s : State) : Out := laneAmo l .add s
/-- LANE_AMO_AND (R274). -/
def execLaneAmoAnd (l : LaneM) (s : State) : Out := laneAmo l .and s
/-- LANE_AMO_OR (R274). -/
def execLaneAmoOr (l : LaneM) (s : State) : Out := laneAmo l .or s
/-- LANE_AMO_XOR (R274). -/
def execLaneAmoXor (l : LaneM) (s : State) : Out := laneAmo l .xor s
/-- LANE_AMO_MIN (R274). -/
def execLaneAmoMin (l : LaneM) (s : State) : Out := laneAmo l (minMaxOp l.ty false) s
/-- LANE_AMO_MAX (R274). -/
def execLaneAmoMax (l : LaneM) (s : State) : Out := laneAmo l (minMaxOp l.ty true) s
/-- LANE_AMO_SWAP (R274). -/
def execLaneAmoSwap (l : LaneM) (s : State) : Out := laneAmo l .swap s
/-- LANE_AMO_CAS (R274): vd read at issue is the compare value, vb the new one. -/
def execLaneAmoCas (l : LaneM) (s : State) : Out := laneAmo l .cas s
/-- LANE_AMO_FADD (R275). -/
def execLaneAmoFadd (l : LaneM) (s : State) : Out := laneAmo l .fadd s
/-- LANE_RED_ADD (R274). -/
def execLaneRedAdd (l : LaneM) (s : State) : Out := laneRed l .add s
/-- LANE_RED_AND (R274). -/
def execLaneRedAnd (l : LaneM) (s : State) : Out := laneRed l .and s
/-- LANE_RED_OR (R274). -/
def execLaneRedOr (l : LaneM) (s : State) : Out := laneRed l .or s
/-- LANE_RED_XOR (R274). -/
def execLaneRedXor (l : LaneM) (s : State) : Out := laneRed l .xor s
/-- LANE_RED_MIN (R274). -/
def execLaneRedMin (l : LaneM) (s : State) : Out := laneRed l (minMaxOp l.ty false) s
/-- LANE_RED_MAX (R274). -/
def execLaneRedMax (l : LaneM) (s : State) : Out := laneRed l (minMaxOp l.ty true) s
/-- LANE_RED_FADD (R275). -/
def execLaneRedFadd (l : LaneM) (s : State) : Out := laneRed l .fadd s

/-- A lane atomic with `.acq` whose value has landed, with every read before it, acquires; until then its lane stream is
held (R296). -/
def State.finishLaneAcq (s : State) (n : Nat) (w : Wave) : State :=
  match w.ops.find? fun o => o.blk.isSome && o.acq.isSome && o.need == 0 with
  | none => s
  | some o =>
    if readsLanded (o.acq.getD .wv) (w.beforeLane (o.blk.getD 0)) then
      let os := updOp o.id (fun o => { o with acq := none }) w.ops
      (s.setWave n { w with ops := retire .ld os }).acquire (coreOfWave n) (o.acq.getD .wv)
    else s

/-- The lane stream is held by an atomic with `.acq` (R296). -/
def Wave.laneAcqOpen (w : Wave) : Bool := w.ops.any fun o => o.blk.isSome && o.acq.isSome

end Sys2Proof.Machine
end

