-- ==== Sys2Proof/Machine/Convoy.lean ====
section
/-! DEFINITION. Convoys: publishing, subscribing, leaving, rendezvous, and the events of the channel network
(R91-R105, R117, R346). -/

namespace Sys2Proof.Machine

/-! ## Distances (R96, R346) -/

/-- The skew of a member at physical core `q` behind a lead at `p` (R96). The table names another partition of the lead's core; a member in the
lead's own partition is given the same skew (log 20). -/
def skewOf (p q : Nat) : Nat :=
  if p = q then 2 else if bandOf p = bandOf q then 6 else if dieOf p = dieOf q then 18 else 44

/-- The hops of a skew (R346). -/
def hopsOf (skew : Nat) : Nat :=
  if skew ≤ 2 then 0 else if skew = 6 then 1 else if skew = 18 then 4 else 10

/-- The wave belongs to a width convoy and does not lead it (R105). -/
def Wave.widthMember (w : Wave) : Bool := match w.convoy.width with
  | some (_, i, _) => i != 0
  | none => false

/-- The wave executes a published stream. -/
def Wave.isMember (w : Wave) : Bool := match w.convoy.role with
  | .member _ => true
  | _ => w.widthMember

/-- The wave takes its next word from its receive FIFO: a member outside a handler (R96, R104; log 20). -/
def Wave.followsFifo (w : Wave) : Bool := w.isMember && !w.ctl.hmode

/-- The physical core at which channel `ch` of a consignment lives. -/
def State.chanCore (s : State) (cid ch : Nat) : Option Nat := match s.con cid with
  | some c => c.phys ch
  | none => none

/-- A wave leads a channel or a width convoy. -/
def State.isLead (s : State) (n : Nat) (w : Wave) : Bool :=
  (s.core (coreOfWave n)).chan.lead == some n || w.convoy.width.any fun x => x.1 == n

/-- The number of the publication of wave `n`, where it leads its core's channel. -/
def State.chanGen (s : State) (n : Nat) : Option Nat :=
  let c := (s.core (coreOfWave n)).chan
  if c.lead = some n then some c.gen else none

/-- The wave is there to receive a published instruction: one that is stopped, parked or not yet started receives it too (R97). -/
def Wave.receives (w : Wave) : Bool := match w.life with
  | .exiting _ => false
  | .draining _ => false
  | _ => true

/-- Whether wave `m` executes what wave `n` publishes, in publication `gen` of a channel or in a width convoy. -/
def followsLead (n : Nat) (w : Wave) (m : Nat) (v : Wave) (gen : Option Nat) : Bool :=
  m != n && v.cid == w.cid && v.receives &&
    (match v.convoy.width with
      | some (l, i, _) => l == n && i != 0
      | none => gen == some v.convoy.gen && v.convoy.role == .member w.lcore)

/-- The hold of a full FIFO rises from hop to hop: hop `h`, the last, refuses once it holds 4 instructions that have come to its end, and then
the hop before it does (R97). `qs` are the instructions on their way, oldest first, and `now` the cycle of the member. The manual does not
say how long an instruction stands in each hop; the skew is divided evenly among them (log 20). -/
def holdRises (now skew hops : Nat) : Nat → List Pub → Bool
  | 0, _ => true
  | h + 1, qs =>
    let there := (qs.take 4).filter fun q => decide (q.due - skew + skew * (h + 1) / hops ≤ now)
    there.length == 4 && holdRises now skew hops h (qs.drop 4)

/-- A lead is held by a full channel FIFO: some member's FIFO is full, and its hold has reached the lead's core (R97). -/
def State.fifoFull (s : State) (n : Nat) (w : Wave) : Bool :=
  let gen := s.chanGen n
  s.waves.any fun e => followsLead n w e.1 e.2 gen && decide (64 ≤ e.2.convoy.fifo.length) &&
    holdRises (s.clk (coreOfWave e.1)) e.2.convoy.skew (hopsOf e.2.convoy.skew) (hopsOf e.2.convoy.skew) e.2.convoy.hops

/-! ## Leaving (R98-R100) -/

/-- A member leaves at `addr` with an entry that expects `tag`; its first private instruction issues at least 6 cycles
later (R98, R99). -/
def Wave.depart (w : Wave) (clk ch addr tag : Nat) : Wave :=
  { w with
    spc := addr
    convoy := { w.convoy with
      role := .departed ch, fifo := [], hops := [], leaving := some (addr, tag, clk + w.convoy.skew) }
    sched := { w.sched with readyS := max w.sched.readyS (clk + 6) } }

/-- The split entries of a wave removed, wherever they stand. -/
def State.dropEntry (s : State) (n : Nat) : State :=
  let s := dropSplits s n
  s.onWave n fun w => { w with convoy := { w.convoy with leaving := none, arriving := none } }

/-- CHPUB (R92). The access-violation trap of a channel that has a lead takes the logical core as its `xaddr`: the manual gives that trap
no address (log 61). -/
def execChpub (s : State) : Out :=
  scalarWord s [] [] none fun w _ =>
    let n := s.cur
    let p := coreOfWave n
    let lead := (s.core p).chan.lead
    if lead.isSome ∧ lead ≠ some n then s.trapS n 4 (BitVec.ofNat 64 w.lcore) 0 0
    else if w.convoy.width.isSome then s.trapS n 2 0 0 0
    else match w.convoy.role with
      | .member _ => s.trapS n 2 0 0 0
      | .departed _ => s.trapS n 2 0 0 0
      | _ =>
        if lead = some n then s.step4 n w id
        else (s.onCore p fun c => { c with chan := ⟨some n, [], 0, c.chan.gen + 1, 0⟩ }).step4 n w fun w =>
          { w with convoy := { w.convoy with role := .lead, trapAt := none } }

/-- CHSUB (R93): the scalar PC stays at the word until a lead's `rdv` joins the wave. -/
def execChsub (tag a b : Nat) (s : State) : Out :=
  scalarWord s [a, b] [a, b] none fun w _ =>
    let n := s.cur
    let ch := (s.rS w a).toNat
    if 1535 < ch then s.trapS n 2 (BitVec.ofNat 64 a) 0 0
    else if (s.core (coreOfWave n)).chan.lead = some n ∨ w.isMember ∨ w.convoy.width.isSome then s.trapS n 2 0 0 0
    else if w.lbusy ≠ 0 then s.holdS n w .stall
    else
      (dropSplits s n).issuedS n { w with
        park := .channel
        convoy := { w.convoy with
          role := .pending ch tag (s.rS w b), leaving := none, arriving := none, fifo := [], hops := [] } }

/-- CHLEAVE (R100): a subscribed member leaves; any other wave goes on. -/
def execChleave (tag : Nat) (off : Int) (s : State) : Out :=
  scalarWord s [] [] none fun w _ =>
    let n := s.cur
    if w.convoy.width.isSome then s.trapS n 2 0 0 0
    else match w.convoy.role with
      | .member ch =>
        let t := w.target off
        s.issuedS n ((w.advance s.clkCur t 3).depart s.clkCur ch t tag)
      | _ => s.step4 n w id

/-- RDV (R101): after `lwait #0`, a lead begins its wait, a departed member sends its arrival and parks, a member takes
it as a marker, a wave that left without an entry takes a late-rendezvous trap, and any other goes on. -/
def execRdv (tag a : Nat) (s : State) : Out :=
  scalarWord s [a] [a] none fun w _ =>
    let n := s.cur
    let p := coreOfWave n
    let t := (s.rS w a).toNat
    let dl := if t = 0 then none else some (s.nsc + t)
    if w.convoy.width.isSome then s.trapS n 2 0 0 0
    else if w.lbusy ≠ 0 then s.holdS n w .stall
    else if (s.core p).chan.lead = some n then
      let watch := ((s.core p).chan.splits.filter fun e => e.tag == tag).map Split.wave
      s.issuedS n { w.cover with park := .rdvLead tag dl watch }
    else match w.convoy.role with
      | .departed _ =>
        s.issuedS n { w.cover with
          park := .rdvMember tag dl
          convoy := { w.convoy with arriving := some (w.spc, tag, s.clkCur + w.convoy.skew) } }
      | .lost => s.lateRdv n tag
      | _ => s.step4 n w Wave.cover

/-! ## Publication and what a member does with it (R95, R98, R117) -/

/-- A published instruction on its way to a member, which it reaches its skew in cycles of the member's clock later (R6, R96). -/
def Wave.receive (w : Wave) (clk : Nat) (q : Pub) : Wave :=
  { w with convoy := { w.convoy with hops := w.convoy.hops ++ [{ q with due := clk + w.convoy.skew }] } }

/-- Each member of a list of waves receives a published instruction into its hops; `clk` gives the cycle of a core. -/
def deliver (n : Nat) (w : Wave) (gen : Option Nat) (q : Pub) (clk : Nat → Nat) (ws : Arr Wave) : Arr Wave :=
  ws.map fun e => if followsLead n w e.1 e.2 gen then (e.1, e.2.receive (clk (coreOfWave e.1)) q) else e

/-- The entries of a return stack, spilled ones included. -/
def Wave.depth_ (w : Wave) : Nat := w.stack.length + 4 * w.spilled

/-- The kind of the entry that a `ret` popped, from the stack or from the chunk it refilled (R98); `w0` is the wave before the word. -/
def kindMet (s : State) (n : Nat) (w0 : Wave) (word : Nat) : Option RetKind := match decodeScalar word with
  | some .ret => (popRet s n w0).map fun e => e.1.kind
  | _ => none

/-- The side that a word took, which lead and member may differ in at one next scalar PC: whether a conditional branch was taken, and whether
a `callv` or a round of one had lanes left (R98). -/
def sideMet (clk : Nat) (w0 w1 : Wave) (word : Nat) : Bool := match decodeScalar word with
  | some (.bz _ _) | some (.bnz _ _) | some (.bltz _ _) | some (.bgez _ _) | some (.bgtz _ _) | some (.blez _ _) => w1.sched.readyS != clk + 1
  | some (.callv _) => decide (w0.depth_ < w1.depth_)
  | some .ret => w1.depth_ == w0.depth_
  | _ => false

/-- The block that a word enqueued. -/
def blockMet (w0 w1 : Wave) : Option (Nat × Nat) :=
  match w1.queue.getLast? with
  | some b => if w0.queue.any (fun x => x.id == b.id) then none else some (b.start, b.count)
  | none => none

/-- The word is the re-issue of a lead's trapping word (R95). -/
def Wave.reissue (w : Wave) (lane : Bool) (pc : Nat) : Bool := w.convoy.trapAt == some (lane, pc)

/-- After a word of wave `n` has issued: a lead outside its handler publishes it. `w0` is the wave before the word, and `gen` its publication
of its channel. -/
def State.publish (s : State) (n : Nat) (w0 : Wave) (lead : Bool) (gen : Option Nat) (lane : Bool) (word pc : Nat) : State :=
  match s.wave n with
  | none => s
  | some w1 =>
    if !lead || w0.ctl.hmode then s
    else if w0.reissue lane pc then s.setWave n { w1 with convoy := { w1.convoy with trapAt := none } }
    else
      let p := coreOfWave n
      let q : Pub := if lane then ⟨true, word, pc, w1.spc, none, none, s.clk p, 0, false⟩
        else ⟨false, word, pc, w1.spc, kindMet s n w0 word, blockMet w0 w1, s.clk p, 0, sideMet (s.clk p) w0 w1 word⟩
      let s := { s with waves := deliver n w0 gen q s.clk s.waves }
      s.onCore p fun c => { c with chan := { c.chan with published := c.chan.published + 1 } }

/-- The published instruction that a member may issue next in a stream: the first of that stream, with none before it
but such as the lead issued in the same cycle, and with the lead's spacing kept (R117). -/
def nextPub (lane : Bool) (c0 : Option Nat) : List Pub → Option Pub
  | [] => none
  | q :: qs =>
    if c0.isSome && c0 != some q.cycle then none
    else if q.lane == lane then some q else nextPub lane (some q.cycle) qs

/-- That instruction, if the wave's own spacing allows it now (R117). -/
def Wave.pubReady (w : Wave) (clk : Nat) (lane : Bool) : Option Pub :=
  match nextPub lane none w.convoy.fifo with
  | none => none
  | some q => match w.convoy.lastPub with
    | some (lc, mc) => if q.cycle - lc ≤ clk - mc then some q else none
    | none => some q

/-- After a member has issued published instruction `q`: its FIFO moves on, and it leaves where its outcome differs; in a
width convoy it takes a channel abort instead, which kills it and sets the error flag (R98, R105). -/
def State.followed (s : State) (n : Nat) (w0 : Wave) (q : Pub) : State :=
  match s.wave n with
  | none => s
  | some w =>
    let clk := s.clk (coreOfWave n)
    let w := { w with convoy := { w.convoy with
      fifo := w.convoy.fifo.erase q, issued := w.convoy.issued + 1, lastPub := some (q.cycle, clk), trapAt := none } }
    let s := s.setWave n w
    if q.lane || !w.runs || (w.ctl.hmode && !w0.ctl.hmode) then s
    else if w.spc = q.outcome ∧ kindMet s n w0 q.word = q.kind ∧ blockMet w0 w = q.block ∧ sideMet clk w0 w q.word = q.taken then s
    else if w.widthMember then (s.abortKill n 0).flagError w.cid
    else match w.convoy.role with
      | .member ch => s.setWave n (w.depart clk ch w.spc w.convoy.homeTag)
      | _ => s

/-! ## Joining (R94, R101) -/

/-- A member of a width convoy whose word `x` is a `ret` that trapped takes a channel abort in place of its own trap (R98, R105). -/
def State.abortedRet (s t : State) (n : Nat) (w : Wave) (x : Nat) (pub : Option Pub) : Option State :=
  let stopped := match t.wave n with
    | some v => v.ctl.hmode != w.ctl.hmode || v.life != w.life
    | none => false
  if pub.isSome && w.widthMember && stopped && decodeScalar x == some .ret then some ((s.abortKill n 0).flagError w.cid) else none

/-- A wave joins the channel's stream: `mask` is the mask of a pending wave. -/
def joinOne (s : State) (lead : Nat) (lw : Wave) (tag : Nat) (pub : Nat) (m : Nat) (mask : Option Word) : State :=
  s.onWave m fun v => { v with
    lmask := mask.getD v.lmask
    spc := lw.spc
    lpc := lw.nextLpc lw.queue
    park := .none
    sched := { v.sched with holdS := .none }
    convoy := { v.convoy with
      role := .member lw.lcore
      homeTag := if mask.isSome then tag else v.convoy.homeTag
      fifo := [], hops := [], skew := skewOf (coreOfWave lead) (coreOfWave m)
      issued := pub, reported := pub, leaving := none, arriving := none, lastPub := none
      gen := (s.core (coreOfWave lead)).chan.gen } }

/-- The arrived entries join, or take late-rendezvous traps where their address or parent channel differs (R101). -/
def joinArrived (s : State) (lead : Nat) (lw : Wave) (tag pc pub : Nat) : List Split → State
  | [] => s
  | e :: es =>
    let s := dropSplits s e.wave
    let s := if e.addr = pc ∧ e.chan = lw.lcore then joinOne s lead lw tag pub e.wave none else s.lateRdv e.wave tag
    joinArrived s lead lw tag pc pub es

/-- The pending subscribers join. -/
def joinPending (s : State) (lead : Nat) (lw : Wave) (tag pub : Nat) : List (Nat × Wave) → State
  | [] => s
  | e :: es =>
    let s := match e.2.convoy.role with
      | .pending ch t mask =>
        if ch = lw.lcore ∧ t = tag ∧ e.2.cid = lw.cid then joinOne s lead lw tag pub e.1 (some mask) else s
      | _ => s
    joinPending s lead lw tag pub es

/-- Every member of the channel has reported every published instruction, and no departure from it is still on its way to the split table
(R101). -/
def State.allReported (s : State) (n : Nat) (w : Wave) : Bool :=
  s.waves.all fun e => (!followsLead n w e.1 e.2 (s.chanGen n) ||
    decide ((s.core (coreOfWave n)).chan.published ≤ e.2.convoy.reported))
    && !(e.2.cid == w.cid && e.2.convoy.role == .departed w.lcore && s.chanGen n == some e.2.convoy.gen && e.2.convoy.leaving.isSome)

/-- The split entry of a wave on core `p`. -/
def State.entryOf (s : State) (p m : Nat) : Option Split := (s.core p).chan.splits.find? fun e => e.wave == m

/-- The lead's `rdv` completes: it is published, then the arrived entries of W and the pending subscribers join (R101). -/
def State.rdvComplete (s : State) (n : Nat) (w : Wave) (tag : Nat) (watch : List Nat) : State :=
  let p := coreOfWave n
  let pc := w.spc
  let s := s.issuedS n (({ w with park := .none }).advance (s.clk p) (pc + 4) 1)
  match s.wave n with
  | none => s
  | some lw =>
    let word := match s.con w.cid with
      | some c => ofBytes (codeBytes s c p pc 4)
      | none => 0
    let s := s.publish n w true (s.chanGen n) false word pc
    let pub := (s.core p).chan.published
    let es := (s.core p).chan.splits.filter fun e => e.tag == tag && e.arrived && !e.missed && watch.contains e.wave
    joinPending (joinArrived s n lw tag pc pub es) n lw tag pub s.waves

/-- The wait of a lead's `rdv` looked at again: every member has reported and every entry of W has arrived, the last of them recorded in a
cycle before this one (R101, R102). An entry that an earlier `rdv` marked MISSED goes when its member arrives. -/
def State.pollRdv (s : State) (n : Nat) (w : Wave) (tag : Nat) (watch : List Nat) : State :=
  let p := coreOfWave n
  if decide ((s.core p).chan.recAt ≤ s.clk p) && s.allReported n w && watch.all (fun m => match s.entryOf p m with
      | some e => e.arrived
      | none => true)
  then s.rdvComplete n w tag watch else s

/-- An arrival, a report or an entry has been recorded at a lead's core: its `rdv` completes in the next cycle at the earliest (R102). -/
def State.noteRec (s : State) (p : Nat) : State := s.onCore p fun c => { c with chan := { c.chan with recAt := s.clk p + 1 } }

/-- An entry written or changed while the lead waits in an `rdv` with its tag joins W (R101). -/
def State.watchEntry (s : State) (lead m tag : Nat) : State :=
  s.onWave lead fun w => match w.park with
    | .rdvLead t dl watch => if t = tag ∧ !watch.contains m then { w with park := .rdvLead t dl (watch ++ [m]) } else w
    | _ => w

/-! ## Events -/

/-- PUBLISHED_ARRIVAL (R96, R97): the oldest instruction in the hops enters the FIFO once its skew has passed and there is
room. -/
def execPublishedArrival (n : Nat) (s : State) : Out :=
  match s.wave n with
  | none => .next s
  | some w => match w.convoy.hops with
    | [] => .next s
    | q :: qs =>
      if q.due ≤ s.clk (coreOfWave n) ∧ w.convoy.fifo.length < 64 then
        .next (s.setWave n { w with convoy := { w.convoy with hops := qs, fifo := w.convoy.fifo ++ [q] } })
      else .next s

/-- The report of what a member has issued is due at its lead: its skew has passed since the issue, or the member has been restored since
(R101, R372). -/
def Wave.reportDue (w : Wave) (clk : Nat) : Bool := w.convoy.reported != w.convoy.issued && match w.convoy.lastPub with
  | some (_, mc) => decide (mc + w.convoy.skew ≤ clk)
  | none => true

/-- MEMBER_REPORT (R101): the member's report reaches the lead its skew after the issue. -/
def execMemberReport (n : Nat) (s : State) : Out :=
  match s.wave n with
  | none => .next s
  | some w => match w.convoy.role with
    | .member ch =>
      if w.reportDue (s.clk (coreOfWave n)) then
        let s := s.setWave n { w with convoy := { w.convoy with reported := w.convoy.issued } }
        .next (match s.chanCore w.cid ch with
          | some p => s.noteRec p
          | none => s)
      else .next s
    | _ => .next s

/-- SPLIT_ENTRY_WRITE (R99): the departure is recorded at the lead's core; a full table, or a channel whose lead is no longer the one that
the member followed, leaves the member without an entry (R103). -/
def execSplitEntryWrite (n : Nat) (s : State) : Out :=
  match s.wave n with
  | none => .next s
  | some w => match w.convoy.role, w.convoy.leaving with
    | .departed ch, some (addr, tag, due) =>
      if s.clk (coreOfWave n) < due ∨ w.receives = false then .next s else
      let w := { w with convoy := { w.convoy with leaving := none } }
      let lost := s.setWave n { w with convoy := { w.convoy with role := .lost, arriving := none } }
      let lost := match w.park with
        | .rdvMember t _ => lost.lateRdv n t
        | _ => lost
      match s.chanCore w.cid ch with
      | none => .next lost
      | some p => match (s.core p).chan.lead with
        | none => .next lost
        | some l =>
          if 64 ≤ (s.core p).chan.splits.length ∨ (s.core p).chan.gen ≠ w.convoy.gen then .next lost
          else
            let s := ((s.setWave n w).noteRec p).onCore p fun c =>
              { c with chan := { c.chan with splits := c.chan.splits ++ [⟨n, ch, addr, tag, false, false⟩] } }
            .next (s.watchEntry l n tag)
    | _, _ => .next s

/-- RDV_ARRIVAL (R101, R102): the arrival is recorded in the member's entry; a MISSED entry gives a late-rendezvous
trap. The lead's `rdv` may complete from the next cycle on. -/
def execRdvArrival (n : Nat) (s : State) : Out :=
  match s.wave n with
  | none => .next s
  | some w => match w.convoy.role, w.convoy.leaving, w.convoy.arriving with
    | .departed ch, none, some (addr, tag, due) =>
      if s.clk (coreOfWave n) < due then .next s else
      let s := s.setWave n { w with convoy := { w.convoy with arriving := none } }
      match s.chanCore w.cid ch with
      | none => .next s
      | some p => match s.entryOf p n, (s.core p).chan.lead with
        | some e, some l =>
          if e.missed then .next ((dropSplits s n).lateRdv n tag)
          else
            let s := s.onCore p fun c => { c with chan := { c.chan with splits := c.chan.splits.map fun x =>
              if x.wave = n then { x with addr := addr, tag := tag, arrived := true } else x } }
            .next ((s.noteRec p).watchEntry l n tag)
        | _, _ => .next s
    | _, _, _ => .next s

/-- RDV_TIMEOUT (R101, R102): a lead marks what has not arrived as MISSED and completes; a member takes a late-rendezvous
trap. A halted wave sees the timeout when it issues again (R393). -/
def execRdvTimeout (n : Nat) (s : State) : Out :=
  match s.wave n with
  | none => .next s
  | some w => if w.life ≠ .running then .next s else match w.park with
    | .rdvLead tag (some d) watch =>
      if s.nsc < d then .next s else
      let miss : Split → Split := fun e => if watch.contains e.wave && !e.arrived then { e with missed := true } else e
      let s := s.onCore (coreOfWave n) fun c => { c with chan := { c.chan with splits := c.chan.splits.map miss } }
      .next (s.rdvComplete n w tag watch)
    | .rdvMember tag (some d) => if s.nsc < d then .next s else .next ((dropSplits s n).lateRdv n tag)
    | _ => .next s

end Sys2Proof.Machine
end

