-- ==== Sys2Proof/Machine/Home.lean ====
section
/-! DEFINITION. What happens to requests at their homes and to the answers that come back: write queues, refusals and tickets,
remote scratchpads, tags, hotness, page faults, the operand log and shootdown (R239-R248, R249-R259, R269-R271, R285-R288). -/

namespace Sys2Proof.Machine

/-! ## Arrival at a home (R268-R270) -/

/-- The physical core whose clock a home follows. -/
def homeCore (h : Nat) : Nat := if h < 384 then 4 * h else if 1000 ≤ h ∧ h < 2536 then h - 1000 else 0

/-- The home is a scratchpad. -/
def homeIsSpad (h : Nat) : Bool := decide (1000 ≤ h) && decide (h < 2536)

/-- The home has a write queue (R269). -/
def homeQueued (h : Nat) : Bool := decide (h < 384) || homeIsSpad h

/-- The cycle of a home's own clock (R6). -/
def State.homeClk (s : State) (h : Nat) : Nat := s.clk (homeCore h)

/-- An entry of the scoreboard that was in force when a request was sent holds it back at its scratchpad (R268). -/
def State.spadStall (s : State) (r : Req) : Bool :=
  homeIsSpad r.home && (s.core (homeCore r.home)).spans.any fun x =>
    r.accs.any fun a => x.stalls r.born (r.kind.asMem == .load) (keyOff a.key) r.size

/-- Two requests touch a common byte. -/
def Req.meets (q r : Req) : Bool :=
  q.accs.any fun a => r.accs.any fun b => decide (a.key < b.key + r.size) && decide (b.key < a.key + q.size)

/-- A request made for operation `op` comes before request `r` of the same wave under R85: one made by a lane word follows what was issued
before its block, and else the order is that of issue. -/
def State.reqAfter (s : State) (op : Nat) (r : Req) : Bool :=
  match ((s.anyWave r.wave).bind fun w => w.opOf r.op).bind OutOp.blk with
  | some b => decide (op < b)
  | none => decide (op < r.op)

/-- Numbers from here on name peer modules in place of waves: requests that peers make of this module (R356). -/
def peerBase : Nat := 170000

/-- A peer module made the request. -/
def Req.fromPeer (r : Req) : Bool := decide (peerBase ≤ r.wave) && decide (r.wave < ctxBase)

/-- The request is a tag operation (R285). -/
def Req.isTag (r : Req) : Bool := match r.kind with
  | .mem .ldfe | .mem .ldf | .mem .stfe | .mem (.tagset _) => true
  | _ => false

/-- The operation writes bytes of storage; `tagset` writes a tag alone (R259, R286). -/
def ReqKind.stores : ReqKind → Bool
  | .mem .load | .mem .ldfe | .mem .ldf | .mem (.tagset _) => false
  | _ => true

/-- The operation touches bytes of storage. -/
def ReqKind.touches : ReqKind → Bool
  | .mem (.tagset _) => false
  | _ => true

/-- A tag request of the same wave, ordered before this request, waits in a park slot for one of its bytes, and one of the two writes it
(R259, R305, R308; log 68). A peer module's requests are those of many waves, which the source module keeps in order. -/
def State.behindParked (s : State) (r : Req) : Bool :=
  !r.fromPeer && r.kind.touches && s.parked.any fun q => q.req.wave == r.wave && (q.req.kind.stores || r.kind.stores) && q.req.meets r
    && s.reqAfter q.req.op r

/-- A result of the wave for a slot of a scratchpad ring of its own core is still on its way to bytes of this request (R308; log 55). -/
def State.behindSlot (s : State) (r : Req) : Bool :=
  let meet := fun (key : Nat) (lanes : List Nat) => lanes.any fun l => r.accs.any fun a =>
    decide (a.key < key + 4 * l + 4) && decide (key + 4 * l < a.key + r.size)
  homeIsSpad r.home && (s.wave r.wave).any fun w =>
    w.pend.any (fun l => decide (l.seq < r.op) && match l.dest with
      | .spad key _ vals => meet key (vals.map Prod.fst)
      | _ => false)
    || w.ops.any fun o => o.need != 0 && s.reqAfter o.id r && match o.dest with
      | .slot key => meet key lanes64
      | .vals (.spad key _ vals) => meet key (vals.map Prod.fst)
      | _ => false

/-- A request's place in the order of R270 among those that arrive at a home in one cycle: by logical core, then by wave slot, an engine's
reply after every wave of its core, the completion arrive of R76 last. A peer module's requests, of which the manual says nothing,
come before that one (log 59). -/
def State.rank (s : State) (r : Req) : Nat :=
  let l := match s.wave r.wave with
    | some w => w.lcore
    | none => ((s.con r.cid).bind fun c => c.logical r.pcore).getD r.pcore
  match r.kind with
  | .completion _ => 2 ^ 30
  | _ => if r.wave < 147456 then 256 * l + r.wave % 96 else if r.wave < 170000 then 256 * l + 128 else 2 ^ 29 + r.wave

/-- No request that comes after this one in the order of R270 has been applied at its home in this cycle. -/
def State.inOrder (s : State) (r : Req) : Bool := match look s.homeLast r.home with
  | some (c, k) => c != s.homeClk r.home || decide (k ≤ s.rank r)
  | none => true

/-- The consignment whose scratchpad a request addresses: for a slot of a pipe of which its wave is the producer the consumer's, and else
its own (R63, R129). The core is the consumer's, or one that the consumer has left and whose stub forwards to it (R378). -/
def State.ownerOf (s : State) (r : Req) (key : Nat) : Nat :=
  (((s.anyWave r.wave).filter fun w => w.cid == r.cid).bind fun w => w.rings.findSome? fun e => match e.2.pipe with
    | .producer m _ => (s.wave m).bind fun v =>
      let here := keyCore key == coreOfWave m
        || (s.core (keyCore key)).stubs.any fun x => x.cid == v.cid && x.target == coreOfWave m
      if here ∧ e.2.base ≤ keyOff key ∧ keyOff key < e.2.base + 256 * e.2.slots then some v.cid else none
    | _ => none).getD r.cid

/-- A request concerns what a stub stands for: the scratchpad of its consignment's logical core (R378). -/
def State.ofStub (s : State) (x : Stub) (r : Req) : Bool :=
  let key := (r.accs.head?.map Acc.key).getD 0
  x.cid == s.ownerOf r key && x.granules.contains (keyOff key / 4096)

/-- A request has been resolved to a core that its consignment's unit has left, so that a stub forwards it; or it was resolved under the
new table while the stub has still to forward one that was not (R378). -/
def State.stubbed (s : State) (r : Req) : Bool :=
  homeIsSpad r.home && ((s.core (homeCore r.home)).stubs.any (fun x => s.ofStub x r && decide (r.id < x.since))
    || s.cores.any fun e => e.2.stubs.any fun x => s.ofStub x r && x.target == homeCore r.home && decide (x.since ≤ r.id)
      && s.reqs.any fun q => s.ofStub x q && q.home == 1000 + e.1 && decide (q.id < x.since))

/-- An earlier request of the list comes before request `r` at its home: one of the same wave to the same home, unless it has arrived and waits
for bytes that `r` does not touch (R259, R270); any of the same peer module (R357); and for a plain store one of the same core to the same
sector, so that the order at the home is that in which the stores have updated the core's snapshot (R256, R305; log 14). -/
def State.ahead (s : State) (r x : Req) : Bool :=
  x.wave == r.wave && (r.fromPeer || x.home == r.home && (x.meets r || !s.behindParked x))
    || r.kind == .mem .store && x.kind == .mem .store && x.pcore == r.pcore && !homeIsSpad r.home && !r.fromPeer
      && r.accs.any fun a => x.inSector a.key

/-- An earlier request from the operand log of the wave to a page that request `r` touches has not been performed (R244). -/
def State.behindReplay (s : State) (r : Req) : Bool :=
  s.openReqs.any fun q => q.wave == r.wave && q.replay && decide (q.id < r.id)
    && q.accs.any fun a => r.accs.any fun b => a.va / 4096 == b.va / 4096

/-- Request `k` if it may be applied now: what comes before it has been (R244, R259, R270, R308), those of one cycle are applied in the order
of R270, and a refused one only when it is retried (R288). -/
def State.front (s : State) (k : Nat) : Option Req :=
  match s.reqs[k]? with
  | none => none
  | some r =>
    if r.retryAt = 0 ∧ !((s.reqs.take k).any (s.ahead r)) ∧ !s.spadStall r ∧ !s.stubbed r
        ∧ s.inOrder r ∧ !s.behindParked r ∧ !s.behindSlot r ∧ !s.behindReplay r
    then some r else none

/-- Request `k` gone: its home has dealt with it in this cycle (R270). -/
def State.dropReq (s : State) (k : Nat) : State := match s.reqs[k]? with
  | some r => { s with reqs := s.reqs.eraseIdx k, homeLast := put s.homeLast r.home (s.homeClk r.home, s.rank r) }
  | none => s

/-- Request `k` replaced. -/
def State.setReq (s : State) (k : Nat) (r : Req) : State := { s with reqs := s.reqs.set k r }

/-! ## Refusal and tickets (R287, R288) -/

/-- The write queue of a home as a resource. -/
def resQueue (h : Nat) : Nat := 4 * h

/-- The park slots of a home. -/
def resPark (h : Nat) : Nat := 4 * h + 1

/-- The wait nodes of a core. -/
def resNodes (p : Nat) : Nat := 20000 + p

/-- The pairing slots of a band. -/
def resPairs (b : Nat) : Nat := 30000 + b

/-- The inbox slots of a channel (R287). -/
def resInbox (p ch : Nat) : Nat := 40000 + 256 * p + ch

/-- The band at which two exchange offers meet: that of the lower logical core (R350). -/
def Offer.band (o : Offer) : Nat := min o.core o.partner / 4

/-- The physical core at which a routed row is to be written. -/
def State.msgCore (s : State) (m : RouteMsg) : Nat := ((s.con m.cid).bind fun c => c.phys m.target).getD m.target

/-- The physical core whose clock counts a resource's cycles, where the manual names none: that of the home, the waiter's core, the band or
the target core (R6, R288; log 54). -/
def resCore (res : Nat) : Nat :=
  if res < 20000 then homeCore (res / 4) else if res < 30000 then res - 20000 else if res < 40000 then 4 * (res - 30000)
  else (res - 40000) / 256

/-- The cycle of a resource's own clock. -/
def State.resClk (s : State) (res : Nat) : Nat := s.clk (resCore res)

/-- The ticket that a request holds for a resource (R288). -/
def Req.ticket (r : Req) (res : Nat) : Option Nat := look r.tickets res

/-- The request without its ticket and its refusals of a resource. -/
def Req.served (r : Req) (res : Nat) : Req := { r with tickets := del r.tickets res, refusals := del r.refusals res }

/-- The tickets of a resource. -/
def State.ticketsOf (s : State) (res : Nat) : Tickets := lookD s.tickets res ⟨0, [], 0⟩

/-- The tickets of a resource written. -/
def State.setTickets (s : State) (res : Nat) (x : Tickets) : State := { s with tickets := put s.tickets res x }

/-- `n` slots are granted: general ones, or reserved ones to the lowest ticket (R287, R288). -/
def State.grantsN (s : State) (res used n cap : Nat) (t : Option Nat) : Bool :=
  n == 0 || decide (used + n + 2 ≤ cap) || decide (used + n ≤ cap) && t.isSome && (s.ticketsOf res).out.head? == t

/-- A slot is granted. -/
def State.grants (s : State) (res used cap : Nat) (t : Option Nat) : Bool := s.grantsN res used 1 cap t

/-- A ticket served or dropped. -/
def State.endTicket (s : State) (res : Nat) (t : Option Nat) : State :=
  match t with
  | none => s
  | some t =>
    let x := s.ticketsOf res
    s.setTickets res { x with out := x.out.erase t, since := if x.out.head? = some t then s.resClk res else x.since }

/-- A ticket drawn from the resource's 16-bit counter. -/
def State.drawTicket (s : State) (res : Nat) : State × Nat :=
  let x := s.ticketsOf res
  (s.setTickets res ⟨(x.next + 1) % 65536, x.out ++ [x.next], if x.out.isEmpty then s.resClk res else x.since⟩, x.next)

/-- A ticket presented: it is not dropped for another 256 cycles. -/
def State.present (s : State) (res : Nat) (t : Option Nat) : State :=
  let x := s.ticketsOf res
  if t.isSome ∧ x.out.head? = t then s.setTickets res { x with since := s.resClk res } else s

/-- Request `k` refused by a resource: it is retried 32 cycles of its issuer later, and its third refusal there draws a ticket. -/
def State.refuse (s : State) (k : Nat) (r : Req) (res : Nat) : State :=
  let n := lookD r.refusals res 0 + 1
  let r := { r with refusals := put r.refusals res n, retryAt := s.clk r.pcore + 32 }
  if n = 3 ∧ r.ticket res = none then
    let d := s.drawTicket res
    d.1.setReq k { r with tickets := put r.tickets res d.2 }
  else (s.present res (r.ticket res)).setReq k r

/-! ## The write queue (R271) -/

/-- Entries of a home's write queue (R287). -/
def queueCap (h : Nat) : Nat := if h < 384 then 64 else 32

/-- The lines of a list of accesses of `size` bytes. -/
def linesOf (size : Nat) (as : List Acc) : List Nat := (as.flatMap fun a => [lineOf a.key, lineOf (a.key + size - 1)]).eraseDups

/-- A request joins the entries of its lines and allocates those that are not there; without free slots it is refused, and nothing else
happens (R271, R287). -/
def State.letIn (s : State) (k : Nat) (r : Req) (f : Req → State → State) : State :=
  let res := resQueue r.home
  let lines := linesOf r.size r.accs
  let fresh := lines.filter fun l => !s.hasEntry r.home l
  if !homeQueued r.home then f r s
  else if s.grantsN res (s.wqs.filter fun e => e.1 == r.home).length fresh.length (queueCap r.home) (r.ticket res) then
    let touched := s.wqs.map fun e => if e.1 = r.home ∧ lines.contains e.2.1 then (e.1, e.2.1, s.homeClk r.home) else e
    let s := { s with wqs := touched ++ fresh.map fun l => (r.home, l, s.homeClk r.home) }
    f (r.served res) (s.endTicket res (r.ticket res))
  else s.refuse k r res

/-- WRITE_QUEUE_DRAIN (R271): an entry drains after 64 cycles of its home without a request, or while its queue has no general slot
left for another line. -/
def execWriteQueueDrain (home line : Nat) (s : State) : Out :=
  match s.wqs.find? fun e => e.1 == home && e.2.1 == line with
  | none => .next s
  | some e =>
    if e.2.2 + 64 ≤ s.homeClk home
        ∨ queueCap home ≤ (s.wqs.filter fun e => e.1 == home).length + 2
    then .next { s with wqs := s.wqs.erase e } else .next s

/-- REFUSED_RETRY (R288): a refused request may be applied again once its 32 cycles have passed. -/
def execRefusedRetry (k : Nat) (s : State) : Out :=
  match s.reqs[k]? with
  | some r => if r.retryAt ≠ 0 ∧ r.retryAt ≤ s.clk r.pcore then .next (s.setReq k { r with retryAt := 0 }) else .next s
  | none => .next s

/-- TICKET_DROP (R288): a ticket not presented within 256 cycles of becoming the lowest is dropped; its holder starts again
as a new request. The cycles are those of the resource's own clock, which the manual does not name (log 54). -/
def execTicketDrop (res : Nat) (s : State) : Out :=
  let x := s.ticketsOf res
  match x.out with
  | [] => .next s
  | t :: _ =>
    if s.resClk res < x.since + 256 then .next s
    else
      let s := s.endTicket res (some t)
      let reqs := s.reqs.map fun r =>
        if r.ticket res = some t then r.served res else r
      let offers := s.offers.map fun o =>
        if o.ticket = some t ∧ resPairs o.band = res then { o with ticket := none, refusals := 0 } else o
      let rows := s.routeMsgs.map fun m =>
        if m.ticket = some t ∧ resInbox (s.msgCore m) m.ch = res then { m with ticket := none, refusals := 0 } else m
      .next { s with reqs := reqs, offers := offers, routeMsgs := rows }

/-! ## Hotness (R247, R248) -/

/-- The core from which a request comes: none, in X0, for the completion arrive of R76 and for a peer module's request. -/
def Req.source (r : Req) : Nat := match r.kind with
  | .completion _ => 1536
  | _ => if r.fromPeer then 1536 else r.pcore

/-- A request to HBM without a write-queue entry misses its slice or not. -/
def State.missed (s : State) (r : Req) : State := s.missedKeys r.source (r.accs.map Acc.key)

/-- A hotness entry cleared: it keeps the misses of this cycle (R248). -/
def State.clearHot (s : State) (i : Nat) : State :=
  let e := s.hotness i
  if e.at_ = s.hotClk i ∧ e.new ≠ [0, 0, 0, 0, 0] then { s with hot := put s.hot i ⟨e.new, [0, 0, 0, 0, 0], [0, 0, 0, 0, 0], e.at_⟩ }
  else { s with hot := del s.hot i }

/-- HOTNESS_CLEAR (R247, R248): a write of 1 to an entry's CLR. -/
def execHotnessClear (stack r : Nat) (s : State) : Out :=
  .next (if stack < 16 ∧ r < 32768 then s.clearHot (stack * 32768 + r) else s)

/-! ## Applying memory requests (R252, R273-R275, R286) -/

/-- One lane's access applied: memory afterwards and the value returned. -/
def applyAcc (m : Memory) (size : Nat) (k : MemKind) (a : Acc) : Memory × Word :=
  let old := Memory.num m size a.key
  match k with
  | .load => (m, BitVec.ofNat 64 old)
  | .ldfe => (m, BitVec.ofNat 64 old)
  | .ldf => (m, BitVec.ofNat 64 old)
  | .store => (Memory.setNum m size a.key ((BitVec.ofNat 64 old &&& a.data2) ||| (a.data &&& ~~~a.data2)).toNat, 0)
  | .stfe => (Memory.setNum m size a.key a.data.toNat, 0)
  | .amo op => (Memory.setNum m size a.key (applyAmo op (8 * size) old a.data.toNat a.data2.toNat), BitVec.ofNat 64 old)
  | .red op => (Memory.setNum m size a.key (applyAmo op (8 * size) old a.data.toNat a.data2.toNat), 0)
  | .tagset _ => (m, 0)

/-- The lanes of a request applied in ascending order (R252, R274). -/
def applyAccs (size : Nat) (k : MemKind) : Memory → List Acc → Memory × List (Nat × Word)
  | m, [] => (m, [])
  | m, a :: as =>
    let x := applyAcc m size k a
    let y := applyAccs size k x.1 as
    (y.1, (a.lane, x.2) :: y.2)

/-- A link flit towards module `m`, on the port of R353: none while no port is ready, or while the port retrains or has 256 flits not
acknowledged (R354). -/
def State.sendFlit (s : State) (m : Nat) : Option State :=
  let ready := s.readyNow.ports
  match ready[m % ready.length]? with
  | none => none
  | some n =>
    let p := lookD s.ports n Port.reset
    if p.retrain || decide (256 ≤ p.unacked.length) then none
    else some { s with ports := put s.ports n { p with unacked := p.unacked ++ [(p.nextSeq, m)], nextSeq := (p.nextSeq + 1) % 1024 } }

/-- A peer changed. -/
def State.onPeer (s : State) (m : Nat) (f : Peer → Peer) : State := { s with peers := put s.peers m (f (lookD s.peers m Peer.reset)) }

/-- What is owed to peer `m` leaves in order, as far as its port takes flits (R354). -/
def State.sendOwed (s : State) (m : Nat) : Nat → State
  | 0 => s
  | f + 1 => match (lookD s.peers m Peer.reset).owed with
    | [] => s
    | x :: xs => match s.sendFlit m with
      | none => s
      | some s => (s.onPeer m fun y => { y with owed := xs, replies := y.replies ++ x.toList }).sendOwed m f

/-- Responses to peer `m`: each leaves in a flit when its port can take it (R354, R356). -/
def State.owe (s : State) (m : Nat) (rs : List (Nat × List Nat)) : State :=
  let s := s.onPeer m fun x => { x with owed := x.owed ++ rs.map some }
  s.sendOwed m (lookD s.peers m Peer.reset).owed.length

/-- The response to request `q` of peer `m` is sent, to the first copy and to every copy held, and stored for one that has a record (R356). -/
def State.peerReply (s : State) (m q : Nat) (vals : List Nat) : State :=
  let x := lookD s.peers m Peer.reset
  let copies := (x.waiting.filter fun e => e.1 == q).length
  let recs := if (look x.records q).isSome then put x.records q (some vals) else x.records
  (s.onPeer m fun x => { x with records := recs, waiting := x.waiting.filter fun e => e.1 != q }).owe m
    (List.replicate (1 + copies) (q, vals))

/-- What stands for an error in a response to a peer: no value of 64 bits does (R356). -/
def peerError : List Nat := [2 ^ 64]

/-- A request to the host window or to a peer window (R230). -/
def Req.isFar (r : Req) : Bool := decide (4000 ≤ r.home)

/-- A request done: a load-class one is answered with its values, a store-class one is performed (R119, R256). -/
def State.finishReq (s : State) (r : Req) (k : MemKind) (vals : List (Nat × Word)) : State :=
  if r.fromPeer then s.peerReply (r.wave - peerBase) r.op (vals.map fun v => v.2.toNat)
  else match k.ctr with
  | .ld => { s with resps := s.resps ++ [Resp.make r.wave r.cid r.pcore r.op vals [] false false r.isFar] }
  | _ => s.storeDone r.wave r.pcore r.cid r.op r.isFar

/-- The request belongs to a store-class operation. -/
def Req.stores (r : Req) : Bool := match r.kind with
  | .mem k => k.ctr == .st
  | _ => false

/-- A failing request of a peer module, which has no issuing core here, is logged on the home die (R407; log 59). -/
def State.logPeer (s : State) (r : Req) (addr cause : Nat) : State :=
  s.logUnit (homeDie r.home) addr 0 0xFFFF 0xFFFF 5 cause 0 false

/-- A request of which some lanes failed: an error response, which carries what the others read (R246, R249). -/
def State.failReq (s : State) (r : Req) (vals : List (Nat × Word)) (failed : List (Nat × Nat)) (ue : Bool) : State :=
  if r.fromPeer then
    (s.logPeer r ((failed.map Prod.snd).min?.getD 0) (if ue then 5 else 4)).peerReply (r.wave - peerBase) r.op peerError
  else { s with resps := s.resps ++ [Resp.make r.wave r.cid r.pcore r.op vals failed ue r.stores r.isFar] }

/-- A store's bytes in a sector. -/
def patchAccs (size : Nat) : List Byte → List Acc → List Byte
  | sec, [] => sec
  | sec, a :: as => patchAccs size (patch sec (a.key % 32) (toBytes size a.data.toNat)) as

/-- The request is a scalar load's, whose operation is still there. -/
def State.fromScalar (s : State) (r : Req) : Bool :=
  ((s.anyWave r.wave).bind fun w => w.opOf r.op).any fun o => o.blk.isNone

/-- The sectors of the scalar data cache after one has entered: of its 32 KiB the sector that entered first leaves (R258; log 14). -/
def Core.enterScal (c : Core) (x : Nat) : Core := { c with scal := (eraseNat c.scal x ++ [x]).drop ((eraseNat c.scal x).length + 1 - 1024) }

/-- A load that its home has served fills the core's snapshot where there is room, and for a scalar load the scalar data cache: with the sector
as it stands at the home and, over it, the core's own plain stores that have still to reach it. While a synchronising request of the core to
the sector is under way it leaves the snapshot instead (R256, R258, R269, R305; log 14). -/
def State.fillSnap (s : State) (r : Req) : State :=
  let key := (r.accs.head?.map Acc.key).getD 0
  let c := s.core r.pcore
  if keyIsSpad key then s
  else if s.syncsTo r.pcore key then s.onCore r.pcore fun c => c.dropSnap key
  else if (c.held key).isNone && decide (4096 ≤ c.snap.length) then s
  else
    let mine := fun (q : Req) => q.accs.filter fun a => a.key / 32 == key / 32
    let sec := (s.storesTo r.pcore key).foldl (fun b q => patchAccs q.size b (mine q)) (s.bytes 32 (key / 32 * 32))
    let scalar := s.fromScalar r
    s.onCore r.pcore fun c =>
      let c := { c with snap := put c.snap (key / 32) sec }
      if scalar then c.enterScal (key / 32) else c

/-- A plain memory request applied at its home, which has admitted it. -/
def State.applyMem (s : State) (r : Req) (k : MemKind) : State :=
  let x := applyAccs r.size k s.mem r.accs
  let s := { s with mem := x.1 }
  let s := if k = .load ∧ !r.fromPeer then s.fillSnap r else s
  s.finishReq r k x.2

/-- The stack of an HBM request is ready, and none of its bytes meets an uncorrectable error (R253, R410; log 57). -/
def State.homeUp (s : State) (r : Req) : Bool :=
  (match r.accs.head? with
    | some a => !s.stackDown a.key
    | none => true) && !r.accs.any fun a => s.memBad a.key r.size

/-- The failing lanes of a request that fails as a whole. -/
def Req.lanes (r : Req) : List (Nat × Nat) := r.accs.map fun a => (a.lane, a.va)

/-- A request that leaves for a peer module takes the next sequence number; the 513th non-idempotent one waits, and so does one
for which no flit can leave (R354, R355). -/
def State.toPeer (s : State) (k : Nat) (r : Req) : State :=
  let m := r.home - 5000
  let x := lookD s.peers m Peer.reset
  let idem := r.kind == .mem .load
  if !idem ∧ 512 ≤ (x.out.filter fun o => !o.idem).length then s
  else match s.sendFlit m with
    | none => s
    | some s =>
      let x := { x with nextOut := (x.nextOut + 1) % 2 ^ 32, out := x.out ++ [⟨x.nextOut, idem, r, 0, s.now⟩] }
      { s.dropReq k with peers := put s.peers m x }

/-- HOME_REQUEST_APPLY (R269-R271): a load, store, atomic or reduction is applied at a home slice or in the host window; one
to a peer leaves the module. -/
def execHomeRequestApply (k : Nat) (s : State) : Out :=
  match s.front k with
  | none => .next s
  | some r =>
    if homeIsSpad r.home then .next s
    else if 5000 ≤ r.home then .next (s.toPeer k r)
    else match r.kind with
      | .mem .load =>
        let s := s.dropReq k
        if s.homeUp r then .next ((s.missed r).applyMem r .load) else .next (s.failReq r [] r.lanes true)
      | .mem m =>
        if r.isTag then .next s
        else if !s.homeUp r then .next ((s.dropReq k).failReq r [] r.lanes true)
        else .next ((s.missed r).letIn k r fun r s => (s.dropReq k).applyMem r m)
      | _ => .next s

/-! ## Scratchpad requests (R249, R257) -/

/-- A request that is answered in two parts: its operation, and for a store its consignment's slot, counts one more. -/
def State.addPart (s : State) (r : Req) : State :=
  let s := s.onAny r.wave fun w => { w with ops := updOp r.op (fun o => { o with need := o.need + 1 }) w.ops }
  if r.stores then s.slotCount r.pcore r.cid .stores true else s

/-- An access passes the lease check of R249; a write of a pipe's slot goes to granules of the consumer (R63). -/
def leaseOk (s : State) (r : Req) (a : Acc) : Bool := spadLeased s (keyCore a.key) (keyOff a.key) r.size (s.ownerOf r a.key)

/-- The access comes from a wave that has ended, to a granule that is being cleared for another: it is performed before that clearing, so that
nothing of it stays (R70, R74; log 22). -/
def State.stale (s : State) (r : Req) (a : Acc) : Bool :=
  decide (r.wave < 147456) && !(s.wave r.wave).any (fun w => w.cid == r.cid && w.life != .clearing)
    && (s.core (keyCore a.key)).leases.any fun l => l.kind == 4 && l.row == keyOff a.key / 4096
      && (s.wave l.wave).any fun v => v.life == .clearing

/-- SCRATCHPAD_REQUEST_ARRIVAL (R249, R250, R257): the lanes that pass the lease check are performed at the banks, the others
answered with an error, as are lanes that meet an uncorrectable one (R253). -/
def execScratchpadRequestArrival (k : Nat) (s : State) : Out :=
  match s.front k with
  | none => .next s
  | some r =>
    if !homeIsSpad r.home then .next s
    else match r.kind with
      | .mem m =>
        if r.isTag then .next s
        else
          let bad := r.accs.filter fun a => !leaseOk s r a
          let ue := r.accs.filter fun a => leaseOk s r a && s.memBad a.key r.size
          let ok := r.accs.filter fun a => leaseOk s r a && !s.memBad a.key r.size
          let go := fun (r : Req) (s : State) =>
            let x := applyAccs r.size m s.mem (ok.filter fun a => !s.stale r a)
            let s := { s.dropReq k with mem := x.1 }
            let vals := if m.ctr = .ld then x.2 else []
            let at_ := fun (as : List Acc) => as.map fun a => (a.lane, a.va)
            match bad, ue with
            | [], [] => s.finishReq r m x.2
            | _, [] => s.failReq r vals (at_ bad) false
            | [], _ => s.failReq r vals (at_ ue) true
            | _, _ => ((s.addPart r).failReq r vals (at_ bad) false).failReq r [] (at_ ue) true
          if m = .load then .next (go r s) else .next (s.letIn k r go)
      | _ => .next s

/-! ## Tags (R285, R286) -/

/-- A tag operation can proceed. -/
def tagReady (s : State) (r : Req) : Bool :=
  let full := s.isFull ((r.accs.head?.map Acc.key).getD 0)
  match r.kind with
  | .mem .ldfe => full
  | .mem .ldf => full
  | .mem .stfe => !full
  | _ => true

/-- A tag operation performed. -/
def State.doTag (s : State) (r : Req) : State :=
  let key := (r.accs.head?.map Acc.key).getD 0
  match r.kind with
  | .mem m =>
    let x := applyAccs 8 m s.mem r.accs
    let s := { s with mem := x.1 }
    let s := match m with
      | .ldfe => s.setTag key false
      | .stfe => s.setTag key true
      | .tagset t => s.setTag key t
      | _ => s
    s.finishReq r m x.2
  | _ => s

/-- The waiting requests of a word served in arrival order until one cannot proceed (R286). -/
def State.serveTags (s : State) (key : Nat) : Nat → State
  | 0 => s
  | f + 1 =>
    match s.parked.find? fun q => (match q.req.kind with
        | .mem _ => true
        | _ => false) && (q.req.accs.head?.map Acc.key) == some key with
    | none => s
    | some q =>
      if tagReady s q.req then (({ s with parked := s.parked.erase q }).doTag q.req).serveTags key f else s

/-- Park slots of a home in use. -/
def State.parkUsed (s : State) (h : Nat) : Nat := (s.parked.filter fun q => q.req.home == h).length

/-- A request takes a park slot, or is refused. -/
def State.parkReq (s : State) (k : Nat) (r : Req) (phase : Bool) : State :=
  let res := resPark r.home
  if s.grants res (s.parkUsed r.home) 128 (r.ticket res) then
    let s := (s.dropReq k).endTicket res (r.ticket res)
    { s with parked := s.parked ++ [⟨r.served res, phase⟩] }
  else s.refuse k r res

/-- A part of an operation ends without an answer. -/
def State.endPart (s : State) (n cid op : Nat) (k : MemKind) : State :=
  if k.ctr = .st then s.storeDone n (coreOfWave n) cid op false else s.opPart n op false

/-- The wave was killed. -/
def Wave.wasKilled (w : Wave) : Bool := w.life == .draining true || w.life == .exiting true

/-- The wave of a request was killed, so that it waits for nothing (R368). -/
def State.fromKilled (s : State) (r : Req) : Bool := match s.wave r.wave with
  | some w => w.cid == r.cid && w.wasKilled
  | none => false

/-- TAG_REQUEST_APPLY (R285, R286): a tag operation is performed, with those that waited for its tag, or waits in a park
slot; one that would wait for a killed wave is withdrawn (R368). -/
def execTagRequestApply (k : Nat) (s : State) : Out :=
  match s.front k with
  | none => .next s
  | some r =>
    let key := (r.accs.head?.map Acc.key).getD 0
    if !r.isTag ∨ 2536 ≤ r.home then .next s
    else if homeIsSpad r.home && !r.accs.all (leaseOk s r) then .next ((s.dropReq k).failReq r [] r.lanes false)
    else if !s.homeUp r then .next ((s.dropReq k).failReq r [] r.lanes true)
    else .next ((s.missed r).letIn k r fun r s =>
      if tagReady s r then
        let s := (s.dropReq k).doTag r
        s.serveTags key (s.parked.length + 1)
      else if s.fromKilled r then
        ((s.dropReq k).endTicket (resPark r.home) (r.ticket (resPark r.home))).endPart r.wave r.cid r.op (match r.kind with
          | .mem m => m
          | _ => .store)
      else s.parkReq k r false)

/-! ## Answers (R115, R119, R246, R256) -/

/-- An answer from the snapshot waits for its cycle, and for the stores of other waves whose bytes it holds (R256, R258; log 14). -/
def State.respWaits (s : State) (r : Resp) : Bool :=
  decide (s.now < r.notBefore) || s.openReqs.any fun q => r.behind.contains q.id

/-- LOAD_RESPONSE (R115, R256, R273): the values of an answer land, and a part of the operation is done; a killed wave's loads are
discarded (R74). -/
def execLoadResponse (k : Nat) (s : State) : Out :=
  match s.resps[k]? with
  | none => .next s
  | some r =>
    if !r.failed.isEmpty || r.ack.isSome || decide (ctxBase ≤ r.wave) || s.respWaits r then .next s
    else
      let s := { s with resps := s.resps.eraseIdx k }
      match s.wave r.wave with
      | none => .next s
      | some w =>
        if w.cid ≠ r.cid then .next s
        else match w.opOf r.op with
          | none => .next s
          | some o => .next ((if w.wasKilled then s else s.landVals r.wave o r.vals).opPart r.wave r.op r.far)

/-- ACCESS_ERROR_RESPONSE (R246, R253): what was read lands, zero lands in the failing lanes, and the part of the operation is done; with
the last part the address is logged and the wave's trap held for its next boundary. -/
def execAccessErrorResponse (k : Nat) (s : State) : Out :=
  match s.resps[k]? with
  | none => .next s
  | some r =>
    if r.failed.isEmpty || decide (ctxBase ≤ r.wave) then .next s
    else
      let s := { s with resps := s.resps.eraseIdx k }
      let o := match s.wave r.wave with
        | some w => if w.cid = r.cid then w.opOf r.op else none
        | none => none
      let s := match o with
        | some o => if s.waveHere r.wave r.cid then s.landVals r.wave o r.vals else s
        | none => s
      let s := s.noteError r.wave r.cid o r.failed r.ue
      match o with
      | some o =>
        if o.ctr = .st then .next (s.storeDone r.wave r.pcore r.cid r.op r.far)
        else .next (s.opPart r.wave r.op r.far)
      | none => .next (if r.phase then s.slotCount r.pcore r.cid .stores false else s)

/-- OPERATION_RETIRE (R119): complete operations at the front of a counter leave it. -/
def execOperationRetire (n ctr : Nat) (s : State) : Out :=
  .next (s.onWave n fun w => { w with ops := retire (Ctr.ofCode ctr) w.ops })

/-- RESULT_LANDING (R114, R150): the results due by now land in order. -/
def execResultLanding (n : Nat) (s : State) : Out := .next (s.settle n)

/-! ## Translation, page faults and the operand log (R239-R245) -/

/-- TABLE_WALK (R231-R234, R239): a walk fills the core's TLB where it finds a page. -/
def execTableWalk (pcore aspace va : Nat) (s : State) : Out :=
  if canonical va then .next (fillTlb s pcore aspace va) else .next s

/-- Whether a page fault is still waiting for service on a lane of an entry. -/
def faultOpen (fs : List Fault1) (n : Nat) (g : LogEntry) : Bool :=
  g.lanes.any fun a => fs.any fun f => match f with
    | .wave m _ va => m == n && va / 4096 == a.va / 4096
    | _ => false

/-- The logged lanes retranslated (R243). -/
def replayWants (s : State) (c : Cons) (p : Nat) (g : LogEntry) : List Want :=
  g.lanes.map fun a => ⟨a, barHost g.kind (placeVirtual s p c a.va g.kind.need), true, true⟩

/-- Parts added to an operation, `far` of them in host or peer windows, and to the slot's count of stores. -/
def State.addParts (s : State) (n : Nat) (w : Wave) (op : Nat) (k : MemKind) (parts far : Nat) : State :=
  let s := s.setWave n { w with ops := updOp op (fun o => { o with need := o.need + parts, far := o.far + far }) w.ops }
  if k.ctr = .st then s.slotAdd (coreOfWave n) w.cid .stores parts else s

/-- The lanes of a log entry that can now be performed, or violate, set out: the sectors are sent, the violating lanes answered, and the
snapshot and the TLB follow (R239, R243, R246, R256). -/
def State.resend (s : State) (n cid : Nat) (c : Cons) (g : LogEntry) (es : List Want) : State :=
  let p := coreOfWave n
  let bad := es.filter fun e => e.pl == .violation
  let ok := (es.filter fun e => e.pl != .violation && e.pl != .fault).map Want.keyed
  let s := fillAll (s.onCore p fun c => snapAt c g.kind g.size ok) p c.aspace es
  let s := if bad.isEmpty then s else
    { s with resps := s.resps ++ [Resp.make n cid p g.op [] (bad.map fun e => (e.acc.lane, e.acc.va)) false (g.kind.ctr == .st) false] }
  sendSectors s n cid g.op g.kind g.lanePc.not true g.size (bySector ok)

/-- The requests that the lanes of a log entry make, and of these the ones in host or peer windows; violating lanes make one answer. -/
def replayParts (es : List Want) : Nat × Nat :=
  let ok := (es.filter fun e => e.pl != .violation && e.pl != .fault).map Want.keyed
  let gs := bySector ok
  (gs.length + (es.any fun e => e.pl == .violation).toNat, gs.countP farGroup)

/-- The lanes of a replayed entry that fault again. -/
def faulting (es : List Want) : List Want := es.filter fun e => e.pl == .fault

/-- The first store that a wave which has ended has left in the log, where its pages have been served (R74, R243; log 21). -/
def State.orphanDue (s : State) (n : Nat) : Option Orphan :=
  match (s.core (coreOfWave n)).orphans.find? fun o => o.wave == n with
  | none => none
  | some o => if (o.entry.lanes.any fun a => s.faults.any fun f => match f with
      | .orphan op _ va => op == o.entry.op && va / 4096 == a.va / 4096
      | _ => false) then none else some o

/-- A store of the log of a wave that has ended is replayed (R74, R243; log 21). -/
def State.replayOrphan (s : State) (o : Orphan) (c : Cons) : State :=
  let p := coreOfWave o.wave
  let es := replayWants s c p o.entry
  let flt := faulting es
  let rest := fun (x : Orphan) => if x = o then (if flt.isEmpty then [] else [{ o with entry := { o.entry with lanes := flt.map Want.acc } }]) else [x]
  let s := s.onCore p fun k => { k with orphans := k.orphans.flatMap rest }
  let s := { s with faults := s.faults ++ flt.map fun (e : Want) => Fault1.orphan o.entry.op c.aspace e.acc.va }
  let s := (s.slotAdd p o.cid .stores (replayParts es).1).resend o.wave o.cid c o.entry es
  if flt.isEmpty then s.slotCount p o.cid .stores false else s

/-- OPERAND_LOG_REPLAY (R243): the wave's oldest entry is retranslated and its lanes performed; lanes that fault again
keep it. What a wave of that number which has ended has left is replayed first. -/
def execOperandLogReplay (n : Nat) (s : State) : Out :=
  match s.orphanDue n with
  | some o => match s.con o.cid with
    | some c => .next (s.replayOrphan o c)
    | none => .next s
  | none => match s.wave n with
    | none => .next s
    | some w => match w.oplog, s.con w.cid with
      | g :: gs, some c =>
        if faultOpen s.faults n g then .next s
        else
          let es := replayWants s c (coreOfWave n) g
          let flt := faulting es
          let x := replayParts es
          let w := { w with oplog := if flt.isEmpty then gs else { g with lanes := flt.map Want.acc } :: gs }
          let s := s.addParts n w g.op g.kind x.1 x.2
          let s := { s with faults := addFaults n c.aspace s.faults flt }
          let s := s.resend n w.cid c g es
          if flt.isEmpty then .next (s.endPart n w.cid g.op g.kind) else .next s
      | _, _ => .next s

/-- The logged lanes of a page that was declared unrecoverable are answered as violations (R241, R246). -/
def State.failLogged (s : State) (n cid va : Nat) : List LogEntry → State
  | [] => s
  | g :: gs =>
    let bad := g.lanes.filter fun a => a.va / 4096 == va / 4096
    let left := g.lanes.filter fun a => a.va / 4096 != va / 4096
    let s := if bad.isEmpty then s.onWave n fun w => { w with oplog := w.oplog ++ [g] } else
      match s.wave n with
      | none => s
      | some w =>
        let w := if left.isEmpty then w else { w with oplog := w.oplog ++ [{ g with lanes := left }] }
        let s := if left.isEmpty then s.setWave n w else s.addParts n w g.op g.kind 1 0
        { s with resps := s.resps ++ [Resp.make n cid (coreOfWave n) g.op [] (bad.map fun a => (a.lane, a.va)) false (g.kind.ctr == .st) false] }
    s.failLogged n cid va gs

/-- The same for a store that a wave which has ended has left in its log: its lanes of the page are answered as violations (R241, R246). -/
def State.orphanLost (s : State) (op va : Nat) : State :=
  match s.cores.findSome? fun e => e.2.orphans.find? fun o => o.entry.op == op with
  | none => s
  | some o =>
    let p := coreOfWave o.wave
    let bad := o.entry.lanes.filter fun a => a.va / 4096 == va / 4096
    let left := o.entry.lanes.filter fun a => a.va / 4096 != va / 4096
    let rest := fun (x : Orphan) => if x = o then (if left.isEmpty then [] else [{ o with entry := { o.entry with lanes := left } }]) else [x]
    let s := s.onCore p fun k => { k with orphans := k.orphans.flatMap rest }
    let s := if left.isEmpty then s else s.slotCount p o.cid .stores true
    { s with resps := s.resps ++ [Resp.make o.wave o.cid p op [] (bad.map fun a => (a.lane, a.va)) false true false] }

/-- The translations of an address space that a shootdown of `lo` to `hi` removes, as first address and size: TLB entries and the runs of
translation registers (R242). -/
def State.removed (s : State) (aspace lo hi : Nat) : List (Nat × Nat) :=
  let meet := fun (x : Nat × Nat) => decide (x.1 ≤ hi) && decide (lo < x.1 + x.2)
  let regs := fun (w : Wave) => if (s.con w.cid).any fun c => c.aspace == aspace then
    w.tbs.map fun t => (va57 t.2.base.toNat, t.2.limit) else []
  ((s.cores.flatMap fun e => (e.2.tlb.filter fun t => t.aspace == aspace).map fun t => (t.va, t.size))
    ++ s.waves.flatMap (fun e => regs e.2) ++ s.ctxs.flatMap fun e => regs e.2.wave).filter meet

/-- An access at a virtual address of the space that used, or may have used, one of the removed translations has not been performed at its
home: a request on its way, waiting at its home or unanswered by a peer, or a write of a copy's fetched chunk; an engine's access
to a peer is named by its storage key alone, and counts whichever it is (R242). -/
def State.shootBusy (s : State) (aspace lo hi : Nat) : Bool :=
  let inSpace := fun cid => (s.con cid).any fun c => c.aspace == aspace
  let gone := (lo, hi + 1 - lo) :: s.removed aspace lo hi
  let hit := fun va => gone.any fun x => decide (x.1 ≤ va57 va) && decide (va57 va < x.1 + x.2)
  let used := fun (r : Req) => !r.fromPeer && inSpace r.cid && (decide (147456 ≤ r.wave) && decide (5000 ≤ r.home)
    || r.accs.any fun a => !keyIsSpad a.key && hit a.va)
  s.openReqs.any used || s.cores.any fun e => match e.2.cpRun with
      | some x => inSpace x.cmd.cid && x.fetched.any fun c => c.dst.any fun va => !isSpad va && hit va
      | none => false

/-- SHOOTDOWN (R242): once no access that used a removed translation is on its way, the TLB entries that overlap the range go,
and the limits of translation registers whose run overlaps it become 0. -/
def execShootdown (aspace lo hi : Nat) (s : State) : Out :=
  let inSpace := fun cid => (s.con cid).any fun c => c.aspace == aspace
  if s.shootBusy aspace lo hi then .next s
  else
    let cut := fun (w : Wave) => if inSpace w.cid then
      { w with tbs := w.tbs.map fun t =>
          if va57 t.2.base.toNat ≤ hi ∧ lo < va57 t.2.base.toNat + t.2.limit then (t.1, { t.2 with limit := 0 }) else t } else w
    .next { s with
      cores := s.cores.map fun e => (e.1, { e.2 with tlb := e.2.tlb.filter fun t =>
        !(t.aspace == aspace && decide (t.va ≤ hi) && decide (lo < t.va + t.size)) })
      waves := s.waves.map fun e => (e.1, cut e.2)
      ctxs := s.ctxs.map fun e => (e.1, { e.2 with wave := cut e.2.wave }) }

end Sys2Proof.Machine
end

