-- ==== Sys2Proof/Machine/Sync.lean ====
section
/-! DEFINITION. `phase`, `fence`, barriers and waits on addresses, with the requests they make of the homes
(R276-R284, R293-R299). -/

namespace Sys2Proof.Machine

/-! ## phase and fence (R293-R299) -/

/-- The wait of an acquire ends when every read before it has landed; the removal follows (R295). -/
def State.pollAcquire (s : State) (n : Nat) (w : Wave) (sc : Scope) (under : Bool) : State :=
  if readsLanded sc w.beforeScalar then (s.setWave n (w.parkOver under)).acquire (coreOfWave n) sc else s

/-- PHASE (R293-R295): the word completes once its release and its acquire have. -/
def execPhase (ord : Order) (sc : Scope) (s : State) : Out :=
  scalarWord s [] [] none fun w _ =>
    let n := s.cur
    if (hasRel ord && !s.releasedS n w sc) || (hasAcq ord && !readsLanded sc w.beforeScalar) then s.holdS n w .long
    else
      let s := (s.step4 n w id).onWave n fun w => { w with edge := .phase }
      if hasAcq ord then s.acquire (coreOfWave n) sc else s

/-- The operation writes an accumulator row (R299). -/
def OutOp.writesRow (o : OutOp) : Bool := match o.dest with
  | .vreg r => decide (192 ≤ r)
  | .vals (.vreg r _ _) => decide (192 ≤ r)
  | _ => false

/-- An operation belongs to a class of a fence's first set (R299). -/
def OutOp.inPred (pred : BitVec 6) (o : OutOp) : Bool :=
  o.ctr == .ld && pred.getLsbD 0 || (o.ctr == .st || o.writesRow) && pred.getLsbD 1

/-- A command of the wave in a fence's first set: whether its writes and whether its reads count. -/
def CmdRec.inPred (pred : BitVec 6) (c : CmdRec) : Nat × Bool × Bool :=
  if c.matrix then (c.id, pred.getLsbD 5, pred.getLsbD 4) else (c.id, pred.getLsbD 3, pred.getLsbD 2)

/-- The cycle by which the accumulator rows written before a fence have landed (R299). -/
def Wave.rowsDue (w : Wave) : Nat :=
  w.pend.foldl (fun m l => match l.dest with
    | .vreg r _ _ => if 192 ≤ r then max m l.due else m
    | _ => m) 0

/-- FENCE (R298, R299): it issues at once and records what later accesses wait for; a set of zero makes it a `nop`. -/
def execFence (pred succ : Nat) (s : State) : Out :=
  scalarWord s [] [] none fun w _ =>
    let n := s.cur
    let p := BitVec.ofNat 6 pred
    if pred = 0 ∨ succ = 0 then s.step4 n w id
    else s.step4 n w fun w =>
      let clk := s.clk (coreOfWave n)
      let f : FenceRec := ⟨BitVec.ofNat 6 succ, (w.beforeScalar.filter (OutOp.inPred p)).map OutOp.id,
        w.cmds.map (CmdRec.inPred p), if p.getLsbD 1 then w.rowsDue else 0, s.nextId⟩
      { w with fences := w.fences.filter (w.fenceOpen clk) ++ [f] }

/-! ## The address of a barrier or a wait pair (R278) -/

/-- What the address check finds. -/
inductive SyncAt where
  | ok (key : Nat)
  | trap (code : Nat)
  | fault
deriving DecidableEq, Repr

/-- The check of R278: alignment, then R239, R249 and R273. -/
def syncPlace (s : State) (w : Wave) (c : Cons) (p va align : Nat) : SyncAt :=
  if va % align ≠ 0 then .trap 3
  else match barHost (.red .add) (place s c p va .write) with
    | .violation => .trap 4
    | .fault => .fault
    | .at k => if keyIsSpad k && !spadLeased s (keyCore k) (keyOff k) align w.cid then .trap 4 else .ok k

/-- The wave waits at its word for a page (R241, R278). -/
def State.waitPage (s : State) (n : Nat) (w : Wave) (aspace va : Nat) : State :=
  { s.setWave n { w with park := .pageFault false va } with faults := s.faults ++ [.wave n aspace va] }

/-- A word with a barrier's or a wait pair's address: traps and a page fault come before any effect, and the wave's own logged accesses to
the page are performed before it (R244, R284). -/
def syncWord (s : State) (w : Wave) (c : Cons) (va : Word) (align : Nat) (body : State → Nat → State) : State :=
  let n := s.cur
  let p := coreOfWave n
  match syncPlace s w c p va.toNat align with
  | .trap code => s.trapS n code va 0 0
  | .fault => (s.walkedFor p c.aspace va.toNat).waitPage n w c.aspace va.toNat
  | .ok k => if !isSpad va.toNat && w.pageLogged va.toNat then s.holdS n w .long else body (if isSpad va.toNat then s else fillTlb s p c.aspace va.toNat) k

/-- A count in sB: bits 29:0 with 0 meaning 1; `none` where bits 63:30 are not zero (R278, R280). -/
def countOf (v : Word) : Option Nat :=
  if 2 ^ 30 ≤ v.toNat then none else some (if v.toNat = 0 then 1 else v.toNat)

/-- One request of wave `n`, which is `w`, to the home of a barrier or a wait pair. -/
def syncReq (n : Nat) (w : Wave) (op : Nat) (k : ReqKind) (size key va : Nat) : Req :=
  { mkReq n w.cid op k size [⟨0, key, va, 0, 0⟩] with spc := w.spc, lpc := w.nextLpc w.queue }

/-- A request to the home of a barrier or a wait pair sent: its sector leaves the core's snapshot, so that no later read of the wave falls
behind what it does or finds there (R305; log 14). -/
def State.sendSync (s : State) (n : Nat) (w : Wave) (op : Nat) (k : ReqKind) (size key va : Nat) : State :=
  (s.onCore (coreOfWave n) fun c => c.dropSnap key).send (syncReq n w op k size key va)

/-- A posted request counts among the slot's remote arrives and wakes (R75, R278). -/
def State.postSync (s : State) (n : Nat) (w : Wave) (k : ReqKind) (size key va : Nat) : State :=
  (s.slotCount (coreOfWave n) w.cid .remote true).sendSync n w 0 k size key va

/-! ## The words (R278-R284) -/

/-- ARRIVE (R278): a release, then a posted arrive. -/
def execArrive (sc : Scope) (a b : Nat) (s : State) : Out :=
  scalarWord s [a, b] [a, b] none fun w c =>
    let n := s.cur
    let va := s.rS w a
    match countOf (s.rS w b) with
    | none => s.trapS n 2 (BitVec.ofNat 64 b) 0 0
    | some k => syncWord s w c va 8 fun s key =>
      if sc.code ≤ 5 && !s.releasedS n w sc then s.holdS n w .long
      else ((s.step4 n w fun w => { w with acks := w.acks ++ [va] }).onWave n fun w => { w with edge := .arrive }).postSync n w
        (.arrive k false) 8 key va.toNat

/-- AWAIT (R278): the wave parks until the phase differs from p. -/
def execAwait (sc : Scope) (a b : Nat) (s : State) : Out :=
  scalarWord s [a, b] [a, b] none fun w c =>
    let n := s.cur
    let va := s.rS w a
    let p := (s.rS w b).getLsbD 0
    syncWord s w c va 8 fun s key =>
      (s.parkS n w (.barrier sc b va.toNat s.nextId (some p))).sendSync n w s.nextId (.await p) 8 key va.toNat

/-- ARRIVE_WAIT (R278): a release, an arrive, and a wait for the phase it found to end. -/
def execArriveWait (sc : Scope) (a b : Nat) (s : State) : Out :=
  scalarWord s [a, b] [a, b] none fun w c =>
    let n := s.cur
    let va := s.rS w a
    match countOf (s.rS w b) with
    | none => s.trapS n 2 (BitVec.ofNat 64 b) 0 0
    | some k => syncWord s w c va 8 fun s key =>
      if sc.code ≤ 5 && !s.releasedS n w sc then s.holdS n w .long
      else
        let op := s.nextId
        let t := (s.step4 n w fun w => { w with acks := w.acks ++ [va], park := .barrier sc b va.toNat op none }).onWave n fun w =>
          { w with edge := .arrive }
        (t.slotCount (coreOfWave n) w.cid .remote true).sendSync n w op (.arrive k true) 8 key va.toNat

/-- A count added to a listed address, or a new entry (R280). -/
def joinList (ms : List Member) (va : Word) (k : Nat) : List Member :=
  if ms.any fun m => m.addr == va then
    ms.map fun m => if m.addr = va then { m with count := m.count + k } else m
  else ms ++ [⟨va, k, false, false⟩]

/-- BJOIN (R280). -/
def execBjoin (a b : Nat) (s : State) : Out :=
  scalarWord s [a, b] [a, b] none fun w c =>
    let n := s.cur
    let va := s.rS w a
    match countOf (s.rS w b) with
    | none => s.trapS n 2 (BitVec.ofNat 64 b) 0 0
    | some k => syncWord s w c va 8 fun s key =>
      if !(w.members.any fun m => m.addr == va) ∧ 8 ≤ w.members.length then s.trapS n 2 (BitVec.ofNat 64 a) 0 0
      else (s.step4 n w fun w => { w with members := joinList w.members va k }).postSync n w (.join k) 8 key va.toNat

/-- BLEAVE (R280): it waits for the acknowledgement of the wave's arrives to the address. -/
def execBleave (a : Nat) (s : State) : Out :=
  scalarWord s [a] [a] none fun w c =>
    let n := s.cur
    let va := s.rS w a
    match w.members.find? fun m => m.addr == va with
    | none => s.trapS n 2 (BitVec.ofNat 64 a) 0 0
    | some m => syncWord s w c va 8 fun s key =>
      if w.acks.contains va then s.holdS n w .long
      else (s.step4 n w fun w => { w with members := w.members.filter fun m => m.addr != va }).postSync n w
        (.leave m.count m.arrived m.phase) 8 key va.toNat

/-- WAITADDR (R283): the wave parks with a request at the pair's home. -/
def execWaitaddr (d a b : Nat) (s : State) : Out :=
  scalarWord s [d, a, b] [d, a, b] none fun w c =>
    let n := s.cur
    let va := s.rS w a
    let v := s.rS w d
    let t := (s.rS w b).toNat
    syncWord s w c va 16 fun s key =>
      (s.parkS n w (.address d key 0 s.nextId (if t = 0 then none else some (s.nsc + t)))).sendSync n w s.nextId (.waitaddr v) 16 key
        va.toNat

/-- WAKE (R284). -/
def execWake (a b : Nat) (s : State) : Out :=
  scalarWord s [a, b] [a, b] none fun w c =>
    let n := s.cur
    let va := s.rS w a
    let k := (s.rS w b).toNat
    syncWord s w c va 16 fun s key => (s.step4 n w id).postSync n w (.wake k) 16 key va.toNat

/-! ## Barrier words (R276, R277) -/

/-- A barrier word's fields. -/
structure Bar where
  arrived  : Nat
  expected : Nat
  mode     : Nat
  error    : Bool
  phase    : Bool
deriving DecidableEq, Repr

/-- The fields of a word. -/
def Bar.of (v : Nat) : Bar := ⟨v % 2 ^ 30, v / 2 ^ 30 % 2 ^ 30, v / 2 ^ 60 % 4, v / 2 ^ 62 % 2 == 1, v / 2 ^ 63 % 2 == 1⟩

/-- The word of fields. -/
def Bar.num (b : Bar) : Nat :=
  b.arrived + b.expected * 2 ^ 30 + b.mode * 2 ^ 60 + b.error.toNat * 2 ^ 62 + b.phase.toNat * 2 ^ 63

/-- Check of R277, with whether the phase flipped. -/
def Bar.check (b : Bar) : Bar × Bool :=
  if b.expected ≤ b.arrived ∧ 0 < b.arrived then
    ({ b with error := b.error || decide (b.expected < b.arrived), phase := !b.phase, arrived := 0 }, true)
  else (b, false)

/-- Add of R277. -/
def Bar.add (b : Bar) (n : Nat) : Bar × Bool :=
  (if 2 ^ 30 - 1 < b.arrived + n then { b with arrived := 2 ^ 30 - 1, error := true }
    else { b with arrived := b.arrived + n }).check

/-- join of R277. -/
def Bar.join (b : Bar) (n : Nat) : Bar :=
  if 2 ^ 30 - 1 < b.expected + n then { b with expected := 2 ^ 30 - 1, error := true }
  else { b with expected := b.expected + n }

/-- leave of R277. -/
def Bar.leave (b : Bar) (n : Nat) (a p : Bool) : Bar × Bool :=
  let b := if a && b.phase == p then
      (if b.arrived < n then { b with arrived := 0, error := true } else { b with arrived := b.arrived - n }) else b
  (if b.expected < n then { b with expected := 0, error := true } else { b with expected := b.expected - n }).check

/-- One request to a barrier word: an engine's add counts bytes in byte mode and one, at its last add, in wave mode; one
that failed sets ERROR in place of its count. In a reserved mode a request sets ERROR and nothing else. -/
def Bar.apply (b : Bar) (k : ReqKind) : Bar × Bool :=
  if 2 ≤ b.mode then ({ b with error := true }, false)
  else match k with
    | .arrive n _ => b.add n
    | .join n => (b.join n, false)
    | .leave n a p => b.leave n a p
    | .engineAdd n last failed =>
      if failed then ({ b with error := true }, false)
      else if b.mode = 1 then (if n = 0 then (b, false) else b.add n)
      else if last then b.add 1 else (b, false)
    | .completion failed => (if failed then { b with error := true } else b).add 1
    | _ => (b, false)

/-! ## At the home -/

/-- The register that takes the result of the wait made by operation `op`. -/
def Park.regOf (op : Nat) : Park → Option Nat
  | .barrier _ b _ o _ => if o = op then some b else Option.none
  | .address d _ _ o _ => if o = op then some d else Option.none
  | _ => Option.none

/-- The wait made by operation `op` of wave `n` ends: its register takes `v`, and `f` gives what the stream does then; a handler that has
interrupted the wait runs on (R116, R364). -/
def State.endPark (s : State) (n op v : Nat) (f : Park → Park) : State :=
  match s.wave n with
  | none => s
  | some w => match (w.park.regOf op).or (w.under.regOf op) with
    | none => s
    | some d => (s.landNow n ⟨s.clkOf n, false, op, none, .sreg d (BitVec.ofNat 64 v), 0, 0, 0, 0⟩).onWave n fun w =>
        w.onParks fun p => if (p.regOf op).isSome then f p else p

/-- A wave's barrier wait ends: its register takes the word as observed, and its acquire begins (R278); a peer's is answered. -/
def State.endBarrier (s : State) (n op : Nat) (v : Nat) : State :=
  if peerBase ≤ n ∧ n < ctxBase then s.peerReply (n - peerBase) op [v]
  else s.endPark n op v fun p => match p with
    | .barrier sc _ _ _ _ => .acquire sc
    | x => x

/-- Every wave of a list of parked requests is released. -/
def State.releaseAll (s : State) (v : Nat) : List Parked → State
  | [] => s
  | q :: qs => (s.endBarrier q.req.wave q.req.op v).releaseAll v qs

/-- A parked request waits at a barrier word. -/
def Parked.atBarrier (key : Nat) (q : Parked) : Bool :=
  (q.req.accs.head?.map Acc.key) == some key && match q.req.kind with
    | .await _ => true
    | _ => false

/-- A barrier word written, with the release of the parked waves where the phase flipped (R277). -/
def State.putBar (s : State) (key : Nat) (b : Bar) (flip : Bool) : State :=
  let s := s.writeNum 8 key b.num
  if flip then
    let qs := s.parked.filter (Parked.atBarrier key)
    ({ s with parked := s.parked.filter fun q => !q.atBarrier key }).releaseAll b.num qs
  else s

/-- The storage key and the address of a synchronising request. -/
def Req.spot (r : Req) : Nat × Nat := ((r.accs.head?.map Acc.key).getD 0, (r.accs.head?.map Acc.va).getD 0)

/-- The request is the completion arrive of R76, which no core issues. -/
def ReqKind.isCompletion : ReqKind → Bool
  | .completion _ => true
  | _ => false

/-- The logical core that a request comes from: its wave's, or for an engine's request the one that its core stands for. -/
def State.lcoreOf (s : State) (r : Req) : Nat :=
  match (s.anyWave r.wave).filter fun w => w.cid == r.cid with
  | some w => w.lcore
  | none => ((s.con r.cid).bind fun c => c.logical r.pcore).getD 0xFFFF

/-- What a home finds wrong with a synchronising request is logged; a peer's names no core and no consignment of this module, and the completion
arrive of R76 no core (R407, log 37). -/
def State.logHome (s : State) (r : Req) (code : Nat) : State :=
  if r.fromPeer then s.logPeer r r.spot.2 code
  else if r.kind.isCompletion then s.logUnit (homeDie r.home) r.spot.2 0 0xFFFF 0xFFFF 5 code r.cid true
  else s.logUnit (dieOf r.pcore) r.spot.2 r.spc (s.lcoreOf r) r.pcore 5 code r.cid true

/-- A barrier in a reserved mode is logged (R277, R407). -/
def State.logMode (s : State) (r : Req) (b : Bar) : State := if 2 ≤ b.mode then s.logHome r 0x15 else s

/-- The scalar word at `spc` that made a synchronising request, as an operation for its log entry (R246). -/
def syncOp (spc lpc : Nat) : OutOp := ⟨0, .st, 0, none, .none, none, 0, false, spc, lpc, [], 0, none, 0⟩

/-- A synchronising request that fails the lease check, or whose stack is not ready: the address is logged, the wave goes on
without its wait and takes a trap, what the request counted is given back, and an exit that awaited it goes on (R246, R249, R281); a peer
module is answered with the error. -/
def State.failSync (s : State) (k : Nat) (r : Req) (ue : Bool) : State :=
  let s := s.dropReq k
  if r.fromPeer then (s.logPeer r r.spot.2 (if ue then 5 else 4)).peerReply (r.wave - peerBase) r.op peerError else
  let s := match r.kind with
    | .await _ => s
    | .waitaddr _ => s
    | .engineAdd _ _ _ => s
    | .completion _ => s
    | _ => s.slotCount r.pcore r.cid .remote false
  let s := s.onWave r.wave fun w => { w.onParks fun p => if r.op ≠ 0 ∧ (p.regOf r.op).isSome then .none else p with
    acks := match r.kind with
      | .arrive _ _ => w.acks.erase (BitVec.ofNat 64 r.spot.2)
      | _ => w.acks }
  if r.wave < 147456 then
    let s := s.answerError r.wave r.cid (some (syncOp r.spc r.lpc)) [(0, r.spot.2)] ue true
    match s.wave r.wave with
    | some w => match w.life with
      | .exiting killed => if w.cid = r.cid then s.finishExit r.wave w killed else s
      | _ => s
    | none => s
  else (s.logHome r (if ue then 5 else 4)).flagError r.cid

/-- A synchronising request at its home: the lease check, then the write queue, then its effect. -/
def syncApply (s : State) (k : Nat) (want : ReqKind → Bool) (f : State → Req → State) : Out :=
  match s.front k with
  | none => .next s
  | some r =>
    if !want r.kind then .next s
    else if 5000 ≤ r.home then .next (s.toPeer k r)
    else if homeIsSpad r.home && !r.accs.all (leaseOk s r) then .next (s.failSync k r false)
    else if !s.homeUp r then .next (s.failSync k r true)
    else .next ((s.missed r).letIn k r fun r s => f s r)

/-- The acknowledgement of an arrive that found word `b` sets out with its phase (R278); a peer module's response carries the word. -/
def State.ack (s : State) (r : Req) (b : Bar) : State :=
  if r.fromPeer then s.peerReply (r.wave - peerBase) r.op [b.num]
  else { s with resps := s.resps ++
      [{ Resp.make r.wave r.cid r.pcore r.op [] [] false b.phase false with ack := some (BitVec.ofNat 64 r.spot.2) }] }

/-- A wait at a barrier: satisfied at once, or parked with the phase it waits to leave (R278, R287). -/
def State.waitBar (s : State) (k : Nat) (r : Req) (b : Bar) (p : Bool) : State :=
  if b.phase ≠ p then (s.dropReq k).endBarrier r.wave r.op b.num
  else if s.fromKilled r then s.dropReq k
  else s.parkReq k { r with kind := .await p } p

/-- BARRIER_ARRIVE_APPLY (R277, R278): an arrive is added, and the wait of an `arrive.wait` or an `await` begins. -/
def execBarrierArriveApply (k : Nat) (s : State) : Out :=
  syncApply s k (fun q => match q with
      | .arrive _ _ => true
      | .await _ => true
      | _ => false) fun s r =>
    let key := r.spot.1
    let b := Bar.of (s.num 8 key)
    let x := b.apply r.kind
    match r.kind with
    | .arrive _ wait =>
      let s := ((s.putBar key x.1 x.2).logMode r b).ack r b
      if wait then s.waitBar k r x.1 b.phase else s.dropReq k
    | .await p => ((s.putBar key x.1 false).logMode r b).waitBar k r x.1 p
    | _ => s

/-- A posted request done: its count in the slot goes down (R75); a peer module's is answered. -/
def State.endPost (s : State) (k : Nat) (r : Req) : State :=
  if r.fromPeer then (s.dropReq k).peerReply (r.wave - peerBase) r.op []
  else (s.dropReq k).slotCount r.pcore r.cid .remote false

/-- BARRIER_JOIN_APPLY (R277). -/
def execBarrierJoinApply (k : Nat) (s : State) : Out :=
  syncApply s k (fun q => match q with
      | .join _ => true
      | _ => false) fun s r =>
    let b := Bar.of (s.num 8 r.spot.1)
    ((s.putBar r.spot.1 (b.apply r.kind).1 false).logMode r b).endPost k r

/-- BARRIER_LEAVE_APPLY (R277). -/
def execBarrierLeaveApply (k : Nat) (s : State) : Out :=
  syncApply s k (fun q => match q with
      | .leave _ _ _ => true
      | _ => false) fun s r =>
    let b := Bar.of (s.num 8 r.spot.1)
    let x := b.apply r.kind
    ((s.putBar r.spot.1 x.1 x.2).logMode r b).endPost k r

/-- BARRIER_ENGINE_ADD (R76, R277): an engine's count, its error, or the completion of a consignment. -/
def execBarrierEngineAdd (k : Nat) (s : State) : Out :=
  syncApply s k (fun q => match q with
      | .engineAdd _ _ _ => true
      | .completion _ => true
      | _ => false) fun s r =>
    let b := Bar.of (s.num 8 r.spot.1)
    let x := b.apply r.kind
    ((s.putBar r.spot.1 x.1 x.2).logMode r b).dropReq k

/-- Where the word of a wait stands: the word before the one at which its scalar stream goes on, for a wait that a handler has interrupted after
the handler's return. -/
def Wave.waitSpc (w : Wave) (under : Bool) : Nat := ((if under then w.ctl.xspc.toNat else w.spc) + 2 ^ 57 - 4) % 2 ^ 57

/-- The address, the operation and the phase of a barrier wait that knows the phase it waits to leave. -/
def Park.barrierAt : Park → Option (Nat × Nat × Bool)
  | .barrier _ _ va op (some ph) => some (va, op, ph)
  | _ => Option.none

/-- A barrier wait that was given up is asked for again, where the wave is not stopped and knows the phase it waits to leave: its address is
translated anew; a page fault waits for service, and a violation ends the wait as an error answer (R246, R278, R279). -/
def State.askFor (s : State) (n : Nat) (under : Bool) : State :=
  match s.wave n with
  | none => s
  | some w => match (if under then w.under else w.park).barrierAt, s.con w.cid with
    | some (va, op, ph), some c =>
      if w.life = .halted ∨ s.reqs.any (fun q => q.wave == n && q.op == op) ∨ s.parked.any (fun q => q.req.wave == n && q.req.op == op)
          ∨ s.peers.any (fun e => e.2.out.any fun o => o.req.wave == n && o.req.op == op) then s
      else match syncPlace s w c (coreOfWave n) va 8 with
        | .ok k => s.sendSync n { w with spc := w.waitSpc under } op (.await ph) 8 k va
        | .fault => if s.faults.contains (.wave n c.aspace va) then s else { s with faults := s.faults ++ [.wave n c.aspace va] }
        | .trap _ => (s.setWave n (w.onParks fun p => if (p.regOf op).isSome then .none else p)).answerError n w.cid
            (some (syncOp (w.waitSpc under) (w.nextLpc w.queue))) [(0, va)] false true
    | _, _ => s

/-- Every barrier wait of a wave that was given up is asked for again, one that a handler has interrupted too (R279, R364). -/
def State.askAgain (s : State) (n : Nat) : State := (s.askFor n false).askFor n true

/-- A wave whose wait was given up before its arrive was acknowledged asks for it again once it knows its phase (R279). -/
def State.waitAgain (s : State) (r : Resp) : State :=
  let of_ := fun (p : Park) => p.barrierAt.any fun x => x.2.1 == r.op
  if r.op ≠ 0 ∧ (s.wave r.wave).any (fun w => of_ w.park || of_ w.under) then s.askAgain r.wave else s

/-- ARRIVE_ACK (R278, R280, R281): the acknowledgement marks a listed barrier as arrived, tells a waiting `arrive.wait` its
phase, and may let the wave's exit go on. -/
def execArriveAck (k : Nat) (s : State) : Out :=
  match s.resps[k]? with
  | none => .next s
  | some r => match r.ack with
    | none => .next s
    | some va =>
      let s := ({ s with resps := s.resps.eraseIdx k }).slotCount r.pcore r.cid .remote false
      let told := fun (p : Park) => match p with
        | .barrier sc b va op none => if op = r.op ∧ op ≠ 0 then Park.barrier sc b va op (some r.phase) else p
        | x => x
      let f := fun (w : Wave) => if w.cid ≠ r.cid then w else { w.onParks told with
        acks := w.acks.erase va
        members := w.members.map fun m => if m.addr = va then { m with arrived := true, phase := r.phase } else m }
      let s := (s.onAny r.wave f).waitAgain r
      match s.wave r.wave with
      | none => .next s
      | some w => match w.life with
        | .exiting killed => .next (if w.cid = r.cid then s.finishExit r.wave w killed else s)
        | _ => .next s

/-! ## Wait pairs (R282-R284) -/

/-- A `waitaddr` ends with a result (R283). -/
def State.endWait (s : State) (n op code : Nat) : State := s.endPark n op code fun _ => .none

/-- The pair's key, the operation and the deadline of an address wait. -/
def Park.addressAt : Park → Option (Nat × Nat × Option Nat)
  | .address _ key _ op t => some (key, op, t)
  | _ => Option.none

/-- The address wait of a wave, one that a handler has interrupted too (R364). -/
def Wave.addressWait (w : Wave) : Option (Nat × Nat × Option Nat) := w.park.addressAt.or w.under.addressAt

/-- Waiters released with result 0 (R284). -/
def State.wakeAll (s : State) : List Node → State
  | [] => s
  | x :: xs =>
    let op := (((s.wave x.wave).bind Wave.addressWait).map fun a => a.2.1).getD 0
    (s.endWait x.wave op 0).wakeAll xs

/-- The lowest node of a core that is free. -/
def freeNode (ns : List Node) (p : Nat) : Nat :=
  ((List.range 96).find? fun i => !(ns.any fun x => x.pcore == p && x.node == i)).getD 0

/-- WAITADDR_REQUEST (R283): compare, then link or return; the request of a wave that waits no more is withdrawn (R368). -/
def execWaitaddrRequest (k : Nat) (s : State) : Out :=
  syncApply s k (fun q => match q with
      | .waitaddr _ => true
      | _ => false) fun s r =>
    let key := r.spot.1
    let v := match r.kind with
      | .waitaddr v => v
      | _ => 0
    let res := resNodes r.pcore
    match s.wave r.wave with
    | none => (s.dropReq k).endTicket res (r.ticket res)
    | some w =>
      if s.fromKilled r || w.addressWait.all (fun a => a.2.1 != r.op) then (s.dropReq k).endTicket res (r.ticket res)
      else if !s.grants res (s.nodes.filter fun x => x.pcore == r.pcore).length 96 (r.ticket res) then s.refuse k r res
      else
        let s := (s.dropReq k).endTicket res (r.ticket res)
        if s.num 8 key ≠ v.toNat then s.endWait r.wave r.op 1
        else match linked s key with
          | none =>
            (s.endWait r.wave r.op 3).logUnit (dieOf r.pcore) r.spot.2 r.spc w.lcore r.pcore 5 0x13 r.cid true
          | some ns =>
            let x : Node := ⟨r.pcore, freeNode s.nodes r.pcore, r.wave, key, w.lcore, none⟩
            (s.putQueue key ns (ns ++ [x])).onWave r.wave fun w => w.onParks fun p => match p with
              | .address d key _ o t => .address d key (x.node + 1) o t
              | y => y

/-- WAITADDR_TIMEOUT (R283): the node is unlinked and the result is 2. -/
def execWaitaddrTimeout (n : Nat) (s : State) : Out :=
  match s.wave n with
  | none => .next s
  | some w => match w.addressWait with
    | some (key, op, some d) =>
      if s.nsc < d then .next s
      else
        let s := { s with reqs := s.reqs.filter fun r => !(r.wave == n && r.op == op) }
        .next ((s.unlink n key).endWait n op 2)
    | _ => .next s

/-- WAKE_REQUEST (R284): the first n waiters are released; a malformed word wakes nobody and is logged. -/
def execWakeRequest (k : Nat) (s : State) : Out :=
  syncApply s k (fun q => match q with
      | .wake _ => true
      | _ => false) fun s r =>
    let key := r.spot.1
    let n := match r.kind with
      | .wake n => n
      | _ => 0
    match linked s key with
    | none => (s.endPost k r).logHome r 0x13
    | some ns =>
      let m := if n = 0 then ns.length else min n ns.length
      let s := if m = 0 then s else s.putQueue key ns (ns.drop m)
      (s.endPost k r).wakeAll (ns.take m)

end Sys2Proof.Machine
end

