-- ==== Sys2Proof/Machine/Rings.lean ====
section
/-! DEFINITION. Ring handles: `qinit`, `qpush`, `qpop`, `vpop`, the reports between the ends of a pipe, and `vexit`
(R73, R122-R130). -/

namespace Sys2Proof.Machine

/-! ## qinit (R123) -/

/-- A run of registers lies within one declared range (R18). -/
def Wave.runOk (w : Wave) (base n : Nat) : Bool :=
  decide (base + n ≤ w.fp.regs) || decide (192 ≤ base) && decide (base + n ≤ 192 + w.fp.acc)

/-- QINIT (R123). -/
def execQinit (d a b : Nat) (s : State) : Out :=
  scalarWord s [a, b] [a, b] none fun w _ =>
    let n := s.cur
    let x := (s.rS w a).toNat
    let slots := (s.rS w b).toNat
    let scratch := decide (2 ^ 63 ≤ x)
    let base := if scratch then x % 2 ^ 20 else x % 512
    let reserved := if scratch then x / 2 ^ 20 % 2 ^ 43 else x / 512
    let old := look (w.ringsSeen s.clkCur) d
    if reserved ≠ 0 then s.trapS n 2 (BitVec.ofNat 64 a) 0 0
    else if slots < 2 ∨ 128 < slots then s.trapS n 2 (BitVec.ofNat 64 b) 0 0
    else if !scratch && !w.runOk base slots then s.trapS n 2 (BitVec.ofNat 64 a) 0 0
    else if scratch ∧ base % 256 ≠ 0 then s.trapS n 3 (BitVec.ofNat 64 base) 0 0
    else if scratch ∧ (base < w.sbase ∨ w.sbase + w.fp.spad < base + 256 * slots) then s.trapS n 2 (BitVec.ofNat 64 a) 0 0
    else if old.any (fun r => r.pipe != .none) then s.trapS n 2 (BitVec.ofNat 64 d) 0 0
    else if old.any (fun r => decide (0 < r.e)) then s.holdS n w .long
    else s.step4 n w fun w =>
      let w := w.touchRings s.clkCur
      { w with rings := put w.rings d ⟨scratch, base, slots, 0, 0, 0, 0, .none, 0, 0, 0, true⟩ }

/-! ## qpush and qpop (R125, R126, R129) -/

/-- A slot at storage key `k` lies in a scratchpad ring. -/
def Ring.holdsKey (r : Ring) (n k : Nat) : Bool :=
  r.scratch && decide (r.key n 0 / 2 ^ 20 = k / 2 ^ 20) && decide (r.base ≤ keyOff k) && decide (keyOff k < r.base + 256 * r.slots)

/-- A destination of an open operation lies in a ring. -/
def Ring.holds (r : Ring) (n : Nat) : OpDest → Bool
  | .vreg v => !r.scratch && decide (r.base ≤ v) && decide (v < r.base + r.slots)
  | .slot k => r.holdsKey n k
  | .pipe k _ => r.holdsKey n k
  | .vals (.vreg v _ _) => !r.scratch && decide (r.base ≤ v) && decide (v < r.base + r.slots)
  | .vals (.spad k _ _) => r.holdsKey n k
  | _ => false

/-- A lane word ordered before a `qpush` has not yet written its slot: an open operation aimed at the ring, or for a pipe a
store not yet performed, a load's among them (R85, R125, R129). -/
def Wave.slotsOpen (w : Wave) (n : Nat) (r : Ring) : Bool :=
  w.beforeScalar.any fun o => o.blk.isSome && o.need != 0 && (r.holds n o.dest || o.aim.any (fun v => r.holds n (.vreg v)) || r.isProducer && o.ctr == .st)

/-- QPUSH (R125). -/
def execQpush (d imm : Nat) (s : State) : Out :=
  scalarWord s [] [] none fun w _ =>
    let n := s.cur
    match look (w.ringsSeen s.clkCur) d with
    | none => s.trapS n 2 (BitVec.ofNat 64 d) 0 0
    | some r =>
      if r.slots < imm then s.trapS n 2 (BitVec.ofNat 64 imm) 0 0
      else if r.isConsumer then s.trapS n 2 (BitVec.ofNat 64 d) 0 0
      else if imm = 0 then s.step4 n w id
      else if r.slots - r.f < imm ∨ w.slotsOpen n r then s.holdS n w .long
      else s.step4 n w fun w => w.onRing s.clkCur d fun r =>
        { r with tail := r.tail + imm, filled := r.filled + imm, own := r.own + imm
                 pushes := if r.isProducer then r.pushes + imm else r.pushes }

/-- The head of a ring advanced; a pipe's producer hears of it later (R126, R129). -/
def Ring.pop (r : Ring) (k : Nat) : Ring :=
  { r with head := r.head + k, filled := r.filled - k, pops := if r.isConsumer then r.pops + k else r.pops }

/-- QPOP (R126). -/
def execQpop (d imm : Nat) (s : State) : Out :=
  scalarWord s [] [] none fun w _ =>
    let n := s.cur
    match look (w.ringsSeen s.clkCur) d with
    | none => s.trapS n 2 (BitVec.ofNat 64 d) 0 0
    | some r =>
      if r.slots < imm then s.trapS n 2 (BitVec.ofNat 64 imm) 0 0
      else if r.isProducer then s.trapS n 2 (BitVec.ofNat 64 d) 0 0
      else if imm = 0 then s.step4 n w id
      else if r.f < imm then s.holdS n w .long
      else s.step4 n w fun w => w.onRing s.clkCur d fun r => r.pop imm

/-- What the producer `n` pushed on handle `q` reaches the consumer (R129). -/
def State.reportPush (s : State) (n q : Nat) : State :=
  match (s.wave n).bind fun w => (look w.rings q).map fun r => (w, r) with
  | none => s
  | some (w, r) => match r.pipe with
    | .producer m k => (s.setWave n { w with rings := put w.rings q { r with pushes := 0 } }).onAny m fun v =>
        v.onRing (s.clkOf m) k fun x => { x with tail := x.tail + r.pushes, filled := x.filled + r.pushes }
    | _ => s

/-- What the consumer `n` popped on handle `q` reaches the producer (R129). -/
def State.reportPop (s : State) (n q : Nat) : State :=
  match (s.wave n).bind fun w => (look w.rings q).map fun r => (w, r) with
  | none => s
  | some (w, r) => match r.pipe with
    | .consumer m k => (s.setWave n { w with rings := put w.rings q { r with pops := 0 } }).onAny m fun v =>
        v.onRing (s.clkOf m) k fun x => { x with head := x.head + r.pops, filled := x.filled - r.pops }
    | _ => s

/-- PIPE_PUSH_REPORT (R129). -/
def execPipePushReport (n q : Nat) (s : State) : Out := .next (s.reportPush n q)

/-- PIPE_POP_REPORT (R129). -/
def execPipePopReport (n q : Nat) (s : State) : Out := .next (s.reportPop n q)

/-- The wave at the other end of the pipe on handle `k` has gone: its core is still known, and no handle of the wave that next has its number
is meant (no handle is numbered 16). -/
def Wave.endPipe (w : Wave) (k : Nat) : Wave := match look w.rings k with
  | some r => { w with rings := put w.rings k { r with pipe := match r.pipe with
      | .none => .none
      | .producer m _ => .producer m 16
      | .consumer m _ => .consumer m 16 } }
  | none => w

/-! ## vpop (R127) and vexit (R73) -/

/-- An illegal operand of a lane word, known before any slot is looked at. -/
def laneBadField (s : State) (l : LaneA) (f : Nat) : Out :=
  laneFrame s l .none .none .none .none false false id 1 fun k => s.trapL k.n 2 (BitVec.ofNat 64 f) k.act

/-- VPOP (R127): the read and the advance are one action. Its own checks of d and a come after the hazard checker's look at the governing
predicate; the manual gives them no order (log 58). -/
def execVpop (l : LaneA) (s : State) : Out :=
  if 320 ≤ l.d then laneBadField s l l.d
  else if l.a < 320 ∨ 336 ≤ l.a ∨ (s.wave s.cur).any (fun w => (look (w.ringsSeen s.clkCur) (l.a - 320)).any Ring.isProducer)
  then laneBadField s l l.a
  else laneFrame s l .dst .src .none .none false false id 4 fun k =>
    (s.laneResult k 4 0 fun i => (k.val s k.a i, 0)).onWave k.n fun w => w.onRingL k.clk (l.a - 320) fun r => r.pop 1

/-- VEXIT (R73). -/
def execVexit (l : LaneA) (s : State) : Out :=
  laneFrame s l .none .none .none .none false false id 1 fun k =>
    s.issuedL k.n ({ k.w with exited := k.w.exited ||| k.act }.advanceL k.blk k.clk 1)

end Sys2Proof.Machine
end

