-- ==== Sys2Proof/Machine/Dispatching.lean ====
section
/-! DEFINITION. Work queues, the arbiter, and the dispatch of a manifest with its checks (R11-R20, R53-R63, R66). -/

namespace Sys2Proof.Machine

/-! ## Reading through page tables without a wave -/

/-- One virtual byte of an address space: where it lies (R239). -/
def vAt (s : State) (aspace va : Nat) (n : Need) : Place :=
  if !canonical va then .violation
  else match walk s aspace va with
    | .ok b pa _ a => if allows a n then .at (storageKey (pa + (va57 va - b)) a.pl a.hd a.hs) else .violation
    | .lost => .violation
    | _ => .fault

/-- A little-endian number of `n` virtual bytes; a byte that cannot be read is zero. -/
def vNum (s : State) (aspace va : Nat) : Nat → Nat
  | 0 => 0
  | n + 1 =>
    (match vAt s aspace va .read with
      | .at k => (Memory.get s.mem k).toNat
      | _ => 0) + 256 * vNum s aspace (va + 1) n

/-- What reading a span of pages finds: all of it, or its first address that is not present or cannot be read; `ue` says that an
uncorrectable memory error lies there. -/
inductive Span4 where
  | ok | fault (va : Nat) | bad (va : Nat) (ue : Bool)
deriving DecidableEq, Repr

/-- `n` bytes at storage key `k` cannot be read: their stack is not ready, or an uncorrectable error lies in them (R253). -/
def State.lostBytes (s : State) (k n : Nat) : Bool := s.stackDown k || s.memBad k n

/-- The bytes from `lo` to `hi - 1` in the first `n` pages from that of `lo` can be read (R60). -/
def spanReads (s : State) (aspace lo hi : Nat) : Nat → Span4
  | 0 => .ok
  | n + 1 =>
    match spanReads s aspace lo hi n with
    | .ok =>
      let x := max lo (lo / 4096 * 4096 + 4096 * n)
      match vAt s aspace x .read with
      | .fault => .fault x
      | .violation => .bad x false
      | .at k =>
        if s.stackDown k then .bad x false
        else match (List.range (min hi (x / 4096 * 4096 + 4096) - x)).find? fun j => s.memBad (k + j) 1 with
          | some j => .bad (x + j) true
          | none => .ok
    | r => r

/-- The span of `n` bytes at an address. -/
def readable (s : State) (aspace va n : Nat) : Span4 := spanReads s aspace va (va + n) ((va % 4096 + n + 4095) / 4096)

/-- The storage key of every line that `n` virtual bytes at `va` reach. -/
def spanLines (s : State) (aspace va n : Nat) : List Nat :=
  (List.range ((va % 64 + n + 63) / 64)).filterMap fun i => match vAt s aspace (va / 64 * 64 + 64 * i) .read with
    | .at k => some k
    | _ => none

/-- `n` virtual bytes at `va` read by the placement manager or its arbiter: the walks, one a page, and the lines are looked up at their
homes (R57, R60, R247). It lies in X0, so that no die's misses are counted with them. -/
def State.looked (s : State) (aspace va n : Nat) : State :=
  ((List.range ((va % 4096 + n + 4095) / 4096)).foldl (fun s i => s.walked 1536 aspace (va + 4096 * i)) s).missedKeys 1536
    (spanLines s aspace va n)

/-! ## The code object (R11-R20) -/

/-- The declared widths (R11). -/
def widthOk (w : Nat) : Bool := [16, 32, 64, 128, 256].contains w

/-- Whether a footprint keeps the limits and granules of R17. -/
def Footprint.ok (f : Footprint) : Bool :=
  decide (f.regs ≤ 192) && f.regs % 16 == 0 && decide (f.acc ≤ 128) && f.acc % 16 == 0
    && decide (32 ≤ f.sregs) && decide (f.sregs ≤ 384) && f.sregs % 32 == 0
    && decide (f.priv ≤ 512) && f.priv % 16 == 0 && decide (f.spad ≤ 1048576) && f.spad % 4096 == 0
    && decide (f.stack ≤ 65536) && f.stack % 64 == 0

/-- The footprint record of a number reader (R17). -/
def footprintOf (num : Nat → Nat → Nat) (at_ : Nat) : Footprint :=
  ⟨num at_ 2, num (at_ + 2) 2, num (at_ + 4) 2, num (at_ + 6) 2, num (at_ + 8) 4, num (at_ + 12) 4⟩

/-- A section table entry (R12): kind, offset, size. -/
structure Sect where
  kind : Nat
  off  : Nat
  size : Nat
deriving DecidableEq, Repr

/-- The unit of a section in bytes (R12). -/
def sectUnit (k : Nat) : Nat :=
  match k with
  | 1 => 4 | 2 => 12 | 3 => 1 | 4 => 1 | 7 => 96 | 11 => 16 | _ => 8

/-- The sections of an object with `n` entries. -/
def sectsOf (num : Nat → Nat → Nat) (n : Nat) : List Sect :=
  (List.range n).map fun i => ⟨num (0x40 + 16 * i) 2, num (0x44 + 16 * i) 4, num (0x48 + 16 * i) 4⟩

/-- The reserved bytes of the header and of the section table are zero. -/
def reservedZero (num : Nat → Nat → Nat) (n : Nat) : Bool :=
  num 6 2 / 2 == 0 && num 0x30 16 == 0 && num 0x20 16 == 0 &&
    (List.range n).all fun i => num (0x42 + 16 * i) 2 == 0 && num (0x4C + 16 * i) 4 == 0

/-- The sections lie in the object, do not overlap, and have whole units (R12, R13). A section of size 0 whose offset lies inside another
overlaps it: DESIGN CHOICE, R13 does not say (log 62). -/
def sectsGood (n : Nat) (ss : List Sect) : Bool :=
  ss.all fun x => decide (1 ≤ x.kind) && decide (x.kind ≤ 11) && x.off % 64 == 0
    && decide (0x40 + 16 * n ≤ x.off) && decide (x.off + x.size ≤ 2 ^ 32) && x.size % sectUnit x.kind == 0
    && ss.all fun y => x == y || (x.kind != y.kind && (decide (x.off + x.size ≤ y.off) || decide (y.off + y.size ≤ x.off)))

/-- How many sections have a kind. -/
def kindCount (ss : List Sect) (k : Nat) : Nat := (ss.filter fun x => x.kind == k).length

/-- Required and forbidden sections (R12, R13). -/
def kindsGood (ss : List Sect) (ozz : Bool) : Bool :=
  ([1, 2, 5].all fun k => ss.any fun x => x.kind == k && x.size != 0)
    && ([1, 2, 3, 4, 5, 6, 7, 8, 9, 10, 11].all fun k => decide (kindCount ss k ≤ 1))
    && (if ozz then [10, 11].all fun k => ss.any fun x => x.kind == k && x.size != 0 else kindCount ss 10 == 0)

/-- The place and size of a section. -/
def sectAt (ss : List Sect) (k : Nat) : Nat × Nat :=
  match ss.find? fun x => x.kind == k with
  | some x => (x.off, x.size)
  | none => (0, 0)

/-- The lane block table (R16). -/
def blocksGood (num : Nat → Nat → Nat) (ss : List Sect) : Bool :=
  let t := sectAt ss 5
  let words := (sectAt ss 2).2 / 12
  decide (t.2 / 8 ≤ 32768) && (List.range (t.2 / 8)).all fun i =>
    let st := num (t.1 + 8 * i) 4
    let len := num (t.1 + 8 * i + 4) 2
    decide (st < 2 ^ 24) && decide (1 ≤ len) && decide (len ≤ 256) && num (t.1 + 8 * i + 6) 2 == 0
      && decide (st + len ≤ words)

/-- The safe-point table (R20). -/
def safeGood (num : Nat → Nat → Nat) (ss : List Sect) : Bool :=
  let t := sectAt ss 6
  let size := (sectAt ss 1).2
  let recs := (sectAt ss 7).2 / 96
  (List.range (t.2 / 8)).all fun i =>
    let o := num (t.1 + 8 * i) 4
    o % 4 == 0 && decide (o < size) && decide (num (t.1 + 8 * i + 4) 4 < recs)
      && (i == 0 || decide (num (t.1 + 8 * (i - 1)) 4 < o))

/-! ## Ozzer objects (R24-R26) -/

/-- The functions of an object: start and end. -/
def funcsOf (num : Nat → Nat → Nat) (ss : List Sect) : List (Nat × Nat) :=
  let t := sectAt ss 11
  (List.range (t.2 / 16)).map fun i => (num (t.1 + 16 * i) 4, num (t.1 + 16 * i + 4) 4)

/-- The handlers of an object: message type and function start. -/
def handlersOf (num : Nat → Nat → Nat) (ss : List Sect) : List (Nat × Nat) :=
  let t := sectAt ss 10
  (List.range (t.2 / 8)).map fun i => (num (t.1 + 8 * i) 2, num (t.1 + 8 * i + 4) 4)

/-- The words of a function, with their offsets. -/
def funcWords (num : Nat → Nat → Nat) (ss : List Sect) (f : Nat × Nat) : List (Nat × Option Instr) :=
  (List.range ((f.2 - f.1) / 4)).map fun i => (f.1 + 4 * i, decodeScalar (num ((sectAt ss 1).1 + f.1 + 4 * i) 4))

/-- Words that no handler function may hold (R26). -/
def barredWord : Instr → Bool
  | .chsub _ _ _ | .chleave _ _ | .rdv _ _ | .await _ _ _ | .arriveWait _ _ _ | .waitaddr _ _ _ => true
  | .ldfe _ _ _ | .stfe _ _ _ | .ldf _ _ _ => true
  | .trap k => decide (0x7F00 ≤ k)
  | _ => false

/-- The offset that a word refers to. -/
def refersTo (o : Nat) : Instr → Option Int
  | .j off | .call off => some (o + 4 * off)
  | .bz _ off | .bnz _ off | .bltz _ off | .bgez _ off | .bgtz _ off | .blez _ off => some (o + 4 * off)
  | .settv off => some (o + 4 * off)
  | .adr _ off => some (o + 4 * off)
  | _ => none

/-- The functions that a function refers to. -/
def refsOf (fs : List (Nat × Nat)) (ws : List (Nat × Option Instr)) : List (Nat × Nat) :=
  fs.filter fun f => ws.any fun w => match w.2 with
    | some i => match refersTo w.1 i with
      | some t => decide ((f.1 : Int) ≤ t) && decide (t < f.2)
      | none => false
    | none => false

/-- Functions reachable from a list, in `n` rounds. -/
def reach (num : Nat → Nat → Nat) (ss : List Sect) (fs : List (Nat × Nat)) : Nat → List (Nat × Nat) → List (Nat × Nat)
  | 0, l => l
  | n + 1, l => reach num ss fs n (fs.filter fun f => l.contains f || l.any fun g => (refsOf fs (funcWords num ss g)).contains f)

/-- The handler table and the words reachable from it (R25, R26). An object whose handler table breaks R25 is refused as malformed:
DESIGN CHOICE, since R13 does not list R25 (log 62). -/
def ozzGood (num : Nat → Nat → Nat) (ss : List Sect) : Bool :=
  let fs := funcsOf num ss
  let hs := handlersOf num ss
  let t := sectAt ss 10
  decide (hs.length ≤ 256) && ((List.range hs.length).all fun i => num (t.1 + 8 * i + 2) 2 == 0)
    && hs.all (fun h => fs.any fun f => f.1 == h.2) && (hs.map Prod.fst).Nodup
    && (reach num ss fs fs.length (fs.filter fun f => hs.any fun h => h.2 == f.1)).all fun f =>
      (funcWords num ss f).all fun w => match w.2 with
        | some i => !barredWord i
        | none => true

/-- The loader's reading of a code object (R11-R20): how far its extent goes, and the object unless it is malformed. -/
def loadObject (s : State) (aspace code : Nat) : Span4 × Option CodeObj :=
  let num := fun o n => vNum s aspace (code + o) n
  match readable s aspace code 0x40 with
  | .ok =>
    let n := num 0x0A 2
    if n < 1 ∨ 16 < n then (.ok, none)
    else match readable s aspace code (0x40 + 16 * n) with
      | .ok =>
        let ss := sectsOf num n
        let ext := ss.foldl (fun m x => max m (x.off + x.size)) (0x40 + 16 * n)
        match readable s aspace code ext with
        | .ok =>
          let ozz := num 6 2 % 2 == 1
          let fp := footprintOf num 0x10
          let entry := num 0x0C 4
          if num 0 4 == 0x59444C50 && num 4 2 == 1 && reservedZero num n && widthOk (num 8 2) && fp.ok
            && sectsGood n ss && kindsGood ss ozz && entry % 4 == 0 && decide (entry < (sectAt ss 1).2)
            && blocksGood num ss && safeGood num ss && (!ozz || ozzGood num ss)
          then (.ok, some ⟨code, num 6 2, num 8 2, entry, fp,
            ss.foldl (fun a x => put a x.kind (x.off, x.size)) []⟩) else (.ok, none)
        | r => (r, none)
      | r => (r, none)
  | r => (r, none)

/-- The bytes of an object's extent, as far as its header and section table can be read (R13). -/
def objExtent (s : State) (aspace code : Nat) : Nat :=
  let num := fun o n => vNum s aspace (code + o) n
  let n := num 0x0A 2
  if n < 1 ∨ 16 < n then 0x40 else (sectsOf num n).foldl (fun m x => max m (x.off + x.size)) (0x40 + 16 * n)

/-! ## Manifests (R59, R63) -/

/-- A manifest's bytes as fields; `raw` reads `n` bytes at an offset. -/
def manifestOf (raw : Nat → Nat → Nat) : Manifest where
  code := raw 0 8
  entry := raw 8 4
  width := raw 0x0C 2
  flags := raw 0x0E 1
  pclass := raw 0x0F 1
  waves := raw 0x10 4
  last := raw 0x14 2
  mode := raw 0x16 1
  region := raw 0x17 1
  base := raw 0x18 2
  per := raw 0x1A 2
  gang := raw 0x1C 2
  gsize := raw 0x1E 1
  role := raw 0x1F 1
  fp := footprintOf raw 0x20
  args := BitVec.ofNat 64 (raw 0x40 8)
  done := BitVec.ofNat 64 (raw 0x48 8)
  tag := BitVec.ofNat 64 (raw 0x50 8)
  deps := [raw 0x58 8, raw 0x60 8, raw 0x68 8, raw 0x70 8]
  pipes := [raw 0x78 2, raw 0x7A 2, raw 0x7C 2, raw 0x7E 2]
  rsv := raw 0x30 16

/-- The slots of a pipe binding (R63). -/
def pipeSlots (b : Nat) : Nat := b / 2 ^ 9

/-- A pipe binding is well formed. -/
def pipeOk (b : Nat) : Bool := if pipeSlots b = 0 then b == 0 else pipeSlots b != 1

/-- The used bindings. -/
def Manifest.bindings (m : Manifest) : List Nat := m.pipes.filter fun b => pipeSlots b != 0

/-- PERSIST. -/
def Manifest.persist (m : Manifest) : Bool := m.flags / 2 % 2 == 1

/-- Placed all or none (R68). -/
def Manifest.whole (m : Manifest) : Bool := m.persist || m.gang != 0

/-- Hardware waves of a group (R67). -/
def Manifest.perGroup (m : Manifest) : Nat := if m.width = 256 then 4 else if m.width = 128 then 2 else 1

/-- A manifest within the limits of R59, R63 and R17 for its code object. -/
def manifestGood (m : Manifest) (o : CodeObj) : Bool :=
  m.rsv == 0 && m.code % 64 == 0 && (m.entry == 0xFFFFFFFF || m.entry % 4 == 0 && decide (m.entry < (o.sect 1).2))
    && widthOk m.width && m.width == o.width && decide (m.flags < 4) && decide (m.pclass < 8)
    && decide (1 ≤ m.waves) && decide (m.waves < 2 ^ 24) && decide (m.last ≤ m.width) && decide (m.mode ≤ 3)
    && (if m.mode = 2 then decide (1 ≤ m.per) && decide (m.base + (m.waves - 1) / m.per < 1536)
        else m.per == 0 && (if m.mode = 3 then decide (m.base < 1536) else m.base == 0))
    && (if m.gang = 0 then m.gsize == 0 && m.role == 0 else decide (2 ≤ m.gsize) && decide (m.gsize ≤ 8) && decide (m.role < m.gsize))
    && m.fp.ok && m.done.toNat % 8 == 0 && m.deps.all (fun d => d % 8 == 0) && m.pipes.all pipeOk

/-- The manifests of a gang fit together (R62). -/
def gangGood (ms : List Manifest) : Bool :=
  let bs := ms.flatMap fun m => m.bindings.map fun b => (m, b)
  ((ms.map Manifest.role) == List.range ms.length) && ms.all (fun m => (ms.head?.map Manifest.gang) == some m.gang && m.gsize == ms.length)
    && (List.range 16).all fun p =>
      let us := bs.filter fun x => x.2 % 16 == p
      us.isEmpty || (us.length == 2 && (us.filter fun x => x.2 / 16 % 2 == 0).length == 1
        && us.all fun x => us.all fun y => pipeSlots x.2 == pipeSlots y.2 && x.1.waves == y.1.waves)

/-! ## Targets (R64, R66, R343) -/

/-- A physical core belongs to a region. -/
def inRegion (s : State) (r : Region) (p : Nat) : Bool :=
  let b := p % 384 / 4
  p / 384 == r.die && decide (r.bx0 ≤ b % 8) && decide (b % 8 ≤ r.bx0 + r.bw) && decide (r.by0 ≤ b / 8)
    && decide (b / 8 ≤ r.by0 + r.bh) && !s.bypass.contains p

/-- A manifest's region allows a physical core. -/
def regionOk (s : State) (m : Manifest) (p : Nat) : Bool :=
  m.region == 0 || inRegion s (lookD s.regions m.region Region.reset) p

/-- The target set of group `i` by mode, before region and readiness narrow it. -/
def targetSet (m : Manifest) (i : Nat) : List Nat :=
  match m.mode with
  | 0 => (List.range 1536).filter fun l => groupOf l == i % 16
  | 1 => (List.range 4).map fun j => i % 384 * 4 + j
  | 2 => [m.base + i / m.per]
  | _ => (List.range 384).map fun j => m.base / 384 * 384 + j

/-- The die of group `i`'s target. -/
def targetDie (m : Manifest) (i : Nat) : Nat :=
  match m.mode with
  | 0 => i % 16 / 4
  | 1 => i % 384 / 96
  | 2 => dieOf (m.base + i / m.per)
  | _ => dieOf m.base

/-- The physical core of a logical one for placement: the consignment's table (R64). -/
def State.physOf (s : State) (cid l : Nat) : Option Nat :=
  match s.con cid with
  | some c => if c.placedG.isEmpty then s.bringupPhys l else c.phys l
  | none => s.bringupPhys l

/-- The ready target cores of a group: logical and physical. -/
def targets (s : State) (cid : Nat) (m : Manifest) (i : Nat) : List (Nat × Nat) :=
  (targetSet m i).filterMap fun l => match s.physOf cid l with
    | some p => if s.coreReady p && regionOk s m p then some (l, p) else none
    | none => none

/-- A FIXED or DIE target outside the region (R66). -/
def targetsOut (s : State) (cid : Nat) (m : Manifest) : Bool :=
  decide (2 ≤ m.mode) && m.region != 0 && (List.range m.waves).any fun i =>
    (targetSet m i).all fun l => match s.physOf cid l with
      | some p => !regionOk s m p
      | none => true

/-! ## Work queues (R53-R57) -/

/-- The slots of a queue. -/
def WQueue.slots (q : WQueue) : Nat := 2 ^ max 1 q.log2size

/-- Manifests in the ring. -/
def WQueue.used (q : WQueue) : Nat := (q.tail + 65536 - q.head) % 65536

/-- The storage key of manifest slot `i` (log 8). -/
def WQueue.manKey (q : WQueue) (i : Nat) : Nat := storageKey (q.base + 128 * (i % q.slots)) 0 0 0

/-- The storage key of completion slot `i`. -/
def WQueue.recKey (q : WQueue) (i : Nat) : Nat := storageKey (q.cqBase + 32 * (i % q.slots)) 0 0 0

/-- The manifest at index `i` of a queue. -/
def State.manifestAt (s : State) (q : WQueue) (i : Nat) : Manifest := manifestOf fun o n => s.num n (q.manKey i + o)

/-- Completion slots are free for `k` manifests more (R56). -/
def WQueue.cqFree (q : WQueue) (k : Nat) : Bool :=
  decide ((q.cqTail + 65536 - q.cqHead) % 65536 + q.inFlight + k ≤ q.slots)

/-- WQ_TAIL_DOORBELL (R53, R55): a host write to WQ_TAIL. -/
def execWqTailDoorbell (q v : Nat) (s : State) : Out :=
  if 2048 ≤ q then .next s
  else .next (s.onQueue q fun x =>
    if x.devsub then { x with refused := true }
    else if x.slots < (v % 65536 + 65536 - x.head) % 65536 then { x with ovf := true }
    else { x with tail := v % 65536 })

/-- What the arbiter reads of a dependence word (R57). -/
inductive Dep where
  | full | empty | untagged | fault (va : Nat)
deriving DecidableEq, Repr

/-- A dependence word looked at at its home. -/
def depOf (s : State) (aspace a : Nat) : Dep :=
  if a = 0 then .full
  else if isSpad a then
    if a / 2 ^ 32 % 2 ^ 24 ≠ 0 ∨ 0xFE000 ≤ a % 2 ^ 20 then .untagged
    else match s.bringupPhys (a / 2 ^ 20 % 4096) with
      | some p => if !s.coreReady p || s.memBad (spadKey p (a % 2 ^ 20)) 8 then .untagged else if s.isFull (spadKey p (a % 2 ^ 20)) then .full else .empty
      | none => .untagged
  else match vAt s aspace a .tagRead with
    | .at k => if s.lostBytes k 8 then .untagged else if s.isFull k then .full else .empty
    | .violation => .untagged
    | .fault => .fault a

/-- The manifests that a grant would take: the head, or the whole gang. A gang whose `gsize` lies outside 2 to 8 is taken as if it were
brought to 1 or 8: DESIGN CHOICE, R56 does not say how many such a grant takes (log 30). -/
def State.headGroup (s : State) (q : WQueue) : List Manifest :=
  let m := s.manifestAt q q.head
  (List.range (if m.gang = 0 then 1 else max 1 (min m.gsize 8))).map fun i => s.manifestAt q (q.head + i)

/-- Every manifest of the head's group is in the ring. -/
def State.headWhole (s : State) (q : WQueue) : Bool := decide ((s.headGroup q).length ≤ q.used)

/-- What a manifest's dependence words say. -/
def depsOf (s : State) (q : WQueue) (m : Manifest) : List Dep := m.deps.map (depOf s q.aspace)

/-- What the head group's dependence words say together. -/
def State.headDeps (s : State) (q : WQueue) : List Dep := (s.headGroup q).flatMap (depsOf s q)

/-- A dependence word of the head's group cannot be read as a tag. The words of a gang are looked at when all of it is present (log 30). -/
def State.headBroken (s : State) (q : WQueue) : Bool := s.headWhole q && (s.headDeps q).any fun d => d == .untagged

/-- The head's group waits on a dependence word. -/
def State.depWaits (s : State) (q : WQueue) : Bool := s.headWhole q && (s.headDeps q).any fun d => d != .full

/-- The head waits: on a dependence word, on a gang member, on a shed class (R390), or before DONE on a ready core (R410). -/
def State.headWaits (s : State) (q : WQueue) : Bool :=
  let ms := s.headGroup q
  !s.headWhole q || (s.headDeps q).any (fun d => d != .full)
    || ms.any (fun m => s.pc.shed.contains (m.pclass % 8))
    || (!s.readyNow.done && ms.any fun m => (List.range m.waves).any fun i => (targets s 0 m i).isEmpty)

/-- A manifest of the queue is granted and not yet dispatched (R60). -/
def State.dispatching (s : State) (q : Nat) : Bool := s.cons.any fun e => e.2.queue == q && e.2.stage == .granted

/-- The queue is eligible (R56). -/
def State.eligible (s : State) (i : Nat) (q : WQueue) : Bool :=
  q.en && decide (0 < q.used) && !s.dispatching i && q.cqFree (s.headGroup q).length && !s.headBroken q && !s.headWaits q

/-- A consignment for a manifest taken from queue `qi` at index `i`. -/
def newCons (s : State) (qi i : Nat) (q : WQueue) (m : Manifest) (gang : List Nat) : Cons where
  queue := qi
  qslot := i
  aspace := q.aspace
  man := m
  obj := ⟨m.code, 0, m.width, 0, m.fp, []⟩
  dataBase := none
  lct := []
  stage := .granted
  placedG := []
  total := m.waves
  live := 0
  exited := 0
  killed := 0
  error := false
  status := 0
  since := s.nsc
  gangCids := gang
  handled := []
  blocks := []
  debugger := false

/-- The head group of a queue taken. -/
def State.takeHead (s : State) (qi : Nat) (status : Manifest → Nat) : State :=
  let q := s.queue qi
  let ms := s.headGroup q
  let ids := (List.range ms.length).map fun j => s.nextId + j
  let s' := ((List.range ms.length).zip ms).foldl (fun s e =>
    { s with cons := put s.cons (s.nextId) { newCons s qi ((q.head + e.1) % 65536) q e.2 ids with
        status := status e.2, error := status e.2 != 0, stage := if status e.2 = 0 then .granted else .placed }
             nextId := s.nextId + 1 }) s
  s'.onQueue qi fun q => { q with head := (q.head + ms.length) % 65536, inFlight := q.inFlight + ms.length, blocked := false, depHeld := false }

/-- The head group is taken; a manifest with a dependence word that is not tagged fails with status 8 (R57). -/
def State.takeBroken (s : State) (qi : Nat) : State :=
  s.takeHead qi fun m => if (depsOf s (s.queue qi) m).contains .untagged then 8 else 0

/-- The first eligible queue of the highest level that has one, from its pointer on (R56). -/
def State.chosenQueue (s : State) : Option Nat :=
  let es := s.queues.filter fun e => s.eligible e.1 e.2
  match (es.map fun e => e.2.prio).max? with
  | none => none
  | some p =>
    let l := (es.filter fun e => e.2.prio == p).map Prod.fst
    let ptr := lookD s.arbPtr p 0
    match l.find? fun i => decide (ptr ≤ i) with
    | some i => some i
    | none => l.head?

/-- The arbiter looks at the head of queue `i` when it grants: the words of a head that waits on one of them stand until they are read
again (R56, R57). -/
def State.looksAt (s : State) (i : Nat) (q : WQueue) : Bool := q.en && decide (0 < q.used) && !q.depHeld && !s.dispatching i

/-- The manifests and dependence words of the head's group read (R247). -/
def State.headLooked (s : State) (q : WQueue) : State :=
  let ms := s.headGroup q
  (ms.flatMap Manifest.deps).foldl (fun s a => if a = 0 ∨ isSpad a then s else s.looked q.aspace a 8)
    (s.missedKeys 1536 ((List.range ms.length).flatMap fun i => [q.manKey (q.head + i), q.manKey (q.head + i) + 64]))

/-- BLOCKED as the arbiter finds it: the head waits (R53, R390, R410). -/
def State.markBlocked (s : State) : State :=
  { s.queues.foldl (fun t e => if s.looksAt e.1 e.2 then t.headLooked e.2 else t) s with
    queues := s.queues.map fun e =>
      if s.looksAt e.1 e.2
      then (e.1, { e.2 with blocked := s.headWaits e.2, depHeld := s.depWaits e.2, reread := if s.depWaits e.2 then s.now else e.2.reread })
      else e }

/-- A head that cannot be read as tagged fails with status 8 (R57). -/
def State.failHeads (s : State) : State :=
  s.queues.foldl (fun s e =>
    let q := s.queue e.1
    if s.looksAt e.1 q && s.headBroken q && q.cqFree (s.headGroup q).length
    then (s.headLooked q).takeBroken e.1 else s) s

/-- The arbiter has granted within the last 32 cycles. They are counted at ratio 1, 12 ticks a cycle: DESIGN CHOICE, since X0 lies in no
band and R6 gives it no clock of its own (log 54). -/
def State.grantedLately (s : State) : Bool := s.grantAt.any fun t => decide (s.now < t + 32 * 12)

/-- ARBITER_GRANT (R56, R57, R61, R401): every 32 cycles one queue is granted, and a manifest or a gang is taken; while an engine
holds 64 manifests there is no grant (R65). -/
def execArbiterGrant (s : State) : Out :=
  if s.rails ≠ .on ∨ s.grantedLately ∨ (List.range 4).any (fun d => decide (64 ≤ (s.die d).queue.length)) then .next s
  else
    let s := (s.failHeads.markBlocked)
    match (({ s with queues := s.queues.filter fun e => !e.2.depHeld }).chosenQueue) with
    | none => .next s
    | some i =>
      let s' := s.takeHead i fun _ => 0
      .next { s' with grantAt := some s.now, arbPtr := put s.arbPtr (s.queue i).prio ((i + 1) % 2048) }

/-- DEPENDENCE_REREAD (R54, R57): the dependence words of a blocked head are read again at most once every 256 cycles, counted at ratio 1
as the arbiter's other times are: DESIGN CHOICE (log 54). -/
def execDependenceReread (q : Nat) (s : State) : Out :=
  let x := s.queue q
  if !x.en ∨ !x.depHeld ∨ x.used = 0 ∨ s.now < x.reread + 256 * 12 then .next s
  else if s.headBroken x then
    if x.cqFree (s.headGroup x).length ∧ !s.dispatching q then .next ((s.headLooked x).takeBroken q) else .next s
  else .next ((s.headLooked x).onQueue q fun y => { y with
    blocked := s.headWaits x, depHeld := s.depWaits x, reread := if s.depWaits x then s.now else y.reread })

end Sys2Proof.Machine
end

