-- ==== Sys2Proof/Machine/Heap.lean ====
section
/-! DEFINITION. The Ozzer translator and its code heap (R24-R31; log 6). -/

namespace Sys2Proof.Machine

/-- The intervals of the heap in use: address and size. -/
def CodeHeap.taken (h : CodeHeap) : List (Nat × Nat) :=
  h.placed.map (fun f => (f.2.2.1, f.2.2.2)) ++ h.stubs.map fun f => (f.2.2, 8)

/-- The lowest place in the heap for `n` bytes, of those that `near` accepts. -/
def CodeHeap.room (h : CodeHeap) (n : Nat) (near : Nat → Bool) : Option Nat :=
  let cands := h.base :: h.taken.map fun t => (t.1 + t.2 + 7) / 8 * 8
  ((cands.filter fun a => near a && decide (h.base ≤ a) && decide (a + n ≤ h.base + h.size)
    && h.taken.all fun t => decide (a + n ≤ t.1) || decide (t.1 + t.2 ≤ a)).min?)

/-- Bytes written at physical addresses of the heap, one after another. -/
def State.heapBytes (s : State) (a : Nat) : List Byte → State
  | [] => s
  | b :: bs => (s.write (storageKey a 0 0 0) [b]).heapBytes (a + 1) bs

/-- Bytes written by the translator at a physical address of the heap; the lines are looked up at their homes (R247). -/
def State.heapWrite (s : State) (a : Nat) (bs : List Byte) : State :=
  (s.missedKeys 1536 ((List.range ((a % 64 + bs.length + 63) / 64)).map fun i => storageKey (a / 64 * 64 + 64 * i) 0 0 0)).heapBytes a bs

/-- A stub's trap form: `trap #0x7FFF`, then the function's number (R27). -/
def trapStub (fn : Nat) : List Byte := toBytes 4 (wordOf (.trap 0x7FFF)).toNat ++ toBytes 4 fn

/-- A stub's jump form: `j` to the native entry, then `nop` (R27). -/
def jumpStub (stub native : Nat) : List Byte :=
  toBytes 4 (wordOf (.j (((native : Int) - stub) / 4))).toNat ++ toBytes 4 (wordOf .nop).toNat

/-- The jump of a stub reaches the native entry: its offset in words is a signed number of 24 bits. -/
def jumpReaches (stub native : Nat) : Bool :=
  let off := ((native : Int) - stub) / 4
  decide (-(2 ^ 23) ≤ off) && decide (off < 2 ^ 23)

/-- Stubs in the trap form for functions `i` to `i + n - 1` of a consignment (R27). `none` where the heap has no room for one: the launch then
fails with status 3 and nothing is evicted for it, DESIGN CHOICE, since R31 says so of placing functions and not of stubs (log 62). -/
def State.makeStubs (s : State) (cid i : Nat) : Nat → Option State
  | 0 => some s
  | n + 1 => match s.heap.room 8 fun _ => true with
    | none => none
    | some a =>
      (({ s with heap := { s.heap with stubs := s.heap.stubs ++ [(cid, i, a)] } }).heapWrite a (trapStub i)).makeStubs cid (i + 1) n

/-- The physical address of a virtual one. -/
def physVa (s : State) (c : Cons) (va : Nat) : Option Nat :=
  match s.heapAt c va, walk s c.aspace va with
  | some a, _ => some a
  | none, .ok b pa _ _ => some (pa + (va57 va - b))
  | none, _ => none

/-- The words of `.lane` in the lane blocks that function `fn` owns, in the blocks' order (R16, R24). -/
def fnLane (s : State) (aspace : Nat) (o : CodeObj) (fn : Nat) : List Nat :=
  let num := fun x n => vNum s aspace (o.base + x) n
  let e := (o.sect 11).1 + 16 * fn
  (List.range (num (e + 12) 4)).flatMap fun i =>
    let b := (o.sect 5).1 + 8 * (num (e + 8) 4 + i)
    (List.range (num (b + 4) 2)).map fun j => num b 4 + j

/-- Where lane word `k` lies in the code heap: in the copy of a placed function that owns it (R29). -/
def State.laneHeap (s : State) (cid : Nat) (c : Cons) (k : Nat) : Option Nat :=
  s.heap.placed.findSome? fun f =>
    if f.1 = cid then ((fnLane s c.aspace c.obj f.2.1).idxOf? k).map fun j => f.2.2.1 + Config.nativeSize cid f.2.1 + 12 * j else none

/-- A wave's program counters and return addresses, held and spilled (R30). -/
def codePlaces (s : State) (n : Nat) (w : Wave) : List Nat :=
  w.spc :: w.stack.map RetEntry.addr
    ++ (List.range w.spilled).flatMap fun i => (readChunk s (w.chunkKey n i)).map RetEntry.addr

/-- The physical places of a wave's code: its program counters, its return addresses, and the blocks in its lane queue (R30). -/
def physPlaces (s : State) (n : Nat) (w : Wave) : List Nat :=
  match s.con w.cid with
  | none => []
  | some c =>
    (codePlaces s n w).filterMap (physVa s c)
      ++ (w.nextLpc w.queue :: (w.laneQ ++ w.handQ).map LBlock.start).filterMap fun k =>
        (s.laneHeap w.cid c k).or (physVa s c (c.obj.laneAt k))

/-- The `size` bytes at `a` are pinned by a resident wave (R30). -/
def pinned (s : State) (a size : Nat) : Bool :=
  s.waves.any fun e => (physPlaces s e.1 e.2).any fun p => decide (a ≤ p) && decide (p < a + size)

/-- The oldest function that is not pinned is evicted: its stub takes the trap form again (R30). -/
def State.evict (s : State) : Option State :=
  match s.heap.placed.find? fun f => !pinned s f.2.2.1 f.2.2.2 with
  | none => none
  | some f =>
    let s' := { s with heap := { s.heap with placed := s.heap.placed.erase f } }
    match s.heap.stubs.find? fun x => x.1 == f.1 && x.2.1 == f.2.1 with
    | some x => some (s'.heapWrite x.2.2 (trapStub f.2.1))
    | none => some s'

/-- The stubs of a consignment by function. -/
def State.stubsOf (s : State) (cid : Nat) : List (Nat × Nat) := (s.heap.stubs.filter fun x => x.1 == cid).map fun x => x.2

/-- The 12 bytes of lane word `k`. -/
def laneBytes (s : State) (aspace : Nat) (o : CodeObj) (k : Nat) : List Byte := toBytes 12 (vNum s aspace (o.laneAt k) 12)

/-- A function's native code and then its lane blocks, written whole where the heap has room; only then its stub (R29). -/
def State.tryPlace (s : State) (cid aspace : Nat) (o : CodeObj) (fn stub : Nat) : Option State :=
  let n := Config.nativeSize cid fn
  let ks := fnLane s aspace o fn
  let size := n + 12 * ks.length
  match s.heap.room size (jumpReaches stub) with
  | some a =>
    let s' := s.heapWrite a ((List.range n).map (Config.nativeByte cid fn a (s.stubsOf cid)) ++ ks.flatMap (laneBytes s aspace o))
    some (({ s' with heap := { s'.heap with placed := s'.heap.placed ++ [(cid, fn, a, size)] } }).heapWrite stub (jumpStub stub a))
  | none => none

/-- A function placed, with evictions that make room, at most `k` of them; whether it could be placed. What was evicted stays so (R30). -/
def State.placeFn (s : State) (cid aspace : Nat) (o : CodeObj) (fn stub : Nat) : Nat → State × Bool
  | 0 => match s.tryPlace cid aspace o fn stub with
    | some s => (s, true)
    | none => (s, false)
  | k + 1 => match s.tryPlace cid aspace o fn stub with
    | some s => (s, true)
    | none => match s.evict with
      | some s => s.placeFn cid aspace o fn stub k
      | none => (s, false)

/-- The stub of a function. -/
def State.stubOf (s : State) (cid fn : Nat) : Option Nat := (s.heap.stubs.find? fun x => x.1 == cid && x.2.1 == fn).map fun x => x.2.2

/-- Functions of a list placed at load (R27). -/
def State.placeAll (s : State) (cid aspace : Nat) (o : CodeObj) : List Nat → State × Bool
  | [] => (s, true)
  | f :: fs => match s.stubOf cid f with
    | none => s.placeAll cid aspace o fs
    | some a => match s.placeFn cid aspace o f a s.heap.placed.length with
      | (s, true) => s.placeAll cid aspace o fs
      | (s, false) => (s, false)

/-- A consignment without functions and stubs in the heap. -/
def State.dropOzz (s : State) (cid : Nat) : State :=
  { s with heap := { s.heap with placed := s.heap.placed.filter (fun f => f.1 != cid), stubs := s.heap.stubs.filter fun f => f.1 != cid } }

/-- An Ozzer object at load: every function gets a stub, and every handler function is placed; false where the heap is
exhausted (R27, R31). -/
def State.loadOzz (s : State) (cid aspace : Nat) (o : CodeObj) : State × Bool :=
  let num := fun x n => vNum s aspace (o.base + x) n
  let n := (o.sect 11).2 / 16
  let hs := (List.range ((o.sect 10).2 / 8)).map fun i => num ((o.sect 10).1 + 8 * i + 4) 4
  let fs := (List.range n).filter fun i => hs.contains (num ((o.sect 11).1 + 16 * i) 4)
  match s.makeStubs cid 0 n with
  | none => (s, false)
  | some s => s.placeAll cid aspace o fs

/-- The virtual address at which a wave with entry offset `entry` starts: in an Ozzer object the stub of the function that begins there,
and else the word of `.scalar` (R27, R70; log 6). -/
def State.entryAt (s : State) (cid : Nat) (c : Cons) (entry : Nat) : Nat :=
  let t := c.obj.sect 11
  let fn := if c.ozz then (List.range (t.2 / 16)).find? fun i => vNum s c.aspace (c.obj.base + t.1 + 16 * i) 4 == entry else none
  match fn.bind (s.stubOf cid) with
  | some a => va57 (heapVa c.aspace + (a - s.heap.base))
  | none => va57 (c.obj.scalarBase + entry)

/-- Waves parked on a function go on, at the stub's first word (R29). -/
def State.unparkFn (s : State) (cid fn : Nat) : State :=
  { s with waves := s.waves.map fun e =>
      if e.2.cid = cid ∧ e.2.park = .translate fn then (e.1, { e.2 with park := .none }) else e }

/-- Waves of a list killed (R31); the manual gives this kill no cause of its own, and the log takes that of its trap word. -/
def State.killAll (s : State) : List Nat → State
  | [] => s
  | n :: ns => (s.kill n 1 0 false).killAll ns

/-- TRANSLATE_ON_CALL (R29-R31): the translator places the function that a wave parked on, and every wave parked on it goes on;
where nothing can be evicted they are killed, and the consignment's status is 3. A `trap #0x7FFF` outside every stub is taken as a stub of
its own, at its address: DESIGN CHOICE, R28 does not say (log 62). -/
def execTranslateOnCall (n : Nat) (s : State) : Out :=
  match s.wave n with
  | none => .next s
  | some w => match w.park, s.con w.cid with
    | .translate fn, some c =>
      if s.heap.placed.any fun f => f.1 == w.cid && f.2.1 == fn then .next (s.unparkFn w.cid fn)
      else
        let placed := match (s.stubOf w.cid fn).or (physVa s c w.spc) with
          | some a => s.placeFn w.cid c.aspace c.obj fn a s.heap.placed.length
          | none => (s, false)
        match placed with
        | (s, true) => .next (s.unparkFn w.cid fn)
        | (s, false) =>
          let ns := (s.waves.filter fun e => e.2.cid == w.cid && e.2.park == .translate fn).map Prod.fst
          .next ((s.killAll ns).onCon w.cid fun c => { c with status := 3, error := true })
    | _, _ => .next s

end Sys2Proof.Machine
end

