-- ==== Sys2Proof/Machine/Placement.lean ====
section
/-! DEFINITION. Dispatch, placement, the start of a wave, `launch` and `spawn`, and the end of waves and consignments
(R60-R78). -/

namespace Sys2Proof.Machine

/-! ## Leasing rows (R67, R69) -/

/-- A row is free. -/
def rowFree (ls : List Lease) (kind r : Nat) : Bool := !(ls.any fun l => l.kind == kind && l.row == r)

/-- The lowest free rows of a kind from a range, leased to a wave. -/
def takeRows (ls : List Lease) (kind lo len want n cid : Nat) : Option (List Lease) :=
  let free := ((List.range len).map fun i => lo + i).filter (rowFree ls kind)
  if free.length < want then none else some (ls ++ (free.take want).map fun r => ⟨kind, r, n, cid, false⟩)

/-- The lowest contiguous run of free granules. -/
def runAt (ls : List Lease) (want : Nat) : Option Nat :=
  (List.range (255 - want)).find? fun i => (List.range want).all fun j => rowFree ls 4 (i + j)

/-- A run of granules leased, with its first granule. -/
def takeRun (ls : List Lease) (want n cid : Nat) : Option (List Lease × Nat) :=
  if want = 0 then some (ls, 0)
  else if 254 < want then none
  else (runAt ls want).map fun i => (ls ++ (List.range want).map fun j => ⟨4, i + j, n, cid, false⟩, i)

/-- Scratchpad granules of a footprint (R69). -/
def Footprint.granules (f : Footprint) : Nat := (f.spad + f.stack + 4095) / 4096

/-- A wave's rows on partition `part` of core `q`: the leases afterwards, its number, its first granule and the first granule
of the pipe rings it consumes. -/
def planWave (ls : List Lease) (q part cid : Nat) (f : Footprint) (pg : Nat) : Option (List Lease × Nat × Nat × Nat) :=
  match ((List.range 24).map fun i => 24 * part + i).find? (fun i => rowFree ls 0 i) with
  | none => none
  | some slot =>
    let n := 96 * q + slot
    ((((takeRows (ls ++ [⟨0, slot, n, cid, false⟩]) 1 (32 * part) 32 ((f.regs + f.acc) / 16) n cid).bind fun ls =>
      takeRows ls 2 (64 * part) 64 (f.sregs / 32) n cid).bind fun ls =>
      takeRows ls 3 (32 * part) 32 (f.priv / 16) n cid).bind fun ls =>
      takeRun ls f.granules n cid).bind fun x =>
      (takeRun x.1 pg n cid).map fun y => (y.1, n, x.2, y.2)

/-- The `k` waves of a group on distinct partitions of a core, lowest partitions first (R67). -/
def planGroup (ls : List Lease) (q cid : Nat) (f : Footprint) (pg : Nat) :
    List Nat → Nat → Option (List Lease × List (Nat × Nat × Nat))
  | _, 0 => some (ls, [])
  | [], _ + 1 => none
  | part :: parts, k + 1 =>
    match planWave ls q part cid f pg with
    | some x => (planGroup x.1 q cid f pg parts k).map fun y => (y.1, x.2 :: y.2)
    | none => planGroup ls q cid f pg parts (k + 1)

/-- Granules of the pipe rings that a member consumes (R63). -/
def Manifest.pipeGranules (m : Manifest) : Nat :=
  ((m.bindings.filter fun b => b / 16 % 2 == 1).map fun b => (pipeSlots b * 256 + 4095) / 4096).sum

/-- A group's plan on core `q` with waves on partitions of a list; the consignment needs a slot there (R75). -/
def planWith (c : Core) (q cid : Nat) (m : Manifest) (parts : List Nat) : Option (List Lease × List (Nat × Nat × Nat)) :=
  if c.slots.any (fun x => x.cid == cid) || decide (c.slots.length < 16)
  then planGroup c.leases q cid m.fp m.pipeGranules parts m.perGroup else none

/-- A group's plan on core `q`. -/
def planOn (c : Core) (q cid : Nat) (m : Manifest) : Option (List Lease × List (Nat × Nat × Nat)) := planWith c q cid m [0, 1, 2, 3]

/-- Free wave slots of a core. -/
def Core.freeSlots (c : Core) : Nat := 96 - (c.leases.filter fun l => l.kind == 0).length

/-- The consignment's slot on a core, taken if it has none (R75). -/
def State.takeSlot (s : State) (q cid : Nat) : State :=
  s.onCore q fun c => if c.slots.any fun x => x.cid == cid then c else { c with slots := c.slots ++ [⟨cid, 0, 0, 0, 0⟩] }

/-! ## A new wave (R70) -/

/-- No convoy. -/
def Convoy.empty : Convoy := ⟨.none, 0, [], [], 0, 0, 0, none, none, none, none, none, [], none, 0⟩

/-- What a new wave is told: its number and depth, its entry, and s1, s2 and s3. -/
structure Birth where
  wid   : Nat
  depth : Nat
  entry : Nat
  s1    : Word
  s2    : Nat
  s3    : Nat

/-- Lanes launched: `lanes` logical lanes of the group, of which member `m` holds 64m to 64m + 63 (R67). -/
def lanesFrom (lanes m : Nat) : Word := BitVec.ofNat 64 (2 ^ min 64 (lanes - 64 * m) - 1)

/-- A wave as its rows are leased: at its start it holds what R70 lists. In an Ozzer object its program counter is set apart
(`State.entryAt`). -/
def bornWave (c : Cons) (cid l : Nat) (b : Birth) (lanes m g pg : Nat) (width : Option (Nat × Nat × Nat)) : Wave where
  cid := cid
  lcore := l
  wid := b.wid
  depth := b.depth
  width := c.man.width
  fp := c.man.fp
  sbase := 4096 * g
  pipeRun := if c.man.pipeGranules = 0 then none else some (4096 * pg, c.man.pipeGranules)
  pclass := c.man.pclass
  launched := lanesFrom lanes m
  exited := 0
  lmask := lanesFrom lanes m
  spc := va57 (c.obj.scalarBase + b.entry)
  lpc := 0
  regs := ⟨put (put (put [] 1 b.s1) 2 (BitVec.ofNat 64 b.s2)) 3 (BitVec.ofNat 64 b.s3), [], [], [], [], []⟩
  ctl := ⟨0, 0, 0, 0, 0, 0, 0, none, false, [], [], none⟩
  laneQ := []
  handQ := []
  ops := []
  pend := []
  landed := []
  rings := []
  rings0 := []
  ringsAt := none
  tbs := []
  stack := []
  spilled := 0
  members := []
  acks := []
  oplog := []
  fences := []
  cmds := []
  park := .none
  under := .none
  convoy := { Convoy.empty with width := width, skew := if width.isSome then 2 else 0 }
  sched := ⟨false, 0, 0, 0, 0, 0, 0, .none, .none, 0, 0, none⟩
  life := .clearing
  shedding := false
  edge := .none
  safeAt := none

/-- Storage of a wave's leased granules. -/
def State.granuleKeys (s : State) (n : Nat) (k : Nat) : Bool :=
  keyIsSpad k && (s.core (keyCore k)).leases.any fun l => l.kind == 4 && l.wave == n && l.row == keyOff k / 4096

/-- The granules of a wave cleared, bytes and tags (R70). -/
def State.clearRows (s : State) (n : Nat) : State :=
  { s with mem := s.mem.filter (fun e => !s.granuleKeys n e.1), full := s.full.filter fun x => !s.granuleKeys n (8 * x) }

/-- The waves of a group recorded with their leases; their granules are cleared with the lease (R70; log 63). -/
def State.bear (s : State) (c : Cons) (cid l q : Nat) (b : Birth) (lanes : Nat) (ls : List Lease) (ws : List (Nat × Nat × Nat)) : State :=
  let lead := (ws.head?.map fun x => x.1).getD 0
  let k := ws.length
  let s := (s.takeSlot q cid).onCore q fun x => { x with leases := ls }
  let at_ := s.entryAt cid c b.entry
  let s := ((List.range k).zip ws).foldl (fun s e =>
    (s.clearRows e.2.1).setWave e.2.1 { bornWave c cid l b lanes e.1 e.2.2.1 e.2.2.2 (if k = 1 then none else some (lead, e.1, k)) with
      spc := at_, shedding := s.pc.shed.contains c.man.pclass }) s
  s.onCon cid fun c => { c with live := c.live + k }

/-! ## Who asks first (R69) -/

/-- The next group of a die's head manifest: the consignment, the group and its target core with a plan. The core with most free wave
slots is taken among those where the group's rows fit: DESIGN CHOICE, R66 does not say whether to wait for a fuller one (log 30). -/
def State.headPlan (s : State) (die : Nat) : Option (Nat × Nat × Nat × Nat × List Lease × List (Nat × Nat × Nat)) :=
  match (s.die die).queue with
  | [] => none
  | cid :: _ => match s.con cid with
    | none => none
    | some c =>
      match (List.range c.man.waves).find? fun i => targetDie c.man i == die && !c.placedG.contains i with
      | none => none
      | some i =>
        ((targets s cid c.man i).foldl (fun best e =>
          match planOn (s.core e.2) e.2 cid c.man with
          | none => best
          | some x =>
            let f := (s.core e.2).freeSlots
            match best with
            | some (bf, _) => if bf < f then some (f, (cid, i, e.1, e.2, x.1, x.2)) else best
            | none => some (f, (cid, i, e.1, e.2, x.1, x.2))) none).map Prod.snd

/-- What a `spawn` asked for: its register, count, entry and argument. -/
def Park.spawnOf : Park → Option (Nat × Nat × Nat × Word)
  | .spawn d count entry arg => some (d, count, entry, arg)
  | _ => Option.none

/-- The `spawn` in which a wave waits, one that a handler has interrupted too (R364). -/
def Wave.spawnWait (w : Wave) : Option (Nat × Nat × Nat × Word) := w.park.spawnOf.or w.under.spawnOf

/-- A wave of core `q` waits for a `spawn`. -/
def State.asksSpawn (s : State) (q : Nat) : Bool :=
  s.waves.any fun e => coreOfWave e.1 == q && e.2.spawnWait.isSome

/-- The head manifest of the die asks for rows of core `q`. -/
def State.asksHead (s : State) (q : Nat) : Bool := match s.headPlan (dieOf q) with
  | some x => x.2.2.2.1 == q
  | none => false

/-- The rows of a task wave of a channel on core `q`, where its class is not shed and the core can hold it (R324, R390). -/
def State.taskPlan (s : State) (q : Nat) (r : RecvHalf) : Option (Cons × List Lease × List (Nat × Nat × Nat)) :=
  match s.con r.owner with
  | none => none
  | some c =>
    let c := { c with man := { c.man with fp := r.desc.fp, pipes := [] } }
    if s.pc.shed.contains c.man.pclass then none else (planOn (s.core q) q r.owner c.man).map fun x => (c, x)

/-- A route engine asks for rows of core `q` for a task wave. -/
def State.asksTask (s : State) (q : Nat) : Bool :=
  (s.core q).rt.chans.any fun e => e.2.recv.any fun r => r.task.isSome && (s.taskPlan q r).isSome

/-- Requester `r` asks for rows of core `q` now. -/
def State.asks (s : State) (q : Nat) : Requester → Bool
  | .spawn => s.asksSpawn q
  | .head => s.asksHead q
  | .task => s.asksTask q

/-- The rotation of R69. -/
def Requester.next : Requester → Requester
  | .spawn => .head
  | .head => .task
  | .task => .spawn

/-- The requester of core `q` with which the rotation goes on in this cycle: after the one served last in a contest of this cycle, and
else where the next contest starts. -/
def State.rotation (s : State) (q : Nat) : Requester := match (s.core q).turnAt with
  | some (c, r) => if c = s.clk q then r.next else (s.core q).turn
  | none => (s.core q).turn

/-- Requester `r` asks for rows of core `q`; it is served now where it is the first in the rotation of those that ask. -/
def State.mayServe (s : State) (q : Nat) (r : Requester) : Bool :=
  let t := s.rotation q
  let asks := fun x => x == r || s.asks q x
  r == (if asks t then t else if asks t.next then t.next else t.next.next)

/-- Requester `r` is served on core `q`. After a contest the next one starts from the requester after the one served first in it. -/
def State.serve (s : State) (q : Nat) (r : Requester) : State :=
  let clk := s.clk q
  let open_ := (s.core q).turnAt.any fun x => x.1 == clk
  if open_ then s.onCore q fun c => { c with turnAt := some (clk, r) }
  else if ([Requester.spawn, .head, .task].filter fun x => x == r || s.asks q x).length < 2 then s
  else s.onCore q fun c => { c with turn := r.next, turnAt := some (clk, r) }

/-! ## Dispatch (R58, R60) -/

/-- Groups of consignments can all be placed together: some choice of target cores, and of partitions on them, holds them all (R60). -/
def fitsAll (s : State) : List (Nat × Cons × Nat) → Bool
  | [] => true
  | (cid, c, i) :: is => (targets s cid c.man i).any fun e =>
    ([0, 1, 2, 3].sublistsLen c.man.perGroup).any fun parts => match planWith (s.core e.2) e.2 cid c.man parts with
      | some x => fitsAll ((s.takeSlot e.2 cid).onCore e.2 fun k => { k with leases := x.1 }) is
      | none => false

/-- The machine with every core empty. -/
def State.emptied (s : State) : State :=
  { s with cores := s.cores.map fun e => (e.1, { e.2 with leases := [], slots := [] }) }

/-- The manifest was taken as one of a gang, whatever its own gang number says (R56, R62). -/
def Cons.ganged (c : Cons) : Bool := c.man.gang != 0 || decide (1 < c.gangCids.length)

/-- The consignments of a gang, or the one alone. -/
def State.gangOf (s : State) (cid : Nat) (c : Cons) : List (Nat × Cons) :=
  (if c.ganged then c.gangCids else [cid]).filterMap fun i => (s.con i).map fun x => (i, x)

/-- The members of a gang, or the one alone, cannot be resident (R60). -/
def unfit (s : State) (gs : List (Nat × Cons)) : Bool :=
  gs.any (fun e =>
    (planGroup [] 0 e.1 e.2.man.fp e.2.man.pipeGranules [0, 1, 2, 3] e.2.man.perGroup).isNone
      || (s.readyNow.done && (List.range e.2.man.waves).any fun i => (targets s e.1 e.2.man i).isEmpty))
    || (gs.any (fun e => e.2.man.whole) && !fitsAll s.emptied (gs.flatMap fun e => (List.range e.2.man.waves).map fun i => (e.1, e.2, i)))

/-- What a manifest and its code object come to: the status, the object, and the address that could not be read under status 9, with whether an
uncorrectable memory error lies there. -/
structure Checked where
  cid    : Nat
  con    : Cons
  status : Nat
  obj    : Option CodeObj
  va     : Nat
  ue     : Bool

/-- What a manifest and its code object come to on their own, apart from gang and residence, or the page fault that their reading meets
(R60). -/
def checkOne (s : State) (cid : Nat) (c : Cons) : Except Nat Checked :=
  match loadObject s c.aspace c.man.code with
  | (.fault va, _) => .error va
  | (.bad va ue, _) => .ok ⟨cid, c, 9, none, va, ue⟩
  | (.ok, none) => .ok ⟨cid, c, 2, none, 0, false⟩
  | (.ok, some o) =>
    let r := lookD s.regions c.man.region Region.reset
    let status :=
      if !manifestGood c.man o then 4
      else if c.man.region ≠ 0 ∧ r.v ∧ targetsOut s cid c.man then 4
      else if c.man.gang = 0 ∧ c.man.bindings ≠ [] then 4
      else if c.man.region ≠ 0 ∧ !r.v then 7 else 0
    .ok ⟨cid, c, status, some o, 0, false⟩

/-- What each member comes to, or the first page fault with its member. -/
def checkAll (s : State) : List (Nat × Cons) → Except (Nat × Nat) (List Checked)
  | [] => .ok []
  | e :: es => match checkOne s e.1 e.2, checkAll s es with
    | .error va, _ => .error (e.1, va)
    | _, .error x => .error x
    | .ok r, .ok rs => .ok (r :: rs)

/-- A consignment that fails at dispatch (R60, R76): its record follows. -/
def State.failCons (s : State) (cid status : Nat) : State :=
  s.onCon cid fun c => { c with stage := .placed, status := status, error := true }

/-- The first and the last slot of the manifests that were granted together. -/
def gangSlots (gs : List (Nat × Cons)) : Nat × Nat := ((gs.head?.map fun e => e.2.qslot).getD 0, (gs.getLast?.map fun e => e.2.qslot).getD 0)

/-- The queue's head goes back to the manifests of a grant whose reading waits for a page (R60). -/
def State.holdHead (s : State) (c : Cons) (gs : List (Nat × Cons)) : State :=
  s.onQueue c.queue fun q => { q with head := (gangSlots gs).1 }

/-- The queue's head moves past manifests whose reading had held it there. -/
def State.passHead (s : State) (c : Cons) (gs : List (Nat × Cons)) : State :=
  s.onQueue c.queue fun q => if q.head = (gangSlots gs).1 then { q with head := ((gangSlots gs).2 + 1) % 65536 } else q

/-- Members that fail: each with its own status, and those without one with `status`. -/
def State.failAll (s : State) (status : Nat) : List Checked → State
  | [] => s
  | r :: rs =>
    let s := if r.status = 9 then s.logUnit 0 r.va 0 0xFFFF 0 7 (if r.ue then 5 else 4) r.cid true else s
    (s.failCons r.cid (if r.status = 0 then status else r.status)).failAll status rs

/-- The consignment's own copy of `.data` (R15; log 6). -/
def State.copyData (s : State) (c : Cons) (o : CodeObj) (d : Nat) : Nat → State
  | 0 => s
  | n + 1 =>
    let s := s.copyData c o d n
    match vAt s c.aspace (o.base + (o.sect 4).1 + n) .read with
    | .at k => s.write (storageKey (d + n) 0 0 0) [Memory.get s.mem k]
    | _ => s

/-- The entries of an object's lane block table as `lblk` reads them: the start in bits 23:0 and the length in bits 31:24 (R16, R158). -/
def blockEntries (s : State) (aspace : Nat) (o : CodeObj) : List Nat :=
  let t := o.sect 5
  (List.range (t.2 / 8)).map fun i =>
    vNum s aspace (o.base + t.1 + 8 * i) 4 % 2 ^ 24 + vNum s aspace (o.base + t.1 + 8 * i + 4) 2 % 256 * 2 ^ 24

/-- A consignment handed to the placement engines with its object (R65). Its lane block table is kept as it was read here (R158; log 6). -/
def State.handOver (s : State) (cid : Nat) (c : Cons) (o : CodeObj) : State :=
  let d := Config.dataPlace cid % 2 ^ 28 * 4096
  let size := (o.sect 4).2
  let entry := if c.man.entry = 0xFFFFFFFF then o.entry else c.man.entry
  let bs := blockEntries s c.aspace o
  let s := s.copyData c o d size
  let s := s.onCon cid fun c => { c with
    stage := .placing, obj := o, man := { c.man with entry := entry }, blocks := bs
    dataBase := if size = 0 then none else some d, since := s.nsc }
  [0, 1, 2, 3].foldl (fun s d => s.onDie d fun x => { x with queue := x.queue ++ [cid] }) s

/-- Ozzer objects among the members loaded, one after another (R27, R31). -/
def State.loadAll (s : State) : List Checked → State × Bool
  | [] => (s, true)
  | r :: rs => match r.obj with
    | some o =>
      if o.flags % 2 = 1 then match s.loadOzz r.cid r.con.aspace o with
        | (s, true) => s.loadAll rs
        | (s, false) => (s, false)
      else s.loadAll rs
    | none => s.loadAll rs

/-- Every member handed over, in role order, with none between (R61, R65). -/
def State.handAll (s : State) : List Checked → State
  | [] => s
  | r :: rs => (match r.obj with
    | some o => s.handOver r.cid r.con o
    | none => s).handAll rs

/-- A page fault of some consignment's dispatch waits for service. -/
def State.dispatchFault (s : State) (cid : Nat) : Bool := s.faults.any fun f => match f with
  | .dispatch x _ _ => x == cid
  | _ => false

/-- What becomes of the members of a gang, or of one manifest alone, once each has been read: all of them go to the placement engines, or
all fail; `gs` are all members, among them those that have failed already, and `rs` those still to be dispatched (R60, R61). -/
def State.dispatchAll (s : State) (c : Cons) (gs : List (Nat × Cons)) (rs : List Checked) : State :=
  if rs.any (fun r => r.status != 0) then s.failAll 6 rs
  else if c.ganged ∧ (!gangGood (gs.map fun e => e.2.man) || decide (rs.length < gs.length)) then s.failAll 6 rs
  else if unfit s gs then s.failAll 5 rs
  else match s.loadAll rs with
    | (s, true) => s.handAll rs
    | (s, false) => (rs.foldl (fun s r => s.dropOzz r.cid) s).failAll 3 rs

/-- What the dispatch of `rs` reads and writes in memory, looked up at its homes: the code objects' extents, and the copies of `.data`
(R15, R60, R247). -/
def State.objLooked (s : State) : List (Nat × Cons) → State
  | [] => s
  | e :: es =>
    let s := s.looked e.2.aspace e.2.man.code (objExtent s e.2.aspace e.2.man.code)
    let s := match (s.con e.1).bind fun c => c.dataBase.map fun d => (d, (c.obj.sect 4).2) with
      | some (d, n) => s.missedKeys 1536 ((List.range ((n + 63) / 64)).map fun i => storageKey (d + 64 * i) 0 0 0)
      | none => s
    s.objLooked es

/-- DISPATCH (R54, R58, R60, R61, R65): the code objects of the granted manifests are read and checked with them; failures end the
consignments, a page fault waits with the manifests at the head of their queue, and otherwise the placement engines take them, as soon as
each has room for all of them. A gang is dispatched as a whole. -/
def execDispatch (cid : Nat) (s : State) : Out :=
  match s.con cid with
  | none => .next s
  | some c =>
    let gs := s.gangOf cid c
    let full := (List.range 4).any fun d => decide (64 < (s.die d).queue.length + gs.length)
    if c.stage ≠ .granted ∨ !(s.queue c.queue).en ∨ full ∨ gs.any (fun e => s.dispatchFault e.1) then .next s
    else
      let new := gs.filter fun e => e.2.stage == .granted
      match checkAll s new with
      | .error (i, va) => .next (({ s with faults := s.faults ++ [Fault1.dispatch i c.aspace va] }.holdHead c gs).objLooked new)
      | .ok rs => .next (((s.passHead c gs).dispatchAll c gs rs).objLooked new)

/-! ## Placement (R65-R68) -/

/-- What a manifest group's waves are told (R70). -/
def groupBirth (c : Cons) (i : Nat) : Birth := ⟨i, 0, c.man.entry, c.man.args, i, BitVec.ofNat 64 c.man.waves |>.toNat⟩

/-- Launched lanes of group `i`: `last` in the last group (R67). -/
def groupLanes (m : Manifest) (i : Nat) : Nat := if i + 1 = m.waves ∧ m.last ≠ 0 then m.last else m.width

/-- The consumer bindings of a member with the byte offsets of their rings in its pipe run. -/
def ringOffsets (base : Nat) : List Nat → List (Nat × Nat)
  | [] => []
  | b :: bs => (b, base) :: ringOffsets (base + (pipeSlots b * 256 + 4095) / 4096 * 4096) bs

/-- The wave at the other end of a pipe: the partner member's wave of the same number and width index, and its binding. -/
def State.partner (s : State) (c : Cons) (w : Wave) (b : Nat) : Option (Nat × Wave × Nat) :=
  c.gangCids.findSome? fun i => match s.con i with
    | none => none
    | some d => match d.man.bindings.find? fun x => x % 16 == b % 16 && x / 16 % 2 != b / 16 % 2 with
      | none => none
      | some x => (s.waves.find? fun e => e.2.cid == i && e.2.wid == w.wid && e.2.depth == 0
          && (e.2.convoy.width.map fun z => z.2.1) == (w.convoy.width.map fun z => z.2.1)).map fun e => (e.1, e.2, x)

/-- The byte offset of a consumer's ring for a binding. -/
def consumerBase (m : Manifest) (w : Wave) (b : Nat) : Nat :=
  match (ringOffsets ((w.pipeRun.map Prod.fst).getD 0) (m.bindings.filter fun x => x / 16 % 2 == 1)).find? fun e => e.1 == b with
  | some e => e.2
  | none => 0

/-- The pipe rings of a wave as hardware initialises them (R63). -/
def State.pipeRings (s : State) (c : Cons) (w : Wave) : Arr Ring :=
  c.man.bindings.foldl (fun rs b =>
    match s.partner c w b with
    | none => rs
    | some (m, v, x) =>
      let cons := b / 16 % 2 == 1
      let base := if cons then consumerBase c.man w b
        else match s.con v.cid with
          | some d => consumerBase d.man v x
          | none => 0
      put rs (b / 32 % 16) ⟨true, base, pipeSlots b, 0, 0, 0, 0,
        if cons then .consumer m (x / 32 % 16) else .producer m (x / 32 % 16), 0, 0, 0, false⟩) []

/-- Every row of every member is leased, where the consignment is placed all or none (R61, R68). -/
def State.allLeased (s : State) (cid : Nat) (c : Cons) : Bool :=
  !c.man.whole || (s.gangOf cid c).all fun e => e.2.stage == .placed

/-- The rings at both ends of every pipe of a gang, once all its waves have their rows and before any of them starts (R63). -/
def State.initPipes (s : State) (gs : List (Nat × Cons)) : State :=
  { s with waves := s.waves.map fun e => match gs.find? fun g => g.1 == e.2.cid with
      | some g => (e.1, { e.2 with rings := s.pipeRings g.2 e.2 })
      | none => e }

/-- A die's engine has placed every wave of its head manifest: it goes on, and after the fourth the manifest is placed; with the last of a
gang its pipes are ready. -/
def State.popEngine (s : State) (die cid : Nat) : State :=
  let s := (s.onDie die fun x => { x with queue := x.queue.drop 1 }).onCon cid fun c => { c with
    handled := c.handled ++ [die], stage := if 3 ≤ c.handled.length then .placed else c.stage }
  match s.con cid with
  | some c => if c.man.gang ≠ 0 ∧ c.stage = .placed ∧ s.allLeased cid c then s.initPipes (s.gangOf cid c) else s
  | none => s

/-- WAVE_PLACEMENT (R65-R69, R401): the engine leases the rows of its head's next group on the target core with most free slots; while the
power fails nothing is placed. -/
def execWavePlacement (die : Nat) (s : State) : Out :=
  if s.rails ≠ .on then .next s else
  match (s.die die).queue with
  | [] => .next s
  | cid :: _ => match s.con cid with
    | none => .next (s.onDie die fun x => { x with queue := x.queue.drop 1 })
    | some c =>
      if !((List.range c.man.waves).any fun i => targetDie c.man i == die && !c.placedG.contains i)
      then .next (s.popEngine die cid)
      else match s.headPlan die with
        | none => .next s
        | some (_, i, l, q, ls, ws) =>
          if !s.mayServe q .head then .next s
          else
            let s := s.serve q .head
            let s := s.onCon cid fun c => { c with lct := if c.placedG.isEmpty then s.bringup else c.lct, placedG := c.placedG ++ [i] }
            .next (s.bear c cid l q (groupBirth c i) (groupLanes c.man i) ls ws)

/-! ## The start of a wave (R61, R63, R70) -/

/-- One wave of a group starts; it enters the active set if that has room (R70, R110). -/
def State.startOne (s : State) (n : Nat) (w : Wave) : State :=
  let p := coreOfWave n
  let clk := s.clk p
  let room := decide (s.activeCount p (partOfWave n) < 8)
  (s.setWave n { w with
    life := .running
    sched := ⟨room, clk, clk, clk, clk, clk, clk, .none, .none, 0, 0, none⟩ }).acquire p .pk

/-- The waves of a group start together. -/
def State.startAll (s : State) : List (Nat × Wave) → State
  | [] => s
  | e :: es => (s.startOne e.1 e.2).startAll es

/-- WAVE_START (R61, R67, R70, R401): the wave, with the others of its width convoy, starts with the rows that were cleared for it; none
starts while the power fails. -/
def execWaveStart (n : Nat) (s : State) : Out :=
  match s.wave n with
  | none => .next s
  | some w => match s.con w.cid with
    | none => .next s
    | some c =>
      if w.life ≠ .clearing || !s.allLeased w.cid c || s.rails != .on then .next s
      else
        let group := s.waves.filter fun e => e.1 == n || (w.convoy.width.isSome && e.2.cid == w.cid && e.2.life == .clearing
          && (e.2.convoy.width.map Prod.fst) == (w.convoy.width.map Prod.fst))
        .next (s.startAll group)

/-! ## launch (R71) -/

/-- A manifest written into its slot, and the tail advanced. -/
def State.submit (s : State) (q : Nat) (bs : List Byte) : State :=
  let x := s.queue q
  (s.write (x.manKey x.tail) bs).onQueue q fun x => { x with tail := (x.tail + 1) % 65536 }

/-- A `launch` to queue `q` that reached it earlier than the one numbered `op` still waits for its slot (R71). -/
def State.launchAhead (s : State) (q op : Nat) : Bool := s.waves.any fun e => [e.2.park, e.2.under].any fun p => match p with
  | .launch o r _ => r == q && decide (o < op)
  | _ => false

/-- A slot of queue `q` is free for the `launch` numbered `op`: slots go in the order in which launches reach the queue (R71). -/
def State.launchRoom (s : State) (q op : Nat) : Bool := decide ((s.queue q).used < (s.queue q).slots) && !s.launchAhead q op

/-- LAUNCH (R71): the release, the read of the manifest, and its slot at the queue's tail; the wave parks while the ring is
full. -/
def execLaunch (a b : Nat) (s : State) : Out :=
  scalarWord s [a, b] [a, b] none fun w _ =>
    let n := s.cur
    let p := coreOfWave n
    let x := (s.rS w a).toNat
    let q := (s.rS w b).toNat
    if x / 2 ^ 20 ≠ 0 then s.trapS n 2 (BitVec.ofNat 64 a) 0 0
    else if q / 2 ^ 11 ≠ 0 then s.trapS n 2 (BitVec.ofNat 64 b) 0 0
    else if x % 128 ≠ 0 then s.trapS n 3 (BitVec.ofNat 64 x) 0 0
    else if !(s.queue q).devsub || !(s.queue q).en then s.trapS n 4 (BitVec.ofNat 64 q) 0 0
    else if !spadLeased s p x 128 w.cid then s.trapS n 4 (BitVec.ofNat 64 x) 0 0
    else if !s.releasedS n w .pk || decide (255 ≤ w.count .st) || descHeld s n w (some x) then s.holdS n w .long
    else
      let m := s.bytes 128 (spadKey p x)
      if s.launchRoom q s.nextId then (s.step4 n w id).submit q m
      else
        let op : OutOp := ⟨s.nextId, .st, 1, none, .none, none, 0, false, w.spc, w.nextLpc w.queue, [], 0, none, 0⟩
        (s.step4 n w fun w => { w with park := .launch s.nextId q m, ops := w.ops ++ [op] }).slotCount p w.cid .stores true

/-- The wait of a `launch` for a slot looked at again. -/
def State.pollLaunch (s : State) (n : Nat) (w : Wave) (op q : Nat) (m : List Byte) : State :=
  if s.launchRoom q op then
    ((s.setWave n (w.onParks fun p => if p.launchOp = some op then .none else p)).submit q m).storeDone n (coreOfWave n) w.cid op false
  else s

/-! ## spawn (R72) -/

/-- SPAWN (R72): the release, then the wave parks until the lease table answers. -/
def execSpawn (d a b : Nat) (s : State) : Out :=
  scalarWord s [d, a, b] [a, b] none fun w c =>
    let n := s.cur
    let x := (s.rS w a).toNat
    let count := x / 2 ^ 32 % 4096
    let entry := x % 2 ^ 32
    if x / 2 ^ 44 ≠ 0 ∨ count = 0 then s.trapS n 2 (BitVec.ofNat 64 a) 0 0
    else if entry % 4 ≠ 0 then s.trapS n 3 (BitVec.ofNat 64 entry) 0 0
    else if c.obj.scalarSize ≤ entry then s.trapS n 2 (BitVec.ofNat 64 a) 0 0
    else if w.depth = 4 then s.step4 n w fun w => w.land (.sreg d (BitVec.ofInt 64 (-2)))
    else if !s.releasedS n w .pk then s.holdS n w .long
    else s.parkS n w (.spawn d count entry (s.rS w b))

/-- Children `j` to `count - 1` placed, each core filled before the next (R72); `none` where they do not all fit. Children of a gang's
member are given no pipe bindings and lease no granules for pipes: DESIGN CHOICE, R72 does not list bindings among what they share
(log 30). -/
def State.fillCores (s : State) (cid : Nat) (parent : Wave) (count entry : Nat) (arg : Word) (first : Nat) :
    Nat → List Nat → Nat → Option State
  | 0, _, j => if j = count then some s else none
  | _ + 1, [], j => if j = count then some s else none
  | f + 1, l :: ls, j =>
    if j = count then some s
    else match s.con cid with
      | none => none
      | some c => match c.phys l with
        | none => s.fillCores cid parent count entry arg first f ls j
        | some q =>
          if !(s.coreReady q && regionOk s c.man q) then s.fillCores cid parent count entry arg first f ls j
          else
            let man := { c.man with pipes := [], fp := parent.fp }
            match planOn (s.core q) q cid man with
            | none => s.fillCores cid parent count entry arg first f ls j
            | some x =>
              (s.bear { c with man := man } cid l q ⟨first + j, parent.depth + 1, entry, arg, j, count⟩
                c.man.width x.1 x.2).fillCores cid parent count entry arg first f (l :: ls) (j + 1)

/-- A set of logical cores in ascending order from `l`, with wraparound. -/
def wrapFrom (l : Nat) (ls : List Nat) : List Nat := ls.filter (fun x => decide (l ≤ x)) ++ ls.filter fun x => decide (x < l)

/-- The answer of a lease table to a `spawn`: the core, its band, its die (R72). -/
def State.spawnIn (s : State) (w : Wave) (count entry : Nat) (arg : Word) : Option State :=
  match s.con w.cid with
  | none => none
  | some c =>
    let try_ := fun (ls : List Nat) => s.fillCores w.cid w count entry arg c.total (count + ls.length + 1) (wrapFrom w.lcore ls) 0
    match try_ [w.lcore] with
    | some s => some s
    | none => match try_ ((List.range 4).map fun j => w.lcore / 4 * 4 + j) with
      | some s => some s
      | none => try_ ((List.range 384).map fun j => w.lcore / 384 * 384 + j)

/-- The cores on which one state has waves that another has not. -/
def newCores (s t : State) : List Nat := ((t.waves.filter fun e => (s.wave e.1).isNone).map fun e => coreOfWave e.1).eraseDups

/-- SPAWN_ANSWER (R69, R72, R401): the children are placed, or the result is −1. A `spawn` asks for rows of every core on which it places a
child, and is answered when it is served on all of them; while the power fails none is. -/
def execSpawnAnswer (n : Nat) (s : State) : Out :=
  match s.wave n with
  | none => .next s
  | some w => match w.spawnWait with
    | some (d, count, entry, arg) =>
      let done := fun (s : State) (v : Word) => (s.settle n).onWave n fun w =>
        (w.land (.sreg d v)).onParks fun p => if p.spawnOf.isSome then .none else p
      let at_ := fun (ps : List Nat) (s : State) => ps.foldl (fun s p => s.serve p .spawn) s
      let ps := match s.spawnIn w count entry arg with
        | some t => newCores s t
        | none => [coreOfWave n]
      if s.rails ≠ .on || !ps.all (fun p => s.mayServe p .spawn) then .next s
      else match (at_ ps s).spawnIn w count entry arg with
        | some s => .next (done (s.onCon w.cid fun c => { c with total := c.total + count }) (BitVec.ofNat 64 count))
        | none => .next (done (at_ ps s) (BitVec.ofInt 64 (-1)))
    | none => .next s

/-! ## The end of waves and consignments (R74-R78) -/

/-- The other ends of a wave's pipes no longer name it: its number may be given to another wave. -/
def State.unpipe (s : State) : List (Nat × Ring) → State
  | [] => s
  | e :: es => (match e.2.pipe with
    | .none => s
    | .producer m k => s.onAny m fun v => v.endPipe k
    | .consumer m k => s.onAny m fun v => v.endPipe k).unpipe es

/-- What a wave has pushed and popped on its pipes and not yet reported reaches the other ends (R129). -/
def State.reportAll (s : State) (n : Nat) : List (Nat × Ring) → State
  | [] => s
  | e :: es => (s.reportPush n e.1 |>.reportPop n e.1).reportAll n es

/-- Request `k` applied at its scratchpad, whatever it asks for. -/
def State.applyAt (s : State) (k : Nat) : State :=
  let out := match (s.reqs[k]?).map Req.kind with
    | some (.mem (.tagset _)) | some (.mem .ldfe) | some (.mem .ldf) | some (.mem .stfe) => execTagRequestApply k s
    | some (.mem _) => execScratchpadRequestArrival k s
    | some (.arrive _ _) | some (.await _) => execBarrierArriveApply k s
    | some (.join _) => execBarrierJoinApply k s
    | some (.leave _ _ _) => execBarrierLeaveApply k s
    | some (.wake _) => execWakeRequest k s
    | _ => .next s
  match out with
  | .next t => t
  | _ => s

/-- A request of wave `n` to the scratchpad of its own core. -/
def Req.ownPad (r : Req) (n : Nat) : Bool := r.wave == n && r.home == 1000 + coreOfWave n

/-- What a wave has issued to its own core's scratchpad is performed at its banks, as far as nothing there holds it back (R250). -/
def State.drainOwn (s : State) (n : Nat) : Nat → State
  | 0 => s
  | f + 1 => match (List.range s.reqs.length).find? fun k => (s.front k).any fun r => r.ownPad n with
    | some k => (s.applyAt k).drainOwn n f
    | none => s

/-- The page faults of wave `n` become those of the stores that it has left in its log. -/
def orphanFaults (n : Nat) (gs : List LogEntry) : List Fault1 → List Fault1
  | [] => []
  | f :: fs => (match f with
    | .wave m a va => if m = n then (gs.filter fun g => g.lanes.any fun x => x.va / 4096 == va / 4096).map fun g => .orphan g.op a va else [f]
    | _ => [f]) ++ orphanFaults n gs fs

/-- Every entry of a wave's operand log is of the store class. -/
def Wave.storesLogged (w : Wave) : Bool := w.oplog.all fun g => g.kind.ctr == .st

/-- The stores that a wave has left in its operand log stay with its core until they have been replayed (R74, R243; log 21). -/
def State.leaveStores (s : State) (n : Nat) (w : Wave) : State :=
  { s.onCore (coreOfWave n) fun c => { c with orphans := c.orphans ++ w.oplog.map fun g => ⟨n, w.cid, w.lcore, g⟩ } with
    faults := orphanFaults n w.oplog s.faults }

/-- ROW_RELEASE (R74): a draining wave's rows are free once its `ld`, `sf`, `en` and `xc` counters and the E of its rings are
zero. What it has issued to its own scratchpad has been performed by then, as far as nothing holds it back there, and no other request holds
its rows (R250; log 22); stores still in its operand log are kept beside them (log 21). -/
def execRowRelease (n : Nat) (s : State) : Out :=
  match s.wave n with
  | none => .next s
  | some w => match w.life with
    | .draining _ =>
      if !w.ops.all (fun o => o.ctr == .st) || !w.rings.all (fun e => e.2.e == 0) || !w.storesLogged
          || s.reqs.any (fun r => r.ownPad n && !s.inOrder r) then .next s
      else
        let s := s.drainOwn n s.reqs.length
        match s.wave n with
        | none => .next s
        | some w =>
          let s := ((s.reportAll n w.rings).unpipe w.rings).leaveStores n w
          .next ({ s with waves := del s.waves n }.onCore (coreOfWave n) fun c => { c with leases := c.leases.filter fun l => l.wave != n })
    | _ => .next s

/-- A channel without the halves that a consignment owns (R329). -/
def Channel.without (x : Channel) (cid : Nat) : Channel :=
  { x with send := x.send.filter fun h => h.owner != cid, recv := x.recv.filter fun h => h.owner != cid }

/-- A channel with a half. -/
def Channel.bound (x : Channel) : Bool := x.send.isSome || x.recv.isSome

/-- CONSIGNMENT_SLOT_FREE (R75, R204, R329, R379): no wave, no count, no open table and no stub is left; the slot, the channel
halves and the planes of the consignment go. -/
def execConsignmentSlotFree (pcore cid : Nat) (s : State) : Out :=
  let c := s.core pcore
  match c.slots.find? fun x => x.cid == cid with
  | none => .next s
  | some x =>
    if s.waves.any (fun e => coreOfWave e.1 == pcore && e.2.cid == cid) || x != ⟨cid, 0, 0, 0, 0⟩
        || c.rt.tables.any (fun t => t.2.owner == cid && (t.2.state == .opened || t.2.state == .routing))
        || c.stubs.any (fun t => t.cid == cid) then .next s
    else .next (s.onCore pcore fun c => { c with
      slots := c.slots.filter fun x => x.cid != cid
      rt := { c.rt with chans := (c.rt.chans.map fun e => (e.1, e.2.without cid)).filter fun e => e.2.bound }
      mx := { c.mx with slot0 := c.mx.slot0.filter fun p => p.cid != cid, slot1 := c.mx.slot1.filter fun p => p.cid != cid } })

/-- Every wave has ended and every slot is freed (R76). -/
def State.allEnded (s : State) (cid : Nat) (c : Cons) : Bool :=
  c.live == 0 && s.cores.all fun e => e.2.slots.all fun x => x.cid != cid

/-- The completion record (R77). -/
def recordBytes (s : State) (c : Cons) (q : WQueue) : List Byte :=
  let status := if c.status = 0 ∧ c.error then 1 else c.status
  let lap := (q.cqTail / q.slots + 1) % 2
  toBytes 8 c.man.tag.toNat ++ toBytes 4 status ++ toBytes 2 (c.qslot % q.slots)
    ++ toBytes 2 ((if status = 0 then 0 else 1) + 2 * lap) ++ toBytes 4 c.exited ++ toBytes 4 c.killed ++ toBytes 8 (s.nsc - c.since)

/-- Step 3 of R76: the record is written and CQ_TAIL advances. -/
def State.record (s : State) (cid : Nat) (c : Cons) : State :=
  let q := s.queue c.queue
  let s := (s.missedKeys 1536 [q.recKey q.cqTail]).write (q.recKey q.cqTail) (recordBytes s c q)
  let s := s.onQueue c.queue fun q => { q with cqTail := (q.cqTail + 1) % 65536, inFlight := q.inFlight - 1 }
  { s with cons := del s.cons cid }.dropOzz cid

/-- The number under which the placement manager makes requests. -/
def managerWave : Nat := 160000

/-- Step 2 of R76: the arrive on the done barrier. -/
def State.doneArrive (s : State) (cid : Nat) (c : Cons) : State :=
  let va := c.man.done.toNat
  let done_ := fun (s : State) => s.onCon cid fun c => { c with stage := .completed }
  let fails := fun (s : State) => done_ ((s.logUnit 0 va 0 0xFFFF 0 7 4 cid true).flagError cid)
  if va = 0 then done_ s
  else if isSpad va ∧ va / 2 ^ 20 % 4096 = 4095 then fails s
  else match barHost (.red .add) (place s c 0 va .write) with
    | .violation => fails s
    | .fault => { s with faults := s.faults ++ [.dispatch cid c.aspace va] }
    | .at k => done_ (s.send (Req.make managerWave cid 0 (homeOf k) 0 (.completion (c.status != 0 || c.error)) 8 [⟨0, k, va, 0, 0⟩]))

/-- CONSIGNMENT_COMPLETION (R76-R78, R408): first the arrive on the done barrier, then, when its home, or a peer module, has applied it, the
record. -/
def execConsignmentCompletion (cid : Nat) (s : State) : Out :=
  match s.con cid with
  | none => .next s
  | some c =>
    if !s.allEnded cid c || s.dispatchFault cid then .next s
    else match c.stage with
      | .placed => if s.openReqs.any (fun r => r.cid == cid) then .next s else .next (s.doneArrive cid c)
      | .completed =>
        if s.openReqs.any (fun r => r.wave == managerWave && r.cid == cid) then .next s else .next (s.record cid c)
      | _ => .next s

end Sys2Proof.Machine
end

