-- ==== Sys2Proof/Machine/Commands.lean ====
section
/-! DEFINITION. Engine commands: the SX word, its checks, the inboxes, and the reply (R43-R45, R187, R222, R261, R299). -/

namespace Sys2Proof.Machine

/-! ## Engines -/

/-- The number of an engine within its core, as in the ready map (R409). -/
def engNo : Engine → Nat
  | .matrix => 0
  | .copy => 1
  | .longVector => 2
  | .route => 3

/-- The source code of an engine in the error log (R405). -/
def engSrc : Engine → Nat
  | .copy => 1
  | .longVector => 2
  | .matrix => 3
  | .route => 4

/-- The number under which an engine makes requests. -/
def engWave (p : Nat) (e : Engine) : Nat := 147456 + 4 * p + engNo e

/-- The inbox of an engine. -/
def Core.inbox (c : Core) : Engine → List Cmd
  | .matrix => c.mx.inbox
  | .copy => c.cpIn
  | .longVector => c.lvIn
  | .route => c.rt.inbox

/-- The inbox written. -/
def Core.setInbox (c : Core) (e : Engine) (l : List Cmd) : Core :=
  match e with
  | .matrix => { c with mx := { c.mx with inbox := l } }
  | .copy => { c with cpIn := l }
  | .longVector => { c with lvIn := l }
  | .route => { c with rt := { c.rt with inbox := l } }

/-- Commands an inbox holds (R187, R207, R260; R328 for the route engine). -/
def inboxCap : Engine → Nat
  | .longVector => 8
  | _ => 16

/-! ## The scoreboard (R267, R268) -/

/-- A span entered for a command, rounded out to 32-byte sectors. -/
def Core.enter (c : Core) (cmd from_ lo hi : Nat) (write : Bool) : Core :=
  { c with spans := c.spans ++ [⟨cmd, lo / 32 * 32, hi / 32 * 32 + 31, write, from_⟩] }

/-- Spans to be entered: physical core, lowest and highest byte, and whether they are written. -/
abbrev SpanReq := Nat × Nat × Nat × Bool

/-- Every span finds an entry free in its core's scoreboard of 16. -/
def State.spansFit (s : State) (xs : List SpanReq) : Bool :=
  xs.all fun x => decide ((s.core x.1).spans.length + (xs.filter fun y => y.1 == x.1).length ≤ 16)

/-- The spans entered; they are in force from the next cycle (R268). -/
def State.enterSpans (s : State) (cmd : Nat) : List SpanReq → State
  | [] => s
  | x :: xs => (s.onCore x.1 fun c => c.enter cmd (s.tickOf x.1 (s.clk x.1 + 1)) x.2.1 x.2.2.1 x.2.2.2).enterSpans cmd xs

/-! ## Message words (R43, R45) -/

/-- Bits `lo` to `lo + n - 1` of a message word. -/
def bits (x lo n : Nat) : Nat := x / 2 ^ lo % 2 ^ n

/-- The checks of R45 in order: the trap and `xaddr`, or the target's logical and physical core. `reserved` are the reserved
bits of the command's fields; a failing field is that of word 0's register. -/
def msgCheck (w : Wave) (c : Cons) (a w0 reserved : Nat) : Except (Nat × Nat) (Nat × Nat) :=
  let core := bits w0 0 12
  let reply := bits w0 12 2
  if 1536 ≤ core ∧ core ≠ 4095 then .error (2, a)
  else if reply = 2 ∧ (look w.rings (bits w0 14 4)).isNone then .error (2, a)
  else if (reply ≠ 2 ∧ bits w0 14 4 ≠ 0) ∨ (reply ≠ 3 ∧ bits w0 18 20 ≠ 0) then .error (2, a)
  else if reserved ≠ 0 then .error (2, a)
  else if bits w0 18 20 % 8 ≠ 0 then .error (3, bits w0 18 20)
  else
    let l := if core = 4095 then w.lcore else core
    match c.phys l with
    | some q => .ok (l, q)
    | none => .error (4, l)

/-- Where the command replies. -/
def replyOf (w0 : Nat) : Reply :=
  match bits w0 12 2 with
  | 0 => .none
  | 1 => .counter
  | 2 => .ring (bits w0 14 4)
  | _ => .bar (bits w0 18 20)

/-- What a command is to fences: whether it is the matrix engine's, and whether it reads and writes (R299). -/
structure Classes where
  matrix : Bool
  reads  : Bool
  writes : Bool

/-- A command waits for a fence ordered before it, or its descriptor cannot be read yet (R298, R299). -/
def cmdHeld (s : State) (n : Nat) (w : Wave) (k : Option Classes) (desc : Option Nat) : Bool :=
  let clk := s.clk (coreOfWave n)
  (match k with
    | some k => k.reads && w.fenced clk (if k.matrix then .mr else .cr) none
        || k.writes && w.fenced clk (if k.matrix then .mw else .cw) none
    | none => false)
  || descHeld s n w desc

/-- The span of a quarter operation's activation rows (R222). -/
def quarterSpan (c : Cmd) : List SpanReq :=
  match c.body with
  | .mxQuarter _ _ afmt rows _ src k _ stride _ _ =>
    let len := k * (if 4 ≤ afmt then 2 else 1)
    let pitch := (if stride = 0 then (len + 31) / 32 else stride) * 32
    [(c.pcore, src, src + (rows - 1) * pitch + len - 1, false)]
  | _ => []

/-- Commands held for an engine of core `q`. -/
def State.heldFor (s : State) (q : Nat) (e : Engine) : List Cmd := s.held.filter fun x => x.pcore == q && x.eng == e

/-- The inbox has no room for a command, or the scoreboard none for the entry that it makes there (R187, R222). -/
def State.inboxFull (s : State) (c : Cmd) : Bool :=
  decide (inboxCap c.eng ≤ ((s.core c.pcore).inbox c.eng).length + (s.heldFor c.pcore c.eng).length)
    || !s.spansFit ((s.heldFor c.pcore c.eng).flatMap quarterSpan ++ quarterSpan c)

/-- The command sent: it is counted, and it waits at the core until it can enter the inbox; where it cannot now the scalar
stream waits with it (R119, R128, R187, R222). `l` and `q` are the target's logical and physical core. -/
def State.sendCmd (s : State) (n : Nat) (w : Wave) (l q : Nat) (e : Engine) (r : Reply) (k : Option Classes) (b : CmdBody) : State :=
  let p := coreOfWave n
  let id := s.nextId
  let cmd : Cmd := ⟨id, n, w.cid, w.lcore, p, q, e, r, b, w.spc, 0, 0, 0, false, w.wid, 0, false, l⟩
  let w := match r with
    | .counter => { w with ops := w.ops ++ [⟨id, .en, 1, none, .none, none, 0, false, w.spc, w.nextLpc w.queue, [], 0, none, 0⟩] }
    | .ring x => w.onRing (s.clk p) x fun y => { y with e := y.e + 1 }
    | _ => w
  let w := match k with
    | some k => { w with cmds := w.cmds ++ [⟨id, k.matrix, k.reads, k.writes⟩] }
    | none => w
  let w := if s.inboxFull cmd then { w with park := .inbox id } else w
  let s := (s.step4 n w fun w => w).slotCount p w.cid .cmds true
  { s with held := s.held ++ [cmd] }

/-- An SX word: the checks of R45, those of the command (what a descriptor holds once it can be read), then what holds it, then the message, to the target named or, for `own`, to
the issuing core's engine. `check` gets the wave, its consignment, the target's logical and physical core and the two words. -/
def sxWordAt (own : Bool) (s : State) (a b : Nat) (e : Engine) (k : Option Classes) (reserved : Nat → Nat) (desc : Nat → Option Nat)
    (check : State → Wave → Cons → Nat × Nat → Nat → Nat → Except (Nat × Nat) CmdBody) : Out :=
  scalarWord s [a, b] [a, b] none fun w c =>
    let n := s.cur
    let w0 := (s.rS w a).toNat
    let w1 := (s.rS w b).toNat
    match msgCheck w c a w0 (reserved w0) with
    | .error t => s.trapS n t.1 (BitVec.ofNat 64 t.2) 0 0
    | .ok q => match check s w c q w0 w1 with
      | .error t =>
        if t = (2, b) ∧ descHeld s n w (desc w1) then s.holdS n w .long
        else s.trapS n t.1 (BitVec.ofNat 64 t.2) 0 0
      | .ok body =>
        if cmdHeld s n w k (desc w1) || (bits w0 12 2 == 1 && decide (255 ≤ w.count .en)) then s.holdS n w .long
        else s.sendCmd n w (if own then w.lcore else q.1) (if own then coreOfWave n else q.2) e (replyOf w0) k body

/-- An SX word to the target that word 0 names. -/
def sxWord (s : State) (a b : Nat) (e : Engine) (k : Option Classes) (reserved : Nat → Nat) (desc : Nat → Option Nat)
    (check : State → Wave → Cons → Nat × Nat → Nat → Nat → Except (Nat × Nat) CmdBody) : Out :=
  sxWordAt false s a b e k reserved desc check

/-! ## Into the inbox (R187, R222) -/

/-- The stub of a core for a consignment's logical core. -/
def Core.stubFor (c : Core) (cid lcore : Nat) : Option Stub := c.stubs.find? fun x => x.cid == cid && x.lcore == lcore

/-- Where the scratchpad of a command's target lies now: a forwarding stub names the core to which it has moved (R378). -/
def State.movedTo (s : State) (c : Cmd) : Nat := (((s.core c.pcore).stubFor c.cid c.tcore).map Stub.target).getD c.pcore

/-- The record fields of the command at the head of core `p`'s long-vector inbox are read as it gets there (R187). -/
def State.latchLv (s : State) (p : Nat) : State :=
  let c := s.core p
  match c.lvRun, c.lvIn with
  | none, cmd :: _ => match cmd.body with
    | .lv _ _ _ dst _ =>
      if c.lvRec.any (fun x => x.cmd == cmd.id) then s
      else
        let q := s.movedTo cmd
        s.onCore p fun c => { c with
          lvRec := some ⟨cmd.id, s.num 4 (spadKey q dst), s.num 4 (spadKey q (dst + 8)), s.num 4 (spadKey q (dst + 16))⟩ }
    | _ => s
  | _, _ => s

/-- A command that stood in an inbox came before another: the one that entered it first, and those that had not entered it after it, in the
order of issue (R377). -/
def Cmd.aheadOf (x c : Cmd) : Bool :=
  if x.seq = 0 then c.seq == 0 && decide (x.id < c.id) else c.seq == 0 || decide (x.seq < c.seq)

/-- Command `k` at its issuing core enters the inbox when there is room, in the order in which its wave issued commands to that
engine, and those that have moved with a unit in the order of its old inbox; a quarter operation also needs a scoreboard entry (R187, R222,
R377). -/
def State.enterInbox (s : State) (k : Nat) : State :=
  match s.held[k]? with
  | none => s
  | some c =>
    let same := fun (x : Cmd) => x.pcore == c.pcore && x.eng == c.eng
    let earlier := ((s.held.take k).any fun x => x.wave == c.wave && same x)
      || s.held.any fun x => x.moved && c.moved && x.cid == c.cid && same x && x.aheadOf c
    let l := (s.core c.pcore).inbox c.eng
    if earlier || decide (inboxCap c.eng ≤ l.length) || !s.spansFit (quarterSpan c)
        || ((s.core c.pcore).stubFor c.cid c.tcore).isSome then s
    else
      let s := (({ s with held := s.held.eraseIdx k }).enterSpans c.id (quarterSpan c)).onCore c.pcore fun x =>
        x.setInbox c.eng (l ++ [{ c with since := s.clk c.pcore, seq := s.nextId }])
      (s.bumpId.latchLv c.pcore).onAny c.wave fun w => w.onParks fun p => if p = .inbox c.id then .none else p

/-! ## Restored waves (R372, R377) -/

/-- The channel that a wave belongs to, as lead, member, with a split entry, or waiting to join. -/
def Wave.channel (w : Wave) : Option Nat := match w.convoy.role with
  | .lead => some w.lcore
  | .pending ch _ _ => some ch
  | .member ch => some ch
  | .departed ch => some ch
  | _ => none

/-- Two waves belong to one convoy. -/
def sameConvoy (a b : Wave) : Bool :=
  a.cid == b.cid && ((a.channel.isSome && a.channel == b.channel)
    || (a.convoy.width.isSome && (a.convoy.width.map Prod.fst) == (b.convoy.width.map Prod.fst)))

/-- A restored wave may issue: the commands moved with it are placed, its convoy is whole, and its convoy moves nowhere (R372, R377). -/
def State.mayResume (s : State) (n : Nat) (w : Wave) : Bool :=
  !(s.held.any fun c => c.moved && c.cid == w.cid && c.pcore == coreOfWave n)
    && !(s.ctxs.any fun e => sameConvoy w e.2.wave)
    && !(s.moves.any fun m => s.waves.any fun e => e.2.cid == m.cid && e.2.lcore == m.lcore && sameConvoy w e.2)

/-- Restored waves that wait for nothing more go on; one whose class is shed parks at its next shed point (R390, R391). -/
def State.wakeRestored (s : State) : State :=
  { s with waves := s.waves.map fun e =>
      if e.2.life = .restored ∧ s.mayResume e.1 e.2 then (e.1, { e.2 with life := .running }) else e }

/-- A record appended to the migration log (R380). -/
def State.logMove (s : State) (r : MigRec) : State :=
  { s with
    migLog := put s.migLog (s.migHead % 1024) r
    migOvf := s.migOvf || decide (1024 ≤ (s.migHead + 2 ^ 32 - s.migRd) % 2 ^ 32)
    migHead := (s.migHead + 1) % 2 ^ 32 }

/-- No wave of a moved unit has gone on since the move (R380). -/
def State.standsStill (s : State) (m : Moved) : Bool :=
  let us := s.waves.filter fun e => e.2.cid == m.cid && e.2.lcore == m.entry.lcore && coreOfWave e.1 == m.entry.dest
  !us.isEmpty && us.all fun e => e.2.life == .restored || e.2.life == .parked

/-- The records of the moved units of which a wave has gone on, each with the time since its request (R380). -/
def State.logMoved (s : State) : State :=
  let go := s.moved.filter fun m => !s.standsStill m
  let s := { s with moved := s.moved.filter s.standsStill }
  go.foldl (fun s m => s.logMove { m.entry with ns := (s.now - m.since) / 21 }) s

/-- Restored waves that wait for nothing more issue again, and a move whose first wave does so is recorded (R380, R391). -/
def State.resumeRestored (s : State) : State := s.wakeRestored.logMoved

/-! ## Replies (R43, R197, R264, R277) -/

/-- The storage key of a reply's barrier word in the issuing core's scratchpad. -/
def State.barKey (s : State) (c : Cmd) (off : Nat) : Nat :=
  match s.con c.cid with
  | some x => spadKey ((x.phys c.lcore).getD c.from_) off
  | none => spadKey c.from_ off

/-- One engine request to the reply's barrier word: `n` bytes, of the command's `last` request or of a chunk before it (R277). -/
def State.barAdd (s : State) (c : Cmd) (off n : Nat) (last failed : Bool) : State :=
  let key := s.barKey c off
  s.send (Req.make (engWave c.pcore c.eng) c.cid c.pcore (homeOf key) 0 (.engineAdd n last failed) 8 [⟨0, key, off, 0, 0⟩])

/-- The bytes of a chunk that is not its command's last, for a barrier in byte mode (R264). -/
def State.addBytes (s : State) (c : Cmd) (n : Nat) : State :=
  match c.reply with
  | .bar off => if n = 0 then s else s.barAdd c off n false false
  | _ => s

/-- A command has completed or ended: its reply, with the `n` bytes not counted yet, its count in the slot, and its fence record
(R75, R265, R277, R299). -/
def State.endBytes (s : State) (c : Cmd) (n : Nat) (failed : Bool) : State :=
  let s := (s.slotCount c.from_ c.cid .cmds false).onAny c.wave fun w =>
    if w.cid = c.cid then { w with cmds := w.cmds.filter fun x => x.id != c.id } else w
  match c.reply with
  | .none => s
  | .ring _ => s
  | .counter => s.onAny c.wave fun w => if w.cid = c.cid then w.partDone c.id false else w
  | .bar off => s.barAdd c off n true failed

/-- A command whose bytes are counted, or that counts none, has completed or ended. -/
def State.endCmd (s : State) (c : Cmd) (failed : Bool) : State := s.endBytes c 0 failed

/-- The reads of a command have all been made (R299). -/
def State.readsDone (s : State) (c : Cmd) : State :=
  s.onAny c.wave fun w => { w with cmds := w.cmds.map fun x => if x.id = c.id then { x with reads := false } else x }

/-- The address of a command that fails is logged (R405, R407). -/
def State.logCmd (s : State) (c : Cmd) (addr : Nat) : State :=
  s.logUnit (dieOf c.pcore) addr c.spc c.lcore c.pcore (engSrc c.eng) 0x12 c.cid true

/-- An offset of a logical core's scratchpad as an address (R249, R405). -/
def padAddr (lcore off : Nat) : Nat := 0xFE * 2 ^ 56 + lcore * 2 ^ 20 + off

/-- An offset of the scratchpad of a command's target as an address. -/
def Cmd.padVa (c : Cmd) (off : Nat) : Nat := padAddr c.tcore off

/-- A command ended by a fault or an error: logged, the error flag set, and its reply sent (R208, R265, R407). -/
def State.failCmd (s : State) (c : Cmd) (addr : Nat) : State := ((s.logCmd c addr).flagError c.cid).endCmd c true

/-- The wave issued the command: its number in the module may have gone to another since (R149). -/
def Wave.issued (w : Wave) (c : Cmd) : Bool := w.cid == c.cid && w.wid == c.wid

/-- The wave that issued a command stands halted: the engine's work for it stops at a row step or a chunk boundary (R226, R266, R370). -/
def State.issuerHalted (s : State) (c : Cmd) : Bool := (s.wave c.wave).any fun w => w.issued c && w.life == .halted

/-- A change to the wave that issued a command, made after its results that are due have landed; nothing where that wave has gone (R116,
R149). -/
def State.onIssuer (s : State) (c : Cmd) (f : Wave → Wave) : State :=
  if c.wave < ctxBase then s.onSettled c.wave fun w => if w.issued c then f w else w
  else s.onAny c.wave fun w => if w.issued c then f w else w

/-- Exception flags that a command raises into its wave (R149). -/
def State.raiseCmd (s : State) (c : Cmd) (f : Flags) : State := s.onIssuer c fun w => w.raise f

/-- A command keeps its scoreboard entries: it runs, waits as a quarter operation, or has opened a table that is not closed
(R222, R267, R328). -/
def State.cmdLive (s : State) (id : Nat) : Bool :=
  s.cores.any fun e => (e.2.cpRun.any fun x => x.cmd.id == id) || (e.2.lvRun.any fun x => x.cmd.id == id)
    || e.2.mx.inbox.any (fun c => c.id == id) || e.2.mx.pass.any (fun r => r.cmd.id == id && r.entered.isNone)
    || (e.2.rt.run.any fun x => x.cmd.id == id)
    || e.2.rt.tables.any fun t => t.2.cmd == id && (t.2.state == .opened || t.2.state == .routing)

/-! ## Bytes of peer modules (R229, R355) -/

/-- Different homes of a list of storage keys. -/
def homesOf (ks : List Nat) : List Nat := (ks.map homeOf).dedup

/-- An engine's request for bytes at a peer module, or with data for them. -/
def State.askPeer (s : State) (c : Cmd) (k : MemKind) (cells : List Host.Cell) : List Nat → State
  | [] => s
  | h :: hs =>
    let as := (cells.filter fun x => homeOf x.1 == h).map fun x => (⟨0, x.1, x.1, x.2.setWidth 64, 0⟩ : Acc)
    (s.send (Req.make (engWave c.pcore c.eng) c.cid c.pcore h c.id (.mem k) 1 as)).askPeer c k cells hs

/-- What a command has written leaves the snapshots of its core and of the core where the wave that issued it now runs (R300, R310, R311). -/
def State.cmdWrote (s : State) (c : Cmd) (cells : List Host.Cell) : State :=
  s.engineWrote c.pcore (if c.wave < ctxBase then coreOfWave c.wave else c.from_) cells

/-- Bytes an engine sees: those of this module's storage, and those a peer has sent. -/
def peekByte (s : State) (got : Arr Byte) (key : Nat) : Option Byte :=
  if keyIsPeer key then look got key else some (Memory.get s.mem key)

/-- A storage key that cannot be read or written: its stack is not ready, or an uncorrectable error lies there (R253, R410). -/
def State.deadKey (s : State) (key : Nat) : Bool := s.lostBytes key 1

end Sys2Proof.Machine
end

