-- ==== Sys2Proof/Machine/Copy.lean ====
section
/-! DEFINITION. The copy engine: its commands, chunks and commits, and the range scoreboard (R260-R268). -/

namespace Sys2Proof.Machine

/-! ## Descriptors (R261-R263) -/

/-- A field of `n` bytes at offset `o` of a descriptor. -/
def fieldN (d : List Byte) (o n : Nat) : Nat := ofBytes ((d.drop o).take n)

/-- A signed field. -/
def fieldI (d : List Byte) (o n : Nat) : Int := readInt true (8 * n) (fieldN d o n)

/-- Every byte from offset `o` on is zero. -/
def zeroFrom (d : List Byte) (o : Nat) : Bool := (d.drop o).all fun b => b == 0

/-- Core field 0xFFF of a scratchpad address names the issuing core (R261). -/
def ownCore (l v : Nat) : Nat := if isSpad v && v / 2 ^ 20 % 4096 == 4095 then v - 4095 * 2 ^ 20 + l * 2 ^ 20 else v

/-- The copy commands (R262). -/
inductive CopyCmd where
  | copy | gather | scatter | tensor | fill
deriving DecidableEq, Repr

/-- The descriptor's fields and, for a good one, that its reserved bytes are zero and its fields inside their limits (R262). -/
def copyDesc (k : CopyCmd) (l : Nat) (d : List Byte) : CopyOp × Bool :=
  let src := ownCore l (fieldN d 0 8)
  let dst := ownCore l (fieldN d 8 8)
  let idx := ownCore l (fieldN d 0x10 8)
  let len := fieldN d 0x10 8
  let n := fieldN d 0x18 4
  let rowb := fieldN d 0x1C 4
  let lenOk := decide (1 ≤ len) && decide (len ≤ 2 ^ 40) && zeroFrom d 0x18
  let rowsOk := decide (1 ≤ n) && decide (n ≤ 2 ^ 24) && decide (1 ≤ rowb) && decide (rowb ≤ 2 ^ 20) && zeroFrom d 0x28
  match k with
  | .copy => (.copy src dst len, lenOk)
  | .fill => (.fill (BitVec.ofNat 64 (fieldN d 0 8)) dst len, lenOk)
  | .gather => (.gather src dst idx n rowb (fieldI d 0x20 8), rowsOk)
  | .scatter => (.scatter src dst idx n rowb (fieldI d 0x20 8), rowsOk)
  | .tensor =>
    let e := [0x10, 0x14, 0x18, 0x1C].map fun o => fieldN d o 4
    (.tensor src dst e ([0x20, 0x28, 0x30].map fun o => fieldI d o 8) ([0x38, 0x40, 0x48].map fun o => fieldI d o 8),
      e.all (fun x => decide (1 ≤ x) && decide (x ≤ 2 ^ 20)) && decide (e.foldl (· * ·) 1 ≤ 2 ^ 40) && zeroFrom d 0x50)

/-- The bytes of the command's output stream (R262). -/
def CopyOp.total : CopyOp → Nat
  | .copy _ _ len => len
  | .fill _ _ len => len
  | .gather _ _ _ n rowb _ => n * rowb
  | .scatter _ _ _ n rowb _ => n * rowb
  | .tensor _ _ e _ _ => e.foldl (· * ·) 1

/-- Displacements of a tensor side: the lowest and the highest (R262). -/
def tensorSpan : List Nat → List Int → Int × Int
  | e0 :: es, ss =>
    let xs := List.zipWith (fun (e : Nat) (t : Int) => ((e : Int) - 1) * t) es ss
    (xs.foldl (fun m x => m + min 0 x) 0, xs.foldl (fun m x => m + max 0 x) ((e0 : Int) - 1))
  | [], _ => (0, 0)

/-- Stream byte `i` of a tensor copy as a displacement (R262). -/
def tensorAt (i : Nat) : List Nat → List Int → Int
  | e0 :: e1 :: e2 :: _, s1 :: s2 :: s3 :: _ =>
    (i % e0 : Nat) + (i / e0 % e1 : Nat) * s1 + (i / (e0 * e1) % e2 : Nat) * s2 + (i / (e0 * e1 * e2) : Nat) * s3
  | _, _ => 0

/-- A side of a command with known bytes: its base and its lowest and highest displacement. -/
abbrev Side := Nat × Int × Int

/-- The source, where its bytes are known before the indices are read. -/
def CopyOp.srcSide : CopyOp → Option Side
  | .copy src _ len => some (src, 0, (len : Int) - 1)
  | .scatter src _ _ n rowb _ => some (src, 0, ((n * rowb : Nat) : Int) - 1)
  | .tensor src _ e ss _ => some (src, tensorSpan e ss)
  | _ => none

/-- The destination, where its bytes are known before the indices are read. -/
def CopyOp.dstSide : CopyOp → Option Side
  | .copy _ dst len => some (dst, 0, (len : Int) - 1)
  | .fill _ dst len => some (dst, 0, (len : Int) - 1)
  | .gather _ dst _ n rowb _ => some (dst, 0, ((n * rowb : Nat) : Int) - 1)
  | .tensor _ dst e _ ds => some (dst, tensorSpan e ds)
  | _ => none

/-- The addresses of a descriptor. -/
def CopyOp.addrs : CopyOp → List Nat
  | .copy src dst _ => [src, dst]
  | .fill _ dst _ => [dst]
  | .gather src dst idx _ _ _ => [src, dst, idx]
  | .scatter src dst idx _ _ _ => [src, dst, idx]
  | .tensor src dst _ _ _ => [src, dst]

/-- An address of a descriptor is canonical or of the scratchpad form (check 5 of R263). -/
def descAddrOk (v : Nat) : Bool :=
  canonical v || isSpad v && v / 2 ^ 32 % 2 ^ 24 == 0 && decide (v / 2 ^ 20 % 4096 < 1536)

/-- A side in a scratchpad stays at offsets 0 to 0xF_DFFF (check 6 of R263). -/
def sideFits : Option Side → Bool
  | some (b, lo, hi) => !isSpad b || decide (0 ≤ ((b % 2 ^ 20 : Nat) : Int) + lo) && decide (((b % 2 ^ 20 : Nat) : Int) + hi < 0xFE000)
  | none => true

/-- Check 6 covers `cp.copy`, `cp.fill` and `cp.tensor`. -/
def CopyOp.fits : CopyOp → Bool
  | .gather .. => true
  | .scatter .. => true
  | o => sideFits o.srcSide && sideFits o.dstSide

/-- The checks of R263 after the reserved bits of word 0. -/
def copyCheck (k : CopyCmd) (a b : Nat) (s : State) (w : Wave) (_ : Cons) (_ : Nat × Nat) (w0 w1 : Nat) :
    Except (Nat × Nat) CmdBody :=
  let p := coreOfWave s.cur
  let off := w1 % 2 ^ 20
  if bits w0 12 2 = 2 then .error (2, a)
  else if w1 / 2 ^ 20 ≠ 0 then .error (2, b)
  else if off % 128 ≠ 0 then .error (3, off)
  else if !spadLeased s p off 128 w.cid then .error (4, off)
  else
    let d := copyDesc k w.lcore (s.bytes 128 (spadKey p off))
    if !d.2 || !d.1.addrs.all descAddrOk || !d.1.fits then .error (2, b) else .ok (.copy d.1)

/-- A copy command's SX word (R261, R263). -/
def cpWord (k : CopyCmd) (a b : Nat) (s : State) : Out :=
  sxWord s a b .copy (some ⟨false, k != .fill, true⟩) (fun w0 => w0 / 2 ^ 38) (fun w1 => some (w1 % 2 ^ 20)) (copyCheck k a b)

/-- CP_COPY (R262). -/
def execCpCopy (a b : Nat) (s : State) : Out := cpWord .copy a b s

/-- CP_GATHER (R262). -/
def execCpGather (a b : Nat) (s : State) : Out := cpWord .gather a b s

/-- CP_SCATTER (R262). -/
def execCpScatter (a b : Nat) (s : State) : Out := cpWord .scatter a b s

/-- CP_TENSOR (R262). -/
def execCpTensor (a b : Nat) (s : State) : Out := cpWord .tensor a b s

/-- CP_FILL (R262). -/
def execCpFill (a b : Nat) (s : State) : Out := cpWord .fill a b s

/-! ## Spans (R267) -/

/-- The scratchpad span of a side, by the core that owns it. -/
def sideSpan (c : Cons) (write : Bool) : Option Side → List SpanReq
  | some (b, lo, hi) =>
    if isSpad b then match c.phys (b / 2 ^ 20 % 4096) with
      | some q => [(q, (((b % 2 ^ 20 : Nat) : Int) + lo).toNat, min 0xFDFFF (((b % 2 ^ 20 : Nat) : Int) + hi).toNat, write)]
      | none => []
    else []
  | none => []

/-- A side whose rows only the indices give: the whole of its scratchpad. -/
def wholeSpan (c : Cons) (b : Nat) (write : Bool) : List SpanReq := sideSpan c write (some (b / 2 ^ 20 * 2 ^ 20, 0, 0xFDFFF))

/-- The spans a copy command enters (R267). -/
def CopyOp.spans (c : Cons) (o : CopyOp) : List SpanReq :=
  sideSpan c false o.srcSide ++ sideSpan c true o.dstSide ++ match o with
    | .gather src _ idx n _ _ => wholeSpan c src false ++ sideSpan c false (some (idx, 0, 4 * (n : Int) - 1))
    | .scatter _ dst idx n _ _ => wholeSpan c dst true ++ sideSpan c false (some (idx, 0, 4 * (n : Int) - 1))
    | _ => []

/-! ## Fetching a chunk (R264, R265) -/

/-- The bases and displacements of stream byte `i`, source (none for a fill) and destination; `v` is the row's index. -/
def CopyOp.at (o : CopyOp) (v : Nat) (i : Nat) : Option (Nat × Int) × (Nat × Int) :=
  match o with
  | .copy src dst _ => (some (src, i), (dst, i))
  | .fill _ dst _ => (none, (dst, i))
  | .gather src dst _ _ rowb pitch => (some (src, v * pitch + (i % rowb : Nat)), (dst, i))
  | .scatter src dst _ _ rowb pitch => (some (src, i), (dst, v * pitch + (i % rowb : Nat)))
  | .tensor src dst e ss ds => (some (src, tensorAt i e ss), (dst, tensorAt i e ds))

/-- The address of the index that stream byte `i` needs. -/
def CopyOp.indexAt (o : CopyOp) (i : Nat) : Option (Nat × Int) :=
  match o with
  | .gather _ _ idx _ rowb _ => some (idx, 4 * (i / rowb : Nat))
  | .scatter _ _ idx _ rowb _ => some (idx, 4 * (i / rowb : Nat))
  | _ => none

/-- The virtual or scratchpad address of a base and a displacement. -/
def reachVa (b : Nat) (d : Int) : Nat := (((b : Int) + d) % 2 ^ 64).toNat

/-- Where an engine's access goes; a row that leaves its scratchpad, or an unleased granule, is a violation (R265). -/
def engPlace (s : State) (p cid : Nat) (c : Cons) (b : Nat) (d : Int) (n : Need) : Place :=
  if isSpad b then
    let o := ((b % 2 ^ 20 : Nat) : Int) + d
    if 0 ≤ o ∧ o < 0xFE000 then match c.phys (b / 2 ^ 20 % 4096) with
      | some q => if granuleOf s q (o.toNat / 4096) cid then .at (spadKey q o.toNat) else .violation
      | none => .violation
    else .violation
  else placeVirtual s p c ((((b : Int) + d) % 2 ^ 64).toNat) n

/-- What looking at one byte gives: a byte, a peer's byte not sent yet, a page fault or a failure at an address. -/
inductive Seen (α : Type) where
  | ok (x : α)
  | ask (keys : List Nat)
  | fault (va : Nat)
  | bad (va : Nat)

/-- One byte that an engine reads. -/
def engRead (s : State) (p cid : Nat) (c : Cons) (got : Arr Byte) (b : Nat) (d : Int) : Seen Byte :=
  match engPlace s p cid c b d .read with
  | .at k => if s.deadKey k then .bad (reachVa b d) else match peekByte s got k with
    | some x => .ok x
    | none => .ask [k]
  | .fault => .fault (reachVa b d)
  | .violation => .bad (reachVa b d)

/-- `n` bytes that an engine reads; bytes a peer has still to send are asked for together. -/
def engReads (s : State) (p cid : Nat) (c : Cons) (got : Arr Byte) (b : Nat) : Nat → Int → Seen (List Byte)
  | 0, _ => .ok []
  | n + 1, d =>
    match engRead s p cid c got b d, engReads s p cid c got b n (d + 1) with
    | .fault v, _ => .fault v
    | .bad v, _ => .bad v
    | _, .fault v => .fault v
    | _, .bad v => .bad v
    | .ask k, .ask l => .ask (k ++ l)
    | .ask k, .ok _ => .ask k
    | .ok _, .ask l => .ask l
    | .ok x, .ok xs => .ok (x :: xs)

/-- Stream byte `i` with its destination: the storage key, and the address it was translated from. -/
def fetchByte (s : State) (p cid : Nat) (c : Cons) (got : Arr Byte) (o : CopyOp) (i : Nat) : Seen (Host.Cell × Nat) :=
  let idx := match o.indexAt i with
    | none => Seen.ok []
    | some (b, d) => engReads s p cid c got b 4 d
  match idx with
  | .ask k => .ask k
  | .fault v => .fault v
  | .bad v => .bad v
  | .ok ix =>
    let x := o.at (ofBytes ix) i
    let byte := match o with
      | .fill pat _ _ => Seen.ok (BitVec.ofNat 8 (pat.toNat / 2 ^ (8 * (i % 8))))
      | _ => match x.1 with
        | some (b, d) => engRead s p cid c got b d
        | none => .ok 0
    match byte with
    | .fault v => .fault v
    | .bad v => .bad v
    | .ask k => .ask k
    | .ok y => match engPlace s p cid c x.2.1 x.2.2 .write with
      | .at k => .ok ((k, y), reachVa x.2.1 x.2.2)
      | .fault => .fault (reachVa x.2.1 x.2.2)
      | .violation => .bad (reachVa x.2.1 x.2.2)

/-- `n` stream bytes from byte `i` on; the first fault or failure in stream order decides (R265). -/
def fetchBytes (s : State) (p cid : Nat) (c : Cons) (got : Arr Byte) (o : CopyOp) : Nat → Nat → Seen (List (Host.Cell × Nat))
  | 0, _ => .ok []
  | n + 1, i =>
    match fetchByte s p cid c got o i with
    | .fault v => .fault v
    | .bad v => .bad v
    | .ask k => match fetchBytes s p cid c got o n (i + 1) with
      | .ask l => .ask (k ++ l)
      | .ok _ => .ask k
      | x => x
    | .ok y => match fetchBytes s p cid c got o n (i + 1) with
      | .ok ys => .ok (y :: ys)
      | x => x

/-- The storage key that an engine reads, where it can be read. -/
def engKey (s : State) (p cid : Nat) (c : Cons) (b : Nat) (d : Int) : Option Nat := match engPlace s p cid c b d .read with
  | .at k => some k
  | _ => none

/-- The storage keys that stream byte `i` is read from, its index among them. -/
def byteKeys (s : State) (p cid : Nat) (c : Cons) (got : Arr Byte) (o : CopyOp) (i : Nat) : List Nat :=
  let ks := match o.indexAt i with
    | some (b, d) => (List.range 4).filterMap fun (j : Nat) => engKey s p cid c b (d + j)
    | none => []
  let v := ofBytes (ks.map fun k => (peekByte s got k).getD 0)
  ks ++ ((o.at v i).1.bind fun x => engKey s p cid c x.1 x.2).toList

/-- Two sides may share bytes. -/
def sidesMeet : Option Side → Option Side → Bool
  | some (a, alo, ahi), some (b, blo, bhi) =>
    decide ((a : Int) + alo ≤ (b : Int) + bhi) && decide ((b : Int) + blo ≤ (a : Int) + ahi)
  | _, _ => true

/-- The source may overlap the destination, so that one chunk is kept in flight (R264). Where only the indices give a side's rows,
any side in the same scratchpad, or in memory too, may overlap it. -/
def CopyOp.overlaps (o : CopyOp) : Bool :=
  let near := fun (x y : Nat) => if isSpad x || isSpad y then x / 2 ^ 20 == y / 2 ^ 20 else true
  match o with
  | .fill .. => false
  | .copy .. => sidesMeet o.srcSide o.dstSide
  | .tensor .. => sidesMeet o.srcSide o.dstSide
  | .gather src dst idx n rowb _ => near src dst
      || sidesMeet (some (idx, 0, 4 * (n : Int) - 1)) (some (dst, 0, ((n * rowb : Nat) : Int) - 1))
  | .scatter src dst idx _ _ _ => near src dst || near idx dst

/-- The number of bytes of chunk `k`. -/
def CopyOp.chunkLen (o : CopyOp) (k : Nat) : Nat := min 4096 (o.total - 4096 * k)

/-- The running copy of a core changed. -/
def State.onCopy (s : State) (p : Nat) (f : CopyRun → CopyRun) : State :=
  s.onCore p fun c => { c with cpRun := c.cpRun.map f }

/-- CHUNK_FETCH (R264, R265, R299): the next chunk is read and its destinations translated; with the last one the command's reads have all
been made. A page fault suspends the command, a failure
ends it once the chunks before have committed. While its wave is halted the command stops at a chunk boundary (R266, R370). -/
def execChunkFetch (pcore : Nat) (s : State) : Out :=
  match (s.core pcore).cpRun with
  | none => .next s
  | some r => match r.cmd.body, s.con r.cmd.cid with
    | .copy o, some c =>
      if s.issuerHalted r.cmd || r.suspended || r.missing != 0 || r.failedAt.isSome || decide (o.total ≤ r.next * 4096)
          || decide (16 ≤ r.next - r.committed) || (o.overlaps && r.committed != r.next) then .next s
      else match fetchBytes s pcore r.cmd.cid c r.got o (o.chunkLen r.next) (4096 * r.next) with
        | .ok bs =>
          let n := o.chunkLen r.next
          let ks := (List.range n).flatMap fun i => byteKeys s pcore r.cmd.cid c r.got o (4096 * r.next + i)
          let t := (s.missedKeys pcore ks).onCopy pcore fun r =>
            { r with next := r.next + 1, fetched := r.fetched ++ [⟨r.next, bs.map Prod.fst, bs.map Prod.snd⟩], got := [] }
          .next (if o.total ≤ (r.next + 1) * 4096 then t.readsDone r.cmd else t)
        | .ask ks =>
          let ks := ks.dedup
          .next ((s.onCopy pcore fun r => { r with missing := ks.length }).askPeer r.cmd .load (ks.map fun k => (k, 0)) (homesOf ks))
        | .fault va => .next { s.onCopy pcore (fun r => { r with suspended := true }) with
            faults := s.faults ++ [.engine pcore .copy c.aspace va] }
        | .bad va => .next (s.onCopy pcore fun r => { r with failedAt := some (r.next, va) })
    | _, _ => .next s

/-! ## Committing a chunk (R264-R266) -/

/-- A destination that its home would answer with an error now (R249, R253). -/
def State.deadDst (s : State) (cid key : Nat) : Bool :=
  (keyIsSpad key && !granuleOf s (keyCore key) (keyOff key / 4096) cid) || s.deadKey key

/-- The copy of a core has ended, and its engine goes on. -/
def State.clearCopy (s : State) (p : Nat) : State := s.onCore p fun c => { c with cpRun := none }

/-- A copy command ended by a failure, which no page fault of it outlives (R265). -/
def State.failCopy (s : State) (p : Nat) (r : CopyRun) (va : Nat) : State :=
  ({ s with faults := s.faults.filter fun f => match f with
      | .engine q .copy _ _ => q != p
      | _ => true }.clearCopy p).failCmd r.cmd va

/-- Chunk `k` has been written: its bytes are counted, and after the last one the command completes (R264, R266). -/
def State.countChunk (s : State) (p : Nat) (r : CopyRun) (o : CopyOp) : State :=
  let k := o.chunkLen r.committed
  if o.total ≤ (r.committed + 1) * 4096 then (s.clearCopy p).endBytes r.cmd k false
  else (s.addBytes r.cmd k).onCopy p fun r => { r with committed := r.committed + 1, fetched := r.fetched.drop 1, acks := 0 }

/-- CHUNK_COMMIT (R264): the next chunk in order is written as a whole and counted; a failure met while fetching ends the
command here. -/
def execChunkCommit (pcore : Nat) (s : State) : Out :=
  match (s.core pcore).cpRun with
  | none => .next s
  | some r => match r.cmd.body with
    | .copy o => match r.fetched with
      | c :: _ =>
        if s.issuerHalted r.cmd || r.acks != 0 || c.bytes.any (fun x => s.deadDst r.cmd.cid x.1) then .next s
        else
          let far := c.bytes.filter fun x => keyIsPeer x.1
          let s := ((s.writeCells (c.bytes.filter fun x => !keyIsPeer x.1)).cmdWrote r.cmd c.bytes).missedKeys pcore
            (c.bytes.map Prod.fst)
          if far.isEmpty then .next (s.countChunk pcore r o)
          else
            let hs := homesOf (far.map Prod.fst)
            .next ((s.onCopy pcore fun r => { r with acks := hs.length }).askPeer r.cmd .store far hs)
      | [] => match r.failedAt with
        | some (k, va) => if r.committed = k then .next (s.failCopy pcore r va) else .next s
        | none => .next s
    | _ => .next s

/-- The place in the chunk of the first byte of the aligned 4-byte word that holds storage key `k`. -/
def Chunk.wordOf (c : Chunk) (k : Nat) : Nat := (c.bytes.findIdx? fun x => x.1 / 4 == k / 4).getD 0

/-- COMMIT_ERROR_RESPONSE (R264, R265, R289): homes answer writes of the chunk with errors; the aligned words whose first bytes `written`
numbers and that no error answers stay written, the chunk is not counted, and the command ends. -/
def execCommitErrorResponse (pcore : Nat) (written : List Nat) (s : State) : Out :=
  match (s.core pcore).cpRun with
  | none => .next s
  | some r => match r.fetched with
    | [] => .next s
    | c :: _ => match c.bytes.findIdx? fun x => s.deadDst r.cmd.cid x.1 with
      | none => .next s
      | some bad =>
        if r.acks ≠ 0 then .next s
        else
          let some := c.bytes.filter fun x =>
            written.contains (c.wordOf x.1) && !s.deadDst r.cmd.cid x.1 && !keyIsPeer x.1
          .next (((s.writeCells some).cmdWrote r.cmd some).failCopy pcore r (c.dst.getD bad 0))

/-- What a peer module answered a running copy: bytes it read, the acknowledgement of its writes, or an error (R264, R355). -/
def State.copyAnswer (s : State) (p : Nat) (store failed : Bool) (va : Nat) (vals : List (Nat × Byte)) : State :=
  match (s.core p).cpRun with
  | none => s
  | some r => match r.cmd.body with
    | .copy o =>
      if failed && store then s.failCopy p r va
      else if failed then s.onCopy p fun r => { r with missing := 0, failedAt := some (r.next, va) }
      else if store then
        if r.acks = 1 then s.countChunk p r o else s.onCopy p fun r => { r with acks := r.acks - 1 }
      else s.onCopy p fun r =>
        { r with missing := r.missing - vals.length, got := vals.foldl (fun g x => put g x.1 x.2) r.got }
    | _ => s

/-- A copy command leaves the inbox and enters its spans, where they can all be made; a resumed one goes on at its first chunk not
committed (R266, R267). -/
def State.startCopy (s : State) (p : Nat) : State :=
  match (s.core p).cpRun, (s.core p).cpIn with
  | none, cmd :: rest => match cmd.body, s.con cmd.cid with
    | .copy o, some c =>
      if s.spansFit (o.spans c) then
        (s.enterSpans cmd.id (o.spans c)).onCore p fun x =>
          { x with cpIn := rest, cpRun := some ⟨cmd, cmd.done, [], cmd.done, false, none, [], 0, 0⟩ }
      else s
    | _, _ => s
  | _, _ => s

end Sys2Proof.Machine
end

