-- ==== Sys2Proof/Machine/LongVec.lean ====
section
/-! DEFINITION. The long-vector engine (R187-R197). -/

namespace Sys2Proof.Machine

/-! ## The command words (R188, R189) -/

/-- The long-vector commands. -/
inductive LvFn where
  | max | sumexp | softmax | topk | sample
deriving DecidableEq, Repr

/-- The field x of a command (R188). -/
def LvFn.code : LvFn → Nat
  | .max => 0 | .sumexp => 1 | .softmax => 2 | .topk => 3 | .sample => 4

/-- The command of a field x. -/
def LvFn.ofCode : Nat → LvFn
  | 0 => .max | 1 => .sumexp | 2 => .softmax | 3 => .topk | _ => .sample

/-- β is a positive finite BF16 number, or the encoding 0x0000 (R189). -/
def betaOk (par : Nat) : Bool := par == 0 || decide (par < 0x7F80)

/-- The checks of R189 after the reserved bits of word 0. -/
def lvCheck (f : LvFn) (a b : Nat) (_ : State) (_ : Wave) (_ : Cons) (_ : Nat × Nat) (w0 w1 : Nat) :
    Except (Nat × Nat) CmdBody :=
  let n := bits w0 38 19
  let src := bits w1 0 20
  let dst := bits w1 20 20
  let par := bits w1 48 16
  let size := if f = .topk then 512 else 32
  if bits w1 40 8 ≠ 0 then .error (2, b)
  else if bits w0 12 2 = 2 ∨ n = 0 ∨ 262144 < n then .error (2, a)
  else if src % 4 ≠ 0 then .error (3, src)
  else if dst % (if f = .topk then 4 else 32) ≠ 0 then .error (3, dst)
  else if 0xFE000 < src + 4 * n ∨ 0xFE000 < dst + size then .error (2, b)
  else if f = .topk ∧ (par = 0 ∨ 64 < par ∨ n < par) then .error (2, b)
  else if f ≠ .topk ∧ !betaOk par then .error (2, b)
  else if src < dst + size ∧ dst < src + 4 * n then .error (2, b)
  else .ok (.lv f.code n src dst par)

/-- A long-vector command's SX word (R188). -/
def lvWord (f : LvFn) (a b : Nat) (s : State) : Out :=
  sxWord s a b .longVector (some ⟨false, true, true⟩) (fun w0 => w0 / 2 ^ 57) (fun _ => none) (lvCheck f a b)

/-- LV_MAX (R192). -/
def execLvMax (a b : Nat) (s : State) : Out := lvWord .max a b s

/-- LV_SUMEXP (R193). -/
def execLvSumexp (a b : Nat) (s : State) : Out := lvWord .sumexp a b s

/-- LV_SOFTMAX (R194). -/
def execLvSoftmax (a b : Nat) (s : State) : Out := lvWord .softmax a b s

/-- LV_TOPK (R195). -/
def execLvTopk (a b : Nat) (s : State) : Out := lvWord .topk a b s

/-- LV_SAMPLE (R196). -/
def execLvSample (a b : Nat) (s : State) : Out := lvWord .sample a b s

/-! ## Starting (R187, R267) -/

/-- The bytes of its record that a command reads, and those that it writes, each from the lowest to the highest, as offsets (R190, R195). -/
def lvBytes (f : LvFn) (k : Nat) : Option (Nat × Nat) × Nat × Nat :=
  match f with
  | .max => (none, 0, 15)
  | .sumexp => (some (0, 3), 8, 15)
  | .softmax => (some (0, 11), 12, 15)
  | .topk => (none, 0, 255 + 4 * k)
  | .sample => (some (0, 19), 12, 27)

/-- The spans of a long-vector command: one of what it reads, source and record, and one of what it writes, which for a softmax is its
source too; each from its lowest byte to its highest (R267). -/
def lvSpans (p : Nat) (f : LvFn) (n src dst par : Nat) : List SpanReq :=
  let b := lvBytes f par
  let hi := src + 4 * n - 1
  let r := match b.1 with
    | some (x, y) => (min src (dst + x), max hi (dst + y))
    | none => (src, hi)
  let w := if f = .softmax then (min src (dst + b.2.1), max hi (dst + b.2.2)) else (dst + b.2.1, dst + b.2.2)
  [(p, r.1, r.2, false), (p, w.1, w.2, true)]

/-- A long-vector command leaves the inbox and enters its spans (R187, R267). -/
def State.startLv (s : State) (p : Nat) : State :=
  let s := s.latchLv p
  match (s.core p).lvRun, (s.core p).lvIn, (s.core p).lvRec with
  | none, cmd :: rest, some x => match cmd.body with
    | .lv fn n src dst par =>
      let xs := lvSpans (s.movedTo cmd) (LvFn.ofCode fn) n src dst par
      if s.spansFit xs then
        (s.enterSpans cmd.id xs).onCore p fun c => { c with lvIn := rest, lvRec := none, lvRun := some ⟨cmd, x, [], s.clk p⟩ }
      else s
    | _ => s
  | _, _, _ => s

/-- COPY_COMMAND_START (R187, R267): the head of a copy or long-vector inbox starts where its scoreboard entries can be made. -/
def execCopyCommandStart (pcore : Nat) (eng : Engine) (s : State) : Out :=
  match eng with
  | .copy => .next (s.startCopy pcore)
  | .longVector => .next (s.startLv pcore)
  | .matrix => .next s
  | .route => .next s

/-! ## Arithmetic (R190, R191) -/

/-- FP32 bits rounded from an exact result, to nearest even. -/
def f32r (r : Num × Flags) : Nat × Flags := fmtF32.deliver .rne false false r

/-- Round(x + y) in FP32. -/
def f32add (x y : Nat) : Nat × Flags := f32r (Num.add .rne (fmtF32.value x) (fmtF32.value y))

/-- Round(x × y) in FP32. -/
def f32mul (x y : Nat) : Nat × Flags := f32r (Num.mul (fmtF32.value x) (fmtF32.value y))

/-- Round(x / y) in FP32. -/
def f32div (x y : Nat) : Nat × Flags := f32r (Num.div (fmtF32.value x) (fmtF32.value y))

/-- z of an element: itself for par 0, else its product with β (R191). -/
def lvZ (par x : Nat) : Nat × Flags := if par = 0 then (x, 0) else f32mul x (par * 2 ^ 16)

/-- e of a z (R191). -/
def lvE (m z : Nat) : Nat × Flags :=
  let d := f32r (Num.add .rne (fmtF32.value z) (fmtF32.value m).negate)
  let p := f32mul d.1 0x3FB8AA3B
  let e := special .exp2 .f32 false p.1
  (e.1, d.2 ||| p.2 ||| e.2)

/-- The status bits that a z gives: NAN and INF (R190). -/
def zStatus (z : Nat) : Nat := if f32nan z then 1 else if fmtF32.inf = some (z % 2 ^ 31) then 2 else 0

/-- The status bit of a NaN read from the record. -/
def nanStatus (x : Nat) : Nat := if f32nan x then 1 else 0

/-- FP32 bits with a NaN made canonical (R133). -/
def f32canon (x : Nat) : Nat := if f32nan x then fmtF32.canon else x

/-- What a command writes: 32-bit words at offsets from the scratchpad, and the flags it raises. -/
structure LvOut where
  words : List (Nat × Nat)
  flags : Flags
  bytes : Nat
deriving DecidableEq, Repr

/-- The greatest element and its index, with flags and status (R192). -/
def maxScan (par : Nat) : List Nat → Nat → Nat × Nat × Flags × Nat → Nat × Nat × Flags × Nat
  | [], _, r => r
  | x :: xs, i, (m, a, fl, st) =>
    let z := lvZ par x
    let better := i = 0 ∨ f32key m < f32key z.1
    maxScan par xs (i + 1) (if better then z.1 else m, if better then i else a,
      fl ||| z.2 ||| raiseIf (fmtF32.value x).isSig fNV, st ||| zStatus z.1)

/-- `lv.max` (R192). -/
def lvMaxOut (par dst : Nat) (xs : List Nat) : LvOut :=
  let r := maxScan par xs 0 (0, 0, 0, 0)
  ⟨[(dst, f32canon r.1), (dst + 4, r.2.1), (dst + 12, r.2.2.2)], r.2.2.1, 12⟩

/-- The e of each element, with the flags raised and the status met. -/
def lvEs (par m : Nat) : List Nat → List Nat × Flags × Nat
  | [] => ([], 0, 0)
  | x :: xs =>
    let z := lvZ par x
    let e := lvE m z.1
    let r := lvEs par m xs
    (e.1 :: r.1, z.2 ||| e.2 ||| r.2.1, zStatus z.1 ||| r.2.2)

/-- The tree of one chunk, its absent places at the end (R180, R193). -/
def chunkSum (es : List Nat) : Nat × Flags :=
  let r := tree RedOp.add.f32 0 6 (lanes64.map fun (i : Nat) => (es[i]?).map fun (e : Nat) => ((e : Int), (0 : Word)))
  ((match r.1 with
    | some x => x.1.toNat
    | none => 0), r.2.1)

/-- The sum over chunks of 64 in index order; `k` bounds their number (R193). -/
def chunkSums : Nat → List Nat → Nat × Flags → Nat × Flags
  | 0, _, r => r
  | _, [], r => r
  | k + 1, es, (acc, fl) =>
    let c := chunkSum (es.take 64)
    let t := f32add acc c.1
    chunkSums k (es.drop 64) (t.1, fl ||| c.2 ||| t.2)

/-- `lv.sumexp` (R193). -/
def lvSumexpOut (par m dst : Nat) (xs : List Nat) : LvOut :=
  let es := lvEs par m xs
  let r := chunkSums (xs.length / 64 + 1) es.1 (0, 0)
  ⟨[(dst + 8, r.1), (dst + 12, nanStatus m ||| es.2.2)], es.2.1 ||| r.2, 8⟩

/-- `lv.softmax` (R194). -/
def lvSoftmaxOut (par m sum src dst : Nat) (xs : List Nat) : LvOut :=
  let es := lvEs par m xs
  let st := nanStatus m ||| nanStatus sum ||| es.2.2
  let put := fun (ys : List Nat) => ys.zipIdx.map fun e => (src + 4 * e.2, e.1)
  if sum % 2 ^ 31 = 0 then ⟨put (xs.map fun _ => 0) ++ [(dst + 12, st ||| 8)], 0, 4 * xs.length + 4⟩
  else
    let ys := es.1.map fun e => f32div e sum
    ⟨put (ys.map Prod.fst) ++ [(dst + 12, st)], ys.foldl (fun f y => f ||| y.2) es.2.1, 4 * xs.length + 4⟩

/-- An element put in its place in a descending list; earlier ones stay before equal ones (R195). -/
def insertTop (x : Nat × Nat) : List (Nat × Nat) → List (Nat × Nat)
  | [] => [x]
  | y :: ys => if f32key y.1 < f32key x.1 then x :: y :: ys else y :: insertTop x ys

/-- `lv.topk` (R195). -/
def lvTopkOut (k dst : Nat) (xs : List Nat) : LvOut :=
  let top := xs.zipIdx.foldl (fun l x => (insertTop x l).take k) []
  ⟨(top.zipIdx.map fun e => (dst + 4 * e.2, f32canon e.1.1)) ++ top.zipIdx.map fun e => (dst + 256 + 4 * e.2, e.1.2), 0, 8 * k⟩

/-- The sequential sum until it exceeds t: the pick, the sum, flags, status and the last element with weight (R196). -/
def sampleScan (par m : Nat) (t : Num) : List Nat → Nat → Nat × Flags × Nat × Option Nat → Option Nat × Nat × Flags × Nat × Option Nat
  | [], _, (c, fl, st, last) => (none, c, fl, st, last)
  | x :: xs, i, (c, fl, st, last) =>
    let z := lvZ par x
    let e := lvE m z.1
    let d := f32add c e.1
    let fl := fl ||| z.2 ||| e.2 ||| d.2
    let st := st ||| zStatus z.1
    let last := if !f32nan e.1 && e.1 != 0 && decide (e.1 < 2 ^ 31) then some i else last
    if !f32nan d.1 && Num.lt false t (fmtF32.value d.1) then (some i, d.1, fl, st, last)
    else sampleScan par m t xs (i + 1) (d.1, fl, st, last)

/-- `lv.sample` (R196). -/
def lvSampleOut (par m sum u dst : Nat) (xs : List Nat) : LvOut :=
  let t := f32r (Num.mul (.fin false u (2 ^ 32)) (fmtF32.value sum))
  let st := nanStatus m ||| nanStatus sum
  if f32nan t.1 || f32nan sum then
    ⟨[(dst + 12, st ||| 1), (dst + 0x14, 0xFFFFFFFF), (dst + 0x18, fmtF32.canon)], t.2, 12⟩
  else
    let r := sampleScan par m (fmtF32.value t.1) xs 0 (0, t.2, st, none)
    match r.1 with
    | some i => ⟨[(dst + 12, r.2.2.2.1), (dst + 0x14, i), (dst + 0x18, r.2.1)], r.2.2.1, 12⟩
    | none => ⟨[(dst + 12, r.2.2.2.1 ||| 4), (dst + 0x14, r.2.2.2.2.getD 0xFFFFFFFF), (dst + 0x18, r.2.1)], r.2.2.1, 12⟩

/-- What a command computes from its source and the record it read. -/
def lvOut (f : LvFn) (par src dst : Nat) (r : LvRec) (xs : List Nat) : LvOut :=
  match f with
  | .max => lvMaxOut par dst xs
  | .sumexp => lvSumexpOut par r.m dst xs
  | .softmax => lvSoftmaxOut par r.m r.sum src dst xs
  | .topk => lvTopkOut par dst xs
  | .sample => lvSampleOut par r.m r.sum r.u dst xs

/-- The elements read are all that the command needs: every one of its `n`, or for `lv.sample` those up to its pick, and none where t or
S is a NaN (R187, R196). -/
def lvRead (f : LvFn) (par n : Nat) (r : LvRec) (xs : List Nat) : Bool :=
  decide (n ≤ xs.length) || f == .sample &&
    let t := f32r (Num.mul (.fin false r.u (2 ^ 32)) (fmtF32.value r.sum))
    (f32nan t.1 || f32nan r.sum || (sampleScan par r.m (fmtF32.value t.1) xs 0 (0, 0, 0, none)).1.isSome)

/-! ## Leaving the scoreboard (R267) -/

/-- A read entry goes after its command's last read, any entry once its command has ended (R267). -/
def State.spanGone (s : State) (x : Span) : Bool :=
  !s.cmdLive x.cmd || !x.write && s.cores.any fun e =>
    (e.2.cpRun.any fun r => r.cmd.id == x.cmd && match r.cmd.body with
      | .copy o => decide (o.total ≤ r.next * 4096)
      | _ => false)
    || (e.2.lvRun.any fun r => r.cmd.id == x.cmd && match r.cmd.body with
      | .lv fn n _ _ par => lvRead (LvFn.ofCode fn) par n r.fields r.got
      | _ => false)
    || e.2.rt.run.any fun r => r.cmd.id == x.cmd && match r.cmd.body with
      | .rtRoute t _ _ => (look e.2.rt.tables t).any fun y => decide (y.desc.rows * y.desc.k ≤ r.next)
      | _ => false

/-- SCOREBOARD_ENTRY_REMOVE (R267, R222). -/
def execScoreboardEntryRemove (pcore : Nat) (s : State) : Out :=
  .next (s.onCore pcore fun c => { c with spans := c.spans.filter fun x => !s.spanGone x })

/-! ## Reading (R187) and finishing (R197) -/

/-- `n` FP32 elements of a scratchpad from an offset. -/
def State.elements (s : State) (key : Nat) : Nat → List Nat
  | 0 => []
  | n + 1 => s.num 4 key :: s.elements (key + 4) n

/-- Words written to a scratchpad. -/
def State.writeWords (s : State) (p : Nat) : List (Nat × Nat) → State
  | [] => s
  | x :: xs => (s.writeNum 4 (spadKey p x.1) x.2).writeWords p xs

/-- Every granule from one offset to another is leased to the consignment. -/
def granulesOf (s : State) (p cid lo hi : Nat) : Bool :=
  (List.range (hi / 4096 - lo / 4096 + 1)).all fun i => granuleOf s p (lo / 4096 + i) cid

/-- The running command ends without its results: the address is logged, its reply carries the error, and the next is at the head of the
inbox (R197, R405). -/
def State.failLv (s : State) (p : Nat) (c : Cmd) (off : Nat) : State :=
  (((s.onCore p fun x => { x with lvRun := none }).logCmd c (c.padVa off)).endCmd c true).latchLv p

/-- The long-vector engine of core `p` reads the next elements of its source, at most 64 in a cycle and in ascending order; one outside
the consignment's granules, or with an uncorrectable error, ends the command (R187, R197, R249). -/
def State.readLv (s : State) (p : Nat) : State :=
  match (s.core p).lvRun with
  | none => s
  | some r => match r.cmd.body with
    | .lv fn n src _ par =>
      let i := r.got.length
      let k := min 64 (n - i)
      let q := s.movedTo r.cmd
      let off := src + 4 * i
      if lvRead (LvFn.ofCode fn) par n r.fields r.got || decide (s.clk p < r.nextAt) then s
      else match (List.range k).find? fun j => !granuleOf s q ((off + 4 * j) / 4096) r.cmd.cid || s.memBad (spadKey q (off + 4 * j)) 4 with
        | some j => s.failLv p r.cmd (off + 4 * j)
        | none =>
          let got := r.got ++ s.elements (spadKey q off) k
          let s := s.onCore p fun c => { c with lvRun := some { r with got := got, nextAt := s.clk p + 1 } }
          if lvRead (LvFn.ofCode fn) par n r.fields got then s.readsDone r.cmd else s
    | _ => s

/-- LV_COMMAND_FINISH (R192-R197): the results of the running command, which has read what it needs, are written, its flags are raised
and it replies; a record outside the consignment's granules ends it without results. -/
def execLvCommandFinish (pcore : Nat) (s : State) : Out :=
  match (s.core pcore).lvRun with
  | none => .next s
  | some r => match r.cmd.body with
    | .lv fn n src dst par =>
      let f := LvFn.ofCode fn
      let p := s.movedTo r.cmd
      let size := if f = .topk then 512 else 32
      if !lvRead f par n r.fields r.got then .next s
      else if !granulesOf s p r.cmd.cid dst (dst + size - 1) then .next (s.failLv pcore r.cmd dst)
      else
        let o := lvOut f par src dst r.fields r.got
        let s1 := s.onCore pcore fun x => { x with lvRun := none }
        .next ((((s1.writeWords p o.words).raiseCmd r.cmd o.flags).endBytes r.cmd o.bytes false).latchLv pcore)
    | _ => .next s

end Sys2Proof.Machine
end

