-- ==== Sys2Proof/Machine/Matrix.lean ====
section
/-! DEFINITION. The matrix engine: plane loads, quarter operations, the aligner, passes, selection, delivery, and `vscacc`
(R201-R227). -/

namespace Sys2Proof.Machine

/-! ## The command words (R205, R206, R210, R211) -/

/-- The checks of R206 after the reserved bits of word 0. -/
def mxLoadCheck (a b : Nat) (_ : State) (_ : Wave) (_ : Cons) (_ : Nat × Nat) (w0 w1 : Nat) : Except (Nat × Nat) CmdBody :=
  let k := bits w1 48 16
  let addr := (BitVec.ofInt 64 (readInt true 48 (bits w1 0 48))).toNat
  if bits w0 12 2 = 2 then .error (2, a)
  else if k = 0 ∨ 256 < k then .error (2, b)
  else if addr % 256 ≠ 0 then .error (3, addr)
  else .ok (.mxLoad (bits w0 38 16) (bits w0 54 2) (bits w0 56 1 == 1) addr k)

/-- MX_LOAD (R205-R207). -/
def execMxLoad (a b : Nat) (s : State) : Out :=
  sxWord s a b .matrix (some ⟨true, true, false⟩) (fun w0 => w0 / 2 ^ 57) (fun _ => none) (mxLoadCheck a b)

/-- Bytes of an activation element (R210). -/
def afmtBytes (afmt : Nat) : Nat := if 4 ≤ afmt then 2 else 1

/-- The pitch of activation rows in bytes (R210). -/
def rowPitch (k afmt stride : Nat) : Nat := (if stride = 0 then (k * afmtBytes afmt + 31) / 32 else stride) * 32

/-- The checks of R211 after the reserved bits of word 0. -/
def mxQuarterCheck (m : MxMode) (a b : Nat) (_ : State) (w : Wave) (_ : Cons) (t : Nat × Nat) (w0 w1 : Nat) :
    Except (Nat × Nat) CmdBody :=
  let afmt := bits w0 54 3
  let rows := bits w0 57 4 + 1
  let init := bits w0 61 1
  let src := bits w1 0 20
  let k := if bits w1 20 8 = 0 then 256 else bits w1 20 8
  let abase := bits w1 28 7
  let stride := bits w1 35 9
  let ksel := bits w1 44 4
  let cbase := bits w1 48 16
  if t.1 ≠ w.lcore ∨ 6 ≤ afmt then .error (2, a)
  else if m = .stream ∧ init ≠ 0 then .error (2, a)
  else if m = .stream ∧ (ksel ≠ 0 ∨ cbase ≠ 0) then .error (2, b)
  else if src % 32 ≠ 0 then .error (3, src)
  else if 0xFE000 < src + (rows - 1) * rowPitch k afmt stride + k * afmtBytes afmt then .error (2, b)
  else
    let ok : Except (Nat × Nat) CmdBody :=
      .ok (.mxQuarter m.code (bits w0 38 16) afmt rows (init == 1) src k abase stride ksel cbase)
    if bits w0 12 2 = 2 then match look w.rings (bits w0 14 4) with
      | some r =>
        if abase ≠ 0 then .error (2, b)
        else if r.scratch ∨ r.base < 192 ∨ 192 + w.fp.acc < r.base + r.slots then .error (2, a) else ok
      | none => .error (2, a)
    else if w.fp.acc < abase + rows then .error (2, b) else ok

/-- A quarter operation's SX word (R210). -/
def mxWord (m : MxMode) (a b : Nat) (s : State) : Out :=
  sxWord s a b .matrix (some ⟨true, true, true⟩) (fun w0 => w0 / 2 ^ 62) (fun _ => none) (mxQuarterCheck m a b)

/-- MX_STREAM (R210, R216). -/
def execMxStream (a b : Nat) (s : State) : Out := mxWord .stream a b s

/-- MX_DIST (R210, R224). -/
def execMxDist (a b : Nat) (s : State) : Out := mxWord .dist a b s

/-- MX_MIPS (R210, R224). -/
def execMxMips (a b : Nat) (s : State) : Out := mxWord .mips a b s

/-! ## Planes (R203, R204, R209) -/

/-- The plane that a stream uses. -/
inductive Uses where
  | pending
  | plane (p : Plane)
  | missing

/-- The planes in the two slots. -/
def MxEngine.planes (m : MxEngine) : List Plane := m.slot0.toList ++ m.slot1.toList

/-- A load command of a tag and consignment that reached the inbox before number `seq`. -/
def loadsBefore (cid tag seq : Nat) (c : Cmd) : Bool :=
  match c.body with
  | .mxLoad t _ _ _ _ => t == tag && c.cid == cid && decide (c.seq < seq)
  | _ => false

/-- The later of two planes by arrival of their loads. -/
def laterPlane (x : Option Plane) (y : Plane) : Option Plane :=
  match x with
  | some z => if z.seq < y.seq then some y else some z
  | none => some y

/-- The plane of a tag for a command of this consignment with number `seq`: the latest load before it, or what a slot holds (R209). -/
def MxEngine.usesOf (m : MxEngine) (cid tag seq : Nat) : Uses :=
  let waiting := (m.inbox.filter (loadsBefore cid tag seq)).map Cmd.seq ++
    (match m.load with
      | some l => if loadsBefore cid tag seq l.cmd then [l.cmd.seq] else []
      | none => [])
  match (m.planes.filter fun p => p.tag == tag && p.cid == cid && decide (p.seq < seq)).foldl laterPlane none with
  | some p => if waiting.any fun n => decide (p.seq < n) then .pending else .plane p
  | none => if waiting.isEmpty then .missing else .pending

/-- The plane of a quarter operation. -/
def MxEngine.uses (m : MxEngine) (c : Cmd) : Uses :=
  match c.body with
  | .mxQuarter _ tag _ _ _ _ _ _ _ _ _ => m.usesOf c.cid tag c.seq
  | _ => .missing

/-- A command uses the plane whose load has number `q`. -/
def MxEngine.names (m : MxEngine) (q : Nat) (c : Cmd) : Bool :=
  match m.uses c with
  | .plane p => p.seq == q
  | _ => false

/-- A slot holds no plane that an operation ahead of number `seq`, or a running one, names (R207). -/
def MxEngine.slotFree (m : MxEngine) (slot : Option Plane) (seq : Nat) : Bool :=
  match slot with
  | none => true
  | some p => !(m.inbox.any fun c => decide (c.seq < seq) && m.names p.seq c) && !m.pass.any fun r => m.names p.seq r.cmd

/-- The slots that a load fills, once it may start: an empty slot first, then the older plane, the lower slot on a tie (R207). -/
def MxEngine.chooseSlots (m : MxEngine) (fmt seq : Nat) : Option (Bool × Bool) :=
  let f0 := m.slotFree m.slot0 seq
  let f1 := m.slotFree m.slot1 seq
  let age : Option Plane → Nat := fun p => match p with
    | none => 0
    | some p => p.since + 1
  if fmt = 3 then (if f0 && f1 then some (true, true) else none)
  else if f0 && f1 then (if age m.slot1 < age m.slot0 then some (false, true) else some (true, false))
  else if f0 then some (true, false)
  else if f1 then some (false, true)
  else none

/-! ## Loading a plane (R202, R203, R207, R208) -/

/-- Bytes of a K-row in the image (R203). -/
def rowBytes : Nat → Nat
  | 0 => 16 | 1 => 32 | 2 => 32 | _ => 64

/-- Where the column scales begin (R203). -/
def scalesAt (fmt k : Nat) : Nat := (k * rowBytes fmt + 255) / 256 * 256

/-- The bytes of an image. -/
def imageBytes (fmt k : Nat) (norm : Bool) : Nat := scalesAt fmt k + 256 + (if norm then 256 else 0)

/-- The value of a weight, and its NV (R207). -/
def weightOf (fmt e : Nat) : Int × Flags :=
  match fmt with
  | 0 => (if e % 4 = 1 then 1 else if e % 4 = 3 then -1 else 0, raiseIf (e % 4 == 2) fNV)
  | 1 => (readInt true 4 e, 0)
  | 2 => match Ty.fmt .e2m1 |>.value (e % 16) with
    | .fin neg n d => (withSign neg (2 * n / d), 0)
    | _ => (0, 0)
  | _ => (readInt true 8 e, 0)

/-- The digit ±2^shift of a cell (R202). -/
def digitOf (neg : Bool) (shift : Nat) : BitVec 6 := BitVec.ofNat 6 (4 * shift + if neg then 3 else 1)

/-- sel × 2^shift of a digit (R202). -/
def digitVal (d : BitVec 6) : Int := match d.toNat % 4 with
  | 1 => 2 ^ (d.toNat / 4)
  | 3 => -2 ^ (d.toNat / 4)
  | _ => 0

/-- The non-adjacent form of `w` × 2^`shift`, highest shift first (R202); `k` bounds the number of shifts. -/
def nafDigits : Nat → Nat → Int → List (BitVec 6)
  | 0, _, _ => []
  | k + 1, shift, w =>
    if w % 2 = 0 then nafDigits k (shift + 1) (w / 2)
    else
      let d : Int := 2 - w % 4
      nafDigits k (shift + 1) ((w - d) / 2) ++ [digitOf (decide (d < 0)) shift]

/-- The digits of a weight as the cells hold them: two in the plane or the high sub-plane, the rest in the low one (R202, R207). -/
def cellsOf (w : Int) : CellDigits × CellDigits :=
  let ds := nafDigits 9 0 w
  ((ds.getD 0 0, ds.getD 1 0), (ds.getD 2 0, ds.getD 3 0))

/-- The weight of cell `i`: the sum of its digits (R202). -/
def Plane.weight (p : Plane) (i : Nat) : Int :=
  let h := lookD p.hi i (0, 0)
  let l := lookD p.lo i (0, 0)
  digitVal h.1 + digitVal h.2 + digitVal l.1 + digitVal l.2

/-- The weights of one row of the image other than zero, by number 64 k + c from `at_` on, and the flags that the row raises. -/
def rowWeights (fmt : Nat) (row : Nat) (at_ : Nat) : Arr Int × Flags :=
  let w := rowBytes fmt / 8
  let xs := lanes64.map fun c => (at_ + c, weightOf fmt (row / 2 ^ (w * c) % 2 ^ w))
  ((xs.filter fun x => x.2.1 != 0).map fun x => (x.1, x.2.1), xs.foldl (fun f x => f ||| x.2.2) 0)

/-- The weights of `k` rows of an image. -/
def imageWeights (fmt : Nat) : Nat → Nat → List Byte → Arr Int × Flags
  | 0, _, _ => ([], 0)
  | k + 1, at_, bs =>
    let r := rowWeights fmt (ofBytes (bs.take (rowBytes fmt))) at_
    let t := imageWeights fmt k (at_ + 64) (bs.drop (rowBytes fmt))
    (r.1 ++ t.1, r.2 ||| t.2)

/-- The 32-bit words of a list of bytes. -/
def wordsOf : Nat → List Byte → List W32
  | 0, _ => []
  | n + 1, bs => BitVec.ofNat 32 (ofBytes (bs.take 4)) :: wordsOf n (bs.drop 4)

/-- The plane of an image, and the flags its weights raise. -/
def planeOf (c : Cmd) (tag fmt : Nat) (norm : Bool) (addr k since : Nat) (bs : List Byte) : Plane × Flags :=
  let w := imageWeights fmt k 0 bs
  let cells := w.1.map fun x => (x.1, cellsOf x.2)
  let tail := bs.drop (scalesAt fmt k)
  (⟨tag, c.cid, fmt, k, norm, addr, cells.map fun x => (x.1, x.2.1),
    (cells.filter fun x => x.2.2 != (0, 0)).map fun x => (x.1, x.2.2), (wordsOf 64 tail).map fun x => x.setWidth 8,
    if norm then wordsOf 64 (tail.drop 256) else List.replicate 64 0, c.seq, since⟩, w.2)

/-- The matrix engine of a core changed. -/
def State.onMx (s : State) (p : Nat) (f : MxEngine → MxEngine) : State := s.onCore p fun c => { c with mx := f c.mx }

/-- The first load in the inbox leaves it where its slots are free, and they are emptied. -/
def MxEngine.startLoad (m : MxEngine) : MxEngine :=
  match m.load, m.inbox.find? fun c => match c.body with
      | .mxLoad .. => true
      | _ => false with
  | none, some c => match c.body with
    | .mxLoad _ fmt _ _ _ => match m.chooseSlots fmt c.seq with
      | some (f0, f1) =>
        let cut : Bool → Option Plane → Option Plane → Option Plane := fun f x y =>
          if f then none else match x, y with
            | some p, some q => if p.seq = q.seq then none else some p
            | x, _ => x
        { m with
          inbox := m.inbox.filter fun x => x.id != c.id
          slot0 := cut f0 m.slot0 m.slot1
          slot1 := cut f1 m.slot1 m.slot0
          load := some ⟨c, f0, f1, [], 0, false, none⟩ }
      | none => m
    | _ => m
  | _, _ => m

/-- The image read, the plane installed and the reply sent (R207); a plane that is brought back after a resume raises nothing again (R226). -/
def State.installPlane (s : State) (p : Nat) (l : MxLoad) (tag fmt : Nat) (norm : Bool) (addr k : Nat) (bs : List Byte) : State :=
  let x := planeOf l.cmd tag fmt norm addr k (s.core p).mx.installs bs
  let s := s.onMx p fun m => { m with
    slot0 := if l.fill0 then some x.1 else m.slot0
    slot1 := if l.fill1 then some x.1 else m.slot1
    load := none, installs := m.installs + 1 }
  (s.raiseCmd l.cmd (if l.cmd.reload then 0 else x.2)).endBytes l.cmd (k * rowBytes fmt + 256 + (if norm then 256 else 0)) false

/-- MX_LOAD_EXECUTE (R207, R208): a load waits for its slots, reads its image and installs its plane; a page fault suspends it. -/
def execMxLoadExecute (pcore : Nat) (s : State) : Out :=
  let s := s.onMx pcore MxEngine.startLoad
  match (s.core pcore).mx.load with
  | none => .next s
  | some l => match l.cmd.body, s.con l.cmd.cid with
    | .mxLoad tag fmt norm addr k, some c =>
      if l.suspended || l.missing != 0 || l.failed.isSome then .next s
      else match engReads s pcore l.cmd.cid c l.got addr (imageBytes fmt k norm) 0 with
        | .ok bs =>
          let ks := (List.range (imageBytes fmt k norm)).filterMap fun (i : Nat) => engKey s pcore l.cmd.cid c addr i
          .next ((s.missedKeys pcore ks).installPlane pcore l tag fmt norm addr k bs)
        | .ask ks =>
          let ks := ks.dedup
          .next ((s.onMx pcore fun m => { m with load := some { l with missing := ks.length } }).askPeer l.cmd .load
            (ks.map fun k => (k, 0)) (homesOf ks))
        | .fault va => .next { s.onMx pcore (fun m => { m with load := some { l with suspended := true } }) with
            faults := s.faults ++ [.engine pcore .matrix c.aspace va] }
        | .bad va => .next (s.onMx pcore fun m => { m with load := some { l with failed := some va } })
    | _, _ => .next s

/-- MX_LOAD_END_ERROR (R208): a load that met an unrecoverable fault or an error ends; its slots stay empty. -/
def execMxLoadEndError (pcore : Nat) (s : State) : Out :=
  match (s.core pcore).mx.load with
  | none => .next s
  | some l => match l.failed with
    | none => .next s
    | some va => .next ((s.onMx pcore fun m => { m with load := none }).failCmd l.cmd va)

/-- What a peer module answered a plane load (R355). -/
def State.mxAnswer (s : State) (p : Nat) (failed : Bool) (va : Nat) (vals : List (Nat × Byte)) : State :=
  s.onMx p fun m => { m with load := m.load.map fun l =>
    if failed then { l with missing := 0, failed := some va }
    else { l with missing := l.missing - vals.length, got := vals.foldl (fun g x => put g x.1 x.2) l.got } }

/-! ## The aligner and the array (R212-R214) -/

/-- An element of an activation row. -/
def actValue (afmt e : Nat) : Num :=
  match afmt with
  | 0 => Num.ofInt (readInt true 8 e)
  | 1 => Num.ofInt (readInt false 8 e)
  | 2 => (Ty.fmt .e4m3).value (e % 256)
  | 3 => (Ty.fmt .e5m2).value (e % 256)
  | 4 => (Ty.fmt .f16).value (e % 65536)
  | _ => (Ty.fmt .bf16).value (e % 65536)

/-- The elements of a row in the scratchpad. -/
def State.actRow (s : State) (key afmt : Nat) : Nat → List Num
  | 0 => []
  | n + 1 => actValue afmt (s.num (afmtBytes afmt) key) :: s.actRow (key + afmtBytes afmt) afmt n

/-- The row exponent of R212; integer formats have 0. -/
def rowExp (afmt : Nat) (xs : List Num) : Int :=
  if afmt < 2 then 0
  else
    let es := xs.filterMap fun x => match x with
      | .fin _ n d => if n = 0 then none else some (ilog2 n d)
      | _ => none
    match es.max? with
    | some e => e - 12
    | none => 0

/-- The aligned integer of an element: truncated toward zero, and 0 where it is not finite (R212). -/
def alignOne (er : Int) : Num → Int
  | .fin neg n d => withSign neg (divPow n d er).1
  | _ => 0

/-- The exact sum of a column (R213). -/
def columnSum (w : Nat → Int) (as : List Int) (c : Nat) : Int :=
  as.zipIdx.foldl (fun t x => t + x.1 * w (64 * x.2 + c)) 0

/-- The class of a column: 0 finite, 1 +∞, 2 −∞, 3 NaN (R214). -/
def columnClass (w : Nat → Int) (xs : List Num) (c : Nat) : Nat :=
  let plus := xs.any fun x => x == .inf false
  let minus := xs.any fun x => x == .inf true
  if xs.any Num.isNan || plus && minus then 3
  else if !plus && !minus then 0
  else
    let ws := (xs.zipIdx.filter fun x => x.1 == .inf plus || x.1 == .inf minus).filterMap fun x => match x.1 with
      | .inf _ => some (w (64 * x.2 + c))
      | _ => none
    if ws.any (· == 0) || (ws.any fun (x : Int) => decide (0 < x)) && ws.any fun (x : Int) => decide (x < 0) then 3
    else if (ws.any fun (x : Int) => decide (x < 0)) != minus then 2 else 1

/-- What an activation row gives: by column its class and its integer; the row exponent, the plane adjust and NV. -/
structure RowSums where
  cls  : List Nat
  ints : List Int
  er   : Int
  adj  : Int
  nv   : Flags

/-- The column sums of a row through a plane; a missing plane gives class NaN in every column (R209, R213, R214). -/
def rowSums (afmt : Nat) (xs : List Num) (p : Option Plane) : RowSums :=
  let er := rowExp afmt xs
  let nv := raiseIf (xs.any Num.isSig) fNV
  match p with
  | none => ⟨List.replicate 64 3, List.replicate 64 0, er, 0, nv⟩
  | some p =>
    let as := xs.map (alignOne er)
    let cls := lanes64.map fun c => columnClass p.weight xs c
    ⟨cls, lanes64.map fun c => if cls.getD c 0 = 0 then columnSum p.weight as c else 0, er, if p.fmt = 2 then -1 else 0, nv⟩

/-- The class bits of a tag (R215). -/
def clsBits (cs : List Nat) : BitVec 128 := BitVec.ofNat 128 (cs.foldr (fun c t => c + 4 * t) 0)

/-- The value of a column for selection, and its flags (R224). -/
def selValue (m : MxMode) (p : Option Plane) (r : RowSums) (c : Nat) : Nat × Flags :=
  let sw := match p with
    | some p => (p.scales.getD c 0).toNat
    | none => 0xFF
  let i := r.ints.getD c 0
  let x : Num := if sw = 0xFF then .nan false else match r.cls.getD c 0 with
    | 0 => .scaled (decide (i < 0)) i.natAbs (r.er + r.adj + (sw : Int) - 127)
    | 1 => .inf false
    | 2 => .inf true
    | _ => .nan false
  match m with
  | .dist =>
    let nb := match p with
      | some p => (p.norms.getD c 0).toNat
      | none => 0
    f32r (Num.add .rne (fmtF32.value nb) (Num.mul (.fin false 2 1) x).1.negate)
  | _ => f32r (x, 0)

/-! ## Passes (R217, R218, R221, R222) -/

/-- The fields of a quarter operation. -/
structure Quarter where
  mode  : MxMode
  tag   : Nat
  afmt  : Nat
  rows  : Nat
  init  : Bool
  src   : Nat
  k     : Nat
  abase : Nat
  pitch : Nat
  ksel  : Nat
  cbase : Nat

/-- A command as a quarter operation. -/
def Cmd.quarter (c : Cmd) : Option Quarter :=
  match c.body with
  | .mxQuarter m tag afmt rows init src k abase stride ksel cbase =>
    some ⟨MxMode.ofCode m, tag, afmt, rows, init, src, k, abase, rowPitch k afmt stride, ksel, cbase⟩
  | _ => none

/-- Two quarter operations share a plane, a command and an activation format (R218). -/
def MxEngine.fuses (m : MxEngine) (h c : Cmd) : Bool :=
  match h.quarter, c.quarter with
  | some x, some y => x.mode == y.mode && x.afmt == y.afmt && match m.uses h, m.uses c with
    | .plane p, .plane q => p.seq == q.seq
    | _, _ => h.id == c.id
  | _, _ => false

/-- The rows a quarter operation has still to do. -/
def Cmd.rowsLeft (c : Cmd) : Nat := (c.quarter.map Quarter.rows).getD 0 - c.done

/-- The operations of a pass, in inbox order: `got` have joined, `left` are left out (R218). -/
def MxEngine.gather (m : MxEngine) (h : Cmd) : List Cmd → List Cmd → List Cmd → List Cmd
  | [], got, _ => got
  | c :: cs, got, left =>
    if m.fuses h c ∧ c.since < h.since + 16 ∧ !(left.any fun x => x.wave == c.wave) ∧ got.length < 8
        ∧ (got.map Cmd.rowsLeft).sum + c.rowsLeft ≤ 128
    then m.gather h cs (got ++ [c]) left else m.gather h cs got (left ++ [c])

/-- The rows of an operation that are not done; the last one gathers the flags, those of the rows done before a resume among them
(R149, R226). -/
def Cmd.passRows (c : Cmd) : List PassRow :=
  (List.range c.rowsLeft).map fun i => ⟨c, c.done + i, none, [], ⟨0, 0, 0, false⟩, if i + 1 = c.rowsLeft then c.flags else 0, false⟩

/-- Rows on their way to the holding space. -/
def MxEngine.toHold (m : MxEngine) : Nat := (m.pass.filter fun r => match r.cmd.reply with
  | .ring _ => true
  | _ => false).length

/-- PASS_START (R209, R218, R221): the head's window has closed or the pass is full, the engine is free, its plane is installed and
the holding space can take every row. The operations of a halted wave are passed over: DESIGN CHOICE, R226 and R370 stop them and do not say
whether the engine goes on with others (log 33). -/
def execPassStart (pcore : Nat) (s : State) : Out :=
  let m := (s.core pcore).mx
  let inbox := m.inbox.filter fun c => !s.issuerHalted c
  match inbox with
  | [] => .next s
  | h :: _ => match h.quarter with
    | none => .next s
    | some _ =>
      let cs := m.gather h inbox [] []
      let rows := cs.flatMap Cmd.passRows
      let full := cs.length == 8 || rows.length == 128
      let wait := match m.uses h with
        | .pending => true
        | _ => false
      if wait || m.pass.any (fun r => r.entered.isNone && !s.issuerHalted r.cmd) || (!full && decide (s.clk pcore < h.since + 16))
          || decide (128 < m.held.length + m.toHold + rows.length) then .next s
      else
        let s := s.onMx pcore fun m => { m with
          inbox := m.inbox.filter fun c => !cs.any fun x => x.id == c.id
          pass := m.pass ++ rows, nextAt := max m.nextAt (s.clk pcore) }
        match m.uses h with
        | .missing => .next ((s.logUnit (dieOf pcore) 0 h.spc h.lcore pcore 3 0x11 h.cid true).flagError h.cid)
        | _ => .next s

/-- Cycles between rows: `cad` × fw × fa (R217). -/
def rowStep (cad : Nat) (p : Option Plane) (afmt : Nat) : Nat :=
  cad * (if (p.map Plane.fmt) = some 3 then 2 else 1) * afmtBytes afmt

/-- A row that has entered the aligner, with what it gives. -/
def State.enterRow (s : State) (pcore : Nat) (r : PassRow) (q : Quarter) (p : Option Plane) (at_ : Nat) : PassRow :=
  let key := spadKey (s.movedTo r.cmd) (q.src + r.row * q.pitch)
  let x := rowSums q.afmt (s.actRow key q.afmt q.k) p
  match q.mode with
  | .stream => { r with
      entered := some at_
      vals := x.ints.map fun i => BitVec.ofInt 32 i
      tag := ⟨clsBits x.cls, x.er, x.adj, false⟩
      flags := r.flags ||| x.nv }
  | m =>
    let vs := lanes64.map (selValue m p x)
    { r with
      entered := some at_
      vals := vs.map fun v => BitVec.ofNat 32 v.1
      tag := ⟨0, 0, 0, true⟩
      flags := vs.foldl (fun f v => f ||| v.2) (r.flags ||| x.nv) }

/-- The first row that a test picks replaced. -/
def setFirstRow (pick : PassRow → Bool) (f : PassRow → PassRow) : List PassRow → List PassRow
  | [] => []
  | r :: rs => if pick r then f r :: rs else r :: setFirstRow pick f rs

/-- The operation reads pairs that its destination holds (R225). -/
def Quarter.readsPairs (q : Quarter) : Bool := q.mode != .stream && !q.init

/-- ROW_ENTERS_ALIGNER (R212-R214, R217, R299): the next row enters at its row step; when it is its operation's last, the operation's
reads are made, unless it still reads pairs. Rows of a halted wave's operations do not enter (R226, R370). -/
def execRowEntersAligner (pcore : Nat) (s : State) : Out :=
  let m := (s.core pcore).mx
  let pick := fun (r : PassRow) => r.entered.isNone && !s.issuerHalted r.cmd
  match m.pass.find? pick with
  | none => .next s
  | some r => match r.cmd.quarter with
    | none => .next s
    | some q =>
      if s.clk pcore < m.nextAt then .next s
      else
        let p := match m.uses r.cmd with
          | .plane p => some p
          | _ => none
        let t := s.onMx pcore fun m => { m with
          pass := setFirstRow pick (fun r => s.enterRow pcore r q p m.nextAt) m.pass
          nextAt := m.nextAt + rowStep s.pc.cad p q.afmt }
        let t := { t with bands := put t.bands (bandOf pcore) { t.band (bandOf pcore) with lastPass := t.now } }
        .next (if r.row + 1 = q.rows && !q.readsPairs then t.readsDone r.cmd else t)

/-! ## Rows of a wave (R216, R225) -/

/-- A row and its tag written into register `r`, whatever the wave's masks (R216). -/
def Wave.writeRow (w : Wave) (q : Quarter) (r : Nat) (vals : List W32) (tag : RowTag) : Wave :=
  let vs := q.mode.over q.init q.ksel q.cbase vals (w.slices r)
  let w := w.land (.vreg r (BitVec.allOnes 32) (vs.zipIdx.map fun v => (v.2, v.1)))
  { w with regs := { w.regs with tags := put w.regs.tags (r - 192) tag } }

/-- The wave has not stopped, so that a row or a ring of it can be written (R74). -/
def Wave.takesRows (w : Wave) : Bool := match w.life with
  | .draining _ => false
  | _ => true

/-! ## Delivery (R216, R217, R220, R221) -/

/-- A row written for the wave that issued a command, by `f`: what its lane stream wrote to vector registers in the same cycle stays
(R116, R222). -/
def State.rowWrite (s : State) (c : Cmd) (f : Wave → Wave) : State :=
  let s := s.onIssuer c f
  if (s.wave c.wave).any fun w => w.issued c then s.reland c.wave (s.clkOf c.wave) fun x => x.lane && match x.dest with
    | .vreg _ _ _ => true
    | _ => false
  else s

/-- An operation is complete: flags, bytes under kind 11 and its reply (R212, R216, R217). -/
def State.endQuarter (s : State) (c : Cmd) (q : Quarter) (f : Flags) : State :=
  (s.raiseCmd c f).endBytes c (256 * q.rows) false

/-- Flags passed on to the last row of their operation. -/
def passFlags (c : Cmd) (last : Nat) (f : Flags) (rs : List PassRow) : List PassRow :=
  rs.map fun r => if r.cmd.id = c.id ∧ r.row = last then { r with flags := r.flags ||| f } else r

/-- The index of the first row whose write or reply is due at cycle `clk`. -/
def dueRow (clk : Nat) (rs : List PassRow) : Option Nat :=
  rs.findIdx? fun r => match r.entered with
    | some e => decide (e + 24 + r.written.toNat ≤ clk)
    | none => false

/-- ACC_ROW_WRITE (R216, R217, R220): the first row that is due is written with its tag, or joins the rows held for its ring; one cycle
after its last row an operation replies. -/
def execAccRowWrite (pcore : Nat) (s : State) : Out :=
  let m := (s.core pcore).mx
  match dueRow (s.clk pcore) m.pass with
  | none => .next s
  | some i => match m.pass[i]? with
    | none => .next s
    | some r => match r.cmd.quarter with
      | none => .next s
      | some q =>
        let last := r.row + 1 == q.rows
        let rest := passFlags r.cmd (q.rows - 1) r.flags (m.pass.eraseIdx i)
        if r.written then .next ((s.onMx pcore fun m => { m with pass := m.pass.eraseIdx i }).endQuarter r.cmd q r.flags)
        else match r.cmd.reply with
          | .ring _ => .next (s.onMx pcore fun m => { m with
              pass := rest, held := m.held ++ [⟨r.cmd, r.row, r.vals, r.tag, r.flags, last⟩] })
          | _ =>
            let s := s.rowWrite r.cmd fun w => if w.takesRows then w.writeRow q (192 + q.abase + r.row) r.vals r.tag else w
            let s := if last && q.readsPairs then s.readsDone r.cmd else s
            .next (s.onMx pcore fun m => { m with
              pass := if last then m.pass.set i { r with written := true } else rest })

/-- A row written into the tail slot of its ring, as an engine finds it before what `qpush` publishes in the same cycle, and the tail
advanced; E falls after the last row (R130, R220). -/
def Wave.pushRow (w : Wave) (clk : Nat) (q : Quarter) (ring : Nat) (h : HeldRow) (write : Bool) : Wave :=
  let w := w.touchRings clk
  match look w.rings ring with
  | none => w
  | some r =>
    let w := if write then w.writeRow q (r.reg (r.tail - r.own)) h.vals h.tag else w
    w.onRing clk ring fun x => { x with
      tail := if write then x.tail + 1 else x.tail
      filled := if write then x.filled + 1 else x.filled
      e := if h.last then x.e - 1 else x.e }

/-- An engine finds a slot of ring `q` free: those filled when the cycle began, with the rows that engines have written since, leave one
(R128, R130). -/
def Wave.ringTakes (w : Wave) (clk q : Nat) : Bool :=
  match look (w.ringsSeen clk) q, look (w.touchRings clk).rings q with
  | some a, some b => decide (a.filled + (b.tail - b.own - a.tail) < b.slots)
  | _, _ => false

/-- ENGINE_RING_WRITE (R128, R220, R221): held row `k` is written into its ring's tail slot once one is free; the rows of one ring go in
order, and those of a stopped wave are discarded. -/
def execEngineRingWrite (pcore k : Nat) (s : State) : Out :=
  let m := (s.core pcore).mx
  match m.held[k]? with
  | none => .next s
  | some h => match h.cmd.quarter, h.cmd.reply with
    | some q, .ring ring =>
      if (m.held.take k).any fun x => x.cmd.wave == h.cmd.wave && x.cmd.reply == h.cmd.reply then .next s
      else
        let clk := s.clkOf h.cmd.wave
        let done := fun (s : State) =>
          let s := s.onMx pcore fun m => { m with held := (m.held.eraseIdx k).map fun x =>
            if x.cmd.id = h.cmd.id ∧ x.last then { x with flags := x.flags ||| h.flags } else x }
          let s := if h.last && q.readsPairs then s.readsDone h.cmd else s
          if h.last then s.endQuarter h.cmd q h.flags else s
        match (s.anyWave h.cmd.wave).filter fun w => w.issued h.cmd with
        | none => .next (done s)
        | some w =>
          if !w.takesRows then .next (done (s.onIssuer h.cmd fun w => w.pushRow clk q ring h false))
          else if w.ringTakes clk ring then .next (done (s.rowWrite h.cmd fun w => w.pushRow clk q ring h true))
          else .next s
    | _, _ => .next s

/-! ## Physical K-rows (R201, R227) -/

/-- The physical rows of core `p`'s array that its self-test found faulty. -/
def State.badRows (s : State) (p : Nat) : List Nat := lookD s.ready.badRows p []

/-- The physical row that holds logical K-row `k`: the good ones of the 264 are taken in ascending order (R227). What a row gives does not
depend on it (R219). -/
def State.physRow (s : State) (p k : Nat) : Option Nat := ((List.range 264).filter fun r => !(s.badRows p).contains r)[k]?

/-- The array of core `p` has a good row for every one of its 256 logical ones: no more than the 8 spares are used up (R201, R227). -/
def State.arrayGood (s : State) (p : Nat) : Bool := decide ((s.badRows p).length ≤ 8)

/-- The self-test of core `p`'s array finds physical row `r` faulty, before the engine's bit is decided (R227). -/
def State.rowFault (s : State) (p r : Nat) : State :=
  if 1536 ≤ p ∨ 264 ≤ r ∨ s.ready.tested.contains (.engine p .matrix) then s
  else { s with ready := { s.ready with badRows := put s.ready.badRows p (insertNat (s.badRows p) r) } }

/-! ## vscacc (R223) -/

/-- A lane's old value of a destination that an instruction also reads. -/
def LaneCtx.oldDst (k : LaneCtx) (s : State) (l : Nat) : W32 :=
  match k.d with
  | .reg r => k.val s (.reg r) l
  | .spad key => BitVec.ofNat 32 (s.num 4 (key + 4 * l))
  | .pipe key => BitVec.ofNat 32 (s.num 4 (key + 4 * l))
  | .none => 0

/-- The term of a lane: the scaled integer, or what the class and the scales make of it (R223). -/
def scaccTerm (t : RowTag) (l : Nat) (int : Int) (sw sx : Nat) : Num :=
  let cls := t.cls.toNat / 4 ^ l % 4
  if sw = 0xFF ∨ sx = 0xFF ∨ cls = 3 then .nan false
  else if cls = 1 then .inf false
  else if cls = 2 then .inf true
  else .scaled (decide (int < 0)) int.natAbs (t.er + t.adj + (sw : Int) + (sx : Int) - 254)

/-- VSCACC (R223): the scaled accumulator row added with one rounding; a selection row is an illegal operand. -/
def execVscacc (l : LaneA) (s : State) : Out :=
  laneFrame s l .dst .row .src (if l.im then .none else .src) (!l.im) false id 8 fun k =>
    let row := match k.a with
      | .reg r => r - 192
      | _ => 0
    let t := lookD k.w.regs.tags row ⟨0, 0, 0, false⟩
    let old := match k.d with
      | .reg r => if k.c.debug && k.lateV k.clk r k.act then some r else none
      | _ => none
    if t.sel then s.trapL k.n 2 (BitVec.ofNat 64 l.a) k.act
    else match old with
      | some r => s.trapL k.n 7 (BitVec.ofNat 64 r) k.act
      | none => s.laneResult k 8 fArith fun i =>
        let sx := if l.im then l.imm % 256 else (k.val s k.x i).toNat % 256
        let x := scaccTerm t i (readInt true 32 (k.val s k.a i).toNat) ((k.val s k.b i).toNat % 256) sx
        let r := fmtF32.deliver .rne l.sat false (Num.add .rne (fmtF32.value (k.oldDst s i).toNat) x)
        (BitVec.ofNat 32 r.1, r.2)

end Sys2Proof.Machine
end

