-- ==== Sys2Proof/Machine/Route.lean ====
section
/-! DEFINITION. The route engine: route channels, routed rows, and reassembly tables (R320-R336). -/

namespace Sys2Proof.Machine

/-! ## Entries -/

/-- A channel number with no half. -/
def Channel.empty : Channel := ⟨none, none, false, false, none, none⟩

/-- A table that has never been opened. -/
def RTable.empty : RTable :=
  ⟨.free, 0, 0, 0, ⟨0, 0, 0, 0, 0, 0, 0, 0, 0, 0, false, false, 0⟩, [], [], 0, 0, 0, none, 0, false, 0, false, none, 0, false, none, 0, 0⟩

/-- Channel `ch` of core `p`. -/
def State.chan (s : State) (p ch : Nat) : Channel := lookD (s.core p).rt.chans ch Channel.empty

/-- Table `t` of core `p`. -/
def State.table (s : State) (p t : Nat) : RTable := lookD (s.core p).rt.tables t RTable.empty

/-- The route engine of a core changed. -/
def State.onRt (s : State) (p : Nat) (f : RtEngine → RtEngine) : State := s.onCore p fun c => { c with rt := f c.rt }

/-- What a dispatch would decide on now (R323). -/
def Channel.view (x : Channel) : ChanView := match x.recv with
  | some r => ⟨x.ready, x.hold, r.tail, r.head, r.next, r.times.head?, r.flushed⟩
  | none => ⟨x.ready, x.hold, 0, 0, 0, none, false⟩

/-- How the channel stood at the start of cycle `clk` (R323, R326). -/
def Channel.seen (x : Channel) (clk : Nat) : ChanView := match x.was with
  | some (c, v) => if c = clk then v else x.view
  | none => x.view

/-- A channel written, with how it stood at the start of this cycle; an entry with no half goes. -/
def State.setChan (s : State) (p ch : Nat) (x : Channel) : State :=
  let x := { x with was := some (s.clk p, (s.chan p ch).seen (s.clk p)) }
  s.onRt p fun r => { r with chans := if x.bound then put r.chans ch x else del r.chans ch }

/-- A table changed. -/
def State.onTable (s : State) (p t : Nat) (f : RTable → RTable) : State :=
  s.onRt p fun r => { r with tables := put r.tables t (f (lookD r.tables t RTable.empty)) }

/-- A route event logged with the error flag set: the address is the channel's or table's number (R326, R333, R405). -/
def State.logRoute (s : State) (p num spc lcore cid : Nat) : State :=
  (s.logUnit (dieOf p) num spc lcore p 4 0x10 cid false).flagError cid

/-! ## rtctl (R320, R325, R326) -/

/-- The fields of a bind descriptor (R320). -/
def bindDesc (d : List Byte) : BindDesc where
  tgts := [0, 2, 4, 6].map fun o => fieldN d o 2
  ntgt := fieldN d 8 1
  fb := fieldN d 9 1
  cap := fieldN d 0xA 2
  sv := fieldN d 0xC 1 % 2 == 1
  rv := fieldN d 0xC 1 / 2 % 2 == 1
  fbv := fieldN d 0xC 1 / 4 % 2 == 1
  ready := fieldN d 0xC 1 / 8 % 2 == 1
  hold := fieldN d 0xC 1 / 16 % 2 == 1
  res := fieldN d 0xC 1 / 32 % 2 == 1
  inbox := fieldN d 0x10 4
  slots := fieldN d 0x14 2
  sb := fieldN d 0x16 2
  thresh := fieldN d 0x18 2
  maxb := fieldN d 0x1A 2
  flush := fieldN d 0x1C 4
  entry := fieldN d 0x20 4
  pair := fieldN d 0x24 4
  arg := BitVec.ofNat 64 (fieldN d 0x28 8)
  fp := footprintOf (fieldN d) 0x30

/-- The fields of the send half keep their limits, or are zero where it is not installed (R320). -/
def BindDesc.sendOk (b : BindDesc) (d : List Byte) : Bool :=
  if b.sv then
    decide (1 ≤ b.ntgt) && decide (b.ntgt ≤ 4) && decide (1 ≤ b.cap) && decide (b.cap ≤ 256)
      && (b.tgts.take b.ntgt).all (fun t => decide (t < 1536)) && (b.tgts.drop b.ntgt).all fun t => t == 0xFFFF
  else (d.take 12).all (fun x => x == 0) && !b.fbv

/-- The fields of the receive half keep their limits, or are zero where it is not installed (R320, R326). -/
def BindDesc.recvOk (b : BindDesc) (d : List Byte) : Bool :=
  if b.rv then
    b.inbox % 256 == 0 && decide (2 ≤ b.slots) && decide (b.slots ≤ 256) && b.sb % 32 == 0 && decide (64 ≤ b.sb)
      && decide (b.sb ≤ 4128) && decide (1 ≤ b.thresh) && decide (b.thresh ≤ b.slots) && decide (b.thresh ≤ b.maxb)
      && decide (b.maxb ≤ b.slots) && decide (b.inbox + b.slots * b.sb ≤ 0xFE000)
      && if b.res then b.pair % 16 == 0 else b.entry % 4 == 0 && b.fp.ok && fieldN d 0x40 16 == 0
  else ((d.drop 0x10).take 0x40).all fun x => x == 0

/-- A bind descriptor with every field inside its limits (R320). -/
def bindOk (d : List Byte) : Bool :=
  let b := bindDesc d
  decide (fieldN d 0xC 1 < 64) && (b.sv || b.rv) && fieldN d 0xD 3 == 0 && zeroFrom d 0x50 && b.sendOk d && b.recvOk d

/-- The check of a descriptor's offset: aligned, and in a leased granule (R249, R261, R326, R331). -/
def descSpot (s : State) (w : Wave) (off : Nat) : Option (Nat × Nat) :=
  if off % 128 ≠ 0 then some (3, off)
  else if !spadLeased s (coreOfWave s.cur) off 128 w.cid then some (4, off) else none

/-- The checks of R326 for operation `op`; a message that names another operation is an illegal operand, as reserved ones are. -/
def rtctlCheck (op a b : Nat) (s : State) (w : Wave) (_ : Cons) (_ : Nat × Nat) (w0 w1 : Nat) : Except (Nat × Nat) CmdBody :=
  let ch := bits w0 38 8
  let n := w1 % 512
  if 2 ≤ bits w0 12 2 ∨ bits w0 46 4 ≠ op then .error (2, a)
  else if w1 / 2 ^ 20 ≠ 0 ∨ (op = 6 ∧ (w1 / 512 ≠ 0 ∨ n = 0 ∨ 256 < n)) ∨ (op ≠ 0 ∧ op ≠ 6 ∧ w1 ≠ 0) then .error (2, b)
  else if op = 0 then match descSpot s w w1 with
    | some t => .error t
    | none =>
      let d := s.bytes 128 (spadKey (coreOfWave s.cur) w1)
      if bindOk d then .ok (.rtctl ch 0 0 (some (bindDesc d))) else .error (2, b)
  else .ok (.rtctl ch op (if op = 6 then n else 0) none)

/-- An `rtctl` SX word whose message names operation `op` (R325). -/
def rtctlWord (op a b : Nat) (s : State) : Out :=
  sxWord s a b .route none (fun w0 => w0 / 2 ^ 50) (fun w1 => if op = 0 then some (w1 % 2 ^ 20) else none) (rtctlCheck op a b)

/-- RTCTL_BIND (R325, R326). -/
def execRtctlBind (a b : Nat) (s : State) : Out := rtctlWord 0 a b s
/-- RTCTL_UNBIND (R325). -/
def execRtctlUnbind (a b : Nat) (s : State) : Out := rtctlWord 1 a b s
/-- RTCTL_HOLD_SET (R325). -/
def execRtctlHoldSet (a b : Nat) (s : State) : Out := rtctlWord 2 a b s
/-- RTCTL_HOLD_CLEAR (R325). -/
def execRtctlHoldClear (a b : Nat) (s : State) : Out := rtctlWord 3 a b s
/-- RTCTL_READY_SET (R325). -/
def execRtctlReadySet (a b : Nat) (s : State) : Out := rtctlWord 4 a b s
/-- RTCTL_READY_CLEAR (R325). -/
def execRtctlReadyClear (a b : Nat) (s : State) : Out := rtctlWord 5 a b s
/-- RTCTL_CONSUME (R325, R326). -/
def execRtctlConsume (a b : Nat) (s : State) : Out := rtctlWord 6 a b s
/-- RTCTL_FLUSH (R325). -/
def execRtctlFlush (a b : Nat) (s : State) : Out := rtctlWord 7 a b s

/-! ## The other words (R330-R334) -/

/-- The fields of an open descriptor; addresses in the issuing core's scratchpad name it (R330). -/
def openDesc (l : Nat) (d : List Byte) : OpenDesc where
  out := BitVec.ofNat 64 (ownCore l (fieldN d 0 8))
  stat := BitVec.ofNat 64 (ownCore l (fieldN d 8 8))
  ctr := BitVec.ofNat 64 (ownCore l (fieldN d 0x10 8))
  done := BitVec.ofNat 64 (ownCore l (fieldN d 0x18 8))
  work := fieldN d 0x20 4
  rows := fieldN d 0x24 2
  ib := fieldN d 0x26 2
  ob := fieldN d 0x28 2
  k := fieldN d 0x2A 1
  policy := fieldN d 0x2B 1 % 4
  renorm := fieldN d 0x2B 1 / 4 % 2 == 1
  passT := fieldN d 0x2B 1 / 8 % 2 == 1
  limit := fieldN d 0x2C 4

/-- An open descriptor with every field inside its limits (R330, R331). -/
def openOk (d : List Byte) (o : OpenDesc) : Bool :=
  zeroFrom d 0x30 && decide (fieldN d 0x2B 1 < 16) && o.policy != 3
    && descAddrOk o.out.toNat && o.out.toNat % 32 == 0 && descAddrOk o.stat.toNat && o.stat.toNat % 8 == 0
    && descAddrOk o.ctr.toNat && o.ctr.toNat % 16 == 0 && descAddrOk o.done.toNat && o.done.toNat % 8 == 0
    && o.work % 32 == 0 && decide (1 ≤ o.rows) && decide (o.rows ≤ 256)
    && o.ib % 32 == 0 && decide (32 ≤ o.ib) && decide (o.ib ≤ 4096)
    && o.ob % 32 == 0 && decide (32 ≤ o.ob) && decide (o.ob ≤ 4096)
    && decide (1 ≤ o.k) && decide (o.k ≤ 4) && (!o.passT || o.ib == o.ob)
    && decide (o.work + o.rows * o.k * o.ob ≤ 0xFE000)

/-- The checks of R331. -/
def rtOpenCheck (a b : Nat) (s : State) (w : Wave) (_ : Cons) (t : Nat × Nat) (w0 w1 : Nat) : Except (Nat × Nat) CmdBody :=
  if 2 ≤ bits w0 12 2 ∨ t.1 ≠ w.lcore then .error (2, a)
  else if w1 / 2 ^ 20 ≠ 0 then .error (2, b)
  else match descSpot s w w1 with
    | some t => .error t
    | none =>
      let d := s.bytes 128 (spadKey (coreOfWave s.cur) w1)
      let o := openDesc w.lcore d
      if openOk d o then .ok (.rtOpen (bits w0 38 3) o) else .error (2, b)

/-- RT_OPEN (R330, R331). -/
def execRtOpen (a b : Nat) (s : State) : Out :=
  sxWord s a b .route (some ⟨false, false, true⟩) (fun w0 => w0 / 2 ^ 41) (fun w1 => some (w1 % 2 ^ 20)) (rtOpenCheck a b)

/-- The checks of R332. -/
def rtRouteCheck (a b : Nat) (_ : State) (w : Wave) (_ : Cons) (t : Nat × Nat) (w0 w1 : Nat) : Except (Nat × Nat) CmdBody :=
  let tile := bits w1 0 20
  let vec := bits w1 20 20
  if 2 ≤ bits w0 12 2 ∨ t.1 ≠ w.lcore then .error (2, a)
  else if w1 / 2 ^ 40 ≠ 0 then .error (2, b)
  else if tile % 32 ≠ 0 then .error (3, tile)
  else if vec % 4 ≠ 0 then .error (3, vec)
  else .ok (.rtRoute (bits w0 38 3) tile vec)

/-- RT_ROUTE (R332). -/
def execRtRoute (a b : Nat) (s : State) : Out :=
  sxWord s a b .route (some ⟨false, true, true⟩) (fun w0 => w0 / 2 ^ 41) (fun _ => none) (rtRouteCheck a b)

/-- The checks of R334. -/
def rtReturnCheck (a b : Nat) (_ : State) (_ : Wave) (_ : Cons) (t : Nat × Nat) (w0 w1 : Nat) : Except (Nat × Nat) CmdBody :=
  let off := bits w0 38 20
  if 2 ≤ bits w0 12 2 then .error (2, a)
  else if w1 / 2 ^ 48 ≠ 0 ∨ t.1 ≠ bits w1 0 11 then .error (2, b)
  else if off % 32 ≠ 0 then .error (3, off)
  else if 0xFE000 < off + (bits w1 24 8 + 1) * 32 then .error (2, a)
  else .ok (.rtReturn t.1 off (BitVec.ofNat 64 w1))

/-- RT_RETURN (R334): its target is the engine of the issuing core. -/
def execRtReturn (a b : Nat) (s : State) : Out :=
  sxWordAt true s a b .route (some ⟨false, true, false⟩) (fun w0 => w0 / 2 ^ 58) (fun _ => none) (rtReturnCheck a b)

/-! ## Writes of the engine to memory (R331, R336) -/

/-- The cells of bytes written at a 64-bit address, or the first fault or failure. -/
def engCells (s : State) (p cid : Nat) (c : Cons) (va : Nat) : Nat → List Byte → Seen (List Host.Cell)
  | _, [] => .ok []
  | i, b :: bs =>
    match engPlace s p cid c va i .write with
    | .fault => .fault (reachVa va i)
    | .violation => .bad (reachVa va i)
    | .at k =>
      if s.deadKey k then .bad (reachVa va i) else match engCells s p cid c va (i + 1) bs with
        | .ok cs => .ok ((k, b) :: cs)
        | x => x

/-- Cells of table `t` written here, and sent to peer modules, which answer each request (R336, R355). -/
def State.putCells (s : State) (p t : Nat) (cmd : Cmd) (cs : List Host.Cell) : State :=
  let far := cs.filter fun x => keyIsPeer x.1
  let hs := homesOf (far.map Prod.fst)
  let s := ((s.writeCells (cs.filter fun x => !keyIsPeer x.1)).cmdWrote cmd cs).missedKeys p (cs.map Prod.fst)
  if far.isEmpty then s else (s.askPeer cmd .store far hs).onTable p t fun x => { x with acks := x.acks + hs.length }

/-- A command of the route engine that stands for a table's own writes. -/
def RTable.asCmd (t : RTable) (p : Nat) : Cmd :=
  ⟨t.cmd, t.wave, t.owner, t.lcore, p, p, .route, .none, .rtRoute 0 0 0, 0, 0, 0, 0, false, t.wid, 0, false, t.lcore⟩

/-- A peer module has answered a write of the table that command `op` opened, with an error at an address or without (R336). -/
def State.tableAnswer (s : State) (op : Nat) (failed : Bool) (va : Nat) : State :=
  { s with cores := s.cores.map fun e => (e.1, { e.2 with rt := { e.2.rt with tables := e.2.rt.tables.map fun t =>
      if t.2.cmd = op ∧ t.2.acks ≠ 0 then (t.1, { t.2 with
        acks := if failed then 0 else t.2.acks - 1
        failed := if failed then some va else t.2.failed }) else t } }) }

/-! ## Commands at the head of the inbox (R326, R328, R329, R331, R334) -/

/-- A BIND at its target; while an UNBIND of the channel waits it is ignored, whichever half it names (R326, R329). -/
def State.doBind (s : State) (p : Nat) (c : Cmd) (ch : Nat) (b : BindDesc) : State :=
  let x := s.chan p ch
  let slots := (s.core p).slots
  let room := slots.any (fun z => z.cid == c.cid) || decide (slots.length < 16)
  if x.unbind.isSome || (b.sv && x.send.isSome) || (b.rv && x.recv.isSome) || !room then s.logRoute p ch c.spc c.lcore c.cid
  else
    let fresh := !x.bound || b.rv
    (s.takeSlot p c.cid).setChan p ch { x with
      send := if b.sv then some ⟨c.cid, b, c.tcore⟩ else x.send
      recv := if b.rv then some ⟨c.cid, b, 0, 0, 0, [], false, none, c.tcore⟩ else x.recv
      ready := if fresh then b.ready else x.ready
      hold := if fresh then b.hold else x.hold }

/-- No row waits and no batch is outstanding, now and at the start of cycle `clk`, a CONSUME of which takes effect at its end (R325, R326). -/
def Channel.drained (x : Channel) (clk : Nat) : Bool :=
  let ok := fun (v : ChanView) => v.tail == v.head && v.head == v.next
  ok x.view && ok (x.seen clk)

/-- An `rtctl` command at its target (R325, R326). -/
def State.doRtctl (s : State) (p : Nat) (c : Cmd) (ch op n : Nat) (bind : Option BindDesc) : State :=
  let x := s.chan p ch
  match op, bind with
  | 0, some b => s.doBind p c ch b
  | _, _ =>
    if !x.bound then s.logRoute p ch c.spc c.lcore c.cid
    else match op with
      | 1 => if x.drained (s.clk p) then s.setChan p ch Channel.empty else s.setChan p ch { x with unbind := some c }
      | 2 => s.setChan p ch { x with hold := true }
      | 3 => s.setChan p ch { x with hold := false }
      | 4 => s.setChan p ch { x with ready := true }
      | 5 => s.setChan p ch { x with ready := false }
      | 6 => match x.recv with
        | none => s.logRoute p ch c.spc c.lcore c.cid
        | some r =>
          let s := s.setChan p ch { x with recv := some { r with head := min r.next (r.head + n) } }
          if r.next < r.head + n then s.logRoute p ch c.spc c.lcore c.cid else s
      | _ => s.setChan p ch { x with recv := x.recv.map fun r => { r with flushed := true } }

/-- An `rt.return` at its engine: the row is read and sent with its tag (R334). -/
def State.doReturn (s : State) (p : Nat) (c : Cmd) (origin off : Nat) (tag : Word) : State :=
  let q := s.movedTo c
  let bs := s.bytes ((bits tag.toNat 24 8 + 1) * 32) (spadKey q off)
  { s.slotCount p c.cid .sends true with
    routeMsgs := s.routeMsgs ++ [⟨true, c.cid, p, origin, 0, tag, 0, bs, c.id, 0, none, 0, p⟩] }

/-- The span of scratchpad that an `rt.return` reads (R328). -/
def State.returnSpan (s : State) (c : Cmd) (off : Nat) (tag : Word) : List SpanReq :=
  [(s.movedTo c, off, off + (bits tag.toNat 24 8 + 1) * 32 - 1, false)]

/-- The commands at the head of the inbox are run while they need no wait, `rtctl` and, where its span can be entered, `rt.return`; one whose
row meets an uncorrectable error ends (R253, R328). Nothing runs while an `rt.open` waits for its write (R331). -/
def State.drainRt (s : State) (p : Nat) : Nat → State
  | 0 => s
  | f + 1 =>
    let r := (s.core p).rt
    match r.run.isSome || r.opening.isSome, r.inbox with
    | false, c :: cs =>
      let s1 := s.onRt p fun r => { r with inbox := cs }
      match c.body with
      | .rtctl ch op n b => ((s1.doRtctl p c ch op n b).endCmd c false).drainRt p f
      | .rtReturn origin off tag =>
        let span := s.returnSpan c off tag
        if !s.spansFit span then s
        else if s.memBad (spadKey (s.movedTo c) off) ((bits tag.toNat 24 8 + 1) * 32) then (s1.failCmd c (c.padVa off)).drainRt p f
        else ((((s1.enterSpans c.id span).doReturn p c origin off tag).readsDone c).endCmd c false).drainRt p f
      | _ => s
    | _, _ => s

/-- What follows a command's arrival in an inbox: restored waves that waited for it go on, the route engine runs what needs no wait, and a
matrix command ends its band's near-threshold mode (R328, R377, R392). -/
def State.arrived (s : State) (c : Cmd) : State :=
  let s := if c.moved then s.resumeRestored else s
  match c.eng with
  | .route => s.drainRt c.pcore 17
  | .matrix => { s with bands := put s.bands (bandOf c.pcore) { s.band (bandOf c.pcore) with near := false, left := some s.now } }
  | _ => s

/-- ENGINE_INBOX_ENTRY (R187, R222, R328): a held command enters its engine's inbox. -/
def execEngineInboxEntry (k : Nat) (s : State) : Out :=
  let t := s.enterInbox k
  match s.held[k]? with
  | some c => if t.held.length < s.held.length then .next (t.arrived c) else .next t
  | none => .next t

/-- The spans a table keeps from its open until its close (R328). -/
def tableSpans (p : Nat) (c : Cons) (o : OpenDesc) : List SpanReq :=
  (p, o.work, o.work + o.rows * o.k * o.ob - 1, true) ::
    (sideSpan c true (some (o.out.toNat, 0, ((o.rows * o.ob : Nat) : Int) - 1))
      ++ sideSpan c true (some (o.stat.toNat, 0, (((o.rows + 1) / 2 : Nat) : Int) - 1))
      ++ sideSpan c true (some (o.ctr.toNat, 0, 15)))

/-- A page fault of the route engine put on the list, once. -/
def State.routeFault (s : State) (p aspace va : Nat) : State :=
  let f : Fault1 := .engine p .route aspace va
  if s.faults.contains f then s else { s with faults := s.faults ++ [f] }

/-- An `rt.open` whose write to a peer module is answered replies; an answer with an error ends it as a failure, and its table stays open: DESIGN
CHOICE, R331 does not say (log 35). -/
def State.endOpen (s : State) (p t : Nat) (c : Cmd) : State :=
  let x := s.table p t
  if x.acks ≠ 0 then s
  else
    let s := (s.onRt p fun r => { r with opening := none }).onTable p t fun x => { x with failed := none }
    (match x.failed with
      | some va => s.failCmd c va
      | none => s.endCmd c false).drainRt p 17

/-- RT_OPEN_EXECUTE (R328, R329, R331): the head of the inbox opens its table once it is FREE or CLOSED, and replies once its write at ctr has
been performed; the table of a consignment that has no wave left on the core closes at that moment. -/
def execRtOpenExecute (pcore : Nat) (s : State) : Out :=
  let r := (s.core pcore).rt
  match r.opening with
  | some c => match c.body with
    | .rtOpen t _ => .next (s.endOpen pcore t c)
    | _ => .next s
  | none =>
  match r.run, r.inbox with
  | none, c :: cs => match c.body, s.con c.cid with
    | .rtOpen t o, some k =>
      let x := s.table pcore t
      if x.state = .opened ∨ x.state = .routing ∨ !s.spansFit (tableSpans pcore k o) then .next s
      else match engCells s pcore c.cid k o.ctr.toNat 0 (List.replicate 16 0) with
        | .fault va => .next (s.routeFault pcore k.aspace va)
        | .ok cells =>
          let s := s.onRt pcore fun r => { r with inbox := cs, opening := some c }
          let s := s.onTable pcore t fun x =>
            { RTable.empty with
              state := .opened, gen := (x.gen + 1) % 65536, owner := c.cid, lcore := c.lcore, desc := o
              ranks := List.replicate (o.rows * o.k) .absent, wave := c.wave, wid := c.wid, cmd := c.id
              closing := !s.wavesOn pcore c.cid }
          .next (((s.enterSpans c.id (tableSpans pcore k o)).putCells pcore t c cells).endOpen pcore t c)
        | .bad va => .next (((s.onRt pcore fun r => { r with inbox := cs }).failCmd c va).drainRt pcore 17)
        | .ask _ => .next s
    | _, _ => .next s
  | _, _ => .next s

/-! ## rt.route (R333) -/

/-- Pick(r, ch) (R333). -/
def pickTarget (origin r : Nat) (b : BindDesc) : Nat :=
  let h := (origin * 0x9E3779B1 + r * 0x85EBCA77) % 2 ^ 32
  b.tgts.getD (h * b.ntgt / 2 ^ 32) 0

/-- The tag word of a rank (R322). -/
def tagWord (x : RTable) (t r j : Nat) : Word :=
  BitVec.ofNat 64 (x.lcore + t * 2 ^ 11 + r * 2 ^ 14 + j * 2 ^ 22 + (x.desc.ob / 32 - 1) * 2 ^ 24 + x.gen * 2 ^ 32)

/-- Where a rank goes: a channel and its target, or dropped; the flag says that it is for want of a send half. -/
inductive RankTo where
  | to (c d : Nat)
  | drop (unbound : Bool)
deriving DecidableEq, Repr

/-- Ranks of this command to a channel and target. -/
def usedOf (u : List ((Nat × Nat) × Nat)) (c d : Nat) : Nat := ((u.find? fun x => x.1 == (c, d)).map Prod.snd).getD 0

/-- The choice of R333 for a rank. -/
def routeRank (s : State) (p : Nat) (x : RTable) (used : List ((Nat × Nat) × Nat)) (r ch : Nat) : RankTo :=
  match (s.chan p ch).send with
  | none => .drop true
  | some h =>
    let d := pickTarget x.lcore r h.desc
    if h.desc.cap ≤ usedOf used ch d ∧ x.desc.policy ≠ 2 then
      if x.desc.policy = 1 ∧ h.desc.fbv then match (s.chan p h.desc.fb).send with
        | none => .drop false
        | some g =>
          let e := pickTarget x.lcore r g.desc
          if g.desc.cap ≤ usedOf used h.desc.fb e then .drop false else .to h.desc.fb e
      else .drop false
    else .to ch d

/-- A route command ends, and the engine goes on (R333). -/
def State.endRoute (s : State) (p : Nat) (c : Cmd) : State :=
  ((s.onRt p fun r => { r with run := none }).endCmd c false).drainRt p 17

/-- The routing pair of a rank. -/
def State.pairAt (s : State) (p vec i : Nat) : Nat := s.num 4 (spadKey p (vec + 4 * i))

/-- `rt.route` at the head of the inbox: its checks, then the table starts ROUTING (R333). -/
def State.startRoute (s : State) (p : Nat) (c : Cmd) (cs : List Cmd) (t tile vec : Nat) : State :=
  let x := s.table p t
  let n := x.desc.rows * x.desc.k
  let good := decide (x.state = .opened) && !x.closing && decide (tile + x.desc.rows * x.desc.ib ≤ 0xFE000) && decide (vec + 4 * n ≤ 0xFE000)
    && (List.range n).all fun i => s.pairAt p vec i / 2 ^ 24 % 128 == 0
  if !good then
    (((s.onRt p fun r => { r with inbox := cs }).logRoute p t c.spc c.lcore c.cid).endCmd c false).drainRt p 17
  else
    let spans : List SpanReq := [(p, tile, tile + x.desc.rows * x.desc.ib - 1, false), (p, vec, vec + 4 * n - 1, false)]
    if !s.spansFit spans then s
    else
      let s := (s.enterSpans c.id spans).onRt p fun r => { r with inbox := cs, run := some ⟨c, 0, []⟩ }
      s.onTable p t fun x => { x with
        state := .routing, filled := true, tile := tile, wave := c.wave, wid := c.wid
        deadline := if x.desc.limit = 0 then none else some (s.now + x.desc.limit * 21) }

/-- Rank `i` of the running command is dropped, skipped, or its row sets out; it is SENT once the row is in a slot. A tile row with an
uncorrectable error ends the command (R253, R333). -/
def State.routeOne (s : State) (p : Nat) (run : RouteRun) (t tile vec i : Nat) : State :=
  let x := s.table p t
  let r := i / x.desc.k
  let pair := s.pairAt p vec i
  let ch := pair / 2 ^ 16 % 256
  let adv := fun (s : State) (u : List ((Nat × Nat) × Nat)) => s.onRt p fun e => { e with run := some { run with next := i + 1, used := u } }
  if pair / 2 ^ 31 = 1 then adv s run.used
  else match routeRank s p x run.used r ch with
    | .drop unbound =>
      let s := (adv s run.used).onTable p t fun x => { x with ranks := x.ranks.set i .dropped }
      if unbound then s.logRoute p ch run.cmd.spc run.cmd.lcore run.cmd.cid else s
    | .to c d =>
      let n := usedOf run.used c d
      let key := spadKey p (tile + r * x.desc.ib)
      if s.memBad key x.desc.ib then ((s.onRt p fun e => { e with run := none }).failCmd run.cmd (run.cmd.padVa (keyOff key))).drainRt p 17
      else
        let s := adv s ((run.used.filter fun u => u.1 != (c, d)) ++ [((c, d), n + 1)])
        let s := s.onTable p t fun x => { x with weights := put x.weights i (pair % 65536) }
        { s.slotCount p run.cmd.cid .sends true with
          routeMsgs := s.routeMsgs ++
            [⟨false, run.cmd.cid, p, d, c, tagWord x t r (i % x.desc.k), pair % 65536, s.bytes x.desc.ib key, run.cmd.id, 0, none, 0, p⟩] }

/-- RT_ROUTE_EXECUTE (R333): the command at the head starts, or the running one deals with its next rank; while a row of it is on its way to
a slot it waits, and after its last row is written it ends. Of a table that is closing nothing more is sent (R329). What waits at the head for its span is tried again (R328). -/
def execRtRouteExecute (pcore : Nat) (s : State) : Out :=
  let e := (s.core pcore).rt
  if e.opening.isSome then .next s else
  match e.run, e.inbox with
  | none, c :: cs => match c.body with
    | .rtRoute t tile vec => .next (s.startRoute pcore c cs t tile vec)
    | _ => .next (s.drainRt pcore 17)
  | none, [] => .next s
  | some run, _ => match run.cmd.body with
    | .rtRoute t tile vec =>
      let x := s.table pcore t
      if x.state ≠ .routing then .next (s.endRoute pcore run.cmd)
      else if x.closing || s.routeMsgs.any fun m => !m.back && m.cmd == run.cmd.id then .next s
      else if x.desc.rows * x.desc.k ≤ run.next then .next (s.endRoute pcore run.cmd)
      else .next (s.routeOne pcore run t tile vec run.next)
    | _ => .next s

/-! ## Rows at a target (R321, R323, R329, R333) -/

/-- The fields of a tag word (R322): table, row, rank, output bytes and generation. -/
def tagFields (w : Word) : Nat × Nat × Nat × Nat × Nat :=
  (bits w.toNat 11 3, bits w.toNat 14 8, bits w.toNat 22 2, (bits w.toNat 24 8 + 1) * 32, bits w.toNat 32 16)

/-- The table that a tag names, where it is of that generation and still ROUTING, with the number of the rank, where it has one of it. -/
def State.tagRank (s : State) (p : Nat) (w : Word) : Option (Nat × Nat) :=
  let f := tagFields w
  let x := s.table p f.1
  if x.gen = f.2.2.2.2 ∧ x.state = .routing ∧ f.2.1 < x.desc.rows ∧ f.2.2.1 < x.desc.k then some (f.1, f.2.1 * x.desc.k + f.2.2.1) else none

/-- The rank of a row on its way is SENT or DROPPED; a row that a slot takes is counted (R333, R336). -/
def State.setRank (s : State) (p : Nat) (w : Word) (r : Rank) : State :=
  match s.tagRank p w with
  | some (t, i) => s.onTable p t fun x => { x with
      ranks := if x.ranks[i]? = some .absent then x.ranks.set i r else x.ranks
      sent := if r = .sent then x.sent + 1 else x.sent }
  | none => s

/-- A slot with its header (R321). -/
def slotBytes (m : RouteMsg) (q : Nat) : List Byte :=
  toBytes 8 m.tag.toNat ++ toBytes 2 m.weight ++ toBytes 1 m.ch ++ toBytes 1 0 ++ toBytes 4 (q % 2 ^ 32) ++ toBytes 16 0 ++ m.bytes

/-- Message `k` gone, and its send uncounted in the slot that counted it (R75, R375). -/
def State.dropMsg (s : State) (k : Nat) (m : RouteMsg) : State :=
  { s with routeMsgs := s.routeMsgs.eraseIdx k }.slotCount m.slotP m.cid .sends false

/-- A routed row meets a free slot: T − H < N, with H as the cycle began (R326, R333). Under the RETRY policy two slots are kept for tickets,
and where tickets are out those slots go to the lowest (R287, R288; log 27). -/
def slotFree (s : State) (res : Nat) (retry : Bool) (used slots : Nat) (t : Option Nat) : Bool :=
  decide (used < slots) && ((!retry && (s.ticketsOf res).out.isEmpty) || s.grants res used slots t)

/-- Whether an earlier message of the list goes the same way. -/
def State.msgBehind (s : State) (k : Nat) (m : RouteMsg) : Bool :=
  (s.routeMsgs.take k).any fun x => x.fromP == m.fromP && x.target == m.target && x.cid == m.cid

/-- A refused row: it is retried 32 cycles of its sender later, and its third refusal draws a ticket (R288, R333). -/
def State.refuseRow (s : State) (k res : Nat) (m : RouteMsg) : State :=
  let d := if m.refusals = 2 ∧ m.ticket.isNone then (fun (x : State × Nat) => (x.1, some x.2)) (s.drawTicket res) else (s, m.ticket)
  let m := { m with refusals := m.refusals + 1, ticket := d.2, retryAt := s.clk m.fromP + 32 }
  { d.1 with routeMsgs := s.routeMsgs.set k m }

/-- The table of a message is closing at this moment: it is dealt with first (R329). -/
def State.msgHeld (s : State) (p : Nat) (m : RouteMsg) : Bool := (s.table p (tagFields m.tag).1).closing

/-- ROUTED_ROW_ARRIVAL (R321, R323, R329, R333): a routed row is written into the tail slot of its channel's inbox and its rank is SENT; with no
receive half or too small a slot its rank is dropped, and with no free slot it is refused. -/
def execRoutedRowArrival (k : Nat) (s : State) : Out :=
  match s.routeMsgs[k]? with
  | none => .next s
  | some m =>
    if m.back || s.msgBehind k m || decide (s.clk m.fromP < m.retryAt) || s.msgHeld m.fromP m then .next s
    else
      let p := s.msgCore m
      let res := resInbox p m.ch
      let x := s.chan p m.ch
      match x.recv.filter fun r => decide (m.bytes.length + 32 ≤ r.desc.sb) with
      | none => .next ((((s.dropMsg k m).endTicket res m.ticket).setRank m.fromP m.tag .dropped).logRoute m.fromP m.ch 0 m.target m.cid)
      | some r =>
        let retry := (s.table m.fromP (tagFields m.tag).1).desc.policy == 2
        if !slotFree s res retry (r.tail - (x.seen (s.clk p)).head) r.desc.slots m.ticket then .next ((s.present res m.ticket).refuseRow k res m)
        else
          let s := (s.dropMsg k m).endTicket res m.ticket
          let s := s.write (spadKey p (r.desc.inbox + r.tail % r.desc.slots * r.desc.sb)) (slotBytes m r.tail)
          let s := s.setChan p m.ch { x with recv := some { r with tail := r.tail + 1, times := r.times ++ [s.now] } }
          .next (s.setRank m.fromP m.tag .sent)

/-- The flush time since the arrival of row B, at `oldest`, has passed (R323). -/
def BindDesc.flushDue (d : BindDesc) (oldest : Option Nat) (now : Nat) : Bool :=
  d.flush != 0 && oldest.any fun t => decide (t + d.flush * 21 ≤ now)

/-- ROUTE_FLUSH_EXPIRY (R323): the flush time since the arrival of row B has passed. -/
def execRouteFlushExpiry (pcore ch : Nat) (s : State) : Out :=
  let x := s.chan pcore ch
  match x.recv with
  | some r => if r.desc.flushDue r.times.head? s.now then .next (s.setChan pcore ch { x with recv := some { r with flushed := true } }) else .next s
  | none => .next s

/-- UNBIND_COMPLETE (R325): a waiting UNBIND removes both halves once no row waits and no batch is outstanding. -/
def execUnbindComplete (pcore ch : Nat) (s : State) : Out :=
  let x := s.chan pcore ch
  if x.unbind.isSome && x.drained (s.clk pcore) then .next (s.setChan pcore ch Channel.empty) else .next s

/-! ## Batches (R323, R324) -/

/-- The task wave of a batch placed on the channel's core, if its rows can be had now and it is the task's turn (R69, R324, R390). -/
def State.placeTask (s : State) (p ch : Nat) (x : Channel) (r : RecvHalf) (first m : Nat) : State :=
  match s.taskPlan p r with
  | none => s
  | some (c, ls, ws) =>
    if !s.mayServe p .task ∨ s.rails ≠ .on then s
    else
      let s := s.serve p .task
      let s := s.bear c r.owner r.lcore p ⟨c.total, 0, r.desc.entry, r.desc.arg, first, m⟩ c.man.width ls ws
      (s.onCon r.owner fun c => { c with total := c.total + 1 }).setChan p ch { x with recv := some { r with task := none } }

/-- A resident batch: the watched word is stored, and one waiter of the pair is woken (R284, R324). -/
def State.handResident (s : State) (p : Nat) (r : RecvHalf) (first m : Nat) : State :=
  let key := spadKey p r.desc.pair
  let v : Word := BitVec.ofNat 64 (2 ^ 63 + m * 2 ^ 32 + first % 2 ^ 32)
  let s := (s.slotCount p r.owner .stores true).slotCount p r.owner .remote true
  let s := s.send (Req.make (engWave p .route) r.owner p (homeOf key) 0 (.mem .store) 8 [⟨0, key, r.desc.pair, v, 0⟩])
  s.send (Req.make (engWave p .route) r.owner p (homeOf key) 0 (.wake 1) 16 [⟨0, key, r.desc.pair, 0, 0⟩])

/-- A batch may be dispatched, as the channel stood when the cycle began, at tick `now`; one batch is handed out in a cycle (R323). -/
def ChanView.mayBatch (v : ChanView) (d : BindDesc) (now : Nat) : Bool :=
  v.ready && !v.hold && v.head == v.next
    && (decide (d.thresh ≤ v.tail - v.next) || decide (1 ≤ v.tail - v.next) && (v.flushed || d.flushDue v.oldest now))

/-- BATCH_DISPATCH (R323, R324, R390): a batch is taken from the inbox and handed to a task wave, or to a resident waiter; a
batch whose task wave could not be placed is tried again. -/
def execBatchDispatch (pcore ch : Nat) (s : State) : Out :=
  let x := s.chan pcore ch
  match x.recv with
  | none => .next s
  | some r => match r.task with
    | some (first, m) => .next (s.placeTask pcore ch x r first m)
    | none =>
      let v := x.seen (s.clk pcore)
      if !v.mayBatch r.desc (s.tickOf pcore (s.clk pcore)) || v.next != r.next then .next s
      else
        let m := min (v.tail - v.next) r.desc.maxb
        let r2 := { r with next := r.next + m, times := r.times.drop m, flushed := false }
        if r.desc.res then .next ((s.setChan pcore ch { x with recv := some r2 }).handResident pcore r r.next m)
        else
          let r3 := { r2 with task := some (r.next, m) }
          let x3 := { x with recv := some r3 }
          .next ((s.setChan pcore ch x3).placeTask pcore ch x3 r3 r.next m)

/-! ## Returns (R334) -/

/-- A late return: the word at ctr + 12 is raised at its home (R334). -/
def State.lateReturn (s : State) (k p t : Nat) (m : RouteMsg) : State :=
  let x := s.table p t
  match (s.con x.owner).or (s.con m.cid) with
  | none => s.dropMsg k m
  | some c => match barHost (.red .add) (engPlace s p x.owner c x.desc.ctr.toNat 12 .write) with
    | .fault => s.routeFault p c.aspace (reachVa x.desc.ctr.toNat 12)
    | .violation =>
      ((s.dropMsg k m).logUnit (dieOf p) (reachVa x.desc.ctr.toNat 12) 0 x.lcore p 4 0x10 x.owner true).flagError x.owner
    | .at key =>
      ((s.dropMsg k m).slotCount p m.cid .stores true).send
        (Req.make (engWave p .route) m.cid p (homeOf key) 0 (.mem (.red .add)) 4 [⟨0, key, reachVa x.desc.ctr.toNat 12, 1, 0⟩])

/-- RETURN_ACCEPT (R328, R334): a returned row is written into the work area and its rank is ARRIVED, or it is counted as late. One that
arrives in the cycle of the timeout would have been taken before it, so none is taken in the rest of that cycle. -/
def execReturnAccept (k : Nat) (s : State) : Out :=
  match s.routeMsgs[k]? with
  | none => .next s
  | some m =>
    if !m.back || s.msgBehind k m then .next s
    else
      let p := s.msgCore m
      let f := tagFields m.tag
      let x := s.table p f.1
      if x.closing ∨ x.timedAt = some (s.clk p) then .next s
      else match s.tagRank p m.tag with
      | some (t, i) =>
        if x.ranks[i]? = some .sent ∧ f.2.2.2.1 = x.desc.ob then
          let s := (s.dropMsg k m).write (spadKey p (x.desc.work + i * x.desc.ob)) m.bytes
          .next (s.onTable p t fun x => { x with ranks := x.ranks.set i .arrived })
        else .next (s.lateReturn k p t m)
      | none => .next (s.lateReturn k p f.1 m)

/-! ## Timeout and close (R335, R336) -/

/-- Ranks after the timer: those sent, and those of a command still routing, named by the vector, whose row is on its way to a slot or has not
set out, are TIMEDOUT (R335). -/
def timedRanks (s : State) (p : Nat) (run : Option RouteRun) (t : Nat) (rs : List Rank) : List Rank :=
  rs.zipIdx.map fun r => match r.1 with
    | .sent => .timedOut
    | .absent => match run with
      | some u => match u.cmd.body with
        | .rtRoute q _ vec => if q = t ∧ u.next ≤ r.2 + 1 ∧ s.pairAt p vec r.2 / 2 ^ 31 = 0 then .timedOut else .absent
        | _ => .absent
      | none => .absent
    | x => x

/-- The rows of a table that are in no slot yet are withdrawn (R335; log 64). -/
def State.withdraw (s : State) (p : Nat) (w0 : Word) : Nat → List RouteMsg → State
  | _, [] => s
  | i, m :: ms =>
    if !m.back ∧ m.fromP = p ∧ (tagFields m.tag).1 = (tagFields w0).1 ∧ (tagFields m.tag).2.2.2.2 = (tagFields w0).2.2.2.2
    then ((s.dropMsg i m).endTicket (resInbox (s.msgCore m) m.ch) m.ticket).withdraw p w0 i ms
    else s.withdraw p w0 (i + 1) ms

/-- TABLE_TIMEOUT (R329, R335): the timer has passed, or the last wave has gone: unsettled ranks become TIMEDOUT and sending
stops; a table that no `rt.route` has filled goes to its close with every rank ABSENT. -/
def execTableTimeout (pcore t : Nat) (s : State) : Out :=
  let x := s.table pcore t
  if !x.closing && !(x.deadline.any fun d => decide (d ≤ s.now)) then .next s
  else
    let past := fun (x : RTable) => { x with deadline := none, closing := false, timedAt := some (s.clk pcore) }
    match x.state with
    | .opened => .next (s.onTable pcore t fun x => { past x with state := .routing, filled := false })
    | .routing =>
      let rs := timedRanks s pcore (s.core pcore).rt.run t x.ranks
      let s := (s.withdraw pcore (tagWord x t 0 0) 0 s.routeMsgs).onTable pcore t fun x => { past x with ranks := rs }
      match (s.core pcore).rt.run with
      | some u => match u.cmd.body with
        | .rtRoute q _ _ => if q = t then .next (s.endRoute pcore u.cmd) else .next s
        | _ => .next s
      | none => .next s
    | _ => .next s

/-- The weight of a rank as FP32 bits. -/
def RTable.weight (x : RTable) (i : Nat) : Nat := lookD x.weights i 0 * 2 ^ 16

/-- The numbers of the ranks of row `r` that arrived, in order. -/
def RTable.arrived (x : RTable) (r : Nat) : List Nat :=
  ((List.range x.desc.k).map fun j => r * x.desc.k + j).filter fun i => x.ranks[i]? == some .arrived

/-- Some rank of row `r` is in a state. -/
def RTable.anyRank (x : RTable) (r : Nat) (k : Rank) : Bool := (List.range x.desc.k).any fun j => x.ranks[r * x.desc.k + j]? == some k

/-- The sum of a row's element over its arrived ranks, each product exact and each sum rounded (R335). -/
def sumRanks (s : State) (p : Nat) (x : RTable) (e : Nat) : List Nat → Nat × Flags → Nat × Flags
  | [], a => a
  | i :: is, (acc, fl) =>
    let v := s.num 4 (spadKey p (x.desc.work + i * x.desc.ob + 4 * e))
    let r := f32r (Num.fma .rne (fmtF32.value (x.weight i)) (fmtF32.value v) (fmtF32.value acc))
    sumRanks s p x e is (r.1, fl ||| r.2)

/-- The sum of the weights of arrived ranks (R335). -/
def sumWeights (x : RTable) : List Nat → Nat × Flags → Nat × Flags
  | [], a => a
  | i :: is, (w, fl) => let r := f32add w (x.weight i); sumWeights x is (r.1, fl ||| r.2)

/-- FP32 bits of a finite number other than zero. -/
def f32solid (w : Nat) : Bool := match fmtF32.value w with
  | .fin _ n _ => n != 0
  | _ => false

/-- Row `r` as the close writes it, with the flags raised (R335). -/
def tableRow (s : State) (p : Nat) (x : RTable) (r : Nat) : List Byte × Flags :=
  let is := x.arrived r
  if is.isEmpty then
    (if x.desc.passT && x.filled then s.bytes x.desc.ib (spadKey p (x.tile + r * x.desc.ib)) else List.replicate x.desc.ob 0, 0)
  else
    let es := (List.range (x.desc.ob / 4)).map fun e => sumRanks s p x e is (0, 0)
    let fl := es.foldl (fun f e => f ||| e.2) 0
    if x.desc.renorm && (x.anyRank r .dropped || x.anyRank r .timedOut) then
      let w := sumWeights x is (0, 0)
      let qs := es.map fun e => if f32solid w.1 then f32div e.1 w.1 else (e.1, 0)
      (qs.flatMap fun q => toBytes 4 q.1, qs.foldl (fun f q => f ||| q.2) (fl ||| w.2))
    else (es.flatMap fun e => toBytes 4 e.1, fl)

/-- The status code of row `r` (R336). -/
def rowStatus (x : RTable) (r : Nat) : Nat :=
  if x.anyRank r .timedOut then 3
  else if (x.arrived r).isEmpty then 2
  else if x.anyRank r .dropped then 1 else 0

/-- The status vector: 4 bits a row (R336). -/
def statusBytes (x : RTable) : List Byte :=
  (List.range ((x.desc.rows + 1) / 2)).map fun i =>
    BitVec.ofNat 8 (rowStatus x (2 * i) + 16 * if 2 * i + 1 < x.desc.rows then rowStatus x (2 * i + 1) else 0)

/-- Ranks of a table in a state. -/
def RTable.countRanks (x : RTable) (k : Rank) : Nat := (x.ranks.filter fun r => r == k).length

/-- The three counts at ctr (R336). -/
def countBytes (x : RTable) : List Byte :=
  toBytes 4 x.sent ++ toBytes 4 (x.countRanks .dropped) ++ toBytes 4 (x.countRanks .timedOut)

/-- An offset of the scratchpad from which row `r` reads an uncorrectable error (R253, R336). -/
def badInput (s : State) (p : Nat) (x : RTable) (r : Nat) : Option Nat :=
  let spots := if (x.arrived r).isEmpty then (if x.desc.passT && x.filled then [(x.tile + r * x.desc.ib, x.desc.ib)] else [])
    else (x.arrived r).map fun i => (x.desc.work + i * x.desc.ob, x.desc.ob)
  (spots.find? fun y => s.memBad (spadKey p y.1) y.2).map Prod.fst

/-- Rows from `wrote` on written in ascending order, each after the peers' answers to the one before; the first fault or failure with its
address stops them (R336). -/
def State.closeRows (s : State) (p t : Nat) (c : Cons) (cmd : Cmd) : Nat → State × Seen Unit
  | 0 => (s, .ok ())
  | n + 1 =>
    let x := s.table p t
    if x.acks ≠ 0 then (s, .ok ())
    else match badInput s p x x.wrote with
      | some off => (s, .bad (padAddr x.lcore off))
      | none => match engCells s p x.owner c ((x.desc.out.toNat + x.wrote * x.desc.ob) % 2 ^ 64) 0 (tableRow s p x x.wrote).1 with
        | .ok cs => ((s.putCells p t cmd cs).onTable p t fun x => { x with wrote := x.wrote + 1 }).closeRows p t c cmd n
        | .fault va => (s, .fault va)
        | .bad va => (s, .bad va)
        | .ask _ => (s, .ok ())

/-- The table is CLOSED (R336). -/
def State.shutTable (s : State) (p t : Nat) : State :=
  s.onTable p t fun x => { x with
    state := .closed, suspended := false, failed := none, wrote := 0, posted := 0, acks := 0, deadline := none, closing := false }

/-- An engine request to the done barrier of a table: bytes, the one of wave mode, or ERROR (R277, R336). -/
def State.doneAdd (s : State) (p : Nat) (x : RTable) (key n : Nat) (failed : Bool) : State :=
  s.send (Req.make (engWave p .route) x.owner p (homeOf key) 0 (.engineAdd n true failed) 8 [⟨0, key, x.desc.done.toNat, 0, 0⟩])

/-- A close that a failure ends: logged, the error flag set and the barrier's ERROR set (R336). -/
def State.failClose (s : State) (p t : Nat) (c : Cons) (va : Nat) : State :=
  let x := s.table p t
  let s := (s.logUnit (dieOf p) va 0 x.lcore p 4 0x12 x.owner true).flagError x.owner
  let s := match barHost (.red .add) (engPlace s p x.owner c x.desc.done.toNat 0 .write) with
    | .at key => s.doneAdd p x key 0 true
    | _ => s
  s.shutTable p t

/-- The flags of the whole table, which its close raises (R335). -/
def tableFlags (s : State) (p : Nat) (x : RTable) : Flags :=
  (List.range x.desc.rows).foldl (fun f r => f ||| (tableRow s p x r).2) 0

/-- A table whose every rank is settled, with no command still routing it (R327). -/
def State.settled (s : State) (p t : Nat) : Bool :=
  let x := s.table p t
  x.state == .routing && !x.ranks.contains .sent && !((s.core p).rt.run.any fun u => match u.cmd.body with
    | .rtRoute q _ _ => q == t
    | _ => false)

/-- The close waits for a page (R336). -/
def State.holdClose (s : State) (p t : Nat) (c : Cons) (va : Nat) : State :=
  (s.onTable p t fun x => { x with suspended := true }).routeFault p c.aspace va

/-- The bytes that a close adds to its done barrier (R336). -/
def OpenDesc.doneBytes (d : OpenDesc) : Nat := d.rows * d.ob + (d.rows + 1) / 2 + 12

/-- The last steps of a close, once every write has been performed: the flags, the add to done, and CLOSED (R277, R335, R336). -/
def State.closeEnd (s : State) (p t : Nat) (c : Cons) : State :=
  let x := s.table p t
  if x.acks ≠ 0 then s
  else match barHost (.red .add) (engPlace s p x.owner c x.desc.done.toNat 0 .write) with
    | .fault => s.holdClose p t c x.desc.done.toNat
    | .violation => s.failClose p t c x.desc.done.toNat
    | .at key =>
      let s2 := s.raiseCmd (x.asCmd p) (tableFlags s p x)
      (s2.doneAdd p x key x.desc.doneBytes false).shutTable p t

/-- The counts of a table whose status vector has been performed (R336). -/
def State.closeCounts (s : State) (p t : Nat) (c : Cons) : State :=
  let x := s.table p t
  match engCells s p x.owner c x.desc.ctr.toNat 0 (countBytes x) with
  | .fault va => s.holdClose p t c va
  | .bad va => s.failClose p t c va
  | .ok ct => ((s.putCells p t (x.asCmd p) ct).onTable p t fun x => { x with posted := 2 }).closeEnd p t c
  | .ask _ => s

/-- The status vector of a table whose rows have been performed, and then its counts (R336). -/
def State.closeStatus (s : State) (p t : Nat) (c : Cons) : State :=
  let x := s.table p t
  match engCells s p x.owner c x.desc.stat.toNat 0 (statusBytes x) with
  | .fault va => s.holdClose p t c va
  | .bad va => s.failClose p t c va
  | .ok st =>
    let s := (s.putCells p t (x.asCmd p) st).onTable p t fun x => { x with posted := 1 }
    if (s.table p t).acks ≠ 0 then s else s.closeCounts p t c
  | .ask _ => s

/-- What a close does after its rows: the status vector, the counts and the last steps, each once what it follows has been performed, at a
peer module too (R336). -/
def State.closePost (s : State) (p t : Nat) (c : Cons) : State :=
  let x := s.table p t
  if x.acks ≠ 0 ∨ x.wrote < x.desc.rows then s
  else match x.posted with
    | 0 => s.closeStatus p t c
    | 1 => s.closeCounts p t c
    | _ => s.closeEnd p t c

/-- TABLE_CLOSE (R335, R336): the rows, the status vector, the counts, the add to done, in this order, each once what it follows has been
performed; a page fault suspends the close, a failure ends it. -/
def execTableClose (pcore t : Nat) (s : State) : Out :=
  let x := s.table pcore t
  if !s.settled pcore t || x.suspended then .next s
  else match s.con x.owner with
    | none => .next (s.shutTable pcore t)
    | some c => match x.failed with
      | some va => .next (s.failClose pcore t c va)
      | none =>
        let r := s.closeRows pcore t c (x.asCmd pcore) (x.desc.rows - x.wrote)
        match r.2 with
        | .fault va => .next (r.1.holdClose pcore t c va)
        | .bad va => .next (r.1.failClose pcore t c va)
        | _ => .next (r.1.closePost pcore t c)

/-- A page that the route engine needs was declared unrecoverable: closes that wait for it fail, opens and late returns that wait
end (R265, R336). -/
def State.routeLost (s : State) (p va : Nat) : State :=
  s.onRt p fun r => { r with tables := r.tables.map fun e =>
    if e.2.suspended then (e.1, { e.2 with suspended := false, failed := some va }) else e }

/-- A page that the route engine needs is present: closes that wait for it go on. -/
def State.routeFound (s : State) (p : Nat) : State :=
  s.onRt p fun r => { r with tables := r.tables.map fun e => (e.1, { e.2 with suspended := false }) }

end Sys2Proof.Machine
end

