-- ==== Sys2Proof/Machine/Fabric.lean ====
section
/-! DEFINITION. The mesh, regions and router power, the exchange between bands, and the links to peer modules (R340-R357). -/

namespace Sys2Proof.Machine

/-! ## The exchange (R349-R351) -/

/-- The partner of an `xch` is no core of another band (R349). -/
def xchPartnerBad (lcore partner : Nat) : Bool := decide (1536 ≤ partner) || partner / 4 == lcore / 4

/-- An `xch` with a bad operand. -/
def xchTrap (s : State) (l : LaneA) (ud ua : FUse) (code v : Nat) : Out :=
  laneFrame s l ud ua .none .none false false id lateLat fun k => s.trapL k.n code (BitVec.ofNat 64 v) k.act

/-- XCH (R349, R350): the offer holds the values and the mask read at issue. -/
def execXch (l : LaneA) (s : State) : Out :=
  let partner := l.imm % 2048
  if 320 ≤ l.d then laneBadField s l l.d
  else if 320 ≤ l.a ∧ l.a < 336 then xchTrap s l .dst .none 2 l.a
  else laneFrame s l .dst .src .none .none false false id lateLat fun k =>
    if xchPartnerBad k.w.lcore partner then s.trapL k.n 2 (BitVec.ofNat 64 partner) k.act
    else if (k.c.phys partner).isNone then s.trapL k.n 4 (BitVec.ofNat 64 partner) k.act
    else if 255 ≤ k.w.count .xc then s.holdL k.n k.w .long
    else
      let op : OutOp := ⟨s.nextId, .xc, 1, some k.blk.id, .none, none, 0, false, k.w.spc, k.blk.start + k.blk.pos, [], 0, some l.d, k.act⟩
      let offer : Offer := ⟨k.n, k.w.cid, s.nextId, k.w.lcore, partner, l.c % 256, l.d, k.act,
        (lanesOf k.act).map fun i => (i, k.val s k.a i), false, none, 0, none, 0⟩
      let t := s.issuedL k.n ({ k.w with ops := k.w.ops ++ [op] }.advanceL k.blk k.clk 1)
      { t with offers := t.offers ++ [offer] }

/-- An offer that offer `o` pairs with: the oldest that waits, names this core and has its tag (R350). -/
def Offer.meets (o x : Offer) : Bool :=
  x.arrived && x.pair.isNone && x.cid == o.cid && x.tag == o.tag && x.core == o.partner && x.partner == o.core

/-- The physical core of an offer's wave. -/
def Offer.pcore (o : Offer) : Nat := coreOfWave o.wave

/-- Offers that hold a pairing slot of a band. -/
def State.pairsUsed (s : State) (b : Nat) : Nat := (s.offers.filter fun o => o.arrived && o.pair.isNone && o.band == b).length

/-- The wave of an offer is halted, so that the offer does not set out (R351). -/
def State.offerHeld (s : State) (o : Offer) : Bool := (s.wave o.wave).any fun w => w.cid == o.cid && w.life == .halted

/-- The values of offer `x` that offer `o` takes: those of the lanes active on both sides (R350). -/
def Offer.takes (o x : Offer) : List (Nat × W32) := x.vals.filter fun v => o.mask.getLsbD v.1

/-- Offer `o` has paired with `x`: what its operation will write is known, and a reader may see each lane old or new (R115, R350). -/
def State.aimOffer (s : State) (o x : Offer) : State :=
  s.onAny o.wave fun w => if w.cid ≠ o.cid then w else { w with
    ops := updOp o.op (fun y => { y with dest := .vals (.vreg o.d (BitVec.allOnes 32) (o.takes x)), lanes := y.lanes &&& x.mask }) w.ops }

/-- XCH_OFFER_ARRIVAL (R350, R351): an offer reaches its meeting band and pairs, waits in a slot, or is refused. Offers of one wave to
one band arrive in order, and a halted wave's do not arrive. -/
def execXchOfferArrival (k : Nat) (s : State) : Out :=
  match s.offers[k]? with
  | none => .next s
  | some o =>
    if o.arrived || decide (ctxBase ≤ o.wave) || s.offerHeld o || decide (s.clk o.pcore < o.retryAt)
        || (s.offers.take k).any (fun x => !x.arrived && x.wave == o.wave && x.band == o.band) then .next s
    else
      let res := resPairs o.band
      match s.offers.find? o.meets with
      | some x =>
        let s := s.endTicket res o.ticket
        let mine := { o with arrived := true, ticket := none, pair := some x.op }
        let both := s.offers.map fun y => if y.op = o.op then mine else if y.op = x.op then { y with pair := some o.op } else y
        .next (({ s with offers := both }.aimOffer o x).aimOffer x o)
      | none =>
        if s.grants res (s.pairsUsed o.band) 16 o.ticket then
          let s := s.endTicket res o.ticket
          .next { s with offers := s.offers.eraseIdx k ++ [{ o with arrived := true, ticket := none }] }
        else
          let d := if o.refusals = 2 ∧ o.ticket.isNone then (fun (x : State × Nat) => (x.1, some x.2)) (s.drawTicket res)
            else (s.present res o.ticket, o.ticket)
          let again := { o with refusals := o.refusals + 1, ticket := d.2, retryAt := s.clk o.pcore + 32 }
          .next { d.1 with offers := d.1.offers.set k again }

/-- The values of offer `x` land in the wave of offer `o`, in the lanes active on both sides, while its operation is open (R116, R350). -/
def State.landOffer (s : State) (o x : Offer) : State :=
  match (s.anyWave o.wave).bind fun w => if w.cid = o.cid then w.opOf o.op else none with
  | none => s
  | some y =>
    let d : Dest := .vreg o.d (BitVec.allOnes 32) (o.takes x)
    let s := if o.wave < ctxBase then s.landNow o.wave (y.landing (s.clkOf o.wave) d) else s.onAny o.wave fun w => w.land d
    s.onAny o.wave fun w => w.partDone o.op false

/-- XCH_VALUES_LAND (R350): both sides' values land, and both operations are done. -/
def execXchValuesLand (k : Nat) (s : State) : Out :=
  match s.offers[k]? with
  | none => .next s
  | some o => match o.pair.bind fun m => s.offers.find? fun x => x.op == m with
    | none => .next s
    | some x =>
      let s := { s with offers := s.offers.filter fun y => y.op != o.op && y.op != x.op }
      .next ((s.landOffer o x).landOffer x o)

/-! ## Routers (R340, R342, R347, R348) -/

/-- A router as it stands in cycle `clk` of its core: a power change that has run its cycles is done. -/
def RouterPower.at (r : RouterPower) (clk : Nat) : RouterPower :=
  match r with
  | .goingDown c => if c ≤ clk then .off else r
  | .goingUp c t => if c ≤ clk then .on t else r
  | _ => r

/-- The router of a physical core. -/
def State.router (s : State) (p : Nat) : RouterPower := (lookD s.routers p (.on 0)).at (s.clk p)

/-- ROUTER_IDLE_GATE (R342, R347): a router that neither a packet nor a wake has reached for 1 µs begins to power down, which takes 4
cycles; a bypassed one is never gated. -/
def execRouterIdleGate (pcore : Nat) (s : State) : Out :=
  if 1536 ≤ pcore ∨ s.bypass.contains pcore then .next s
  else match s.router pcore with
    | .on t => if t + 21000 ≤ s.now then .next { s with routers := put s.routers pcore (.goingDown (s.clk pcore + 4)) } else .next s
    | _ => .next s

/-- A router as a wake in cycle `clk`, at tick `now`, leaves it (R347, R348). -/
def RouterPower.wake (r : RouterPower) (clk now : Nat) : RouterPower :=
  match r with
  | .on _ => .on now
  | .goingDown c => if c = clk + 4 then .on now else .goingUp (c + 6) now
  | .off => .goingUp (clk + 6) now
  | .goingUp c _ => .goingUp c now

/-- A wake, or a packet, reaches the router of a core (R347). -/
def State.wakeRouter (s : State) (p : Nat) : State := { s with routers := put s.routers p ((s.router p).wake (s.clk p) s.now) }

/-- ROUTER_WAKE (R347, R348): a wake keeps a router on, also one whose idle time runs out in this cycle; any other powers up in 6 cycles,
after a power-down that has begun is over. -/
def execRouterWake (pcore : Nat) (s : State) : Out := .next (if 1536 ≤ pcore then s else s.wakeRouter pcore)

/-- Column and row of a router by its core's number on the die (R340). -/
def routerAt (n : Nat) : Nat × Nat := (n / 4 % 8 * 2 + n % 4 % 2, n / 4 / 8 * 2 + n % 4 / 2)

/-- The number on the die of the router at a column and row. -/
def routerNo (x y : Nat) : Nat := (y / 2 * 8 + x / 2) * 4 + y % 2 * 2 + x % 2

/-- A route of R341 between two routers. -/
inductive MeshRoute where
  | xy | yx | xyx (column : Nat)
deriving DecidableEq, Repr

/-- The route fixed for an ordered pair of routers: the first candidate that turns at no bypassed router (R341). -/
def meshRoute (bypassed : Nat → Bool) (a b : Nat) : Option MeshRoute :=
  let x := routerAt a
  let y := routerAt b
  let free := fun (c r : Nat) => !bypassed (routerNo c r)
  if x.1 = y.1 ∨ x.2 = y.2 ∨ free y.1 x.2 then some .xy
  else if free x.1 y.2 then some .yx
  else ((List.range 16).find? fun m => free m x.2 && free m y.2).map .xyx

/-- The numbers from `a` to `b`, in either direction. -/
def stretch (a b : Nat) : List Nat :=
  if a ≤ b then (List.range (b - a + 1)).map fun i => a + i else (List.range (a - b + 1)).map fun i => a - i

/-- The routers that a packet passes through the columns `xs` of its row, then through the rows `ys`, the first of which is that row. -/
def walkXY (xs ys : List Nat) : List Nat :=
  xs.map (fun x => routerNo x (ys.headD 0)) ++ (ys.drop 1).map fun y => routerNo (xs.getLastD 0) y

/-- The routers that a packet from `a` to `b` passes on a route, both ends among them (R341). -/
def MeshRoute.path (r : MeshRoute) (a b : Nat) : List Nat :=
  let x := routerAt a
  let y := routerAt b
  match r with
  | .xy => walkXY (stretch x.1 y.1) (stretch x.2 y.2)
  | .yx => (stretch x.2 y.2).map (fun r => routerNo x.1 r) ++ ((stretch x.1 y.1).drop 1).map fun c => routerNo c y.2
  | .xyx m => walkXY (stretch x.1 m) (stretch x.2 y.2) ++ ((stretch m y.1).drop 1).map fun c => routerNo c y.2

/-- ROUTE_STITCH (R341, R342): the routes of a die are fixed for the routers now in bypass; a core that some router has no route to is
not ready. -/
def execRouteStitch (die : Nat) (s : State) : Out :=
  if 4 ≤ die then .next s
  else
    let by_ := (List.range 384).filter fun n => s.bypass.contains (384 * die + n)
    let bad := by_.contains
    let ns := (List.range 384).filter fun n => !bad n
    let lost := if by_.isEmpty then [] else ns.filter fun b => ns.any fun a => a != b && (meshRoute bad a b).isNone
    let s := s.onDie die fun d => { d with stitched := by_, noRoute := lost }
    .next (s.setReady { s.ready with cores := s.ready.cores.filter fun p => p / 384 != die || !(lost ++ by_).contains (p % 384) })

/-! ## Regions (R343, R344) -/

/-- A region descriptor's fields. -/
def regionOf (v : Nat) : Region := ⟨bits v 1 2, bits v 3 2, bits v 8 3, bits v 12 4, bits v 16 3, bits v 20 4, bits v 0 1 == 1⟩

/-- A physical core lies in a region's rectangle. -/
def Region.covers (r : Region) (p : Nat) : Bool :=
  let b := p % 384 / 4
  p / 384 == r.die && decide (r.bx0 ≤ b % 8) && decide (b % 8 ≤ r.bx0 + r.bw) && decide (r.by0 ≤ b / 8)
    && decide (b / 8 ≤ r.by0 + r.bh)

/-- A write of region `n`'s descriptor: ignored for a rectangle that leaves the die, a thin torus, or a wave on the old or the new
rectangle (R343). -/
def State.writeRegion (s : State) (n v : Nat) : State :=
  let r := regionOf v
  let old := lookD s.regions n Region.reset
  if n = 0 ∨ 255 < n ∨ 7 < r.bx0 + r.bw ∨ 11 < r.by0 + r.bh ∨ (r.kind = 3 ∧ (r.bw = 0 ∨ r.bh = 0))
      ∨ s.waves.any (fun e => r.covers (coreOfWave e.1) || old.covers (coreOfWave e.1)) then s
  else { s with regions := put s.regions n r }

/-- REGION_DESCRIPTOR_WRITE (R343): a service core's write. -/
def execRegionDescriptorWrite (n v : Nat) (s : State) : Out := .next (s.writeRegion n v)

/-- The router columns and the router rows of a rectangle. -/
def Region.sides (r : Region) : Nat × Nat := (2 * (r.bw + 1), 2 * (r.bh + 1))

/-- The region's routers in snake order: by row from the top, left to right in the rectangle's even rows and right to left in its odd ones;
one in bypass is none of them (R343, R344). -/
def Region.snake (r : Region) (bypassed : Nat → Bool) : List Nat :=
  (List.range r.sides.2).flatMap fun y =>
    let row := (List.range r.sides.1).map fun x => routerNo (2 * r.bx0 + x) (2 * r.by0 + y)
    (if y % 2 = 0 then row else row.reverse).filter fun n => !bypassed n

/-- The wrap links of a torus: between the two end routers of each row and of each column (R344). -/
def Region.wraps (r : Region) : List (Nat × Nat) :=
  let at_ := fun x y => routerNo (2 * r.bx0 + x) (2 * r.by0 + y)
  (List.range r.sides.2).map (fun y => (at_ 0 y, at_ (r.sides.1 - 1) y))
    ++ (List.range r.sides.1).map fun x => (at_ x 0, at_ x (r.sides.2 - 1))

/-- The express links of a region's overlay; a router in bypass has no express ports (R342, R344). -/
def Region.express (r : Region) (bypassed : Nat → Bool) : List (Nat × Nat) :=
  let c := r.snake bypassed
  let at_ := fun i => c.getD i 0
  match r.kind with
  | 1 => (List.range c.length).map fun i => (at_ i, at_ ((i + 1) % c.length))
  | 2 => (List.range (c.length - 1)).map fun i => (at_ (i + 1), at_ (i / 2))
  | 3 => r.wraps.filter fun l => !bypassed l.1 && !bypassed l.2
  | _ => []

/-- The snake indices on a ring of `n` from `i` to `j`: the direction with fewer hops, the ascending one on a tie (R344). -/
def ringPath (n i j : Nat) : List Nat :=
  let up := (j + n - i) % n
  let down := (i + n - j) % n
  if up ≤ down then (List.range (up + 1)).map fun k => (i + k) % n else (List.range (down + 1)).map fun k => (i + n - k) % n

/-- The snake indices from `i` up to the root of the tree; `f` bounds them (R344). -/
def ancestors : Nat → Nat → List Nat
  | 0, i => [i]
  | f + 1, i => if i = 0 then [0] else i :: ancestors f ((i - 1) / 2)

/-- The snake indices of the tree from `i` up to the nearest common ancestor, then down to `j` (R344). -/
def treePath (i j : Nat) : List Nat :=
  let a := ancestors i i
  let b := ancestors j j
  let down := (b.takeWhile fun k => !a.contains k).reverse
  a.takeWhile (fun k => !b.contains k) ++ (a.find? fun k => b.contains k).toList ++ down

/-- The routers of a torus from coordinates `x` to `y` of the rectangle: along the row, then along the column, the shorter way in each
dimension, the one toward ascending coordinates on a tie (R344). -/
def Region.torusPath (r : Region) (x y : Nat × Nat) : List Nat :=
  walkXY ((ringPath r.sides.1 x.1 y.1).map fun c => 2 * r.bx0 + c) ((ringPath r.sides.2 x.2 y.2).map fun c => 2 * r.by0 + c)

/-- The routers that a packet passes between two routers of a region, where `mesh` is the mesh's route between them. A torus's route that
would turn at a router in bypass, or take a wrap link of one, is that of the mesh (R344, log 65). -/
def Region.path (r : Region) (bypassed : Nat → Bool) (mesh : Option (List Nat)) (a b : Nat) : Option (List Nat) :=
  let c := r.snake bypassed
  let i := c.idxOf a
  let j := c.idxOf b
  match r.kind with
  | 1 => some ((ringPath c.length i j).map fun k => c.getD k 0)
  | 2 => some ((treePath i j).map fun k => c.getD k 0)
  | 3 =>
    let rel := fun n => ((routerAt n).1 - 2 * r.bx0, (routerAt n).2 - 2 * r.by0)
    let p := r.torusPath (rel a) (rel b)
    let turn := routerNo (routerAt b).1 (routerAt a).2
    let broken := r.wraps.any fun l => (bypassed l.1 || bypassed l.2) && p.contains l.1 && p.contains l.2
    if bypassed turn || broken then mesh else some p
  | _ => mesh

/-- The region whose overlay a packet between two physical cores uses: the defined one of lowest number to which both belong (R343, R344,
log 65). -/
def State.overlay (s : State) (a b : Nat) : Option Region :=
  ((List.range 256).map fun n => lookD s.regions n Region.reset).find? fun r =>
    r.v && r.covers a && r.covers b && !s.bypass.contains a && !s.bypass.contains b

/-- The routers of the mesh route between two physical cores of one die, as the die's last stitch fixed it (R341). -/
def State.meshPath (s : State) (a b : Nat) : Option (List Nat) :=
  (meshRoute (s.die (a / 384)).stitched.contains (a % 384) (b % 384)).map fun m => m.path (a % 384) (b % 384)

/-- The routers, by their numbers on the die, that a packet between two physical cores of one die passes: those of their region's overlay,
and any other packet's those of the mesh (R341, R344). -/
def State.packetPath (s : State) (a b : Nat) : Option (List Nat) :=
  match s.overlay a b with
  | some r => r.path (fun n => s.bypass.contains (a / 384 * 384 + n)) (s.meshPath a b) (a % 384) (b % 384)
  | none => s.meshPath a b

/-! ## Across the dies (R345) -/

/-- The dies that a packet from die `a` to die `b` passes on the ring D0, D1, D3, D2, both ends among them (R345). -/
def dieRoute (a b : Nat) : List Nat :=
  match a, b with
  | 0, 3 => [0, 1, 3]
  | 3, 0 => [3, 1, 0]
  | 1, 2 => [1, 0, 2]
  | 2, 1 => [2, 0, 1]
  | a, b => if a = b then [a] else [a, b]

/-- I/O die `x` joins compute die `d`: X0 joins D0 and D2, X1 joins D1 and D3 (R345). -/
def ioJoins (x d : Nat) : Bool := d % 2 == x

/-- The dies that a packet from die `d` to I/O die `x` passes; it crosses one bridge where its die does not join that I/O die (R345). -/
def ioRoute (d x : Nat) : List Nat := if ioJoins x d then [d] else [d, if x = 0 then d - 1 else d + 1]

/-- The dies between two ends of a packet, each a physical core, or 1,536 + x for I/O die x; an I/O die is numbered 4 + x here. -/
def dieWalk (a b : Nat) : List Nat :=
  if a < 1536 ∧ b < 1536 then dieRoute (dieOf a) (dieOf b)
  else if a < 1536 then ioRoute (dieOf a) (b - 1536) ++ [4 + (b - 1536)]
  else if b < 1536 then (4 + (a - 1536)) :: (ioRoute (dieOf b) (a - 1536)).reverse
  else []

/-- The router of die `d` that joins its neighbour `e`. -/
def bridgeAt (d e : Nat) : Nat := 384 * d + Config.bridgeRouter d e % 384

/-- The routers that a packet passes on the dies of a walk: `from_` is the router at which it comes into the first of them, and `to_` its
last one (R341, R345). -/
def State.legs (s : State) (to_ : Nat) : Nat → List Nat → List Nat
  | _, [] => []
  | from_, [d] => ((s.meshPath from_ to_).getD []).map fun n => 384 * d + n
  | from_, d :: e :: ds => (((s.meshPath from_ (bridgeAt d e)).getD []).map fun n => 384 * d + n) ++
      if 4 ≤ e then [] else s.legs to_ (bridgeAt e d) (e :: ds)

/-- The routers, by their cores, that a packet between two ends passes (R341, R344, R345). -/
def State.routeOf (s : State) (a b : Nat) : List Nat :=
  match dieWalk a b with
  | [] => []
  | [d] => ((s.packetPath a b).getD []).map fun n => 384 * d + n
  | d :: e :: ds => if 4 ≤ d then s.legs b (bridgeAt e d) (e :: ds) else s.legs b a (d :: e :: ds)

/-! ## Packets and routers (R347) -/

/-- The end of a packet at a home: a core of the home's band, or the I/O die of the port of a peer module; LPDDR-6 homes are slices of the
compute dies, and host traffic goes through X0 (log 36). -/
def State.endOf (s : State) (h : Nat) : Nat :=
  if 5000 ≤ h then 1536 + (s.readyNow.ports.getD ((h - 5000) % s.readyNow.ports.length) 0) / 12
  else if 4000 ≤ h then 1536 else homeCore h

/-- The end from which a request comes: its core, or the I/O die of a peer module's port; what the placement manager sends comes from X0. -/
def State.sourceOf (s : State) (r : Req) : Nat :=
  if r.fromPeer then s.endOf (5000 + (r.wave - peerBase)) else if r.source = 1536 then 1536 else r.pcore

/-- The packets, by their two ends, with which state `t` differs from `s`: requests that have been made, answers of those that have been
dealt with, routed rows and offers of the exchange that have set out. -/
def newPackets (s t : State) : List (Nat × Nat) :=
  (t.reqs.filter fun r => decide (s.nextId ≤ r.id)).map (fun r => (t.sourceOf r, t.endOf r.home))
    ++ (s.reqs.filter fun r => !t.reqs.any fun q => q.id == r.id).map (fun r => (t.endOf r.home, t.sourceOf r))
    ++ (t.routeMsgs.filter fun m => !s.routeMsgs.contains m).map (fun m => (m.fromP, t.msgCore m))
    ++ (t.offers.filter fun o => !s.offers.any fun x => x.op == o.op).map fun o => (o.pcore, 4 * o.band)

/-- Each packet that has set out between two states reaches the routers of its route: they wake, and their idle times start again (R347; log
36). -/
def State.wakeRoutes (s t : State) : State :=
  (newPackets s t).foldl (fun t x => (t.routeOf x.1 x.2).foldl State.wakeRouter t) t

/-! ## Link ports (R353, R354) -/

/-- What is owed to the peers leaves, as far as the ports take flits (R354). -/
def State.flushOwed (s : State) : State := s.peers.foldl (fun s e => s.sendOwed e.1 e.2.owed.length) s

/-- A port changed. -/
def State.onPort (s : State) (n : Nat) (f : Port → Port) : State := { s with ports := put s.ports n (f (lookD s.ports n Port.reset)) }

/-- FLIT_RECEIVE (R354): a flit in sequence with a good CRC is accepted; any other is answered with a negative acknowledgement. -/
def execFlitReceive (port seq : Nat) (good : Bool) (s : State) : Out :=
  if 24 ≤ port then .next s
  else .next (s.onPort port fun p =>
    if good ∧ seq = p.expected then { p with expected := (p.expected + 1) % 1024 } else { p with naks := p.naks + 1 })

/-- The flits from number `seq` on in a list of flits in order of sending. -/
def fromSeq (seq : Nat) : List (Nat × Nat) → List (Nat × Nat)
  | [] => []
  | x :: xs => if x.1 = seq then x :: xs else fromSeq seq xs

/-- LINK_NAK_REPLAY (R354): the sender replays from the named flit; the sixteenth replay of one flit is the last before the port
retrains. -/
def execLinkNakReplay (port seq : Nat) (s : State) : Out :=
  if 24 ≤ port then .next s
  else .next (s.onPort port fun p =>
    let us := fromSeq seq p.unacked
    if p.retrain || us.isEmpty then p
    else if us.any fun u => decide (16 ≤ lookD p.replays u.1 0) then { p with retrain := true }
    else { p with replays := us.foldl (fun r u => put r u.1 (lookD r u.1 0 + 1)) p.replays })

/-- FLIT_ACK (R354): the flits up to the acknowledged one leave the replay buffer, and what waits for room in it leaves. -/
def execFlitAck (port seq : Nat) (s : State) : Out :=
  if 24 ≤ port ∨ !((lookD s.ports port Port.reset).unacked.any fun u => u.1 == seq) then .next s
  else .next (s.onPort port fun p =>
    let us := (fromSeq seq p.unacked).drop 1
    { p with unacked := us, replays := p.replays.filter fun r => us.any fun u => u.1 == r.1 }).flushOwed

/-- A peer to which flits go again, on another port, before what is owed to it already (R354). -/
def State.moveFlits (s : State) : List (Nat × Nat) → State
  | [] => s
  | u :: us => (s.moveFlits us).onPeer u.2 fun x => { x with owed := none :: x.owed }

/-- A port is marked not ready, at once: its traffic moves to the others (R354). -/
def State.dropPort (s : State) (n : Nat) : State :=
  let without := fun (l : List Nat) => l.filter fun x => x != n
  { s with ready := { s.ready with
      ports := without s.ready.ports
      was := s.ready.was.map fun x => (x.1, { x.2 with ports := without x.2.ports }) } }

/-- PORT_RETRAIN (R353, R354, R410): a port that retrains goes on with its flits; one that fails is not ready, and its flits go to the other
ports. -/
def execPortRetrain (port : Nat) (good : Bool) (s : State) : Out :=
  let p := lookD s.ports port Port.reset
  if 24 ≤ port ∨ !p.retrain then .next s
  else if good then .next (s.onPort port fun p => { p with retrain := false, replays := [] }).flushOwed
  else
    let s := s.onPort port fun p => { p with retrain := false, replays := [], unacked := [] }
    .next ((s.dropPort port).moveFlits p.unacked).flushOwed

/-! ## Requests to peer modules (R355) -/

/-- The engine of a request's number. -/
def engOf (wave : Nat) : Engine :=
  match (wave - 147456) % 4 with
  | 0 => .matrix | 1 => .copy | 2 => .longVector | _ => .route

/-- What a peer's answer brings to a request: the values by lane, or by access for an engine, or a failure (R355). A barrier's word comes
as value 0, and an `arrive.wait` goes on as a wait at the peer. -/
def State.peerAnswered (s : State) (r : Req) (vals : List (Nat × Word)) (failed : Bool) : State :=
  let none_ := s.reqs.length
  let v0 := ((vals.head?.map Prod.snd).getD 0).toNat
  let p := (r.wave - 147456) / 4
  let bytes := vals.filterMap fun v => (r.accs[v.1]?).map fun a => (a.key, v.2.setWidth 8)
  match r.kind with
  | .mem k =>
    if 147456 ≤ r.wave ∧ r.wave < 160000 ∧ engOf r.wave = .copy then
      if !(s.core p).cpRun.any (fun x => x.cmd.id == r.op) then s else s.copyAnswer p (k.ctr == .st) failed r.spot.2 bytes
    else if 147456 ≤ r.wave ∧ r.wave < 160000 ∧ engOf r.wave = .matrix then
      if !(s.core p).mx.load.any (fun x => x.cmd.id == r.op) then s else s.mxAnswer p failed r.spot.2 bytes
    else if 147456 ≤ r.wave ∧ r.wave < 160000 ∧ engOf r.wave = .route ∧ r.op ≠ 0 then s.tableAnswer r.op failed r.spot.2
    else if failed then s.failReq r [] r.lanes false
    else s.finishReq r k vals
  | .await _ => if failed then s.failSync none_ r false else s.endBarrier r.wave r.op v0
  | .waitaddr _ => if failed then s.failSync none_ r false else s.endWait r.wave r.op v0
  | .arrive _ wait =>
    if failed then s.failSync none_ r false
    else
      let s := s.ack r (Bar.of v0)
      if wait then s.send { r with kind := .await (decide (2 ^ 63 ≤ v0)) } else s
  | .engineAdd _ _ _ => if failed then s.failSync none_ r false else s
  | .completion _ => if failed then s.failSync none_ r false else s
  | .ringWrite _ => s
  | _ => if failed then s.failSync none_ r false else s.slotCount r.pcore r.cid .remote false

/-- The answer of peer `m` to request `q`: the request is kept no longer. -/
def State.peerAnswer (s : State) (m q : Nat) (vals : List (Nat × Word)) (failed : Bool) : State :=
  match (lookD s.peers m Peer.reset).out.find? fun o => o.seq == q with
  | none => s
  | some o => (s.onPeer m fun x => { x with out := x.out.filter fun y => y.seq != q }).peerAnswered o.req vals failed

/-- Requests failed one after another. -/
def State.failOuts (s : State) : List PeerOut → State
  | [] => s
  | o :: os => (s.peerAnswered o.req [] true).failOuts os

/-- PEER_RETRANSMIT_TIMEOUT (R355): a request without a response is sent again; after 8 times it and every later one to that peer are
answered with errors, and the target is logged. -/
def execPeerRetransmitTimeout (m : Nat) (s : State) : Out :=
  let x := lookD s.peers m Peer.reset
  match x.out.find? fun o => decide (o.sentAt + s.retryNs * 21 ≤ s.now) with
  | none => .next s
  | some o =>
    if o.resent < 8 then match s.sendFlit m with
      | none => .next s
      | some s => .next (s.onPeer m fun x => { x with
          out := x.out.map fun y => if y.seq = o.seq then { y with resent := y.resent + 1, sentAt := s.now } else y })
    else
      let i := x.out.findIdx fun y => y.seq == o.seq
      let s := s.onPeer m fun x => { x with out := x.out.take i }
      .next ((s.logUnit (dieOf o.req.pcore) m 0 0xFFFF o.req.pcore 6 0x14 o.req.cid false).failOuts (x.out.drop i))

/-! ## Requests of peer modules (R356, R357) -/

/-- Sequence number `q` comes before `x`, modulo 2^32. -/
def seqBefore (q x : Nat) : Bool := decide (2 ^ 31 ≤ (q + 2 ^ 32 - x) % 2 ^ 32)

/-- A load is idempotent. -/
def peerIsLoad : PeerOp → Bool
  | .load _ _ => true
  | _ => false

/-- Operation `q` of peer `m` on a word as a request at its home, which no core of this module makes (R269, R357). -/
def peerReq (m q : Nat) (k : ReqKind) (size key d d2 : Nat) : Req :=
  Req.make (peerBase + m) (peerBase + m) 1536 (homeOf key) q k size [⟨0, key, key, BitVec.ofNat 64 d, BitVec.ofNat 64 d2⟩]

/-- A plain access of peer `m`: of up to 8 bytes as one, of more byte by byte. -/
def peerPlain (m q : Nat) (k : MemKind) (size key d : Nat) : Req :=
  if size ≤ 8 then peerReq m q (.mem k) size key d 0
  else { peerReq m q (.mem k) 1 key 0 0 with
    accs := (List.range size).map fun i => ⟨i, key + i, key + i, BitVec.ofNat 64 (d / 256 ^ i % 256), 0⟩ }

/-- The request at a home that a peer's operation makes. -/
def peerOpReq (m q : Nat) : PeerOp → Req
  | .load key size => peerPlain m q .load size key 0
  | .store key size data => peerPlain m q .store size key data
  | .amo op size key d d2 => peerReq m q (.mem (.amo op)) size key d d2
  | .ldfe key => peerReq m q (.mem .ldfe) 8 key 0 0
  | .ldf key => peerReq m q (.mem .ldf) 8 key 0 0
  | .stfe key d => peerReq m q (.mem .stfe) 8 key d 0
  | .tagSet key full => peerReq m q (.mem (.tagset full)) 8 key 0 0
  | .arrive key n => peerReq m q (.arrive n false) 8 key 0 0
  | .await key ph => peerReq m q (.await ph) 8 key 0 0
  | .join key n => peerReq m q (.join n) 8 key 0 0
  | .leave key n a ph => peerReq m q (.leave n a ph) 8 key 0 0
  | .wake key n => peerReq m q (.wake n) 16 key 0 0

/-- A peer's request sets out for its home, where it passes the write queue and the park slots as any other does (R269, R287, R357). -/
def State.peerExec (s : State) (m q : Nat) (op : PeerOp) : State := s.send (peerOpReq m q op)

/-- Waiting requests of a peer applied in sequence order, up to a gap: every copy of a load is performed, and of any other request the first,
whose further copies are held for its response (R356, R357). -/
def State.peerDrain (s : State) (m : Nat) : Nat → State
  | 0 => s
  | f + 1 =>
    let x := lookD s.peers m Peer.reset
    match x.waiting.filter fun e => e.1 == x.nextIn with
    | [] => s
    | e :: es =>
      let (now, held) := if peerIsLoad e.2 then (e :: es, []) else ([e], es)
      let s := s.onPeer m fun x => { x with
        nextIn := (x.nextIn + 1) % 2 ^ 32, waiting := (x.waiting.filter fun y => y.1 != e.1) ++ held }
      (now.foldl (fun s y => s.peerExec m y.1 y.2) s).peerDrain m f

/-- PEER_REQUEST_ARRIVAL (R356, R357): a retired request is discarded, a completed one answered from its record, a copy of one in
progress held, a load performed again, and a new one applied in sequence order. Loads take none of the 512 records, as R355 counts none of
them; a request for which no record is left is discarded, and its source sends it again: DESIGN CHOICE (log 36). -/
def execPeerRequestArrival (m seq : Nat) (op : PeerOp) (s : State) : Out :=
  let x := lookD s.peers m Peer.reset
  let wait := fun (recs : Arr (Option (List Nat))) => (s.onPeer m fun x => { x with records := recs, waiting := x.waiting ++ [(seq, op)] })
  if seqBefore seq x.low then .next s
  else if peerIsLoad op then
    if seqBefore seq x.nextIn then .next (s.peerExec m seq op) else .next ((wait x.records).peerDrain m (x.waiting.length + 1))
  else match look x.records seq with
    | some (some vals) => .next (s.owe m [(seq, vals)])
    | some none => .next (wait x.records)
    | none =>
      if 512 ≤ x.records.length then .next s
      else .next ((wait (put x.records seq none)).peerDrain m (x.waiting.length + 1))

/-- PEER_ACK (R356): the entries up to the acknowledged number are retired. -/
def execPeerAck (m seq : Nat) (s : State) : Out :=
  let x := lookD s.peers m Peer.reset
  if seqBefore seq x.low then .next s
  else .next (s.onPeer m fun x => { x with
    low := (seq + 1) % 2 ^ 32
    records := x.records.filter fun r => !seqBefore r.1 ((seq + 1) % 2 ^ 32)
    waiting := x.waiting.filter fun r => !seqBefore r.1 ((seq + 1) % 2 ^ 32)
    replies := x.replies.filter fun r => !seqBefore r.1 ((seq + 1) % 2 ^ 32) })

end Sys2Proof.Machine
end

