-- ==== Sys2Proof/Machine/Interrupt.lean ====
section
/-! DEFINITION. Traps and kills as events, the service of page faults, pre-emption, saved contexts, and what of a unit goes from one core to
another (R20-R22, R197, R226, R241, R266, R279, R358-R374, R377-R379). -/

namespace Sys2Proof.Machine

/-! ## Traps, kills and breakpoints (R358-R368) -/

/-- TRAP_ENTRY (R361, R364): a held asynchronous trap is taken at its boundary. -/
def execTrapEntry (w : Nat) (s : State) : Out := .next ((s.settle w).takeHeld w)

/-- A wave that can still issue some time, or is stopped in place. -/
def Wave.resident (w : Wave) : Bool := match w.life with
  | .running => true
  | .halted => true
  | .parked => true
  | .restored => true
  | _ => false

/-- WAVE_KILL (R368): a wave that has not ended is killed with a cause. -/
def execWaveKill (w cause : Nat) (s : State) : Out :=
  match s.wave w with
  | some v => if v.resident then .next (s.kill w cause 0 false) else .next s
  | none => .next s

/-- BREAKPOINT_SET (R358): the debugger sets or clears one of four breakpoints of a wave of a DEBUG consignment. -/
def execBreakpointSet (w i : Nat) (bp : Option Breakpoint) (s : State) : Out :=
  match s.wave w with
  | none => .next s
  | some v => match s.con v.cid with
    | none => .next s
    | some c =>
      if !c.debug ∨ 4 ≤ i then .next s
      else .next (s.setWave w { v with ctl := { v.ctl with bps := match bp with
        | some b => put v.ctl.bps i b
        | none => del v.ctl.bps i } })

/-! ## Page-fault service (R60, R241, R245, R265, R281) -/

/-- A page is present now. -/
def pageThere (s : State) (aspace va : Nat) : Bool := match walk s aspace va with
  | .ok _ _ _ _ => true
  | _ => false

/-- Where a fault lies. -/
def Fault1.at : Fault1 → Nat × Nat
  | .wave _ a v => (a, v)
  | .orphan _ a v => (a, v)
  | .engine _ _ a v => (a, v)
  | .dispatch _ a v => (a, v)

/-- A wave that waits at its word for a page goes on. -/
def Wave.pageIn (w : Wave) (va : Nat) : Wave := match w.park with
  | .pageFault _ v => if v / 4096 = va / 4096 then { w with park := .none } else w
  | _ => w

/-- The page of a wave's fault is present: its word issues again, or its exit goes on; logged lanes are replayed by their own step. -/
def State.waveFound (s : State) (n va : Nat) : State :=
  let s := s.onAny n fun w => w.pageIn va
  match s.wave n with
  | some w => match w.life with
    | .exiting killed => s.finishExit n w killed
    | _ => s.askAgain n
  | none => s

/-- The address and the operation of a barrier wait. -/
def Park.barrierPlace : Park → Option (Nat × Nat)
  | .barrier _ _ va op _ => some (va, op)
  | _ => Option.none

/-- A barrier wait of a wave that nothing at a home stands for any more ends as an error answer when its page is lost (R241, R246). -/
def State.waitLost (s : State) (n va : Nat) (x : Option (Nat × Nat)) : State :=
  match x, s.wave n with
  | some (a, op), some w =>
    if a / 4096 = va / 4096 ∧ !(s.reqs.any fun q => q.wave == n && q.op == op) ∧ !(s.parked.any fun q => q.req.wave == n && q.req.op == op)
    then (s.setWave n (w.onParks fun p => if (p.regOf op).isSome then .none else p)).answerError n w.cid
      (some (syncOp w.spc (w.nextLpc w.queue))) [(0, a)] false true else s
  | _, _ => s

/-- The page of a wave's fault is lost: a waiting word takes an access violation in its own stream, logged lanes are answered as violations,
and an exit goes on without the barriers of that page, which are logged (R241, R245, R281). -/
def State.waveLost (s : State) (n va : Nat) : State :=
  match s.wave n with
  | none => s
  | some w =>
    let waits := match w.park with
      | .pageFault lane v => if v / 4096 = va / 4096 then some lane else none
      | _ => none
    let s := (s.setWave n { w with oplog := [] }).failLogged n w.cid va w.oplog
    match w.life with
    | .exiting killed => match s.con w.cid with
      | some c =>
        let gone := fun (m : Member) => m.addr.toNat / 4096 == va / 4096 && place s c (coreOfWave n) m.addr.toNat .write == .fault
        let s := sendLeaves s n w c (w.members.filter gone)
        match s.wave n with
        | some v => s.finishExit n { v with members := v.members.filter fun m => !gone m } killed
        | none => s
      | none => s
    | _ => match waits with
      | some true => (s.onWave n fun w => w.pageIn va).trapL n 4 (BitVec.ofNat 64 va) 0
      | some false => (s.onWave n fun w => w.pageIn va).trapS n 4 (BitVec.ofNat 64 va) 0 0
      | none => (s.waitLost n va w.park.barrierPlace).waitLost n va w.under.barrierPlace

/-- A route engine's `rt.open` at the head of the inbox ends when its page is lost (R241, R331). -/
def State.lostOpen (s : State) (p va : Nat) : State :=
  match (s.core p).rt.run, (s.core p).rt.inbox with
  | none, c :: cs => match c.body, s.con c.cid with
    | .rtOpen _ o, some k => match engCells s p c.cid k o.ctr.toNat 0 (List.replicate 16 0) with
      | .fault v => if v / 4096 = va / 4096 then ((s.onRt p fun r => { r with inbox := cs }).failCmd c v).drainRt p 17 else s
      | _ => s
    | _, _ => s
  | _, _ => s

/-- Late returns that wait for a lost page are dropped with a log entry (R334). -/
def State.lostReturns (s : State) (p va : Nat) : Nat → State
  | 0 => s
  | i + 1 =>
    let s := s.lostReturns p va i
    let k := s.routeMsgs.length - 1 - i
    match s.routeMsgs[k]? with
    | none => s
    | some m =>
      let x := s.table p (tagFields m.tag).1
      if m.back ∧ s.msgCore m = p ∧ (s.tagRank p m.tag).isNone
          ∧ reachVa x.desc.ctr.toNat 12 / 4096 = va / 4096
      then ((s.dropMsg k m).logUnit (dieOf p) (reachVa x.desc.ctr.toNat 12) 0 x.lcore p 4 0x10 x.owner true).flagError x.owner
      else s

/-- An engine goes on after the service of its fault. -/
def State.engineServed (s : State) (p : Nat) (e : Engine) (va : Nat) (present : Bool) : State :=
  match e with
  | .copy => s.onCopy p fun r => { r with suspended := false, failedAt := if present then r.failedAt else some (r.next, va) }
  | .matrix => s.onMx p fun m => { m with load := m.load.map fun l =>
      { l with suspended := false, failed := if present then l.failed else some va } }
  | .route => if present then s.routeFound p else ((s.routeLost p va).lostOpen p va).lostReturns p va s.routeMsgs.length
  | .longVector => s

/-- A dispatch, or the arrive on a done barrier, whose page is lost (R60, R76); a gang's other members have still to be read. -/
def State.dispatchLost (s : State) (cid va : Nat) : State :=
  match s.con cid with
  | none => s
  | some c =>
    let t := (s.logUnit 0 va 0 0xFFFF 0 7 4 cid true).flagError cid
    if c.stage = .granted then
      let gs := s.gangOf cid c
      (if gs.any (fun e => e.1 != cid && e.2.stage == .granted) then t else t.passHead c gs).failCons cid 9
    else if c.stage = .placed then t.onCon cid fun c => { c with stage := .completed }
    else s

/-- PAGE_FAULT_SERVICE (R241): the service cores have made the page of fault `k` present, or declare it unrecoverable. A saved wave's
fault is declared once the wave is back. -/
def execPageFaultService (k : Nat) (present : Bool) (s : State) : Out :=
  match s.faults[k]? with
  | none => .next s
  | some f =>
    if present && !pageThere s f.at.1 f.at.2 then .next s
    else
      let t := { s with faults := s.faults.eraseIdx k }
      match f with
      | .wave n _ va =>
        if present then .next (t.waveFound n va)
        else if ctxBase ≤ n then .next s
        else .next (t.waveLost n va)
      | .orphan op _ va => .next (if present then t else t.orphanLost op va)
      | .engine p e _ va => .next (t.engineServed p e va present)
      | .dispatch cid _ va => if present then .next t else .next (t.dispatchLost cid va)

/-! ## Wave numbers that change (R371, R373, R377) -/

/-- One number in place of another. -/
def swapNo (a b x : Nat) : Nat := if x = a then b else x

/-- The wave numbers that a wave holds; a pipe's end whose partner has ended names nobody. -/
def Wave.renumber (f : Nat → Nat) (w : Wave) : Wave :=
  let ring := fun (e : Nat × Ring) => (e.1, { e.2 with pipe := match e.2.pipe with
      | .producer m q => PipeEnd.producer (if q = 16 then m else f m) q
      | .consumer m q => .consumer (if q = 16 then m else f m) q
      | .none => .none })
  { w with
    rings := w.rings.map ring
    rings0 := w.rings0.map ring
    convoy := { w.convoy with width := w.convoy.width.map fun x => (f x.1, x.2) }
    park := match w.park with
      | .rdvLead tag dl ws => .rdvLead tag dl (ws.map f)
      | x => x }

/-- A command's wave. -/
def Cmd.renumber (f : Nat → Nat) (c : Cmd) : Cmd := { c with wave := f c.wave }

/-- A channel's wave numbers. -/
def ChanState.renumber (f : Nat → Nat) (c : ChanState) : ChanState :=
  { c with lead := c.lead.map f, splits := c.splits.map fun x => { x with wave := f x.wave }, recAt := 0 }

/-- A matrix engine's wave numbers. -/
def MxEngine.renumber (f : Nat → Nat) (m : MxEngine) : MxEngine :=
  { m with
    inbox := m.inbox.map (Cmd.renumber f)
    pass := m.pass.map fun r => { r with cmd := r.cmd.renumber f }
    held := m.held.map fun h => { h with cmd := h.cmd.renumber f }
    load := m.load.map fun l => { l with cmd := l.cmd.renumber f } }

/-- A route engine's wave numbers. -/
def RtEngine.renumber (f : Nat → Nat) (r : RtEngine) : RtEngine :=
  { r with
    inbox := r.inbox.map (Cmd.renumber f)
    run := r.run.map fun x => { x with cmd := x.cmd.renumber f }
    opening := r.opening.map (Cmd.renumber f)
    tables := r.tables.map fun t => (t.1, { t.2 with wave := f t.2.wave }) }

/-- A core's wave numbers. -/
def Core.renumber (f : Nat → Nat) (c : Core) : Core :=
  { c with
    chan := c.chan.renumber f
    cpIn := c.cpIn.map (Cmd.renumber f)
    cpRun := c.cpRun.map fun r => { r with cmd := r.cmd.renumber f }
    lvIn := c.lvIn.map (Cmd.renumber f)
    lvRun := c.lvRun.map fun r => { r with cmd := r.cmd.renumber f }
    mx := c.mx.renumber f
    rt := c.rt.renumber f
    preempt := c.preempt.map fun x => { x with waves := x.waves.map f } }

/-- A context's wave numbers. -/
def Context.renumber (f : Nat → Nat) (x : Context) : Context :=
  { x with
    wave := x.wave.renumber f
    cmds := x.cmds.map (Cmd.renumber f)
    held := x.held.map fun h => { h with cmd := h.cmd.renumber f }
    chan := x.chan.map (ChanState.renumber f) }

/-- The wave of a fault. -/
def Fault1.renumber (f : Nat → Nat) : Fault1 → Fault1
  | .wave n a v => .wave (f n) a v
  | x => x

/-- Every mention of wave `a` becomes one of `b`; the wave itself is moved by its caller. -/
def State.renumber (s : State) (a b : Nat) : State :=
  let f := swapNo a b
  { s with
    reqs := s.reqs.map fun r => { r with wave := f r.wave }
    resps := s.resps.map fun r => { r with wave := f r.wave }
    parked := s.parked.map fun q => { q with req := { q.req with wave := f q.req.wave } }
    nodes := s.nodes.map fun x => { x with wave := f x.wave }
    faults := s.faults.map (Fault1.renumber f)
    offers := s.offers.map fun o => { o with wave := f o.wave }
    held := s.held.map (Cmd.renumber f)
    waves := s.waves.map fun e => (e.1, e.2.renumber f)
    cores := s.cores.map fun e => (e.1, e.2.renumber f)
    ctxs := s.ctxs.map fun e => (e.1, e.2.renumber f)
    moves := s.moves.map fun m => { m with stopped := m.stopped.map f, map := m.map.map fun e => (f e.1, e.2) } }

/-! ## Safe points (R20-R22) -/

/-- The live-register mask record of a wave that stands at a safe point with an empty lane queue and `ld`, `sf` and `xc` at zero (R22). -/
def State.safeRecord (s : State) (c : Cons) (w : Wave) : Option Nat :=
  let num := fun o n => vNum s c.aspace (c.obj.base + o) n
  let t := c.obj.sect 6
  if w.lbusy ≠ 0 ∨ w.ops.any (fun o => o.ctr == .ld || o.ctr == .sf || o.ctr == .xc) then none
  else (((List.range (t.2 / 8)).map fun i => t.1 + 8 * i).find? fun o => va57 (c.obj.scalarBase + num o 4) == w.spc).map fun o =>
    num ((c.obj.sect 7).1 + 96 * num (o + 4) 4) 96

/-- The registers marked live by a record; the others read as zero (R21, R22). -/
def Regs.keep (r : Regs) (mask : Nat) : Regs :=
  { r with
    v := r.v.filter fun e => mask.testBit (e.1 / 64)
    s := r.s.filter fun e => mask.testBit (320 + e.1)
    p := r.p.filter fun e => mask.testBit (704 + e.1) }

/-! ## Stopping a wave (R279, R283, R370) -/

/-- A barrier or address wait given up (R279, R283): a barrier's will be asked for again, and `waitaddr` returns 0. -/
def State.giveUp (s : State) (n : Nat) (x : Park) : State :=
  match x.barrierPlace, x.addressAt with
  | some (_, op), _ =>
    { s with
      parked := s.parked.filter fun q => !(q.req.wave == n && q.req.op == op)
      reqs := (s.reqs.filter fun r => !(r.wave == n && r.op == op && match r.kind with
        | .await _ => true
        | _ => false)).map fun r => if r.wave = n ∧ r.op = op then { r with kind := match r.kind with
          | .arrive k _ => .arrive k false
          | x => x } else r }
  | none, some (key, op, _) => (({ s with reqs := s.reqs.filter fun r => !(r.wave == n && r.op == op) }).unlink n key).endWait n op 0
  | none, none => s

/-- An exchange offer that has not paired as it was before it set out. -/
def Offer.withdrawn (o : Offer) : Offer := { o with arrived := false, refusals := 0, ticket := none, retryAt := 0 }

/-- The unpaired exchange offers of a wave leave their pairing slots; they set out again when the wave resumes (R351). -/
def State.withdrawOffers (s : State) (n : Nat) : State :=
  let mine := fun (o : Offer) => o.wave == n && o.pair.isNone
  let s := (s.offers.filter mine).foldl (fun s o => s.endTicket (resPairs o.band) o.ticket) s
  { s with offers := s.offers.map fun o => if mine o then o.withdrawn else o }

/-- The live registers of the safe point at which wave `n` stands, where it meets the conditions of R22 now. -/
def State.safeNow (s : State) (n : Nat) : Option Nat := (s.wave n).bind fun w => (s.con w.cid).bind fun c => s.safeRecord c w

/-- A wave stops at its next boundary in both streams, where it may meet the conditions of R22: a trap that falls in the same cycle is taken
first; then its results land, its waits are given up and its unpaired offers are withdrawn (R351, R370). -/
def State.haltWave (s : State) (n : Nat) : State :=
  let s := (s.settle n).takeHeld n
  let safe := s.safeNow n
  let s := s.drain n
  match s.wave n with
  | none => s
  | some w =>
    if !w.resident then s
    else (((s.giveUp n w.park).giveUp n w.under).withdrawOffers n).onWave n fun w => { w with
      safeAt := safe
      life := if w.life = .parked then .parked else .halted
      sched := { w.sched with active := false } }

/-! ## Engine operations of a saved wave (R197, R226, R266) -/

/-- What a plane reload needs: its load's number, tag, format, NORM, address and K. -/
structure Reload where
  seq  : Nat
  tag  : Nat
  fmt  : Nat
  norm : Bool
  addr : Nat
  k    : Nat

/-- The plane that an operation names, installed or still to be loaded. -/
def MxEngine.reloadFor (m : MxEngine) (c : Cmd) : Option Reload :=
  match c.body with
  | .mxQuarter _ tag _ _ _ _ _ _ _ _ _ => match m.uses c with
    | .plane p => some ⟨p.seq, p.tag, p.fmt, p.norm, p.addr, p.k⟩
    | .missing => none
    | .pending =>
      let ls := (m.inbox ++ (m.load.map MxLoad.cmd).toList).filter (loadsBefore c.cid tag c.seq)
      (ls.foldl (fun (b : Option Cmd) x => match b with
        | some y => if y.seq < x.seq then some x else b
        | none => some x) none).bind fun l => match l.body with
          | .mxLoad tag fmt norm addr k => some ⟨l.seq, tag, fmt, norm, addr, k⟩
          | _ => none
  | _ => none

/-- A command put in its place by its number among the arrivals. -/
def insertCmd (c : Cmd) : List Cmd → List Cmd
  | [] => [c]
  | x :: xs => if c.seq < x.seq then c :: x :: xs else x :: insertCmd c xs

/-- The flags that rows already written of a command have raised: its last row in the pass carries them (R149). -/
def doneFlags (rs : List PassRow) (id : Nat) : Flags :=
  rs.foldl (fun f r => if r.cmd.id = id ∧ r.entered.isNone then f ||| r.flags else f) 0

/-- The unfinished quarter operations of a pass, each at its first row not entered, with the flags of the rows done. -/
def passCmds : List PassRow → List Cmd → List Cmd
  | [], got => got
  | r :: rs, got =>
    if r.entered.isSome || got.any (fun c => c.id == r.cmd.id) then passCmds rs got
    else passCmds rs (got ++ [{ r.cmd with done := r.row, flags := doneFlags (r :: rs) r.cmd.id }])

/-- Matrix commands in order, each operation after a reload of the plane it names, once for each plane (R226); `id` numbers the
reloads. -/
def withReloads (m : MxEngine) : Nat → List (Nat × Nat) → List Cmd → List Cmd
  | _, _, [] => []
  | id, seen, c :: cs =>
    match c.body with
    | .mxLoad tag _ _ _ _ => { c with done := 0 } :: withReloads m id ((tag, c.seq) :: seen) cs
    | _ => match m.reloadFor c with
      | some r =>
        if (seen.find? fun e => e.1 == r.tag) = some (r.tag, r.seq) then c :: withReloads m id seen cs
        else { c with id := id, reply := .none, body := .mxLoad r.tag r.fmt r.norm r.addr r.k, done := 0, flags := 0, reload := true }
          :: c :: withReloads m (id + 1) ((r.tag, r.seq) :: seen) cs
      | none => c :: withReloads m id seen cs

/-- Plane loads of a matrix engine that have been saved with the waves that issued them (R226). -/
def State.savedLoads (s : State) (p : Nat) : List Cmd :=
  (s.ctxs.flatMap fun e => e.2.cmds).filter fun c => c.pcore == p && !c.reload && match c.body with
    | .mxLoad _ _ _ _ _ => true
    | _ => false

/-- The command has left the engines of core `p` for a context or another core. -/
def State.dropCmds (s : State) (p : Nat) (pick own : Cmd → Bool) (copies : Bool) : State :=
  let gone := fun (c : Cmd) => !pick c
  let c := s.core p
  let cut := copies && c.cpRun.any fun r => pick r.cmd
  let load := c.mx.load.any fun l => pick l.cmd
  { s.onCore p fun c => { c with
      cpIn := c.cpIn.filter gone
      lvIn := c.lvIn.filter gone
      cpRun := if cut then none else c.cpRun
      mx := { c.mx with
        inbox := c.mx.inbox.filter gone
        pass := c.mx.pass.filter fun r => !(r.entered.isNone && pick r.cmd)
        held := c.mx.held.filter fun h => !pick h.cmd
        load := if load then none else c.mx.load } } with
    held := s.held.filter fun c => !own c
    faults := s.faults.filter fun f => match f with
      | .engine q .copy _ _ => !(q == p && cut)
      | .engine q .matrix _ _ => !(q == p && load)
      | _ => true }

/-- Commands that have not entered an inbox, numbered after all that have. -/
def numberFrom (k : Nat) : List Cmd → List Cmd
  | [] => []
  | c :: cs => { c with seq := k } :: numberFrom (k + 1) cs

/-- The engine commands of core `p` that are kept for a resume: matrix operations and loads, commands in the inboxes, with `copies`
the running copy at its first chunk not committed, and those that `own` names of the ones that wait for an inbox. The others have to be
in an inbox again before the wave resumes (R377). -/
def State.keptCmds (s : State) (p : Nat) (pick own : Cmd → Bool) (copies : Bool) : List Cmd :=
  let c := s.core p
  let late := numberFrom s.nextId (s.held.filter own)
  let lateMx := late.filter fun x => x.eng == .matrix
  let moved := fun (x : Cmd) => { x with moved := true }
  let mx := ((((c.mx.load.map MxLoad.cmd).toList ++ passCmds c.mx.pass [] ++ c.mx.inbox).filter pick).foldl (fun l x => insertCmd x l) []).map moved
  let cp := match c.cpRun with
    | some r => if copies && pick r.cmd then [{ r.cmd with done := r.committed }] else []
    | none => []
  withReloads { c.mx with inbox := s.savedLoads p ++ c.mx.inbox ++ lateMx } s.nextId [] (mx ++ lateMx)
    ++ (cp ++ c.cpIn.filter pick ++ c.lvIn.filter pick).map moved ++ late.filter fun x => x.eng != .matrix

/-- The reloads among commands that are kept count as commands of their consignment's slot. -/
def State.countReloads (s : State) (lo : Nat) : List Cmd → State
  | [] => s
  | c :: cs => (if lo ≤ c.id then s.slotCount c.from_ c.cid .cmds true else s).countReloads lo cs

/-- Commands to logical core `l` that go with wave `n` of it: its own, and those of its consignment's waves on other logical cores. -/
def goesWith (n cid l : Nat) (c : Cmd) : Bool := c.cid == cid && c.tcore == l && (c.wave == n || c.lcore != l)

/-! ## Saving a wave (R370-R374) -/

/-- A stopped wave's drain is over: its accesses to on-package homes have been performed and their answers have landed (R370, R374), the
rows that entered the aligner are written, no chunk is half committed, and no long-vector command runs. -/
def State.drained (s : State) (n : Nat) (w : Wave) (copies : Bool) : Bool :=
  let p := coreOfWave n
  let c := s.core p
  let pick := goesWith n w.cid w.lcore
  !(s.reqs.any fun r => r.wave == n && decide (r.home < 4000)) && !(s.resps.any fun r => r.wave == n)
    && !(c.mx.pass.any fun r => r.entered.isSome && pick r.cmd)
    && (!copies || !(c.cpRun.any fun r => r.acks != 0 && pick r.cmd) && !(c.lvRun.any fun r => pick r.cmd))

/-- The granules leased to a wave. -/
def Core.granules (c : Core) (n : Nat) : List Nat := (c.leases.filter fun l => l.kind == 4 && l.wave == n).map Lease.row

/-- A storage key in one of a core's granules. -/
def inGranules (p : Nat) (gs : List Nat) (k : Nat) : Bool := keyIsSpad k && keyCore k == p && gs.contains (keyOff k / 4096)

/-- Wave `n` saved as a context: its registers, or the live ones where it stopped at a safe point under R22; its granules; its engine operations; for a lead its
channel. Its rows are free, an unpaired exchange offer is withdrawn until it resumes, and the context has the wave's place everywhere
(R22, R351, R372, R373). -/
def State.saveWave (s : State) (n : Nat) (copies frozen : Bool) : State :=
  match s.wave n with
  | none => s
  | some w => match s.con w.cid with
    | none => s
    | some _ =>
      let p := coreOfWave n
      let k := s.core p
      let safe := w.safeAt
      let pick := goesWith n w.cid w.lcore
      let own := fun (c : Cmd) => c.cid == w.cid && c.wave == n && c.pcore == p && c.tcore == w.lcore
      let cmds := s.keptCmds p pick own copies
      let gs := k.granules n
      let leads := k.chan.lead == some n
      let id := s.nextId + cmds.length
      let ctx : Context := {
        wave := { w with regs := match safe with
          | some m => w.regs.keep m
          | none => w.regs }
        fromW := n
        whole := safe.isNone
        granules := gs
        bytes := (s.mem.filter fun e => inGranules p gs e.1).map fun e => (keyOff e.1, e.2)
        tags := (s.full.filter fun x => inGranules p gs (8 * x)).map fun x => keyOff (8 * x)
        cmds := cmds
        held := k.mx.held.filter fun h => pick h.cmd
        answers := []
        chan := if leads then some k.chan else none
        frozen := frozen }
      let s := ((s.withdrawOffers n).countReloads s.nextId cmds).dropCmds p pick own copies
      let s := s.onCore p fun x => { x with
        leases := x.leases.filter fun l => l.wave != n
        chan := if leads then ⟨none, [], 0, x.chan.gen, 0⟩ else x.chan }
      ({ s with nextId := id + 1, waves := del s.waves n, ctxs := put s.ctxs id ctx }).renumber n (ctxBase + id)

/-! ## Convoys (R372) -/

/-- Waves of a list with the convoys they belong to. -/
def State.withConvoys (s : State) (ns : List Nat) : List Nat :=
  let ws := ns.filterMap fun n => s.wave n
  (s.waves.filter fun e => e.2.resident && (ns.contains e.1 || ws.any fun w => sameConvoy w e.2)).map Prod.fst

/-! ## Pre-emption requests (R369-R372) -/

/-- A wave of core `p` is named by a request from a source in progress. -/
def State.namedBy (s : State) (p : Nat) (src : PreemptSource) (n : Nat) : Bool :=
  (s.core p).preempt.any fun x => x.source == src && x.waves.contains n

/-- Waves named for pre-emption on core `p`: each request has its own time and its own source, and a wave that another source has named is
named by both (R369, R370). -/
def State.nameOn (s : State) (p : Nat) (src : PreemptSource) (cids ns : List Nat) : State :=
  let mine := ns.filter fun n => coreOfWave n == p && !s.namedBy p src n
  if mine.isEmpty ∨ s.rails ≠ .on then s
  else s.onCore p fun c => { c with preempt := c.preempt ++ [⟨cids, mine, src, s.now⟩] }

/-- Waves and their convoys named for pre-emption. -/
def State.nameWaves (s : State) (src : PreemptSource) (cids ns : List Nat) : State :=
  let all := s.withConvoys ns
  ((all.map coreOfWave).dedup).foldl (fun s p => s.nameOn p src cids all) s

/-- PREEMPTION_REQUEST (R369, R370, R372): every wave of the consignments on the core is named, with its convoy; the debugger names DEBUG
consignments only. -/
def execPreemptionRequest (pcore : Nat) (cids : List Nat) (source : PreemptSource) (s : State) : Out :=
  let ok := fun cid => cids.contains cid && (source != .debugger || (s.con cid).any Cons.debug)
  .next (s.nameWaves source cids ((s.waves.filter fun e => coreOfWave e.1 == pcore && e.2.resident && ok e.2.cid).map Prod.fst))

/-- A unit of migration that wave `n` belongs to. -/
def State.moveOf (s : State) (w : Wave) : Option Migration := s.moves.find? fun m => m.cid == w.cid && m.lcore == w.lcore

/-- A wave counted as stopped for its unit's move. -/
def State.countStop (s : State) (n : Nat) (w : Wave) : State :=
  { s with moves := s.moves.map fun m =>
      if m.cid = w.cid ∧ m.lcore = w.lcore ∧ !m.stopped.contains n then { m with stopped := m.stopped ++ [n] } else m }

/-- The lead of the convoy that a wave follows. -/
def State.leadOf (s : State) (w : Wave) : Option Nat := match w.convoy.width with
  | some (l, _, _) => some l
  | none => w.channel.bind fun ch => (s.chanCore w.cid ch).bind fun p => (s.core p).chan.lead

/-- The lead of a wave's convoy has still to stop for the same pre-emption: it stops first (R372). -/
def State.leadRuns (s : State) (n : Nat) (w : Wave) : Bool := (s.leadOf w).any fun l =>
  l != n && (s.wave l).any (fun v => v.life == .running || v.life == .restored)
    && (s.core (coreOfWave l)).preempt.any fun x => x.waves.contains l

/-- What a named wave's pre-emption comes to: whether it is dealt with (R369). -/
def State.finishPreempt (s : State) (src : PreemptSource) (n : Nat) : State × Bool :=
  match s.wave n with
  | none => (s, true)
  | some w => match w.life with
    | .clearing | .running | .restored => (s, false)
    | .halted | .parked => (match src with
      | .debugger => (s, true)
      | .migration =>
        if (s.moveOf w).isSome then (s.countStop n w, true)
        else if w.life = .halted then ((s.setWave n { w with life := .restored }).askAgain n, true) else (s, true)
      | _ => if s.drained n w true then (s.saveWave n true false, true) else (s, false))
    | _ => (s, true)

/-- Named waves dealt with one after another; those that remain. -/
def State.finishAll (s : State) (src : PreemptSource) : List Nat → State × List Nat
  | [] => (s, [])
  | n :: ns =>
    let r := s.finishPreempt src n
    let t := r.1.finishAll src ns
    (t.1, if r.2 then t.2 else n :: t.2)

/-- A named wave stops, unless its convoy's lead has still to (R370, R372). -/
def State.stopNamed (s : State) (n : Nat) : State := match s.wave n with
  | some w =>
    if (w.life = .running ∨ w.life = .parked ∨ w.life = .restored) ∧ !s.leadRuns n w then s.haltWave n else s
  | none => s

/-- The waves of each request that `pick` names are dealt with where they can be; the requests with waves that remain. -/
def State.finishReqs (s : State) (pick : Preempt → List Nat) : List Preempt → State × List Preempt
  | [] => (s, [])
  | x :: xs =>
    let r := s.finishAll x.source (pick x)
    let t := r.1.finishReqs pick xs
    let left := x.waves.filter fun n => r.2.contains n || !(pick x).contains n
    (t.1, if left.isEmpty then t.2 else { x with waves := left } :: t.2)

/-- The waves that `pick` names of each request of core `p` stop, leads first, and those whose drain is over are dealt with (R369-R372). -/
def State.runPreempt (s : State) (p : Nat) (pick : Preempt → List Nat) : State :=
  let xs := (s.core p).preempt
  let ns := xs.flatMap pick
  let leads := ns.filter fun n => (s.wave n).any (s.isLead n)
  let s := (leads ++ ns).foldl State.stopNamed s
  let r := s.finishReqs pick xs
  (r.1.onCore p fun c => { c with preempt := r.2 }).resumeRestored

/-- PREEMPT_STOP_DEADLINE (R370): 2 µs after its request every named wave that has not stopped stops; each is saved, or stays halted, when
its drain is over. -/
def execPreemptStopDeadline (pcore : Nat) (s : State) : Out :=
  .next (s.runPreempt pcore fun x => if x.since + 42000 ≤ s.now then x.waves else [])

/-- A named wave that stands at a safe point stops there, before the 2 µs are over (R22, R370). -/
def State.safeStop (s : State) (n : Nat) : State :=
  let p := coreOfWave n
  if (s.core p).preempt.any (fun x => x.waves.contains n) ∧ (s.wave n).any (fun w => w.life == .running && !s.leadRuns n w)
      ∧ (s.safeNow n).isSome
  then s.runPreempt p fun x => x.waves.filter fun m => m == n else s

/-- LATE_RESPONSE_TO_CONTEXT (R371): an answer to a saved wave is kept with its context. -/
def execLateResponseToContext (k : Nat) (s : State) : Out :=
  match s.resps[k]? with
  | none => .next s
  | some r =>
    if r.wave < ctxBase ∨ r.ack.isSome then .next s
    else match look s.ctxs (r.wave - ctxBase) with
      | none => .next { s with resps := s.resps.eraseIdx k }
      | some x => .next { s with
          resps := s.resps.eraseIdx k
          ctxs := put s.ctxs (r.wave - ctxBase) { x with answers := x.answers ++ [r] } }

/-! ## Moving scratchpad keys (R374, R377) -/

/-- A key in granules of core `a` becomes the same offset of core `b`. -/
def moveKey (a b : Nat) (gs : List Nat) (k : Nat) : Nat := if inGranules a gs k then spadKey b (keyOff k) else k

/-- The key of a result's slot. -/
def OpDest.moveKey (f : Nat → Nat) : OpDest → OpDest
  | .slot k => .slot (f k)
  | .pipe k st => .pipe (f k) st
  | .vals (.spad k fld vs) => .vals (.spad (f k) fld vs)
  | d => d

/-- The keys that a wave's waits and results in flight hold. -/
def Wave.moveKeys (f : Nat → Nat) (w : Wave) : Wave :=
  { w with
    park := match w.park with
      | .address d key node op t => .address d (f key) node op t
      | x => x
    ops := w.ops.map fun o => { o with dest := o.dest.moveKey f } }

/-- Requests that wait at the moved words, the waits and results of waves for them, and the chunks fetched for the moved scratchpad go with
it. -/
def State.moveKeys (s : State) (cid a b : Nat) (gs : List Nat) : State :=
  let f := moveKey a b gs
  { s with
    parked := s.parked.map fun q => { q with req := { q.req with
      home := if q.req.accs.any (fun x => f x.key != x.key) then 1000 + b else q.req.home
      accs := q.req.accs.map fun x => { x with key := f x.key } } }
    nodes := s.nodes.map fun x => { x with key := f x.key }
    waves := s.waves.map fun e => (e.1, e.2.moveKeys f)
    ctxs := s.ctxs.map fun e => (e.1, { e.2 with wave := e.2.wave.moveKeys f })
    cores := s.cores.map fun e => (e.1, { e.2 with cpRun := e.2.cpRun.map fun r =>
      if r.cmd.cid = cid then { r with fetched := r.fetched.map fun c =>
        { c with bytes := c.bytes.map fun (x : Host.Cell) => (f x.1, x.2) } } else r }) }

/-- The consignment's table maps a logical core to another physical core; the old one keeps a stub for the granules that have moved, and commands
on their way to the logical core go to the new one (R377, R378). -/
def State.remap (s : State) (cid l a b : Nat) (gs : List Nat) : State :=
  let holders := (s.cores.filter fun e => e.2.slots.any fun x => x.cid == cid).map Prod.fst
  let s := s.onCon cid fun c => { c with lct := put c.lct l (some b) }
  let s := s.onCore a fun c => { c with stubs := c.stubs ++ [⟨cid, l, b, holders, s.nextId, gs⟩] }
  { s with held := s.held.map fun c => if c.cid = cid ∧ c.tcore = l ∧ c.pcore = a then { c with pcore := b } else c }

/-! ## Route tables and channels that move (R379) -/

/-- A unit's route tables and channel halves find their places free on core `b` (R379). -/
def routeRoom (a b : Core) (cid l : Nat) : Bool :=
  a.rt.tables.all (fun t => t.2.owner != cid || t.2.lcore != l || match look b.rt.tables t.1 with
    | some x => x.state == .free || x.state == .closed
    | none => true)
  && (a.rt.chans.all fun e => match look b.rt.chans e.1 with
    | none => true
    | some x => !((e.2.send.any fun h => h.owner == cid && h.lcore == l) && x.send.isSome)
        && !((e.2.recv.any fun h => h.owner == cid && h.lcore == l) && x.recv.isSome))
  && !(a.rt.run.any (fun r => r.cmd.cid == cid && r.cmd.tcore == l) && b.rt.run.isSome)
  && !(a.rt.opening.any fun c => c.cid == cid && c.tcore == l)

/-- A channel entry's halves of a unit, and the others; what was seen of it at the start of a cycle is of the old core's clock. -/
def Channel.split (x : Channel) (cid l : Nat) : Channel × Channel :=
  let send := x.send.filter fun h => h.owner == cid && h.lcore == l
  let recv := x.recv.filter fun h => h.owner == cid && h.lcore == l
  let goes := send.isSome || recv.isSome
  ({ x with send := send, recv := recv, unbind := (if goes then x.unbind else none), was := none },
    { x with send := x.send.filter (fun h => !(h.owner == cid && h.lcore == l)), recv := x.recv.filter fun h => !(h.owner == cid && h.lcore == l),
             unbind := if goes then none else x.unbind })

/-- A channel entry with halves added. -/
def Channel.join (x y : Channel) : Channel :=
  { y with send := y.send.or x.send, recv := y.recv.or x.recv, was := none }

/-- The route tables and channel halves of a consignment's logical core, and its running and waiting route commands, go to core `b`
(R379). -/
def State.moveRoutes (s : State) (cid l a b : Nat) : State :=
  let x := (s.core a).rt
  let mine := fun (c : Cmd) => c.cid == cid && c.tcore == l
  let goes := x.chans.map fun e => (e.1, (e.2.split cid l).1)
  let rest := (x.chans.map fun e => (e.1, (e.2.split cid l).2)).filter fun e => e.2.bound
  let tabs := x.tables.filter fun t => t.2.owner == cid && t.2.lcore == l
  let runs := x.run.filter fun r => mine r.cmd
  let s := s.onRt a fun r => { r with
    inbox := r.inbox.filter fun c => !mine c
    run := if runs.isSome then none else r.run
    chans := rest
    tables := r.tables.filter fun t => !(t.2.owner == cid && t.2.lcore == l) }
  let s := s.onRt b fun r => { r with
    run := r.run.or (runs.map fun u => { u with cmd := { u.cmd with pcore := b } })
    chans := (goes.filter fun e => e.2.bound).foldl (fun l e => put l e.1 (match look l e.1 with
      | some y => y.join e.2
      | none => e.2)) r.chans
    tables := tabs.foldl (fun l t => put l t.1 { t.2 with timedAt := none }) r.tables }
  let faults := s.faults.map fun (f : Fault1) => match f with
    | .engine p .route as va => if p = a ∧ tabs.any (fun t => t.2.suspended) then .engine b .route as va else f
    | f => f
  let ofTab := fun (m : RouteMsg) => !m.back && tabs.any fun t => t.1 == (tagFields m.tag).1 && t.2.gen == (tagFields m.tag).2.2.2.2
  let msgs := s.routeMsgs.map fun (m : RouteMsg) => if m.cid = cid ∧ m.fromP = a ∧ ofTab m then { m with fromP := b, retryAt := 0 } else m
  let cmds := (x.inbox.filter mine).map fun (c : Cmd) => { c with pcore := b, moved := true }
  { s with faults := faults, routeMsgs := msgs, held := s.held ++ cmds }

/-! ## Restoring (R374) -/

/-- Granules leased at given numbers. -/
def takeAt (ls : List Lease) (gs : List Nat) (n cid : Nat) : Option (List Lease) :=
  if gs.all (rowFree ls 4) then some (ls ++ gs.map fun g => ⟨4, g, n, cid, false⟩) else none

/-- Rows for a saved or moving wave on partition `part` of core `q`: the leases afterwards and its new number. -/
def planAt (ls : List Lease) (q part cid : Nat) (f : Footprint) (gs : List Nat) : Option (List Lease × Nat) :=
  match ((List.range 24).map fun i => 24 * part + i).find? (rowFree ls 0) with
  | none => none
  | some slot =>
    let n := 96 * q + slot
    ((((takeRows (ls ++ [⟨0, slot, n, cid, false⟩]) 1 (32 * part) 32 ((f.regs + f.acc) / 16) n cid).bind fun ls =>
      takeRows ls 2 (64 * part) 64 (f.sregs / 32) n cid).bind fun ls =>
      takeRows ls 3 (32 * part) 32 (f.priv / 16) n cid).bind fun ls => takeAt ls gs n cid).map fun ls => (ls, n)

/-- Rows on the wave's own partition, or for a wave that is in no width convoy on any. -/
def planBack (ls : List Lease) (q old : Nat) (w : Wave) (gs : List Nat) : Option (List Lease × Nat) :=
  let parts := partOfWave old :: if w.convoy.width.isSome then [] else (List.range 4).filter fun i => i != partOfWave old
  parts.findSome? fun part => planAt ls q part w.cid w.fp gs

/-- A restored wave's scheduling and convoy times begin anew on its new core's clock; the published instructions that were on their way to it have
come to their end (log 38). -/
def Wave.rebase (w : Wave) (clk : Nat) : Wave :=
  { w with
    sched := { w.sched with
      active := false, entered := clk, waiting := clk, lastS := clk, lastL := clk, readyS := clk + 1, readyL := clk + 1
      holdS := .none, holdL := .none, spill := none }
    fences := w.fences.map fun f => { f with rows := 0 }
    rings0 := []
    ringsAt := none
    convoy := { w.convoy with
      lastPub := none
      hops := w.convoy.hops.map fun q => { q with due := clk }
      leaving := w.convoy.leaving.map fun x => (x.1, x.2.1, clk)
      arriving := w.convoy.arriving.map fun x => (x.1, x.2.1, clk) } }

/-- The skews of wave `n`'s convoy fixed again from the physical cores on which its waves lie now (R96, R372). -/
def State.reskew (s : State) (n : Nat) : State :=
  match s.wave n with
  | none => s
  | some w =>
    let f := fun (e : Nat × Wave) => match s.leadOf e.2 with
      | some l =>
        if sameConvoy w e.2 ∧ l ≠ e.1 then (e.1, { e.2 with convoy := { e.2.convoy with skew := skewOf (coreOfWave l) (coreOfWave e.1) } })
        else e
      | none => e
    { s with waves := s.waves.map f }

/-- Context `id` put back as wave `m` of core `q`, whose rows are leased: its granules, its registers, its commands towards their
engines, its held rows, its late answers; it acquires at `.pk`. One that was parked for a class that is still shed stays so (R371-R374, R391). -/
def State.putBack (s : State) (id m q : Nat) : State :=
  match look s.ctxs id with
  | none => s
  | some x =>
    let s := (s.takeSlot q x.wave.cid).clearRows m
    let s := s.writeCells (x.bytes.map fun e => (spadKey q e.1, e.2))
    let s := { s with full := x.tags.foldl (fun l o => insertNat l (spadKey q o / 8)) s.full, ctxs := del s.ctxs id }
    let shed := x.wave.shedding && s.pc.shed.contains x.wave.pclass
    let w := { x.wave.rebase (s.clk q) with life := if shed ∧ x.wave.life = .parked then .parked else .restored, shedding := shed }
    let s := (s.setWave m w).renumber (ctxBase + id) m
    let own := swapNo (ctxBase + id) m
    let rows := x.held.map fun (h : HeldRow) => { h with cmd := { h.cmd.renumber own with pcore := q } }
    let s := s.onCore q fun c => { c with
      chan := match x.chan with
        | some ch => ch.renumber own
        | none => c.chan
      mx := { c.mx with held := c.mx.held ++ rows } }
    let late := x.answers.map fun (r : Resp) => { r with wave := m }
    let cmds := x.cmds.map fun (c : Cmd) => { c.renumber own with pcore := q }
    let s := { s with resps := s.resps ++ late, held := s.held ++ cmds }
    ((s.reskew m).askAgain m).acquire q .pk

/-- A convoy's channel can be had on core `q`. -/
def State.chanFree (s : State) (q : Nat) (x : Context) : Bool := x.chan.isNone || (s.core q).chan.lead.isNone

/-- CONTEXT_RESTORE (R351, R372, R374, R391): a context goes back to rows of a ready core of its die that hold it, with its granules at
their offsets; on another core the logical core is mapped there, and its route tables and channels follow, once no wave of the unit is left
behind (R377, R379). -/
def execContextRestore (ctx pcore : Nat) (s : State) : Out :=
  match look s.ctxs ctx with
  | none => .next s
  | some x => match s.con x.wave.cid with
    | none => .next s
    | some c =>
      let cid := x.wave.cid
      let k := s.core pcore
      let l := x.wave.lcore
      let old := (c.phys l).getD (coreOfWave x.fromW)
      let room := k.slots.any (fun y => y.cid == cid) || decide (k.slots.length < 16)
      let alone := !(s.waves.any fun e => e.2.cid == cid && e.2.lcore == l && coreOfWave e.1 == old) && (k.stubFor cid l).isNone
        && routeRoom (s.core old) k cid l
      if x.frozen || s.rails != .on || !s.coreReady pcore || dieOf pcore != dieOf (coreOfWave x.fromW) || !room || !s.chanFree pcore x
          || s.pc.shed.contains x.wave.pclass || (pcore != old && !alone) then .next s
      else match planBack k.leases pcore x.fromW x.wave x.granules with
        | none => .next s
        | some (ls, m) =>
          let s := s.onCore pcore fun c => { c with leases := ls }
          let gs := (s.ctxs.filter fun e => e.2.wave.cid == cid && e.2.wave.lcore == l).flatMap fun e => e.2.granules
          let s := if pcore = old then s
            else ((s.remap cid l old pcore gs).moveKeys cid old pcore gs).moveRoutes cid l old pcore
          .next (s.putBack ctx m pcore).resumeRestored

end Sys2Proof.Machine
end

