-- ==== Sys2Proof/Machine/Migrate.lean ====
section
/-! DEFINITION. Migration: the request, honour points, the deadline, the move, the forwarding stub, and the log (R375-R380). -/

namespace Sys2Proof.Machine

/-! ## The request (R375) -/

/-- The physical core on which a consignment's logical core lies now. -/
def State.coreOf (s : State) (cid l : Nat) : Nat := ((s.con cid).bind fun c => c.phys l).getD l

/-- The waves of a unit that have not ended. -/
def State.unit (s : State) (cid l : Nat) : List (Nat × Wave) :=
  s.waves.filter fun e => e.2.cid == cid && e.2.lcore == l && coreOfWave e.1 == s.coreOf cid l && (e.2.resident || e.2.life == .clearing)

/-- Rows on core `q` for waves that move there, each with its granules at their offsets: the leases afterwards and the new numbers. -/
def planUnit (c : Core) (q : Nat) : List Lease → List (Nat × Wave) → Option (List Lease × List (Nat × Nat))
  | ls, [] => some (ls, [])
  | ls, e :: es => match planBack ls q e.1 e.2 (c.granules e.1) with
    | none => none
    | some (ls, m) => (planUnit c q ls es).map fun x => (x.1, (e.1, m) :: x.2)

/-- MIGRATION_REQUEST (R375): accepted when the target is another ready core of the die whose free rows, slot and route entries hold the
unit; its rows are leased at once. -/
def execMigrationRequest (cid lcore target reason : Nat) (s : State) : Out :=
  let old := s.coreOf cid lcore
  let us := s.unit cid lcore
  let t := s.core target
  if us.isEmpty || s.rails != .on || old == target || dieOf old != dieOf target || !s.coreReady target
      || s.moves.any (fun m => m.cid == cid && m.lcore == lcore) || (t.stubFor cid lcore).isSome
      || !(t.slots.any (fun x => x.cid == cid) || decide (t.slots.length < 16)) || !routeRoom (s.core old) t cid lcore then .next s
  else match planUnit (s.core old) target t.leases us with
    | none => .next s
    | some (ls, ms) =>
      let s := (s.takeSlot target cid).onCore target fun c => { c with leases := ls }
      .next { s with moves := s.moves ++ [⟨cid, lcore, target, reason, s.now, [], ms, false⟩] }

/-! ## Stopping (R376) -/

/-- A wave stands at an honour point: an arrive has just been sent, it waits at a barrier, it is parked for shedding, or it is at a safe
point (R376, R391). -/
def State.atHonour (s : State) (w : Wave) : Bool :=
  w.edge == .arrive || w.life == .parked || (match w.park with
    | .barrier _ _ _ _ _ => true
    | _ => false) || (s.con w.cid).any fun c => (s.safeRecord c w).isSome

/-- A wave of a moving unit stops at its honour point. -/
def State.honour (s : State) (n : Nat) : State :=
  match s.wave n with
  | none => s
  | some w =>
    if (s.moveOf w).isSome && (w.life == .running || w.life == .parked) && s.atHonour w then (s.haltWave n).countStop n w else s

/-- HONOUR_POINT_STOP (R376). -/
def execHonourPointStop (w : Nat) (s : State) : Out := .next (s.honour w)

/-- Every wave of a unit has stopped. -/
def State.unitStopped (s : State) (m : Migration) : Bool :=
  (s.unit m.cid m.lcore).all fun e => m.stopped.contains e.1 && (e.2.life == .halted || e.2.life == .parked)

/-- MIGRATION_DEADLINE (R376): 1 ms after the request the waves that have not stopped are pre-empted. -/
def execMigrationDeadline (cid lcore : Nat) (s : State) : Out :=
  match s.moves.find? fun m => m.cid == cid && m.lcore == lcore with
  | none => .next s
  | some m =>
    if m.late || decide (s.now < m.since + 21000000) || s.unitStopped m then .next s
    else
      let left := ((s.unit cid lcore).filter fun e => !m.stopped.contains e.1).map Prod.fst
      let ms := s.moves.map fun (x : Migration) => if x.cid = cid ∧ x.lcore = lcore then { x with late := true } else x
      let s := { s with moves := ms }
      .next (s.nameWaves .migration [cid] left)

/-! ## The move (R377-R380) -/

/-- Commands of a consignment that still run: copies and long-vector commands of any core, and open tables. -/
def State.runningIds (s : State) (cid : Nat) : List Nat :=
  s.cores.flatMap fun (e : Nat × Core) =>
    ((e.2.cpRun.map CopyRun.cmd).toList ++ (e.2.lvRun.map LvRun.cmd).toList).filterMap (fun c => if c.cid = cid then some c.id else none)
      ++ (e.2.rt.tables.filter fun (t : Nat × RTable) => t.2.owner == cid).map fun (t : Nat × RTable) => t.2.cmd

/-- The scoreboard entries of running commands go with the granules they cover (R378). -/
def State.moveSpans (s : State) (cid a b : Nat) (gs : List Nat) : State :=
  let ids := s.runningIds cid
  let goes := fun (x : Span) => ids.contains x.cmd && gs.any fun g => decide (x.lo / 4096 ≤ g) && decide (g ≤ x.hi / 4096)
  let mine := (s.core a).spans.filter goes
  (s.onCore a fun c => { c with spans := c.spans.filter fun x => !goes x }).onCore b fun c => { c with spans := c.spans ++ mine }

/-- Commands to a consignment's logical core still running at core `p`. -/
def State.stillRunning (s : State) (p cid l : Nat) : Nat :=
  (((s.core p).cpRun.map CopyRun.cmd).toList ++ ((s.core p).lvRun.map LvRun.cmd).toList).countP fun c => c.cid == cid && c.tcore == l

/-- The saved waves of a unit put back on the target's rows. -/
def State.putUnit (s : State) (cid q : Nat) : List (Nat × Nat) → State
  | [] => s
  | e :: es =>
    (match s.ctxs.find? fun (x : Nat × Context) => x.2.fromW == e.1 && x.2.wave.cid == cid with
      | some x => s.putBack x.1 e.2 q
      | none => s).putUnit cid q es

/-- The unit saved, moved, mapped and put back (R377). -/
def State.moveUnit (s : State) (m : Migration) (us : List (Nat × Wave)) (ms : List (Nat × Nat)) : State :=
  let a := s.coreOf m.cid m.lcore
  let b := m.target
  let gs := us.flatMap fun e => (s.core a).granules e.1
  let fwd := s.stillRunning a m.cid m.lcore
  let s := us.foldl (fun s e => s.saveWave e.1 false false) s
  let whole := s.ctxs.any fun x => x.2.wave.cid == m.cid && x.2.whole && us.any fun e => e.1 == x.2.fromW
  let s := (((s.remap m.cid m.lcore a b gs).moveKeys m.cid a b gs).moveRoutes m.cid m.lcore a b).moveSpans m.cid a b gs
  let s := s.putUnit m.cid b (ms.filter fun e => us.any fun u => u.1 == e.1)
  let entry : MigRec := ⟨s.tagOf m.cid, m.lcore, a, b, m.reason, m.late, whole, us.length, fwd, 0⟩
  { s with
    moves := s.moves.filter fun x => !(x.cid == m.cid && x.lcore == m.lcore)
    moved := s.moved ++ [(⟨m.cid, m.since, entry⟩ : Moved)] }.resumeRestored

/-- The move may begin: every wave has stopped and drained, and the target can take a running `rt.route`, the channel and the route
entries. -/
def State.mayMove (s : State) (m : Migration) (us : List (Nat × Wave)) : Bool :=
  let a := s.core (s.coreOf m.cid m.lcore)
  let b := s.core m.target
  s.unitStopped m && us.all (fun e => s.drained e.1 e.2 false)
    && routeRoom a b m.cid m.lcore
    && !(a.chan.lead.any (fun l => us.any fun e => e.1 == l) && b.chan.lead.isSome)

/-- MIGRATION_MOVE (R377-R380): the move, once it may begin; waves that the unit gained since the request take rows now. A unit whose waves
have all ended gives its leases up. -/
def execMigrationMove (cid lcore : Nat) (s : State) : Out :=
  match s.moves.find? fun m => m.cid == cid && m.lcore == lcore with
  | none => .next s
  | some m =>
    let us := s.unit cid lcore
    let unused := m.map.filter fun e => !(us.any fun u => u.1 == e.1)
    let free := fun (s : State) => s.onCore m.target fun c => { c with leases := c.leases.filter fun l => !(unused.any fun e => e.2 == l.wave) }
    if us.isEmpty then .next { free s with moves := s.moves.filter fun x => !(x.cid == cid && x.lcore == lcore) }
    else if !s.mayMove m us then .next s
    else
      let s := free s
      match planUnit (s.core (s.coreOf cid lcore)) m.target (s.core m.target).leases (us.filter fun u => !(m.map.any fun e => e.1 == u.1)) with
      | none => .next s
      | some (ls, more) => .next ((s.onCore m.target fun c => { c with leases := ls }).moveUnit m us (m.map ++ more))

/-! ## The stub (R378, R379) -/

/-- STUB_FORWARD (R378): the oldest request resolved to the old core goes on to the target. -/
def execStubForward (k : Nat) (s : State) : Out :=
  match s.reqs[k]? with
  | none => .next s
  | some r =>
    let a := homeCore r.home
    let stub := (s.core a).stubs.find? fun x => homeIsSpad r.home && s.ofStub x r && decide (r.id < x.since)
    match stub with
    | none => .next s
    | some x =>
      if (s.reqs.take k).any fun q => q.home == r.home && s.ofStub x q then .next s
      else .next (s.setReq k { r with
        home := 1000 + x.target
        accs := r.accs.map fun y => { y with key := spadKey x.target (keyOff y.key) } })

/-- TABLE_UPDATE_ACK (R378): a core acknowledges the new table once what it sent under the old one has reached the old core. -/
def execTableUpdateAck (pcore core : Nat) (s : State) : Out :=
  let busy := fun (x : Stub) => s.reqs.any fun r => r.pcore == core && r.home == 1000 + pcore && s.ofStub x r && decide (r.id < x.since)
  let ack := fun (x : Stub) => if busy x then x else { x with unacked := x.unacked.filter fun n => n != core }
  .next (s.onCore pcore fun c => { c with stubs := c.stubs.map ack })

/-- STUB_RETIRE (R378, R379): a stub that every core has acknowledged and at whose core no command of the unit runs goes. -/
def execStubRetire (pcore : Nat) (s : State) : Out :=
  .next (s.onCore pcore fun c => { c with stubs := c.stubs.filter fun x => !(x.unacked.isEmpty && s.stillRunning pcore x.cid x.lcore == 0) })

end Sys2Proof.Machine
end

