-- ==== Sys2Proof/Machine/Power.lean ====
section
/-! DEFINITION. Power, telemetry and heat: the shelf frames, the droop curve, the cadence, the power classes, the bands' clock ratios,
timed waits, the energy accumulators, the sensors, and the emergency save (R384-R402). -/

namespace Sys2Proof.Machine

/-- The power controller changed. -/
def State.onPc (s : State) (f : Power → Power) : State := { s with pc := f s.pc }

/-! ## The curve and the cadence (R387, R388) -/

/-- `n` steps of the bitwise CRC-32 of IEEE 802.3, reflected. -/
def crcSteps : Nat → Nat → Nat
  | 0, c => c
  | n + 1, c => crcSteps n (if c % 2 = 1 then (c / 2) ^^^ 0xEDB88320 else c / 2)

/-- CRC-32 of bytes (R384). -/
def crc32 (bs : List Byte) : Nat := (bs.foldl (fun c b => crcSteps 8 (c ^^^ b.toNat)) 0xFFFFFFFF) ^^^ 0xFFFFFFFF

/-- A frame is valid: 16 bytes, its sync and its CRC (R384). -/
def frameValid (f : List Byte) : Bool :=
  f.length == 16 && ofBytes (f.take 1) == 0xD3 && crc32 (f.take 12) == ofBytes (f.drop 12)

/-- The allowance at `x` of a curve of points (R387). -/
def curveAt (x : Int) : List (Int × Nat) → Int
  | [] => 0
  | [p] => p.2
  | p :: q :: ps =>
    if x ≤ p.1 then p.2
    else if x < q.1 then p.2 + ((q.2 : Int) - p.2) * (x - p.1) / (q.1 - p.1)
    else curveAt x (q :: ps)

/-- The allowance A of a frame, with the active registers (R387). -/
def Power.allowance (p : Power) (freq volt : Nat) (batt : Bool) : Int :=
  let x := (freq : Int) - p.fnom + p.kv * ((volt : Int) - p.vnom) / 1000
  let a := min (curveAt x (p.actX.zip p.actP)) p.limit
  if batt then min a p.battlim else a

/-- The curve cadence of an allowance (R387). -/
def Power.cadence (p : Power) (a : Int) : Nat :=
  let b := a - p.pbase
  if (p.pmx : Int) ≤ b then 1 else if b ≤ 0 then 16 else min 16 ((p.pmx + b.toNat - 1) / b.toNat)

/-! ## Power classes (R389-R391) -/

/-- The wave waits where R390 lets it park: in `await`, `arrive.wait`, `waitaddr`, `sleep`, or on a tag. -/
def State.shedWait (s : State) (n : Nat) (w : Wave) : Bool :=
  (match w.park with
    | .barrier _ _ _ _ _ => true
    | .address _ _ _ _ _ => true
    | .sleep _ => true
    | _ => false)
  || ((w.sched.holdS == .long || w.sched.holdL == .long) && s.parked.any fun q => q.req.wave == n && match q.req.kind with
    | .mem .ldfe => true
    | .mem .ldf => true
    | .mem .stfe => true
    | _ => false)

/-- A wave parks for shedding: it issues nothing and leaves the active set (R390). -/
def Wave.parkShed (w : Wave) : Wave := { w with life := .parked, sched := { w.sched with active := false } }

/-- A wave of a shed class at a shed point parks: after its word has made one, or in a wait (R390). -/
def State.shedPoint (s : State) (n : Nat) : State :=
  match s.wave n with
  | none => s
  | some w => if w.shedding && w.life == .running && (w.edge != .none || s.shedWait n w) then s.setWave n w.parkShed else s

/-- Class `c` is shed: its waves park at their next shed point, and those in such a wait at once (R389, R390). -/
def State.shedClass (s : State) (c : Nat) : State :=
  let waves := s.waves.map fun (e : Nat × Wave) =>
    if e.2.pclass = c then
      let w := { e.2 with shedding := true }
      (e.1, if w.life == .running && s.shedWait e.1 w then w.parkShed else w)
    else e
  { s.onPc (fun p => { p with shed := insertNat p.shed c, shedAt := put p.shedAt c s.now, holdFrom := del p.holdFrom c }) with waves := waves }

/-- Class `c` after an evaluation that gave `a` (R389). -/
def State.evalClass (s : State) (a : Int) (c : Nat) : State :=
  let k := lookD s.pc.actC c ⟨0, 0, 0⟩
  if k.shedAt = 0 then s
  else if !s.pc.shed.contains c then (if a < k.shedAt then s.shedClass c else s)
  else if a < k.restore then s.onPc fun p => { p with holdFrom := del p.holdFrom c }
  else if (look s.pc.holdFrom c).isSome then s
  else s.onPc fun p => { p with holdFrom := put p.holdFrom c s.now }

/-- An evaluation of A: ALLOW, CADC and the states of classes 1 to 7 (R387, R389). -/
def State.evaluate (s : State) (a : Int) : State :=
  [1, 2, 3, 4, 5, 6, 7].foldl (fun s c => s.evalClass a c) (s.onPc fun p => { p with allow := a, cadc := p.cadence a })

/-- The shadows that a COMMIT took become active, all together (R386). -/
def Power.activate (p : Power) : Power := match p.commit with
  | some x => { p with actX := x.1.1, actP := x.1.2, actC := x.2, commit := none }
  | none => p

/-- A valid frame's fields recorded; GAPS counts the frames missing since the last valid one (R384, R385). -/
def Power.heard (p : Power) (now seq freq volt state : Nat) : Power :=
  let gap := if p.lastAt.isSome then (seq + 511 - p.seq) % 256 else 0
  { p with
    freq := freq, volt := volt, state := state, seq := seq, lastAt := some now, stale := false
    gaps := min 0xFFFF (p.gaps + gap) }

/-- TELEMETRY_FRAME (R384, R386, R387, R389). -/
def execTelemetryFrame (frame : List Byte) (s : State) : Out :=
  let s := s.onPc Power.activate
  if !frameValid frame then .next (s.onPc fun p => { p with crcErr := min 0xFFFF (p.crcErr + 1) })
  else
    let num := fun i n => ofBytes ((frame.drop i).take n)
    let s := s.onPc fun p => p.heard s.now (num 1 1) (num 2 4) (num 6 4) (num 10 2)
    .next (s.evaluate (s.pc.allowance (num 2 4) (num 6 4) ((num 10 2).testBit 1)))

/-- In the stale state the allowance is the lower of FAILSAFE and LIMIT, as those registers stand (R387). -/
def State.staleAllowance (s : State) : State := if s.pc.stale then s.evaluate (min s.pc.failsafe s.pc.limit) else s

/-- TELEMETRY_STALE (R384, R387): 500 µs after the last valid frame. -/
def execTelemetryStale (s : State) : Out :=
  match s.pc.lastAt with
  | none => .next s
  | some t =>
    if s.pc.stale ∨ s.now < t + 10500000 then .next s
    else .next (s.onPc fun p => { p with stale := true }).staleAllowance

/-- Strictly ascending. -/
def ascending : List Int → Bool
  | x :: y :: l => decide (x < y) && ascending (y :: l)
  | _ => true

/-- A COMMIT: refused, or the shadows wait for the next frame boundary (R386). -/
def Power.tryCommit (p : Power) : Power :=
  if !ascending p.curveX || p.classes.any fun c => c.2.shedAt != 0 && decide (c.2.restore ≤ c.2.shedAt) then { p with badCurve := true }
  else { p with commit := some ((p.curveX, p.curveP), p.classes) }

/-- PC_COMMIT (R386). -/
def execPcCommit (s : State) : Out := .next (s.onPc Power.tryCommit)

/-- LIMIT_LOOP_PERIOD (R388): every 1 ms. -/
def execLimitLoopPeriod (s : State) : Out :=
  let p := s.pc
  let e := p.energy.getD 0 0
  let grown := (e + 2 ^ 64 - p.lastE) % 2 ^ 64
  if s.now < p.limitAt + 21000000 then .next s
  else
    let under := if grown < 1000 * (p.limit - 200) then min 10 (p.under + 1) else 0
    .next (s.onPc fun p => { p with
      limitAt := p.limitAt + 21000000, lastE := e, under := under
      cadl := if 1000 * p.limit < grown then min 16 (p.cadl + 1) else if under = 10 then max 1 (p.cadl - 1) else p.cadl })

/-- CADENCE_APPLY (R388). -/
def execCadenceApply (s : State) : Out := .next (s.onPc fun p => { p with cad := max p.cadc p.cadl })

/-- A member with nothing left to issue while its lead is parked: its convoy is parked (R390). -/
def State.leadParked (s : State) (n : Nat) (w : Wave) : Bool :=
  w.followsFifo && w.convoy.fifo.isEmpty && w.convoy.hops.isEmpty && s.waves.any fun e =>
    e.2.life == .parked && followsLead e.1 e.2 n w (s.chanGen e.1)

/-- SHED_PARK_DEADLINE (R390): a wave that has not parked 500 µs after the decision is pre-empted. -/
def execShedParkDeadline (w : Nat) (s : State) : Out :=
  match s.wave w with
  | none => .next s
  | some v => match look s.pc.shedAt v.pclass with
    | none => .next s
    | some t =>
      if !v.shedding ∨ v.life ≠ .running ∨ s.now < t + 10500000 ∨ s.leadParked w v then .next s
      else .next (s.nameWaves .shedding [v.cid] [w])

/-- A parked wave issues again when its class is restored and it waits for nothing else; one that stands still for a move of its unit stays (R391). -/
def Wave.unshed (w : Wave) (stopped : Bool) : Wave :=
  { w with shedding := false, life := if w.life = .parked then (if stopped then .halted else .restored) else w.life }

/-- CLASS_RESTORE (R389, R391): RESTORE has held for HOLD µs. A barrier wait that a pre-emption has taken from a parked wave is asked for again
(R279). -/
def execClassRestore (c : Nat) (s : State) : Out :=
  match look s.pc.holdFrom c with
  | none => .next s
  | some t =>
    if !s.pc.shed.contains c ∨ s.rails ≠ .on ∨ s.now < t + 21000 * (lookD s.pc.actC c ⟨0, 0, 0⟩).hold then .next s
    else
      let stopped := fun n => s.moves.any fun m => m.stopped.contains n
      let waves := s.waves.map fun (e : Nat × Wave) => if e.2.pclass = c then (e.1, e.2.unshed (stopped e.1)) else e
      let ctxs := s.ctxs.map fun (e : Nat × Context) =>
        if e.2.wave.pclass = c then (e.1, { e.2 with wave := { e.2.wave with shedding := false } }) else e
      let t := { s.onPc (fun p => { p with shed := eraseNat p.shed c, holdFrom := del p.holdFrom c, shedAt := del p.shedAt c }) with
        waves := waves
        ctxs := ctxs }
      let woken := (s.waves.filter fun e => e.2.pclass == c && e.2.life == .parked).map Prod.fst
      .next (woken.foldl State.askAgain t).resumeRestored

/-! ## Bands, timed waits and energy (R392-R395) -/

/-- Lane slots used in the last `t` ticks. -/
def Band.used (b : Band) (now t : Nat) : Nat := (b.lanes.filter fun x => decide (now < x + t)).length

/-- Near-threshold mode as the last 2 µs, or the last 500 ns, leave it: 16 lane slots lie in each cycle. The 2 µs begin anew when the band leaves
the mode (R392; log 66). -/
def Band.nearNow (b : Band) (now : Nat) : Bool :=
  if b.near then decide (b.used now 10500 * cycTicks b.ratio < 42000)
  else decide (b.lastPass + 42000 ≤ now) && b.left.all (fun t => decide (t + 42000 ≤ now)) && decide (b.used now 42000 * cycTicks b.ratio < 84000)
    && b.ldFrom.any fun t => decide (t + 42000 ≤ now)

/-- The lowest ratio that a band is asked for (R392, R402). -/
def Band.asked (b : Band) : Nat := if b.near then 2 else if b.throttle then 1 else 0

/-- BAND_RATIO_CHANGE (R392): the band's requests are looked at again, and its clock runs at the lowest ratio that one asks for. -/
def execBandRatioChange (band : Nat) (s : State) : Out :=
  let b := s.band band
  let b := { b with near := b.nearNow s.now }
  let b := if (s.band band).near && !b.near then { b with left := some s.now } else b
  .next { s with bands := put s.bands band (if b.asked = b.ratio then b else
    { b with ratio := b.asked, baseTick := s.now, baseClk := s.clk (4 * band) }) }

/-- TIMED_WAIT_DEADLINE (R393, R394): `sleep` ends no earlier than its deadline, one that a handler has interrupted too (R364). -/
def execTimedWaitDeadline (w : Nat) (s : State) : Out :=
  .next (s.onWave w fun v => v.onParks fun p => match p with
    | .sleep d => if d ≤ s.nsc then .none else p
    | _ => p)

/-- Growth added to the accumulators, each modulo 2^64. -/
def addEnergy : List Nat → List Nat → List Nat
  | e :: es, i :: is => (e + i) % 2 ^ 64 :: addEnergy es is
  | es, _ => es

/-- ENERGY_UPDATE (R395): what the ten accumulators grew by in a microsecond. -/
def execEnergyUpdate (incs : List Nat) (s : State) : Out := .next (s.onPc fun p => { p with energy := addEnergy p.energy incs })

/-- A reader's snapshot of an accumulator. -/
def Power.snap (p : Power) (reader n : Nat) : Nat := ((p.snaps.find? fun x => x.1 == (reader, n)).map Prod.snd).getD 0

/-- A reader's snapshot latched. -/
def Power.latch (p : Power) (reader n : Nat) : Power :=
  { p with snaps := (p.snaps.filter fun x => x.1 != (reader, n)) ++ [((reader, n), p.energy.getD n 0 / 2 ^ 32)] }

/-- What a reader outside read last. -/
def State.answer (s : State) (reader v : Nat) : State := { s with reads := put s.reads reader (BitVec.ofNat 64 v) }

/-- ENERGY_LO_READ (R395). -/
def execEnergyLoRead (reader n : Nat) (s : State) : Out :=
  if 10 ≤ n then .next s
  else .next ((s.onPc fun p => p.latch reader n).answer reader (s.pc.energy.getD n 0 % 2 ^ 32))

/-- ENERGY_HI_READ (R395). -/
def execEnergyHiRead (reader n : Nat) (s : State) : Out :=
  if 10 ≤ n then .next s else .next (s.answer reader (s.pc.snap reader n))

/-- ENERGY_64_READ (R395). -/
def execEnergy64Read (reader n : Nat) (s : State) : Out :=
  if 10 ≤ n then .next s
  else .next ((s.onPc fun p => p.latch reader n).answer reader (s.pc.energy.getD n 0))

/-! ## Heat (R396-R399) -/

/-- The four cores of a band. -/
def coresOf (band : Nat) : List Nat := [4 * band, 4 * band + 1, 4 * band + 2, 4 * band + 3]

/-- The sample of a core recorded: one warn event as it rises to WARN, and none until it has fallen below WARN − 32 (R397). -/
def State.sampled (s : State) (p : Nat) (t : Int) : State :=
  let rises := decide ((s.pc.warn : Int) ≤ t) && !(s.core p).warned
  let s' := s.onCore p fun c => { c with
    temp := t
    warned := if (s.pc.warn : Int) ≤ t then true else if t < (s.pc.warn : Int) - 32 then false else c.warned }
  if rises then { s' with events := s'.events ++ [(1, p + 2 ^ 16 * t.toNat)] } else s'

/-- A band's throttle request after a sample of one of its cores (R398). -/
def State.throttled (s : State) (p : Nat) (t : Int) : State :=
  let b := s.band (bandOf p)
  let cool := (coresOf (bandOf p)).all fun q => decide ((s.core q).temp < (s.pc.throttle : Int) - 80)
  { s with bands := put s.bands (bandOf p) { b with
      throttle := b.throttle || decide ((s.pc.throttle : Int) ≤ t)
      coolSince := if cool then b.coolSince.or (some s.now) else none } }

/-- TEMP_SAMPLE (R396-R399). -/
def execTempSample (pcore : Nat) (t : Int) (s : State) : Out :=
  if 1536 ≤ pcore then .next s
  else
    let s := (s.sampled pcore t).throttled pcore t
    .next (if (s.pc.critical : Int) ≤ t then s.onPc fun p => { p with critAt := p.critAt.or (some s.nsc) } else s)

/-- THROTTLE_RELEASE (R398): every sample of the band has stayed cool for 1 ms. -/
def execThrottleRelease (band : Nat) (s : State) : Out :=
  let b := s.band band
  match b.coolSince with
  | none => .next s
  | some t => if b.throttle ∧ t + 21000000 ≤ s.now then .next { s with bands := put s.bands band { b with throttle := false } } else .next s

/-! ## The emergency save and the hard trip (R399-R402) -/

/-- The storage key of a byte of the save area. -/
def Power.esKey (p : Power) (o : Nat) : Nat := storageKey (p.esave + o) 0 0 0

/-- Waves and saved contexts in save order: by class, then by the physical core and slot that they have or had (R401, R402). -/
def State.saveOrder (s : State) : Arr (Nat × Option Nat) :=
  let waves := s.waves.filter fun e => e.2.resident || e.2.life == .clearing
  let l := waves.foldl (fun (l : Arr (Nat × Option Nat)) e => put l ((e.2.pclass * 2 ^ 32 + e.1) * 2 ^ 64 + 2 ^ 64 - 1) (e.1, none)) []
  s.ctxs.foldl (fun l e => put l ((e.2.wave.pclass * 2 ^ 32 + e.2.fromW) * 2 ^ 64 + e.1) (e.2.fromW, some e.1)) l

/-- The bytes of a context: fewer than 2 MiB, which hold all of R373's items (R400; log 7). -/
def contextBytes (n i : Nat) : List Byte := (List.range (Config.contextSize n i % 2 ^ 21)).map (Config.contextByte n i)

/-- Where the context of entry `i` of a save with `count` entries lies: behind the directory and the contexts before it (R400; log 7). -/
def contextPlace (n count : Nat) : Nat → Nat
  | 0 => 64 + 32 * count + Config.contextGap n 0 % 4096
  | i + 1 => contextPlace n count i + Config.contextSize n i % 2 ^ 21 + Config.contextGap n (i + 1) % 4096

/-- The directory entry of number `i` of save `n`, with mark 0 (R400). -/
def State.saveEntry (s : State) (n count i : Nat) (e : Nat × Option Nat) : List Byte :=
  let w := match e.2 with
    | none => s.wave e.1
    | some id => (look s.ctxs id).map Context.wave
  match w with
  | none => []
  | some w =>
    toBytes 8 (s.tagOf w.cid).toNat ++ toBytes 4 w.wid ++ toBytes 2 (coreOfWave e.1) ++ toBytes 1 w.pclass ++ toBytes 1 0
      ++ toBytes 8 (contextPlace n count i) ++ toBytes 4 (Config.contextSize n i % 2 ^ 21) ++ toBytes 4 0

/-- The entries written from number `i` on. -/
def State.saveEntries (s : State) (n count : Nat) : Nat → List (Nat × Option Nat) → State
  | _, [] => s
  | i, e :: es => (s.write (s.pc.esKey (64 + 32 * i)) (s.saveEntry n count i e)).saveEntries n count (i + 1) es

/-- Every wave stops, whatever was in progress with it: a save overrides shedding, migration and pre-emption (R401, R402). -/
def State.stopAll (s : State) : State :=
  let planned := s.moves.flatMap fun m => m.map.map Prod.snd
  let ctxs := s.ctxs.map fun (e : Nat × Context) => (e.1, { e.2 with wave := { e.2.wave with shedding := false } })
  let cores := s.cores.map fun (e : Nat × Core) =>
    (e.1, { e.2 with preempt := [], leases := e.2.leases.filter fun l => !planned.contains l.wave })
  let s := { s with moves := [], cores := cores, ctxs := ctxs }
  let ns := (s.waves.filter fun e => e.2.resident).map Prod.fst
  let s := ns.foldl (fun s n => s.haltWave n) s
  let waves := s.waves.map fun (e : Nat × Wave) =>
    (e.1, { e.2 with shedding := false, life := if e.2.life = .clearing ∨ e.2.life = .parked then .halted else e.2.life })
  { s with waves := waves }

/-- The consignment of an entry. -/
def State.entryCid (s : State) (e : Nat × Option Nat) : Nat :=
  ((match e.2 with
    | none => s.wave e.1
    | some id => (look s.ctxs id).map Context.wave).map Wave.cid).getD 0

/-- The save begins: a number one higher than the header's, the header with `done` zero, and the entries, whose order stands for the whole
save (R401). -/
def State.beginSave (s : State) (ns : Nat) : State :=
  let s := s.stopAll
  let n := (s.num 4 (s.pc.esKey 4) + 1) % 2 ^ 32
  let l := s.saveOrder.map Prod.snd
  let s := s.write (s.pc.esKey 0) (toBytes 4 0x31445345 ++ toBytes 4 n ++ toBytes 4 l.length ++ toBytes 4 0 ++ toBytes 8 ns)
  { s.saveEntries n l.length 0 l with rails := .saving n 0 l, saved := l.map s.entryCid }

/-- The compute dies and the HBM without power: what they held is lost; the I/O dies and the LPDDR-6 stay (R399, R401). -/
def State.dark (s : State) (r : Rails) : State :=
  let gone := fun k => keyIsHbm k || keyIsSpad k
  { s with
    rails := r
    mem := s.mem.filter fun e => !gone e.1
    full := s.full.filter fun x => !gone (8 * x)
    reqs := [], resps := [], parked := [], nodes := [], wqs := [], tickets := [], faults := [], hot := [], offers := []
    routeMsgs := [], held := [], waves := [], cores := [], bands := [], moves := [], moved := [], routers := [], homeLast := []
    badMem := s.badMem.filter fun x => !gone (32 * x) }

/-- Entry `i` complete: its context is written, and then its mark, the save's number (R400, R401). -/
def State.markSaved (s : State) (n i : Nat) (order : List (Nat × Option Nat)) : State :=
  let s := s.write (s.pc.esKey (contextPlace n order.length i)) (contextBytes n i)
  { s.writeNum 4 (s.pc.esKey (64 + 32 * i + 28)) n with rails := .saving n (i + 1) order }

/-- The next wave's context written once the wave has drained; after the last, `done` is written and the power goes. A wave that has ended
since the save began keeps its mark at zero (R401). -/
def State.saveNext (s : State) (n i : Nat) (order : List (Nat × Option Nat)) : State :=
  let pass := { s with rails := .saving n (i + 1) order }
  match order[i]? with
  | none => (s.writeNum 4 (s.pc.esKey 12) n).dark .saved
  | some (_, some id) => match look s.ctxs id with
    | some x => { s with ctxs := put s.ctxs id { x with frozen := true } }.markSaved n i order
    | none => pass
  | some (w, none) => match s.wave w with
    | some v =>
      if !v.resident then pass
      else if s.drained w v true then (s.saveWave w true true).markSaved n i order else s
    | none => pass

/-- EMERGENCY_SAVE (R399, R401, R402): begun by a critical sample; each further step writes one wave. -/
def execEmergencySave (s : State) : Out :=
  match s.rails with
  | .on => match s.pc.critAt with
    | none => .next s
    | some ns => .next (s.beginSave ns)
  | .saving n i order => .next (s.saveNext n i order)
  | _ => .next s

/-- HARD_TRIP (R399): the rails go whatever is in progress; of the contexts only those that a save has written stay. -/
def execHardTrip (s : State) : Out :=
  let ctxs := s.ctxs.filter fun (e : Nat × Context) => e.2.frozen
  match s.rails with
  | .saved => .next s
  | _ => .next ({ s with ctxs := ctxs }.dark .tripped)

end Sys2Proof.Machine
end

