-- ==== Sys2Proof/Machine/Shake.lean ====
section
/-! DEFINITION. SHAKE256 with an output of 64 bytes, as FIPS 202 defines it: the hash of Dwenath (R412, R413). -/

namespace Sys2Proof.Machine

/-- The 25 lanes of the Keccak state: lane (x, y) has number x + 5 y. -/
abbrev Keccak := List (BitVec 64)

/-- A lane of the state. -/
def Keccak.lane (a : Keccak) (x y : Nat) : BitVec 64 := a.getD (x % 5 + 5 * (y % 5)) 0

/-- A state given lane by lane. -/
def Keccak.ofFn (f : Nat → Nat → BitVec 64) : Keccak := (List.range 25).map fun i => f (i % 5) (i / 5)

/-- The rotation of each lane in ρ. -/
def keccakShifts : List Nat := [0, 1, 62, 28, 27, 36, 44, 6, 55, 20, 3, 10, 43, 25, 39, 41, 45, 15, 21, 8, 18, 2, 61, 56, 14]

/-- The round constants of ι. -/
def keccakConsts : List (BitVec 64) := [0x0000000000000001, 0x0000000000008082, 0x800000000000808A, 0x8000000080008000,
  0x000000000000808B, 0x0000000080000001, 0x8000000080008081, 0x8000000000008009, 0x000000000000008A, 0x0000000000000088,
  0x0000000080008009, 0x000000008000000A, 0x000000008000808B, 0x800000000000008B, 0x8000000000008089, 0x8000000000008003,
  0x8000000000008002, 0x8000000000000080, 0x000000000000800A, 0x800000008000000A, 0x8000000080008081, 0x8000000000008080,
  0x0000000080000001, 0x8000000080008008]

/-- θ: each lane takes the parities of two columns. -/
def Keccak.theta (a : Keccak) : Keccak :=
  let col := (List.range 5).map fun x => a.lane x 0 ^^^ a.lane x 1 ^^^ a.lane x 2 ^^^ a.lane x 3 ^^^ a.lane x 4
  Keccak.ofFn fun x y => a.lane x y ^^^ col.getD ((x + 4) % 5) 0 ^^^ (col.getD ((x + 1) % 5) 0).rotateLeft 1

/-- ρ and π: every lane is turned and moved. -/
def Keccak.rhoPi (a : Keccak) : Keccak :=
  Keccak.ofFn fun x y => (a.lane (x + 3 * y) x).rotateLeft (keccakShifts.getD ((x + 3 * y) % 5 + 5 * x) 0)

/-- χ. -/
def Keccak.chi (a : Keccak) : Keccak := Keccak.ofFn fun x y => a.lane x y ^^^ (~~~a.lane (x + 1) y &&& a.lane (x + 2) y)

/-- One round, with its constant. -/
def Keccak.round (a : Keccak) (c : BitVec 64) : Keccak :=
  let b := a.theta.rhoPi.chi
  b.set 0 (b.lane 0 0 ^^^ c)

/-- The permutation Keccak-f[1600]. -/
def Keccak.permute (a : Keccak) : Keccak := keccakConsts.foldl Keccak.round a

/-- Bytes of one block of 136. -/
def shakeRate : Nat := 136

/-- A message with SHAKE's suffix and the padding to whole blocks. -/
def shakePad (m : List Byte) : List Byte :=
  let gap := shakeRate - 1 - m.length % shakeRate
  if gap = 0 then m ++ [0x9F] else m ++ [0x1F] ++ List.replicate (gap - 1) 0 ++ [0x80]

/-- Blocks absorbed one after another. -/
def Keccak.absorb : Nat → List Byte → Keccak → Keccak
  | 0, _, a => a
  | n + 1, bs, a =>
    let block : Keccak := (List.range 25).map fun i => BitVec.ofNat 64 (ofBytes (((bs.take shakeRate).drop (8 * i)).take 8))
    Keccak.absorb n (bs.drop shakeRate) (Keccak.permute (List.zipWith (· ^^^ ·) a block))

/-- SHAKE256 of a message, its first 64 bytes (FIPS 202, R412, R413). -/
def shake256 (m : List Byte) : List Byte :=
  let bs := shakePad m
  ((Keccak.absorb (bs.length / shakeRate) bs (List.replicate 25 0)).take 8).flatMap fun l => toBytes 8 l.toNat

end Sys2Proof.Machine
end

