-- ==== Sys2Proof/Machine/System.lean ====
section
/-! DEFINITION. Control registers, module reset and self-tests, restart after an emergency save, and Dwenath (R53, R54, R380, R385, R396,
R400, R405-R414). -/

namespace Sys2Proof.Machine

/-! ## Writes to control registers (R53, R54, R380, R385, R396, R400, R406) -/

/-- Bits `lo` to `lo + n - 1` of a written value. -/
def fieldOf (v lo n : Nat) : Nat := v / 2 ^ lo % 2 ^ n

/-- A signed 32-bit field. -/
def signed32 (v : Nat) : Int := (BitVec.ofNat 32 v).toInt

/-- A write to a register of a work queue at its offset (R53, R54). -/
def WQueue.writeReg (q : WQueue) (off size v : Nat) : WQueue :=
  match off, size with
  | 0x00, 8 => if q.en then q else { q with base := fieldOf v 7 41 * 128 }
  | 0x08, 8 =>
    let q' := { q with en := v.testBit 0, prio := fieldOf v 1 3, devsub := v.testBit 8 }
    if q.en then q' else { q' with log2size := fieldOf v 4 4, aspace := fieldOf v 16 16 }
  | 0x1C, 4 => { q with cqHead := v % 65536 }
  | 0x20, 8 => if q.en then q else { q with cqBase := fieldOf v 5 43 * 32 }
  | 0x28, 8 => { q with ovf := q.ovf && !v.testBit 0, refused := q.refused && !v.testBit 1 }
  | _, _ => q

/-- A write to one of the power controller's registers, at its offset (R385, R396, R400). -/
def Power.writeReg (p : Power) (off v : Nat) : Power :=
  match off with
  | 0x000 =>
    let l := fieldOf v 0 16
    { p with limit := (if 1 ≤ l ∧ l ≤ 4200 then l else p.limit), pbase := fieldOf v 16 16, pmx := fieldOf v 32 16, battlim := fieldOf v 48 16 }
  | 0x008 => { p with fnom := fieldOf v 0 32, vnom := fieldOf v 32 32 }
  | 0x010 => { p with kv := signed32 v, failsafe := fieldOf v 32 16 }
  | 0x018 => { p with badCurve := p.badCurve && !v.testBit 33 }
  | 0x028 => { p with crcErr := (if fieldOf v 24 16 = 0 then p.crcErr else 0), gaps := (if fieldOf v 40 16 = 0 then p.gaps else 0) }
  | 0x300 =>
    let thr := if fieldOf v 16 16 ≤ 0x0690 then fieldOf v 16 16 else p.throttle
    { p with
      throttle := thr
      warn := if fieldOf v 0 16 < thr then fieldOf v 0 16 else p.warn
      critical := if fieldOf v 32 16 ≤ 0x0730 then fieldOf v 32 16 else p.critical }
  | 0x308 => { p with esave := fieldOf v 16 32 * 65536 }
  | _ =>
    if 0x100 ≤ off ∧ off < 0x180 ∧ off % 8 = 0 then
      let i := (off - 0x100) / 8
      { p with curveX := p.curveX.set i (signed32 v), curveP := p.curveP.set i (fieldOf v 32 16) }
    else if 0x208 ≤ off ∧ off < 0x240 ∧ off % 8 = 0 then
      { p with classes := put p.classes ((off - 0x200) / 8) ⟨fieldOf v 0 16, fieldOf v 16 16, fieldOf v 32 16⟩ }
    else p

/-- A write to one of an error log's registers (R406). -/
def Die.writeReg (d : Die) (off v : Nat) : Die :=
  match off with
  | 0x1008 => { d with ce := if fieldOf v 0 32 = 0 then d.ce else 0, ovf := d.ovf && !v.testBit 48 }
  | 0x1010 => { d with rd := fieldOf v 0 32 }
  | _ => d

/-- CONTROL_REGISTER_WRITE (R54): a write of `size` bytes by a service core or a host to a register without a row of its own. A write of
another size than the register's, to a read-only register, or by a host where only service cores write, changes nothing. In the stale state the
allowance follows the power controller's registers (R387). -/
def execControlRegisterWrite (service : Bool) (addr size v : Nat) (s : State) : Out :=
  .next (if 0x090001000000 ≤ addr ∧ addr < 0x090001020000 then
      s.onQueue ((addr - 0x090001000000) / 64) fun q => q.writeReg (addr % 64) size v
    else if size ≠ 8 then s
    else if 0x090008000000 ≤ addr ∧ addr < 0x090008400000 then
      if service ∧ addr % 8 = 0 ∧ v.testBit 63 then s.clearHot ((addr - 0x090008000000) / 8) else s
    else if 0x090002000000 ≤ addr ∧ addr < 0x090002000800 then
      if service ∧ addr % 8 = 0 then s.writeRegion ((addr - 0x090002000000) / 8) v else s
    else if addr = 0x090003008008 then { s with migRd := fieldOf v 0 32, migOvf := s.migOvf && !v.testBit 32 }
    else if 0x090004000000 ≤ addr ∧ addr < 0x090004001000 then
      if !service then s
      else if addr = 0x090004000030 then (if v.testBit 0 then s.onPc Power.tryCommit else s)
      else (s.onPc fun p => p.writeReg (addr - 0x090004000000) v).staleAllowance
    else if 0x090005000000 ≤ addr ∧ addr < 0x090005008000 then
      s.onDie ((addr - 0x090005000000) / 0x2000) fun d => d.writeReg (addr % 0x2000) v
    else s)

/-! ## Reads of control registers (R8, R9) -/

/-- A value made of fields, each with its first bit and its width: every other bit is reserved and reads as zero (R9). -/
def packed : List (Nat × Nat × Nat) → Nat
  | [] => 0
  | (lo, n, v) :: fs => v % 2 ^ n * 2 ^ lo + packed fs

/-- A signed number as a field of `n` bits. -/
def signedField (n : Nat) (i : Int) : Nat := (i % 2 ^ n).toNat

/-- A register of a work queue at its offset (R53). -/
def WQueue.readReg (q : WQueue) (off : Nat) : Nat :=
  match off with
  | 0x00 => packed [(0, 48, q.base)]
  | 0x08 => packed [(0, 1, q.en.toNat), (1, 3, q.prio), (4, 4, q.log2size), (8, 1, q.devsub.toNat), (16, 16, q.aspace)]
  | 0x10 => packed [(0, 16, q.tail)]
  | 0x14 => packed [(0, 16, q.head)]
  | 0x18 => packed [(0, 16, q.cqTail)]
  | 0x1C => packed [(0, 16, q.cqHead)]
  | 0x20 => packed [(0, 48, q.cqBase)]
  | 0x28 => packed [(0, 1, q.ovf.toNat), (1, 1, q.refused.toNat), (2, 1, q.blocked.toNat), (3, 1, (!q.cqFree 1).toNat)]
  | _ => 0

/-- A region descriptor as a word (R343). -/
def Region.word (r : Region) : Nat :=
  packed [(0, 1, r.v.toNat), (1, 2, r.kind), (3, 2, r.die), (8, 3, r.bx0), (12, 4, r.by0), (16, 3, r.bw), (20, 4, r.bh)]

/-- Word `i` of a migration record (R380). -/
def MigRec.word (r : MigRec) : Nat → Nat
  | 0 => r.tag.toNat
  | 1 => packed [(0, 16, r.lcore), (16, 16, r.from_), (32, 16, r.dest), (48, 8, r.reason), (56, 1, r.late.toNat), (57, 1, r.whole.toNat), (63, 1, 1)]
  | 2 => packed [(0, 32, r.waves), (32, 32, r.fwd)]
  | _ => packed [(0, 64, r.ns)]

/-- A register of the power controller at its offset (R385, R396, R400); the energy accumulators are read by R395. A cadence of 16 shows the low
four bits (log 66). -/
def Power.readReg (p : Power) (off : Nat) : Nat :=
  match off with
  | 0x000 => packed [(0, 16, p.limit), (16, 16, p.pbase), (32, 16, p.pmx), (48, 16, p.battlim)]
  | 0x008 => packed [(0, 32, p.fnom), (32, 32, p.vnom)]
  | 0x010 => packed [(0, 32, signedField 32 p.kv), (32, 16, p.failsafe)]
  | 0x018 => packed ([(0, 16, signedField 16 p.allow), (16, 4, p.cadc), (20, 4, p.cadl), (32, 1, p.stale.toNat), (33, 1, p.badCurve.toNat)]
      ++ p.shed.map fun c => (24 + c, 1, 1))
  | 0x020 => packed [(0, 32, p.freq), (32, 32, p.volt)]
  | 0x028 => packed [(0, 16, p.state), (16, 8, p.seq), (24, 16, p.crcErr), (40, 16, p.gaps)]
  | 0x300 => packed [(0, 16, p.warn), (16, 16, p.throttle), (32, 16, p.critical)]
  | 0x308 => packed [(0, 48, p.esave)]
  | _ =>
    if 0x100 ≤ off ∧ off < 0x180 ∧ off % 8 = 0 then
      packed [(0, 32, signedField 32 (p.curveX.getD ((off - 0x100) / 8) 0)), (32, 16, p.curveP.getD ((off - 0x100) / 8) 0)]
    else if 0x208 ≤ off ∧ off < 0x240 ∧ off % 8 = 0 then
      let c := lookD p.classes ((off - 0x200) / 8) ⟨0, 0, 0⟩
      packed [(0, 16, c.shedAt), (16, 16, c.restore), (32, 16, c.hold)]
    else 0

/-- Word `i` of an error-log entry (R405). -/
def LogRec.word (r : LogRec) : Nat → Nat
  | 0 => packed [(0, 64, r.addr)]
  | 1 => packed [(0, 64, r.spc)]
  | 2 => packed [(0, 24, r.lpc), (32, 16, r.core), (48, 16, r.pcore)]
  | 3 => packed [(0, 8, r.slot), (8, 8, r.src), (16, 8, r.cause), (24, 1, 1), (25, 1, r.va.toNat), (26, 1, r.conv.toNat), (27, 1, r.nest.toNat),
      (32, 32, r.seq)]
  | 4 => r.tag.toNat
  | 5 => packed [(0, 64, r.ns)]
  | _ => 0

/-- A word of a die's error log or one of its registers, at its offset (R405, R406). -/
def Die.readReg (d : Die) (off : Nat) : Nat :=
  match off with
  | 0x1000 => packed [(0, 32, d.head)]
  | 0x1008 => packed [(0, 32, d.ce), (48, 1, d.ovf.toNat)]
  | 0x1010 => packed [(0, 32, d.rd)]
  | _ => if off < 0x1000 ∧ off % 8 = 0 then ((look d.log (off / 64)).map fun r => r.word (off / 8 % 8)).getD 0 else 0

/-- A bit of the ready map (R409). -/
def ReadyMap.bit (r : ReadyMap) (i : Nat) : Bool :=
  if i < 1536 then r.cores.contains i
  else if i < 7680 then r.engines.contains (i - 1536)
  else if i < 7744 then r.hbm.contains (i - 7680)
  else if i < 7808 then r.lpddr.contains (i - 7744)
  else if i < 7872 then r.ports.contains (i - 7808)
  else if i < 7888 then r.service.contains (i - 7872)
  else i == 7935 && r.done

/-- A hotness entry's fields as a word; CLR is write-only (R247). -/
def hotWord (c : List Nat) : Nat :=
  packed [(0, 16, c.getD 0 0), (16, 4, c.getD 1 0), (20, 4, c.getD 2 0), (24, 4, c.getD 3 0), (28, 4, c.getD 4 0)]

/-- The value of the control register at an address, or of the aligned word there of the ready map, a log or the hotness entries; a
write-only register reads as zero, as does an address at which there is none (R8, R9). -/
def State.regRead (s : State) (addr : Nat) : Nat :=
  if 0x090001000000 ≤ addr ∧ addr < 0x090001020000 then (s.queue ((addr - 0x090001000000) / 64)).readReg (addr % 64)
  else if addr % 8 ≠ 0 then 0
  else if 0x090002000008 ≤ addr ∧ addr < 0x090002000800 then (lookD s.regions ((addr - 0x090002000000) / 8) Region.reset).word
  else if 0x090003000000 ≤ addr ∧ addr < 0x090003008000 then
    ((look s.migLog ((addr - 0x090003000000) / 32)).map fun r => r.word (addr / 8 % 4)).getD 0
  else if addr = 0x090003008000 then packed [(0, 32, s.migHead)]
  else if addr = 0x090003008008 then packed [(0, 32, s.migRd), (32, 1, s.migOvf.toNat)]
  else if 0x090004000000 ≤ addr ∧ addr < 0x090004001000 then s.pc.readReg (addr - 0x090004000000)
  else if 0x090005000000 ≤ addr ∧ addr < 0x090005008000 then (s.die ((addr - 0x090005000000) / 0x2000)).readReg (addr % 0x2000)
  else if 0x090006000000 ≤ addr ∧ addr < 0x0900060003E0 then
    packed ((List.range 64).map fun i => (i, 1, (s.ready.bit (8 * (addr - 0x090006000000) + i)).toNat))
  else if 0x090008000000 ≤ addr ∧ addr < 0x090008400000 then hotWord (s.hotRead ((addr - 0x090008000000) / 8))
  else 0

/-- What recovery leaves of the control space: what management reads over I3C, the ready map, the error logs, PC_STATUS and the energy
accumulators (R412, R414). -/
def i3cReads (addr : Nat) : Bool :=
  decide (0x090006000000 ≤ addr) && decide (addr < 0x0900060003E0) || decide (0x090005000000 ≤ addr) && decide (addr < 0x090005008000)
    || addr == 0x090004000018 || decide (0x090004001000 ≤ addr) && decide (addr < 0x090004001050)

/-- A read of a control register from outside, by a service core or another reader: what it returned stands under its address. A 64-bit read of
an energy accumulator also latches the high half for its reader (R395). The hotness entries are read by service cores only; another reader is
given zero (R247; log 66). In recovery only I3C answers (R412). -/
def State.controlRead (s : State) (service : Bool) (addr : Nat) : State :=
  if s.dwen.recovery && !i3cReads addr then s
  else if !service ∧ 0x090008000000 ≤ addr ∧ addr < 0x090008400000 then s.answer addr 0
  else if 0x090004001000 ≤ addr ∧ addr < 0x090004001050 ∧ addr % 8 = 0 then
    let n := (addr - 0x090004001000) / 8
    (s.onPc fun p => p.latch addr n).answer addr (s.pc.energy.getD n 0)
  else s.answer addr (s.regRead addr)

/-- What management has read (R414): the `temp` sample of core `p` stands under number 2^48 + p, as 64 bits. -/
def State.tempRead (s : State) (p : Nat) : State := s.answer (2 ^ 48 + p) (BitVec.ofInt 64 (s.core p).temp).toNat

/-- The restart report of a tag, its complete waves in bits 31:0 and its incomplete ones in bits 63:32, stands under number 2^64 + tag; zero
without a report (R411, R414; log 66). -/
def State.restartRead (s : State) (tag : Word) : State :=
  s.answer (2 ^ 64 + tag.toNat) (((s.restarts.find? fun r => r.tag == tag).map fun r => packed [(0, 32, r.complete), (32, 32, r.incomplete)]).getD 0)

/-- A memory error on a die corrected in place is counted; the count saturates (R406). -/
def State.corrected (s : State) (d : Nat) : State := s.onDie d fun x => { x with ce := min (2 ^ 32 - 1) (x.ce + 1) }

/-! ## Reset and self-test (R409, R410) -/

/-- A save stands: the module lost its power after one. -/
def Rails.lost : Rails → Bool
  | .saved => true
  | .tripped => true
  | _ => false

/-- A consignment of which an emergency save holds waves, complete or not, and none has been restored (R411). -/
def State.atRest (s : State) (cid : Nat) : Bool :=
  s.saved.contains cid && !(s.waves.any fun e => e.2.cid == cid) && !(s.ctxs.any fun e => e.2.wave.cid == cid && !e.2.frozen)

/-- MODULE_RESET (R410): every register at its reset value and every self-test to be run. What memory holds stays, and so do the contexts that
an emergency save has written, and the consignments that the save's directory names (R411). -/
def execModuleReset (s : State) : Out :=
  let cons := s.cons.filter fun e => s.atRest e.1
  let ctxs := s.ctxs.filter fun (e : Nat × Context) => e.2.frozen && cons.any fun x => x.1 == e.2.wave.cid
  .next { State.reset with
    fresh := s.fresh
    nextId := s.nextId
    agenda := s.agenda
    mem := s.mem
    badMem := s.badMem
    looks := s.looks
    ctxs := ctxs
    cons := cons
    saved := s.saved }

/-- The unit exists. -/
def unitExists : SelfTestUnit → Bool
  | .core p => decide (p < 1536)
  | .router p => decide (p < 1536)
  | .engine p _ => decide (p < 1536)
  | .stack n => decide (n < 16)
  | .lpddr n => decide (n < 24)
  | .port n => decide (n < 24)
  | .service n => decide (n < 16)

/-- The number of an engine's bit (R409). -/
def engineBit (p : Nat) : Engine → Nat
  | .matrix => 4 * p
  | .copy => 4 * p + 1
  | .longVector => 4 * p + 2
  | .route => 4 * p + 3

/-- The ready map after unit `u` has passed. -/
def ReadyMap.pass (r : ReadyMap) : SelfTestUnit → ReadyMap
  | .core p => { r with good := insertNat r.good p }
  | .router _ => r
  | .engine p e => { r with engines := insertNat r.engines (engineBit p e) }
  | .stack n => { r with hbm := insertNat r.hbm n }
  | .lpddr n => { r with lpddr := insertNat r.lpddr n }
  | .port n => { r with ports := insertNat r.ports n }
  | .service n => { r with service := insertNat r.service n }

/-- The units that test themselves: 1,536 cores with a router and four engines each, 16 stacks, 24 channels, 24 ports and 16 service cores
(R409). -/
def unitCount : Nat := 1536 * 6 + 16 + 24 + 24 + 16

/-- A router that fails is in bypass, where it is never without power, and its core is not ready (R342, R410). -/
def State.routerTest (s : State) (u : SelfTestUnit) (passed : Bool) : State :=
  match u with
  | .router p =>
    if passed then s
    else { s with bypass := insertNat s.bypass p, routers := put s.routers p (.on s.now) }.setReady
      { s.ready with cores := eraseNat s.ready.cores p }
  | _ => s

/-- The matrix array of the unit has too few good rows (R227). -/
def State.barred (s : State) : SelfTestUnit → Bool
  | .engine p .matrix => !s.arrayGood p
  | _ => false

/-- An entry of the bring-up map: logical core `l` keeps physical core `l` unless that cannot be chosen because it is not ready; then it goes to
a ready core of the same die, or to none (R64; log 67). -/
def State.mapCore (s : State) (l : Nat) (p : Option Nat) : State :=
  let put_ := fun x => { s with bringup := put s.bringup l x }
  if 1536 ≤ l then s
  else if p = some l then { s with bringup := del s.bringup l }
  else if s.coreReady l then s
  else match p with
    | some q => if dieOf q = dieOf l ∧ s.coreReady q then put_ (some q) else s
    | none => put_ none

/-- An uncorrectable error appears in the sector of a storage key, or is repaired (R253; log 57). -/
def State.memError (s : State) (key : Nat) (on : Bool) : State :=
  { s with badMem := if on then insertNat s.badMem (key / 32) else eraseNat s.badMem (key / 32) }

/-- The core of a unit of which two tests make one bit: a core's bit stands for its partitions, its scratchpad and its router (R409). -/
def coreUnit : SelfTestUnit → Option Nat
  | .core p => some p
  | .router p => some p
  | _ => none

/-- A core's bit is set once its partitions and scratchpad and its router have passed; not with a router in bypass or where no route reaches it
(R341, R342, R409, R410). -/
def State.coreBit (s : State) (r : ReadyMap) (u : SelfTestUnit) : ReadyMap :=
  match coreUnit u with
  | some p =>
    if r.good.contains p && r.tested.contains (.router p) && !s.bypass.contains p && !(s.die (dieOf p)).noRoute.contains (p % 384)
    then { r with cores := insertNat r.cores p } else r
  | none => r

/-- SELF_TEST_DONE (R409, R410): a unit's bit is set when it passes; each unit finishes once, and DONE follows when all have. -/
def execSelfTestDone (u : SelfTestUnit) (passed : Bool) (s : State) : Out :=
  if !unitExists u || s.ready.tested.contains u then .next s
  else
    let s := s.routerTest u passed
    let r := if passed && !s.barred u then s.ready.pass u else s.ready
    let r := s.coreBit { r with tested := r.tested ++ [u] } u
    .next (s.setReady { r with done := r.done || decide (unitCount ≤ r.tested.length) })

/-! ## Restart after a save (R411) -/

/-- A wave counted in its tag's report. -/
def countWave (tag : Word) (whole : Bool) : List Restart → List Restart
  | [] => [⟨tag, whole.toNat, (!whole).toNat⟩]
  | r :: rs =>
    if r.tag = tag then { r with complete := r.complete + whole.toNat, incomplete := r.incomplete + (!whole).toNat } :: rs
    else r :: countWave tag whole rs

/-- The reports of the directory's first `k` entries for save number `n`. -/
def State.reportsOf (s : State) (n : Nat) : Nat → List Restart
  | 0 => []
  | k + 1 =>
    countWave (BitVec.ofNat 64 (s.num 8 (s.pc.esKey (64 + 32 * k)))) (s.num 4 (s.pc.esKey (64 + 32 * k + 28)) == n) (s.reportsOf n k)

/-- RESTART_AFTER_SAVE (R411): the firmware reads the directory at ESAVE and posts one report for each tag. -/
def execRestartAfterSave (s : State) : Out :=
  if s.rails ≠ .on ∨ s.num 4 (s.pc.esKey 0) ≠ 0x31445345 then .next s
  else .next { s with restarts := s.reportsOf (s.num 4 (s.pc.esKey 4)) (s.num 4 (s.pc.esKey 8)) }

/-- Consignments of a tag that a save holds. -/
def State.savedCons (s : State) (tag : Word) : List Nat :=
  (s.cons.filter fun e => e.2.man.tag == tag && s.atRest e.1).map Prod.fst

/-- A consignment's incomplete waves: the entries of it in the directory whose mark is not the header's number (R401, R411). -/
def State.incompleteOf (s : State) (cid : Nat) : Nat :=
  let n := s.num 4 (s.pc.esKey 4)
  (s.saved.zipIdx.filter fun e => e.1 == cid && s.num 4 (s.pc.esKey (64 + 32 * e.2 + 28)) != n).length

/-- A consignment that cannot be restored is recorded with status 1, by the queue registers as they stand then (R411; log 41). -/
def State.giveUpCons (s : State) (cid : Nat) : State :=
  match s.con cid with
  | none => s
  | some c =>
    let s := s.record cid { c with status := 1, killed := s.incompleteOf cid }
    { s with ctxs := s.ctxs.filter fun e => e.2.wave.cid != cid }

/-- A consignment restored when all of its waves are complete, and else given up (R411). -/
def State.restoreCons (s : State) (cid : Nat) : State :=
  if s.incompleteOf cid ≠ 0 then s.giveUpCons cid
  else { s with ctxs := s.ctxs.map fun (e : Nat × Context) => if e.2.wave.cid = cid then (e.1, { e.2 with frozen := false }) else e }

/-- RESTORE_REQUEST (R411): on a host's request each consignment of a tag that has a report is restored, or completed with status 1. -/
def execRestoreRequest (tag : Nat) (s : State) : Out :=
  let t : Word := BitVec.ofNat 64 tag
  if s.restarts.all fun r => r.tag != t then .next s
  else .next ((s.savedCons t).foldl State.restoreCons { s with restarts := s.restarts.filter fun x => x.tag != t })

/-! ## Dwenath (R412, R413) -/

/-- The three checks of the boot ROM, with the magic word and the length that the image carries (R412). -/
def imageGood (i : FirmwareImage) : Bool :=
  i.magicGood && i.length == i.body.length && (Config.mldsaVerifies i.key i.digest i.signature && shake256 i.key == Config.fusedKeyDigest)
    && i.digest == shake256 i.body && decide (Config.fusedVersion ≤ i.version)

/-- FIRMWARE_VERIFY (R412, R413): an accepted image runs and extends the measurement chain; a failing one leaves the module in recovery. -/
def execFirmwareVerify (image : FirmwareImage) (s : State) : Out :=
  let d := s.dwen
  if d.recovery then .next s
  else if !imageGood image then .next { s with dwen := { d with recovery := true } }
  else
    let last := d.chain.getLast?.getD (List.replicate 64 0)
    .next { s with dwen := { d with
      chain := d.chain ++ [shake256 (last ++ image.digest)]
      running := d.running ++ [image.version] } }

/-- Dwenath's identity public key, of 1,952 bytes (R413). -/
def identityKey : List Byte := (List.range 1952).map Config.identityByte

/-- The ML-DSA-65 signature of 3,309 bytes that its identity key makes (R412, R413). -/
def identitySign (report : List Byte) : List Byte := (List.range 3309).map (Config.signByte report)

/-- An attestation report: the nonce, M_0 and every later M, the security version, the serial number and the identity public key
(R413). -/
def Dwenath.reportFor (d : Dwenath) (nonce : List Byte) : List Byte :=
  nonce ++ List.replicate 64 0 ++ d.chain.flatten ++ toBytes 8 (d.running.getLast?.getD Config.fusedVersion) ++ Config.serialNumber
    ++ identityKey

/-- ATTESTATION_REQUEST (R413): a nonce of 32 bytes is answered with the report and its signature. -/
def execAttestationRequest (nonce : List Byte) (s : State) : Out :=
  if nonce.length ≠ 32 then .next s
  else
    let r := s.dwen.reportFor nonce
    .next { s with dwen := { s.dwen with report := some (r, identitySign r) } }

end Sys2Proof.Machine
end

