-- ==== Sys2Proof/Machine/Dispatch.lean ====
section
/-! DEFINITION. One arm per instruction or event. -/

namespace Sys2Proof.Machine

/-- The effect of one instruction or event on the state. -/
def exec (i : Instr) (s : State) : Host.Outcome State Fault Refusal :=
  match i with
  | .nop => Sys2Proof.Machine.execNop s
  | .yield => Sys2Proof.Machine.execYield s
  | .exit => Sys2Proof.Machine.execExit s
  | .trap n => Sys2Proof.Machine.execTrap n s
  | .xretRedo => Sys2Proof.Machine.execXretRedo s
  | .xretSkip => Sys2Proof.Machine.execXretSkip s
  | .settv off => Sys2Proof.Machine.execSettv off s
  | .sleep d imm => Sys2Proof.Machine.execSleep d imm s
  | .mfs d r => Sys2Proof.Machine.execMfs d r s
  | .mts d r => Sys2Proof.Machine.execMts d r s
  | .wait d imm => Sys2Proof.Machine.execWait d imm s
  | .add d a b => Sys2Proof.Machine.execAdd d a b s
  | .sub d a b => Sys2Proof.Machine.execSub d a b s
  | .mul d a b => Sys2Proof.Machine.execMul d a b s
  | .mulhI64 d a b => Sys2Proof.Machine.execMulhI64 d a b s
  | .mulhN64 d a b => Sys2Proof.Machine.execMulhN64 d a b s
  | .divI64 d a b => Sys2Proof.Machine.execDivI64 d a b s
  | .divN64 d a b => Sys2Proof.Machine.execDivN64 d a b s
  | .remI64 d a b => Sys2Proof.Machine.execRemI64 d a b s
  | .remN64 d a b => Sys2Proof.Machine.execRemN64 d a b s
  | .and d a b => Sys2Proof.Machine.execAnd d a b s
  | .or d a b => Sys2Proof.Machine.execOr d a b s
  | .xor d a b => Sys2Proof.Machine.execXor d a b s
  | .shl d a b => Sys2Proof.Machine.execShl d a b s
  | .shrN64 d a b => Sys2Proof.Machine.execShrN64 d a b s
  | .shrI64 d a b => Sys2Proof.Machine.execShrI64 d a b s
  | .minI64 d a b => Sys2Proof.Machine.execMinI64 d a b s
  | .minN64 d a b => Sys2Proof.Machine.execMinN64 d a b s
  | .maxI64 d a b => Sys2Proof.Machine.execMaxI64 d a b s
  | .maxN64 d a b => Sys2Proof.Machine.execMaxN64 d a b s
  | .clz d a => Sys2Proof.Machine.execClz d a s
  | .popc d a => Sys2Proof.Machine.execPopc d a s
  | .seq d a b => Sys2Proof.Machine.execSeq d a b s
  | .sne d a b => Sys2Proof.Machine.execSne d a b s
  | .sltI64 d a b => Sys2Proof.Machine.execSltI64 d a b s
  | .sltN64 d a b => Sys2Proof.Machine.execSltN64 d a b s
  | .sleI64 d a b => Sys2Proof.Machine.execSleI64 d a b s
  | .sleN64 d a b => Sys2Proof.Machine.execSleN64 d a b s
  | .scadd2 d a b => Sys2Proof.Machine.execScadd2 d a b s
  | .scadd4 d a b => Sys2Proof.Machine.execScadd4 d a b s
  | .scadd8 d a b => Sys2Proof.Machine.execScadd8 d a b s
  | .scadd16 d a b => Sys2Proof.Machine.execScadd16 d a b s
  | .addi d imm => Sys2Proof.Machine.execAddi d imm s
  | .muli d imm => Sys2Proof.Machine.execMuli d imm s
  | .andi d imm => Sys2Proof.Machine.execAndi d imm s
  | .ori d imm => Sys2Proof.Machine.execOri d imm s
  | .xori d imm => Sys2Proof.Machine.execXori d imm s
  | .shli d imm => Sys2Proof.Machine.execShli d imm s
  | .shriN64 d imm => Sys2Proof.Machine.execShriN64 d imm s
  | .shriI64 d imm => Sys2Proof.Machine.execShriI64 d imm s
  | .sltiI64 d imm => Sys2Proof.Machine.execSltiI64 d imm s
  | .sltiN64 d imm => Sys2Proof.Machine.execSltiN64 d imm s
  | .seqi d imm => Sys2Proof.Machine.execSeqi d imm s
  | .movi d imm => Sys2Proof.Machine.execMovi d imm s
  | .lim d imm => Sys2Proof.Machine.execLim d imm s
  | .adr d imm => Sys2Proof.Machine.execAdr d imm s
  | .lblk d imm => Sys2Proof.Machine.execLblk d imm s
  | .j off => Sys2Proof.Machine.execJ off s
  | .call off => Sys2Proof.Machine.execCall off s
  | .ret => Sys2Proof.Machine.execRet s
  | .jr a off => Sys2Proof.Machine.execJr a off s
  | .callr a off => Sys2Proof.Machine.execCallr a off s
  | .bz a off => Sys2Proof.Machine.execBz a off s
  | .bnz a off => Sys2Proof.Machine.execBnz a off s
  | .bltz a off => Sys2Proof.Machine.execBltz a off s
  | .bgez a off => Sys2Proof.Machine.execBgez a off s
  | .bgtz a off => Sys2Proof.Machine.execBgtz a off s
  | .blez a off => Sys2Proof.Machine.execBlez a off s
  | .callv t => Sys2Proof.Machine.execCallv t s
  | .lrun a b => Sys2Proof.Machine.execLrun a b s
  | .lwait n => Sys2Proof.Machine.execLwait n s
  | .chpub => Sys2Proof.Machine.execChpub s
  | .chsub tag a b => Sys2Proof.Machine.execChsub tag a b s
  | .chleave tag off => Sys2Proof.Machine.execChleave tag off s
  | .rdv tag a => Sys2Proof.Machine.execRdv tag a s
  | .ldsI8 d a off => Sys2Proof.Machine.execLdsI8 d a off s
  | .ldsN8 d a off => Sys2Proof.Machine.execLdsN8 d a off s
  | .ldsI16 d a off => Sys2Proof.Machine.execLdsI16 d a off s
  | .ldsN16 d a off => Sys2Proof.Machine.execLdsN16 d a off s
  | .ldsI32 d a off => Sys2Proof.Machine.execLdsI32 d a off s
  | .ldsN32 d a off => Sys2Proof.Machine.execLdsN32 d a off s
  | .lds64 d a off => Sys2Proof.Machine.execLds64 d a off s
  | .sts8 d a off => Sys2Proof.Machine.execSts8 d a off s
  | .sts16 d a off => Sys2Proof.Machine.execSts16 d a off s
  | .sts32 d a off => Sys2Proof.Machine.execSts32 d a off s
  | .sts64 d a off => Sys2Proof.Machine.execSts64 d a off s
  | .ldfe d a off => Sys2Proof.Machine.execLdfe d a off s
  | .stfe d a off => Sys2Proof.Machine.execStfe d a off s
  | .ldf d a off => Sys2Proof.Machine.execLdf d a off s
  | .tagset d a off => Sys2Proof.Machine.execTagset d a off s
  | .xlat d a => Sys2Proof.Machine.execXlat d a s
  | .phase ord sc => Sys2Proof.Machine.execPhase ord sc s
  | .fence pred succ => Sys2Proof.Machine.execFence pred succ s
  | .arrive sc a b => Sys2Proof.Machine.execArrive sc a b s
  | .await sc a b => Sys2Proof.Machine.execAwait sc a b s
  | .arriveWait sc a b => Sys2Proof.Machine.execArriveWait sc a b s
  | .bjoin a b => Sys2Proof.Machine.execBjoin a b s
  | .bleave a => Sys2Proof.Machine.execBleave a s
  | .waitaddr d a b => Sys2Proof.Machine.execWaitaddr d a b s
  | .wake a b => Sys2Proof.Machine.execWake a b s
  | .amoAdd d a ord sc => Sys2Proof.Machine.execAmoAdd d a ord sc s
  | .amoAnd d a ord sc => Sys2Proof.Machine.execAmoAnd d a ord sc s
  | .amoOr d a ord sc => Sys2Proof.Machine.execAmoOr d a ord sc s
  | .amoXor d a ord sc => Sys2Proof.Machine.execAmoXor d a ord sc s
  | .amoMinI64 d a ord sc => Sys2Proof.Machine.execAmoMinI64 d a ord sc s
  | .amoMinN64 d a ord sc => Sys2Proof.Machine.execAmoMinN64 d a ord sc s
  | .amoMaxI64 d a ord sc => Sys2Proof.Machine.execAmoMaxI64 d a ord sc s
  | .amoMaxN64 d a ord sc => Sys2Proof.Machine.execAmoMaxN64 d a ord sc s
  | .amoSwap d a ord sc => Sys2Proof.Machine.execAmoSwap d a ord sc s
  | .amoCas d a ord sc => Sys2Proof.Machine.execAmoCas d a ord sc s
  | .redAdd d a ord sc => Sys2Proof.Machine.execRedAdd d a ord sc s
  | .redAnd d a ord sc => Sys2Proof.Machine.execRedAnd d a ord sc s
  | .redOr d a ord sc => Sys2Proof.Machine.execRedOr d a ord sc s
  | .redXor d a ord sc => Sys2Proof.Machine.execRedXor d a ord sc s
  | .redMinI64 d a ord sc => Sys2Proof.Machine.execRedMinI64 d a ord sc s
  | .redMinN64 d a ord sc => Sys2Proof.Machine.execRedMinN64 d a ord sc s
  | .redMaxI64 d a ord sc => Sys2Proof.Machine.execRedMaxI64 d a ord sc s
  | .redMaxN64 d a ord sc => Sys2Proof.Machine.execRedMaxN64 d a ord sc s
  | .qinit d a b => Sys2Proof.Machine.execQinit d a b s
  | .qpush d imm => Sys2Proof.Machine.execQpush d imm s
  | .qpop d imm => Sys2Proof.Machine.execQpop d imm s
  | .launch a b => Sys2Proof.Machine.execLaunch a b s
  | .spawn d a b => Sys2Proof.Machine.execSpawn d a b s
  | .mxLoad a b => Sys2Proof.Machine.execMxLoad a b s
  | .mxStream a b => Sys2Proof.Machine.execMxStream a b s
  | .mxDist a b => Sys2Proof.Machine.execMxDist a b s
  | .mxMips a b => Sys2Proof.Machine.execMxMips a b s
  | .cpCopy a b => Sys2Proof.Machine.execCpCopy a b s
  | .cpGather a b => Sys2Proof.Machine.execCpGather a b s
  | .cpScatter a b => Sys2Proof.Machine.execCpScatter a b s
  | .cpTensor a b => Sys2Proof.Machine.execCpTensor a b s
  | .cpFill a b => Sys2Proof.Machine.execCpFill a b s
  | .lvMax a b => Sys2Proof.Machine.execLvMax a b s
  | .lvSumexp a b => Sys2Proof.Machine.execLvSumexp a b s
  | .lvSoftmax a b => Sys2Proof.Machine.execLvSoftmax a b s
  | .lvTopk a b => Sys2Proof.Machine.execLvTopk a b s
  | .lvSample a b => Sys2Proof.Machine.execLvSample a b s
  | .rtOpen a b => Sys2Proof.Machine.execRtOpen a b s
  | .rtRoute a b => Sys2Proof.Machine.execRtRoute a b s
  | .rtReturn a b => Sys2Proof.Machine.execRtReturn a b s
  | .rtctlBind a b => Sys2Proof.Machine.execRtctlBind a b s
  | .rtctlUnbind a b => Sys2Proof.Machine.execRtctlUnbind a b s
  | .rtctlHoldSet a b => Sys2Proof.Machine.execRtctlHoldSet a b s
  | .rtctlHoldClear a b => Sys2Proof.Machine.execRtctlHoldClear a b s
  | .rtctlReadySet a b => Sys2Proof.Machine.execRtctlReadySet a b s
  | .rtctlReadyClear a b => Sys2Proof.Machine.execRtctlReadyClear a b s
  | .rtctlConsume a b => Sys2Proof.Machine.execRtctlConsume a b s
  | .rtctlFlush a b => Sys2Proof.Machine.execRtctlFlush a b s
  | .vadd l => Sys2Proof.Machine.execVadd l s
  | .vsub l => Sys2Proof.Machine.execVsub l s
  | .vmul l => Sys2Proof.Machine.execVmul l s
  | .vmulh l => Sys2Proof.Machine.execVmulh l s
  | .vfma l => Sys2Proof.Machine.execVfma l s
  | .vmin l => Sys2Proof.Machine.execVmin l s
  | .vmax l => Sys2Proof.Machine.execVmax l s
  | .vabs l => Sys2Proof.Machine.execVabs l s
  | .vneg l => Sys2Proof.Machine.execVneg l s
  | .vand l => Sys2Proof.Machine.execVand l s
  | .vor l => Sys2Proof.Machine.execVor l s
  | .vxor l => Sys2Proof.Machine.execVxor l s
  | .vnot l => Sys2Proof.Machine.execVnot l s
  | .vshl l => Sys2Proof.Machine.execVshl l s
  | .vshr l => Sys2Proof.Machine.execVshr l s
  | .vclz l => Sys2Proof.Machine.execVclz l s
  | .vpopc l => Sys2Proof.Machine.execVpopc l s
  | .vcmpEq l => Sys2Proof.Machine.execVcmpEq l s
  | .vcmpNe l => Sys2Proof.Machine.execVcmpNe l s
  | .vcmpLt l => Sys2Proof.Machine.execVcmpLt l s
  | .vcmpLe l => Sys2Proof.Machine.execVcmpLe l s
  | .vcmpGt l => Sys2Proof.Machine.execVcmpGt l s
  | .vcmpGe l => Sys2Proof.Machine.execVcmpGe l s
  | .vcmpUn l => Sys2Proof.Machine.execVcmpUn l s
  | .vcmpOr l => Sys2Proof.Machine.execVcmpOr l s
  | .pand l => Sys2Proof.Machine.execPand l s
  | .por l => Sys2Proof.Machine.execPor l s
  | .pxor l => Sys2Proof.Machine.execPxor l s
  | .pandn l => Sys2Proof.Machine.execPandn l s
  | .pnot l => Sys2Proof.Machine.execPnot l s
  | .vmov l => Sys2Proof.Machine.execVmov l s
  | .vsel l => Sys2Proof.Machine.execVsel l s
  | .mvs l => Sys2Proof.Machine.execMvs l s
  | .vcvt l => Sys2Proof.Machine.execVcvt l s
  | .vpack l => Sys2Proof.Machine.execVpack l s
  | .vunpack l => Sys2Proof.Machine.execVunpack l s
  | .vcbset l => Sys2Proof.Machine.execVcbset l s
  | .vcbw l => Sys2Proof.Machine.execVcbw l s
  | .vscacc l => Sys2Proof.Machine.execVscacc l s
  | .vrcp l => Sys2Proof.Machine.execVrcp l s
  | .vrsqrt l => Sys2Proof.Machine.execVrsqrt l s
  | .vsqrt l => Sys2Proof.Machine.execVsqrt l s
  | .vexp2 l => Sys2Proof.Machine.execVexp2 l s
  | .vlog2 l => Sys2Proof.Machine.execVlog2 l s
  | .vsinpi l => Sys2Proof.Machine.execVsinpi l s
  | .vcospi l => Sys2Proof.Machine.execVcospi l s
  | .vtanh l => Sys2Proof.Machine.execVtanh l s
  | .vperm l => Sys2Proof.Machine.execVperm l s
  | .vpermX l => Sys2Proof.Machine.execVpermX l s
  | .vswap l => Sys2Proof.Machine.execVswap l s
  | .vbcast l => Sys2Proof.Machine.execVbcast l s
  | .vredAdd l => Sys2Proof.Machine.execVredAdd l s
  | .vredMin l => Sys2Proof.Machine.execVredMin l s
  | .vredMax l => Sys2Proof.Machine.execVredMax l s
  | .vscanAdd l => Sys2Proof.Machine.execVscanAdd l s
  | .vscanMin l => Sys2Proof.Machine.execVscanMin l s
  | .vscanMax l => Sys2Proof.Machine.execVscanMax l s
  | .vballot l => Sys2Proof.Machine.execVballot l s
  | .vrng l => Sys2Proof.Machine.execVrng l s
  | .vldp l => Sys2Proof.Machine.execVldp l s
  | .vstp l => Sys2Proof.Machine.execVstp l s
  | .vlds l => Sys2Proof.Machine.execVlds l s
  | .vsts l => Sys2Proof.Machine.execVsts l s
  | .vld l => Sys2Proof.Machine.execVld l s
  | .vst l => Sys2Proof.Machine.execVst l s
  | .vldGspad l => Sys2Proof.Machine.execVldGspad l s
  | .vstGspad l => Sys2Proof.Machine.execVstGspad l s
  | .laneAmoAdd l => Sys2Proof.Machine.execLaneAmoAdd l s
  | .laneAmoAnd l => Sys2Proof.Machine.execLaneAmoAnd l s
  | .laneAmoOr l => Sys2Proof.Machine.execLaneAmoOr l s
  | .laneAmoXor l => Sys2Proof.Machine.execLaneAmoXor l s
  | .laneAmoMin l => Sys2Proof.Machine.execLaneAmoMin l s
  | .laneAmoMax l => Sys2Proof.Machine.execLaneAmoMax l s
  | .laneAmoSwap l => Sys2Proof.Machine.execLaneAmoSwap l s
  | .laneAmoCas l => Sys2Proof.Machine.execLaneAmoCas l s
  | .laneAmoFadd l => Sys2Proof.Machine.execLaneAmoFadd l s
  | .laneRedAdd l => Sys2Proof.Machine.execLaneRedAdd l s
  | .laneRedAnd l => Sys2Proof.Machine.execLaneRedAnd l s
  | .laneRedOr l => Sys2Proof.Machine.execLaneRedOr l s
  | .laneRedXor l => Sys2Proof.Machine.execLaneRedXor l s
  | .laneRedMin l => Sys2Proof.Machine.execLaneRedMin l s
  | .laneRedMax l => Sys2Proof.Machine.execLaneRedMax l s
  | .laneRedFadd l => Sys2Proof.Machine.execLaneRedFadd l s
  | .vpop l => Sys2Proof.Machine.execVpop l s
  | .vexit l => Sys2Proof.Machine.execVexit l s
  | .xch l => Sys2Proof.Machine.execXch l s
  | .wqTailDoorbell q v => Sys2Proof.Machine.execWqTailDoorbell q v s
  | .controlRegisterWrite service addr size v => Sys2Proof.Machine.execControlRegisterWrite service addr size v s
  | .arbiterGrant => Sys2Proof.Machine.execArbiterGrant s
  | .dependenceReread q => Sys2Proof.Machine.execDependenceReread q s
  | .dispatch cid => Sys2Proof.Machine.execDispatch cid s
  | .wavePlacement die => Sys2Proof.Machine.execWavePlacement die s
  | .waveStart w => Sys2Proof.Machine.execWaveStart w s
  | .rowRelease w => Sys2Proof.Machine.execRowRelease w s
  | .spawnAnswer w => Sys2Proof.Machine.execSpawnAnswer w s
  | .consignmentSlotFree pcore cid => Sys2Proof.Machine.execConsignmentSlotFree pcore cid s
  | .consignmentCompletion cid => Sys2Proof.Machine.execConsignmentCompletion cid s
  | .partitionSwap pcore part => Sys2Proof.Machine.execPartitionSwap pcore part s
  | .forcedSwap pcore part => Sys2Proof.Machine.execForcedSwap pcore part s
  | .resultLanding w => Sys2Proof.Machine.execResultLanding w s
  | .operationRetire w ctr => Sys2Proof.Machine.execOperationRetire w ctr s
  | .specialFunctionComplete w => Sys2Proof.Machine.execSpecialFunctionComplete w s
  | .engineRingWrite pcore k => Sys2Proof.Machine.execEngineRingWrite pcore k s
  | .pipePopReport w q => Sys2Proof.Machine.execPipePopReport w q s
  | .pipePushReport w q => Sys2Proof.Machine.execPipePushReport w q s
  | .publishedArrival w => Sys2Proof.Machine.execPublishedArrival w s
  | .memberReport w => Sys2Proof.Machine.execMemberReport w s
  | .splitEntryWrite w => Sys2Proof.Machine.execSplitEntryWrite w s
  | .rdvArrival w => Sys2Proof.Machine.execRdvArrival w s
  | .rdvTimeout w => Sys2Proof.Machine.execRdvTimeout w s
  | .trapEntry w => Sys2Proof.Machine.execTrapEntry w s
  | .waveKill w cause => Sys2Proof.Machine.execWaveKill w cause s
  | .loadResponse k => Sys2Proof.Machine.execLoadResponse k s
  | .scratchpadRequestArrival k => Sys2Proof.Machine.execScratchpadRequestArrival k s
  | .homeRequestApply k => Sys2Proof.Machine.execHomeRequestApply k s
  | .hotnessClear stack r => Sys2Proof.Machine.execHotnessClear stack r s
  | .writeQueueDrain home line => Sys2Proof.Machine.execWriteQueueDrain home line s
  | .refusedRetry k => Sys2Proof.Machine.execRefusedRetry k s
  | .ticketDrop res => Sys2Proof.Machine.execTicketDrop res s
  | .tableWalk pcore aspace va => Sys2Proof.Machine.execTableWalk pcore aspace va s
  | .pageFaultService k present => Sys2Proof.Machine.execPageFaultService k present s
  | .operandLogReplay w => Sys2Proof.Machine.execOperandLogReplay w s
  | .accessErrorResponse k => Sys2Proof.Machine.execAccessErrorResponse k s
  | .shootdown aspace lo hi => Sys2Proof.Machine.execShootdown aspace lo hi s
  | .barrierArriveApply k => Sys2Proof.Machine.execBarrierArriveApply k s
  | .barrierJoinApply k => Sys2Proof.Machine.execBarrierJoinApply k s
  | .barrierLeaveApply k => Sys2Proof.Machine.execBarrierLeaveApply k s
  | .barrierEngineAdd k => Sys2Proof.Machine.execBarrierEngineAdd k s
  | .arriveAck k => Sys2Proof.Machine.execArriveAck k s
  | .waitaddrRequest k => Sys2Proof.Machine.execWaitaddrRequest k s
  | .waitaddrTimeout w => Sys2Proof.Machine.execWaitaddrTimeout w s
  | .wakeRequest k => Sys2Proof.Machine.execWakeRequest k s
  | .tagRequestApply k => Sys2Proof.Machine.execTagRequestApply k s
  | .engineInboxEntry k => Sys2Proof.Machine.execEngineInboxEntry k s
  | .copyCommandStart pcore eng => Sys2Proof.Machine.execCopyCommandStart pcore eng s
  | .chunkFetch pcore => Sys2Proof.Machine.execChunkFetch pcore s
  | .chunkCommit pcore => Sys2Proof.Machine.execChunkCommit pcore s
  | .commitErrorResponse pcore written => Sys2Proof.Machine.execCommitErrorResponse pcore written s
  | .scoreboardEntryRemove pcore => Sys2Proof.Machine.execScoreboardEntryRemove pcore s
  | .lvCommandFinish pcore => Sys2Proof.Machine.execLvCommandFinish pcore s
  | .mxLoadExecute pcore => Sys2Proof.Machine.execMxLoadExecute pcore s
  | .mxLoadEndError pcore => Sys2Proof.Machine.execMxLoadEndError pcore s
  | .passStart pcore => Sys2Proof.Machine.execPassStart pcore s
  | .rowEntersAligner pcore => Sys2Proof.Machine.execRowEntersAligner pcore s
  | .accRowWrite pcore => Sys2Proof.Machine.execAccRowWrite pcore s
  | .routedRowArrival k => Sys2Proof.Machine.execRoutedRowArrival k s
  | .batchDispatch pcore ch => Sys2Proof.Machine.execBatchDispatch pcore ch s
  | .routeFlushExpiry pcore ch => Sys2Proof.Machine.execRouteFlushExpiry pcore ch s
  | .unbindComplete pcore ch => Sys2Proof.Machine.execUnbindComplete pcore ch s
  | .rtOpenExecute pcore => Sys2Proof.Machine.execRtOpenExecute pcore s
  | .rtRouteExecute pcore => Sys2Proof.Machine.execRtRouteExecute pcore s
  | .returnAccept k => Sys2Proof.Machine.execReturnAccept k s
  | .tableTimeout pcore t => Sys2Proof.Machine.execTableTimeout pcore t s
  | .tableClose pcore t => Sys2Proof.Machine.execTableClose pcore t s
  | .translateOnCall w => Sys2Proof.Machine.execTranslateOnCall w s
  | .routerIdleGate pcore => Sys2Proof.Machine.execRouterIdleGate pcore s
  | .routerWake pcore => Sys2Proof.Machine.execRouterWake pcore s
  | .routeStitch die => Sys2Proof.Machine.execRouteStitch die s
  | .regionDescriptorWrite n v => Sys2Proof.Machine.execRegionDescriptorWrite n v s
  | .xchOfferArrival k => Sys2Proof.Machine.execXchOfferArrival k s
  | .xchValuesLand k => Sys2Proof.Machine.execXchValuesLand k s
  | .flitReceive port seq good => Sys2Proof.Machine.execFlitReceive port seq good s
  | .linkNakReplay port seq => Sys2Proof.Machine.execLinkNakReplay port seq s
  | .peerRetransmitTimeout m => Sys2Proof.Machine.execPeerRetransmitTimeout m s
  | .peerRequestArrival m seq op => Sys2Proof.Machine.execPeerRequestArrival m seq op s
  | .peerAck m seq => Sys2Proof.Machine.execPeerAck m seq s
  | .preemptionRequest pcore cids source => Sys2Proof.Machine.execPreemptionRequest pcore cids source s
  | .preemptStopDeadline pcore => Sys2Proof.Machine.execPreemptStopDeadline pcore s
  | .lateResponseToContext k => Sys2Proof.Machine.execLateResponseToContext k s
  | .contextRestore ctx pcore => Sys2Proof.Machine.execContextRestore ctx pcore s
  | .migrationRequest cid lcore target reason => Sys2Proof.Machine.execMigrationRequest cid lcore target reason s
  | .honourPointStop w => Sys2Proof.Machine.execHonourPointStop w s
  | .migrationDeadline cid lcore => Sys2Proof.Machine.execMigrationDeadline cid lcore s
  | .migrationMove cid lcore => Sys2Proof.Machine.execMigrationMove cid lcore s
  | .stubForward k => Sys2Proof.Machine.execStubForward k s
  | .tableUpdateAck pcore core => Sys2Proof.Machine.execTableUpdateAck pcore core s
  | .stubRetire pcore => Sys2Proof.Machine.execStubRetire pcore s
  | .telemetryFrame frame => Sys2Proof.Machine.execTelemetryFrame frame s
  | .telemetryStale => Sys2Proof.Machine.execTelemetryStale s
  | .pcCommit => Sys2Proof.Machine.execPcCommit s
  | .limitLoopPeriod => Sys2Proof.Machine.execLimitLoopPeriod s
  | .cadenceApply => Sys2Proof.Machine.execCadenceApply s
  | .shedParkDeadline w => Sys2Proof.Machine.execShedParkDeadline w s
  | .classRestore c => Sys2Proof.Machine.execClassRestore c s
  | .bandRatioChange band => Sys2Proof.Machine.execBandRatioChange band s
  | .timedWaitDeadline w => Sys2Proof.Machine.execTimedWaitDeadline w s
  | .energyUpdate incs => Sys2Proof.Machine.execEnergyUpdate incs s
  | .energyLoRead reader n => Sys2Proof.Machine.execEnergyLoRead reader n s
  | .energyHiRead reader n => Sys2Proof.Machine.execEnergyHiRead reader n s
  | .energy64Read reader n => Sys2Proof.Machine.execEnergy64Read reader n s
  | .tempSample pcore t => Sys2Proof.Machine.execTempSample pcore t s
  | .throttleRelease band => Sys2Proof.Machine.execThrottleRelease band s
  | .emergencySave => Sys2Proof.Machine.execEmergencySave s
  | .hardTrip => Sys2Proof.Machine.execHardTrip s
  | .moduleReset => Sys2Proof.Machine.execModuleReset s
  | .selfTestDone u passed => Sys2Proof.Machine.execSelfTestDone u passed s
  | .restartAfterSave => Sys2Proof.Machine.execRestartAfterSave s
  | .restoreRequest tag => Sys2Proof.Machine.execRestoreRequest tag s
  | .firmwareVerify image => Sys2Proof.Machine.execFirmwareVerify image s
  | .attestationRequest nonce => Sys2Proof.Machine.execAttestationRequest nonce s
  | .portRetrain port good => Sys2Proof.Machine.execPortRetrain port good s
  | .flitAck port seq => Sys2Proof.Machine.execFlitAck port seq s
  | .breakpointSet w j bp => Sys2Proof.Machine.execBreakpointSet w j bp s

end Sys2Proof.Machine
end

