-- ==== Sys2Proof/Machine/Turn.lean ====
section
/-! DEFINITION. What moves next: time, the fetch and issue of a wave's two streams, the turns that come from outside, and the turns
that the module itself may take (R51, R79, R95, R106-R113, R358, R361, R376, R390; log 1). -/

namespace Sys2Proof.Machine

/-! ## Fetch (R79, R95, R96) -/

/-- What a stream's next word is. -/
inductive Fetch where
  | word (w : Nat) (pub : Option Pub)
  | stale (pub : Pub)
  | wait
  | absent (va : Nat)
  | denied (va : Nat)
  | lost (va : Nat)

/-- Where the code at `va` lies: its page must allow execution, as the code heap's do (R27, R239; log 6). -/
def codePlace (s : State) (c : Cons) (p va : Nat) : Place :=
  match s.heapAt c va, c.dataAt va with
  | some a, _ => .at (storageKey a 0 0 0)
  | none, some _ => .violation
  | none, none => match translate s p c.aspace va with
    | .ok b pa _ a => if allows (c.mapped va a) .exec then .at (storageKey (pa + (va57 va - b)) a.pl a.hd a.hs) else .violation
    | _ => .fault

/-- The first of `n` bytes of code at `va` that cannot be read: its stack is not ready, or an uncorrectable error lies in it (R253, R410;
log 70). -/
def codeLost (s : State) (c : Cons) (p va n : Nat) : Option Nat :=
  ((List.range n).find? fun i => (codeKey s c p (va + i)).any fun k => s.lostBytes k 1).map fun i => va + i

/-- The bytes of a word fetched from memory. -/
def fetchAt (s : State) (c : Cons) (p va n : Nat) : Fetch :=
  match codePlace s c p va, codePlace s c p (va + n - 1) with
  | .at _, .at _ => match codeLost s c p va n with
    | some x => .lost x
    | none => .word (ofBytes (codeBytes s c p va n)) none
  | .fault, _ => .absent va
  | .at _, .fault => .absent (va + n - 1)
  | .violation, _ => .denied va
  | _, .violation => .denied (va + n - 1)

/-- A member of a width convoy has trapped at the published word at `pc`, and its handler has passed over it (log 20). -/
def Wave.skipped (w : Wave) (lane : Bool) (pc at_ : Nat) : Bool := w.widthMember && w.convoy.trapAt == some (lane, pc) && at_ != pc

/-- A member stands where the published word stood in its lead's stream, which may have passed over a word that trapped (R95). A lane word that
traps in its lead is not published, and R95 does not say when the block that it ends then ends in a member: in this model it ends at the next
published lane word that lies outside it (log 20). -/
def Wave.atPub (w : Wave) (lane : Bool) (b : LBlock) (q : Pub) : Wave :=
  if lane then w.setQueue (updBlock b.id (fun b => { b with pos := if b.start ≤ q.pc ∧ q.pc < b.start + b.count then q.pc - b.start else b.count })
    w.queue) else { w with spc := q.pc }

/-- The next word of the scalar stream: a member takes it from its FIFO, and in a width convoy it passes over one that its handler has
skipped (log 20). -/
def State.fetchS (s : State) (n : Nat) (w : Wave) (c : Cons) : Fetch :=
  if w.followsFifo then match w.pubReady (s.clk (coreOfWave n)) false with
    | none => .wait
    | some q => if w.skipped false q.pc w.spc then .stale q else .word q.word (some q)
  else fetchAt s c (coreOfWave n) w.spc 4

/-- The storage keys of lane word `k` in the copy of the placed function that owns it; `none` where it lies in the object (R29). -/
def State.heapKeys (s : State) (w : Wave) (c : Cons) (k : Nat) : Option (List Nat) :=
  (s.laneHeap w.cid c k).map fun a => (List.range 12).map fun i => storageKey (a + i) 0 0 0

/-- The next word of the lane stream, word `k` of `.lane`: in the copy of the placed function that owns it, or in the object (R29). -/
def State.fetchL (s : State) (n : Nat) (w : Wave) (c : Cons) (k : Nat) : Fetch :=
  if w.followsFifo then match w.pubReady (s.clk (coreOfWave n)) true with
    | none => .wait
    | some q => if w.skipped true q.pc k then .stale q else .word q.word (some q)
  else match s.heapKeys w c k with
    | some ks => if ks.any fun i => s.lostBytes i 1 then .lost (c.obj.laneAt k) else .word (ofBytes (ks.map (Memory.get s.mem))) none
    | none => fetchAt s c (coreOfWave n) (c.obj.laneAt k) 12

/-- `n` bytes of code at `va` fetched by core `p`: the walk, and the lines looked up at their home slices (R247). -/
def State.codeLooked (s : State) (p : Nat) (c : Cons) (va n : Nat) : State :=
  let t := if (s.heapAt c va).isSome then s else (s.walkedFor p c.aspace va).walkedFor p c.aspace (va + n - 1)
  t.missedKeys p ((List.range n).filterMap fun i => codeKey s c p (va + i))

/-- The scalar word at the head of a stream fetched (R247). -/
def State.lookedS (s : State) (n : Nat) (w : Wave) (c : Cons) : State := s.codeLooked (coreOfWave n) c w.spc 4

/-- Lane word `k` fetched. -/
def State.lookedL (s : State) (n : Nat) (w : Wave) (c : Cons) (k : Nat) : State := match s.heapKeys w c k with
  | some ks => s.missedKeys (coreOfWave n) ks
  | none => s.codeLooked (coreOfWave n) c (c.obj.laneAt k) 12

/-- A published instruction that is passed over. -/
def Wave.passOver (w : Wave) (q : Pub) : Wave := { w with convoy := { w.convoy with fifo := w.convoy.fifo.erase q, trapAt := none } }

/-- A fetch waits for its page (R241). -/
def State.fetchFault (s : State) (n : Nat) (w : Wave) (c : Cons) (lane : Bool) (va : Nat) : State :=
  let t := s.walkedFor (coreOfWave n) c.aspace va
  { t.setWave n { w with park := .pageFault lane va } with faults := t.faults ++ [.wave n c.aspace va] }

/-- A fetch answered with an error: its address is logged, and the wave takes the asynchronous trap of it at once, in place of the word that
it cannot fetch; after `xret` the word is fetched again (R253, R361, R410; log 70). -/
def State.fetchLost (s : State) (n : Nat) (w : Wave) (lane : Bool) (va : Nat) : State :=
  (s.logError n w.cid (some (syncOp w.spc (w.nextLpc w.queue))) [(0, va)] true true).takeTrap n
    ⟨5, lane, true, 0, BitVec.ofNat 64 va, 0, 0, none, none⟩

/-- Wave `n` has come to a trap between two states: it has entered its handler, it is killed, or a debugger holds it at the word. -/
def State.trapped (s t : State) (n : Nat) : Bool :=
  match s.wave n, t.wave n with
  | some w, some v => !w.ctl.hmode && v.ctl.hmode || v.life == .exiting true || v.life == .draining true || v.life == .halted
  | _, _ => false

/-- The fetch of a word is counted once, when the word issues or traps (R247). -/
def fetched (s : State) (n : Nat) (look : State → State) : Out → Out
  | .next t => .next (if t.fresh != s.fresh || s.trapped t n then look t else t)
  | r => r

/-! ## Issue -/

/-- A wave at a boundary of its scalar stream stops there for a pre-emption at a safe point (R370), for its unit's move (R376), or for the
shedding of its class (R390). -/
def State.boundary (s : State) (n : Nat) : State := ((s.safeStop n).honour n).shedPoint n

/-- The route-control form that word 0 of a message names, by its bits 49:46; a reserved one stays (R320). -/
def rtctlForm (a b : Nat) : Nat → Instr
  | 1 => .rtctlUnbind a b
  | 2 => .rtctlHoldSet a b
  | 3 => .rtctlHoldClear a b
  | 4 => .rtctlReadySet a b
  | 5 => .rtctlReadyClear a b
  | 6 => .rtctlConsume a b
  | 7 => .rtctlFlush a b
  | _ => .rtctlBind a b

/-- The instruction of a scalar word of wave `n`: the eight forms of `rtctl` share one word. -/
def State.refine (s : State) (n : Nat) (w : Wave) (i : Instr) : Instr :=
  match i with
  | .rtctlBind a b => rtctlForm a b ((w.readS s.fresh (s.clk (coreOfWave n)) a).toNat / 2 ^ 46 % 16)
  | i => i

/-- A lead's `rdv` is published when it completes, not when it begins its wait (R95, R101). -/
def State.waitsRdv (s : State) (n : Nat) : Bool := (s.wave n).any fun w => match w.park with
  | .rdvLead _ _ _ => true
  | _ => false

/-- After scalar word `x` of wave `n`, which was `w` before it and took state `s` to `t`: if the word issued, a lead publishes it and a
member goes on in its FIFO; then the wave is at a boundary. -/
def State.afterS (s t : State) (n : Nat) (w : Wave) (x : Nat) (pub : Option Pub) : State :=
  (if t.fresh = s.fresh then (s.abortedRet t n w x pub).getD t
    else match pub with
      | some q => t.followed n w q
      | none => if t.waitsRdv n then t
        else t.publish n w (s.isLead n w) (s.chanGen n) false x w.spc).boundary n

/-- After lane word `x`, word `k` of `.lane`. -/
def State.afterL (s t : State) (n : Nat) (w : Wave) (x k : Nat) (pub : Option Pub) : State :=
  if t.fresh = s.fresh then t
  else match pub with
    | some q => t.followed n w q
    | none => t.publish n w (s.isLead n w) (s.chanGen n) true x k

/-- The breakpoint of a wave at an address, under DEBUG (R358). -/
def Wave.breakAt (w : Wave) (c : Cons) (b : Breakpoint) : Option Nat :=
  if c.debug then (w.ctl.bps.find? fun e => e.2 == b).map Prod.fst else none

/-- Scalar word `x` at the head of the stream of wave `n` issues: the breakpoint, the checks of the word, its effect (R51, R358). -/
def issueS (s : State) (n : Nat) (w : Wave) (c : Cons) (x : Nat) (pub : Option Pub) : Out :=
  match w.breakAt c (.scalar w.spc) with
  | some k => .next (s.trapS n 0x0A (BitVec.ofNat 64 k) 0 0)
  | none => match decodeScalar x with
    | none => .next (s.trapS n 1 (BitVec.ofNat 64 x) 0 0)
    | some i => match exec (s.refine n w i) { s with cur := n } with
      | .next t => .next (s.afterS t n w x pub)
      | .fault r => .fault r
      | .refused r => .refused r

/-- Lane word `x`, word `k` of `.lane` in block `b`, issues. -/
def issueL (s : State) (n : Nat) (w : Wave) (c : Cons) (b : LBlock) (k x : Nat) (pub : Option Pub) : Out :=
  match w.breakAt c (.lane k) with
  | some i => .next (s.trapL n 0x0A (BitVec.ofNat 64 i) 0)
  | none => match decodeLane x with
    | none =>
      .next (s.trapL n 1 (BitVec.ofNat 64 (x / 2 ^ 32))
        (w.active s.fresh (s.clk (coreOfWave n)) b.mask (x / 2 ^ 80 % 64) (x.testBit 79)))
    | some i => match exec i { s with cur := n } with
      | .next t => .next (s.afterL t n w x k pub)
      | .fault r => .fault r
      | .refused r => .refused r

/-- The next scalar word of an active wave, now. A lead with a full channel FIFO is held (R97). -/
def scalarStep (s : State) (n : Nat) (w : Wave) (c : Cons) : Out :=
  if s.isLead n w && !w.ctl.hmode && s.fifoFull n w then .next (s.holdS n w .long)
  else match s.fetchS n w c with
    | .wait => .next (s.holdS n w .stream)
    | .stale q => .next (s.setWave n (w.passOver q))
    | .absent va => .next (s.fetchFault n w c false va)
    | .denied va => .next ((s.trapS n 4 (BitVec.ofNat 64 va) 0 0).walkedFor (coreOfWave n) c.aspace va)
    | .lost va => .next ((s.fetchLost n w false va).lookedS n w c)
    | .word x none => fetched s n (fun t => t.lookedS n w c) (issueS s n w c x none)
    | .word x (some q) =>
      let w := w.atPub false ⟨0, 0, 0, 0, 0, 0, 0, 0⟩ q
      issueS (s.setWave n w) n w c x (some q)

/-- An atomic with `.acq` that holds the lane stream looked at again. -/
def State.finishAcq (s : State) (n : Nat) (w : Wave) : State :=
  let t := (s.finishLaneAcq n w).onWave n fun w => { w with sched := { w.sched with holdL := .none } }
  if (t.wave n).any Wave.laneAcqOpen then s.holdL n w .long else t

/-- The next lane word of an active wave, now. An atomic with `.acq` holds the stream until it has acquired (R296). -/
def laneStep (s : State) (n : Nat) (w : Wave) (c : Cons) (b : LBlock) : Out :=
  let k := b.start + b.pos
  if w.laneAcqOpen then .next (s.finishAcq n w)
  else if s.isLead n w && !w.ctl.hmode && s.fifoFull n w then .next (s.holdL n w .long)
  else match s.fetchL n w c k with
    | .wait => .next (s.holdL n w .stream)
    | .stale q => .next (s.setWave n (w.passOver q))
    | .absent va => if w.park = .none then .next (s.fetchFault n w c true va) else .next (s.holdL n w .stall)
    | .denied va => .next ((s.trapL n 4 (BitVec.ofNat 64 va) 0).walkedFor (coreOfWave n) c.aspace va)
    | .lost va => .next ((s.fetchLost n w true va).lookedL n w c k)
    | .word x none => fetched s n (fun t => t.lookedL n w c k) (issueL s n w c b k x none)
    | .word x (some q) =>
      let w := w.atPub true b q
      match nextBlock w.queue with
      | some b => issueL (s.setWave n w) n w c b (b.start + b.pos) x (some q)
      | none => .next (s.holdL n w .stream)

/-- What a trial of a stream shows the scheduler: what holds the stream in cycle `clk`, and until when (R88, R108). -/
def Sched.heldAs (x y : Sched) (lane : Bool) (clk : Nat) : Sched :=
  if lane then { x with holdL := y.holdL, readyL := if y.holdL = .none then x.readyL else max (clk + 1) y.readyL }
  else { x with
    holdS := y.holdS, readyS := if y.holdS = .none then x.readyS else max (clk + 1) y.readyS
    spill := if y.holdS = .none then x.spill else y.spill }

/-- A wave tried without effect: whether its stream would issue is all that the scheduler learns (R108, R110). -/
def tried (s : State) (n : Nat) (lane : Bool) : Out → State
  | .next t => match t.wave n with
    | some v => s.onWave n fun w => { w with sched := w.sched.heldAs v.sched lane (s.clk (coreOfWave n)) }
    | none => s
  | _ => s

/-! ## Waits looked at again, and the readiness of a partition's waves (R108-R111) -/

/-- A wait that the wave itself looks at again, the scalar stream's own or the one that a handler has interrupted. -/
def State.pollWait (s : State) (n : Nat) (w : Wave) (under : Bool) : State :=
  match if under then w.under else w.park with
  | .rdvLead tag _ watch => if under then s else s.pollRdv n w tag watch
  | .atomic op sc => s.pollAtomic n w op sc under
  | .acquire sc => s.pollAcquire n w sc under
  | .launch op q m => s.pollLaunch n w op q m
  | .xlat => if under || decide (w.sched.readyS ≤ s.clk (coreOfWave n)) then s.setWave n (w.parkOver under) else s
  | _ => s

/-- The wait that a handler has interrupted, looked at again (R364). -/
def State.pollUnder (s : State) (n : Nat) : State := match s.wave n with
  | some w => if w.life = .running ∧ w.under ≠ .none then s.pollWait n w true else s
  | none => s

/-- Every wait of a running wave looked at again. -/
def State.pollAll (s : State) (n : Nat) : State :=
  let s := s.pollUnder n
  match s.wave n with
  | some w =>
    if w.life ≠ .running then s
    else if w.park ≠ .none then s.pollWait n w false
    else if w.laneAcqOpen ∧ (nextBlock w.queue).isNone then s.finishAcq n w
    else s
  | none => s

/-- The next word of a stream of wave `n` tried in this cycle, where nothing in the wave says that it comes later. -/
def State.lookAt (s : State) (n : Nat) (lane : Bool) : State :=
  let t := s.settle n
  match t.wave n with
  | none => s
  | some w => match t.con w.cid with
    | none => s
    | some c =>
      let clk := s.clk (coreOfWave n)
      if w.life ≠ .running then s
      else if lane then match nextBlock w.queue with
        | some b => if w.sched.readyL ≤ clk then tried s n true (laneStep t n w c b) else s
        | none => s
      else if w.park = .none ∧ w.sched.readyS ≤ clk then tried s n false (scalarStep t n w c) else s

/-- The waits and both streams of one wave looked at. -/
def State.lookBoth (s : State) (n : Nat) : State := ((s.pollAll n).lookAt n false).lookAt n true

/-- The waves of a partition looked at: which of them are ready in this cycle, and which are blocked (R108, R109). -/
def State.lookPart (s : State) (p i : Nat) : State := (s.inPart p i).foldl (fun s e => s.lookBoth e.1) s

/-! ## Time -/

/-- The wave has something to issue, as far as its last tries show (R108). -/
def Wave.wants (w : Wave) : Bool :=
  w.life == .running && (w.park == .none && w.sched.holdS == .none || w.sched.holdL == .none && (nextBlock w.queue).isSome)

/-- Since when band `b` has had a wave with a nonzero `ld` count, as time moves on from now (R392). -/
def State.noteLoads (s : State) (b : Nat) : State :=
  let x := s.band b
  let some_ := s.waves.any fun e => bandOf (coreOfWave e.1) == b && e.2.count .ld != 0
  { s with bands := put s.bands b { x with ldFrom := if some_ then x.ldFrom.or (some s.now) else none } }

/-- The wait of a pending wave begins when it becomes ready (R110). -/
def State.noteWaits (s : State) : State :=
  { s with waves := s.waves.map fun (e : Nat × Wave) =>
      if e.2.sched.active || e.2.wants then e
      else (e.1, { e.2 with sched := { e.2.sched with waiting := s.clk (coreOfWave e.1) } }) }

/-- A result for a scratchpad slot is due: another reader of the bytes would see it (R114, R308). -/
def Wave.slotDue (w : Wave) (clk : Nat) : Bool := w.pend.any fun l => decide (l.due ≤ clk) && match l.dest with
  | .spad _ _ _ => true
  | _ => false

/-- The slot results that are due land. -/
def State.landSlots (s : State) : State :=
  ((s.waves.filter fun e => e.2.slotDue (s.clk (coreOfWave e.1))).map Prod.fst).foldl State.settle s

/-- Time moves on towards tick `t`: the partitions with pending waves are looked at and the swaps that are due are made first (R110, R111),
and while a wave waits in a pending set no cycle is passed over, so that each cycle's swaps are made in it. -/
def State.passTime (s : State) (t : Nat) : State :=
  if t ≤ s.now then s
  else
    let s := (s.pendingParts.foldl (fun s e => s.lookPart e.1 e.2) s).dueSwaps
    let t := if s.pendingParts.isEmpty then t else min t (s.now + 4)
    let bs := (s.bands.map Prod.fst ++ s.waves.map fun e => bandOf (coreOfWave e.1)).dedup
    { bs.foldl State.noteLoads s with now := t }.noteWaits.landSlots

/-! ## The turns of a wave -/

/-- A wait that the wave itself looks at again, in its turn; what `xlat` stands for takes its time. -/
def State.pollPark (s : State) (n : Nat) (w : Wave) : State :=
  let s := if w.park = .xlat then s.passTime (s.tickOf (coreOfWave n) (max w.sched.readyS (s.clk (coreOfWave n)))) else s
  match s.wave n with
  | some w => s.pollWait n w false
  | none => s

/-- The cycle after the one in which a slot was last taken. -/
def afterBusy : Option Nat → Nat
  | some c => c + 1
  | none => 0

/-- Time moves on to the first cycle in which the wave's next scalar word may issue (R106). -/
def State.timeS (s : State) (n : Nat) (w : Wave) : State :=
  let p := coreOfWave n
  s.passTime (s.tickOf p (max (max w.sched.readyS (s.clk p)) (afterBusy (s.part p (partOfWave n)).busyS)))

/-- Time moves on to the first cycle in which the wave's next lane word may issue. -/
def State.timeL (s : State) (n : Nat) (w : Wave) : State :=
  let p := coreOfWave n
  s.passTime (s.tickOf p (max (max w.sched.readyL (s.clk p)) (afterBusy (s.part p (partOfWave n)).busyL)))

/-- The active wave of a list whose last issue in a stream is the oldest; a tie goes to the first at or after the rotating pointer
(R108). -/
def oldest (ptr : Nat) (last : Wave → Nat) : List (Nat × Wave) → Option (Nat × Wave)
  | [] => none
  | e :: es => match oldest ptr last es with
    | none => some e
    | some b =>
      let k := fun (x : Nat × Wave) => last x.2 * 24 + (x.1 % 24 + 24 - ptr % 24) % 24
      if k b < k e then some b else some e

/-- The active waves of a partition that have not been tried in this cycle, in their scalar streams. -/
def State.contestS (s : State) (p i : Nat) : List (Nat × Wave) :=
  (s.inPart p i).filter fun e => e.2.life == .running && e.2.sched.active && e.2.park == .none && decide (e.2.sched.readyS ≤ s.clk p)

/-- The same in their lane streams. -/
def State.contestL (s : State) (p i : Nat) : List (Nat × Wave) :=
  (s.inPart p i).filter fun e => e.2.life == .running && e.2.sched.active && (nextBlock e.2.queue).isSome && decide (e.2.sched.readyL ≤ s.clk p)

/-- The wave that R108 gives a partition's scalar slot next in this cycle, of those that may be ready. -/
def State.nextS (s : State) (p i : Nat) : Option (Nat × Wave) :=
  if s.clk p < afterBusy (s.part p i).busyS then none else oldest (s.clk p) (fun w => w.sched.lastS) (s.contestS p i)

/-- The same of its lane slot. -/
def State.nextL (s : State) (p i : Nat) : Option (Nat × Wave) :=
  if s.clk p < afterBusy (s.part p i).busyL then none else oldest (s.clk p) (fun w => w.sched.lastL) (s.contestL p i)

/-- Wave `n` has the scalar slot of its partition now (R108). -/
def State.hasS (s : State) (n : Nat) : Bool := (s.nextS (coreOfWave n) (partOfWave n)).map Prod.fst == some n

/-- Wave `n` has the lane slot. -/
def State.hasL (s : State) (n : Nat) : Bool := (s.nextL (coreOfWave n) (partOfWave n)).map Prod.fst == some n

/-- A finished row of the matrix engine is due at its accumulator row; it is written before the wave's own results of that cycle land, so
that those stay (R217, R222). -/
def State.rowDue (s : State) (p : Nat) : Bool := (dueRow (s.clk p) (s.core p).mx.pass).isSome

/-- What the next scalar word of active wave `n` does, where R108 gives it its partition's slot in this cycle. -/
def scalarNow (s : State) (n : Nat) : Option Out :=
  (s.wave n).bind fun w => (s.con w.cid).bind fun c =>
    if w.life = .running ∧ w.park = .none ∧ w.sched.active ∧ w.sched.readyS ≤ s.clk (coreOfWave n) ∧ s.hasS n then some (scalarStep s n w c)
    else none

/-- The same of its next lane word. -/
def laneNow (s : State) (n : Nat) : Option Out :=
  (s.wave n).bind fun w => (s.con w.cid).bind fun c => (nextBlock w.queue).bind fun b =>
    if w.life = .running ∧ w.sched.active ∧ w.sched.readyL ≤ s.clk (coreOfWave n) ∧ s.hasL n then some (laneStep s n w c b) else none

/-- The outcome of a stream is a trap of wave `n`. -/
def trapOf (s : State) (n : Nat) : Option Out → Option State
  | some (.next t) => if s.trapped t n then some t else none
  | _ => none

/-- The scalar turn of wave `n`: its results land, a held trap is taken, it stops where it has to, and else its next word issues if
R108 gives it the slot. Where its lane stream would trap in this cycle, that trap is taken and the scalar word does not issue (R360, R361). -/
def scalarTurn (n : Nat) (s : State) : Out :=
  match s.wave n with
  | none => .next s
  | some w =>
    if w.life ≠ .running then .next s
    else if w.park ≠ .none then .next (s.pollPark n w)
    else
      let s := (s.pollUnder n).timeS n w
      if s.rowDue (coreOfWave n) then execAccRowWrite (coreOfWave n) s
      else
      let s := ((s.settle n).takeHeld n).boundary n
      match s.wave n with
      | none => .next s
      | some v =>
        if v.life ≠ .running ∨ v.park ≠ .none ∨ s.clk (coreOfWave n) < v.sched.readyS then .next s
        else match s.con v.cid with
          | none => .next s
          | some c =>
            if !v.sched.active then .next (tried s n false (scalarStep s n v c))
            else if s.hasS n then match trapOf s n (laneNow s n) with
              | some t => .next t
              | none => scalarStep s n v c
            else .next s

/-- The lane turn of wave `n`. Where its scalar stream would trap in this cycle and its lane word does not, that trap is taken and the lane
word does not issue (R360). -/
def laneTurn (n : Nat) (s : State) : Out :=
  match s.wave n with
  | none => .next s
  | some w =>
    if w.life ≠ .running then .next s
    else if (nextBlock w.queue).isNone then .next (if w.laneAcqOpen then s.finishAcq n w else s)
    else
      let s := s.timeL n w
      if s.rowDue (coreOfWave n) then execAccRowWrite (coreOfWave n) s
      else
      let s := (s.settle n).takeHeld n
      match s.wave n with
        | none => .next s
        | some v => match s.con v.cid, nextBlock v.queue with
          | some c, some b =>
            if v.life ≠ .running ∨ s.clk (coreOfWave n) < v.sched.readyL then .next s
            else if !v.sched.active then .next (tried s n true (laneStep s n v c b))
            else if s.hasL n then
              let lane := laneStep s n v c b
              match trapOf s n (some lane), trapOf s n (scalarNow s n) with
              | none, some t => .next t
              | _, _ => lane
            else .next s
          | _, _ => .next s

/-! ## Turns -/

/-- A debugger lets a halted wave of a DEBUG consignment go on; a barrier wait that it gave up is asked for again (R279). -/
def State.resumeDebug (s : State) (n : Nat) : State :=
  match s.wave n with
  | none => s
  | some w =>
    let named := (s.core (coreOfWave n)).preempt.any fun x => x.waves.contains n
    if w.life = .halted ∧ (s.con w.cid).any Cons.debug ∧ !named ∧ (s.moveOf w).isNone ∧ s.rails = .on
    then ((s.setWave n { w with life := .restored }).askAgain n).resumeRestored else s

/-- A debugger takes or lets go of a DEBUG consignment (R358; log 44). -/
def State.holdDebug (s : State) (cid : Nat) (on : Bool) : State :=
  s.onCon cid fun c => if c.debug then { c with debugger := on } else c

/-- A sector leaves core `p`'s snapshot to make room; a later read of it is served from the home (R256, log 14). -/
def State.evictSector (s : State) (p x : Nat) : State := s.onCore p fun c => c.dropSector x

/-- A host's write to storage, looked up at the home slices (R247). -/
def State.hostWrite (s : State) (key : Nat) (bs : List Byte) : State :=
  (s.missedKeys 1536 ((List.range bs.length).map (key + ·))).write key bs

/-- The code heap's region is set; it begins at a page (R14, R27; log 6). -/
def State.setHeap (s : State) (base size : Nat) : State := { s with heap := { s.heap with base := base / 4096 * 4096, size := size } }

/-- The retransmission time is programmed; it can be 1 µs to 1 ms (R355, log 59). -/
def State.setRetryTime (s : State) (ns : Nat) : State := if 1000 ≤ ns ∧ ns ≤ 1000000 then { s with retryNs := ns } else s

/-- The service cores run verified firmware, and no image has failed (R412, R414; log 66). -/
def State.serviceUp (s : State) : Bool := s.dwen.running != [] && !s.dwen.recovery

/-- An event that the firmware of the service cores makes: placement, the fault relay, migration, pre-emption and what only service cores
write (R55, R57, R60, R76, R241, R242, R247, R343, R369, R376, R411, R414). -/
def byService : Instr → Bool
  | .arbiterGrant => true
  | .dependenceReread _ => true
  | .dispatch _ => true
  | .consignmentCompletion _ => true
  | .translateOnCall _ => true
  | .pageFaultService _ _ => true
  | .shootdown _ _ _ => true
  | .hotnessClear _ _ => true
  | .regionDescriptorWrite _ _ => true
  | .pcCommit => true
  | .breakpointSet _ _ _ => true
  | .preemptionRequest _ _ _ => true
  | .contextRestore _ _ => true
  | .migrationRequest _ _ _ _ => true
  | .migrationMove _ _ => true
  | .restartAfterSave => true
  | .restoreRequest _ => true
  | .controlRegisterWrite service _ _ _ => service
  | _ => false

/-- An event that comes from a host or a peer module, which recovery leaves without an answer (R412). -/
def fromOutside : Instr → Bool
  | .wqTailDoorbell _ _ => true
  | .controlRegisterWrite _ _ _ _ => true
  | .peerRequestArrival _ _ _ => true
  | _ => false

/-- An event that does not happen now: its maker does not run, or recovery lets nothing but I3C answer (R412; log 66). -/
def State.shuts (s : State) (i : Instr) : Bool := byService i && !s.serviceUp || fromOutside i && s.dwen.recovery

/-- A swap is made by the readiness of its cycle (R108, R110, R111). -/
def State.lookFor (s : State) : Instr → State
  | .partitionSwap p i => s.lookPart p i
  | .forcedSwap p i => s.lookPart p i
  | _ => s

/-- An event of the table, as it stands; an instruction word is none, and runs only in its wave's turn. -/
def eventTurn (i : Instr) (s : State) : Out :=
  if (encodeWord i).isSome || s.shuts i then .next s else exec i (s.lookFor i)

/-- What only the firmware of the service cores does. -/
def State.ifService (s : State) (t : State) : State := if s.serviceUp then t else s

/-- One turn. -/
def runTurn (t : Turn) (s : State) : Out :=
  match t with
  | .scalar n => scalarTurn n s
  | .lane n => laneTurn n s
  | .event i => eventTurn i s
  | .time k => .next (s.passTime (s.now + k))
  | .hostWrite key bs => .next (if s.dwen.recovery then s else s.hostWrite key bs)
  | .peerAnswer m q vals failed => .next (s.peerAnswer m q vals failed)
  | .setRoot a r => .next (s.ifService { s with roots := put s.roots a r })
  | .heapRegion b z => .next (s.ifService (s.setHeap b z))
  | .retryTime ns => .next (s.ifService (s.setRetryTime ns))
  | .debugResume n => .next (s.ifService (s.resumeDebug n))
  | .debugHold cid on => .next (s.ifService (s.holdDebug cid on))
  | .evict p x => .next (s.evictSector p x)
  | .lvRead p => .next (s.readLv p)
  | .memError k on => .next (s.memError k on)
  | .corrected d => .next (s.corrected d)
  | .controlRead sv a => .next (if sv && !s.serviceUp then s else s.controlRead sv a)
  | .tempRead p => .next (s.tempRead p)
  | .restartRead tag => .next (s.restartRead tag)
  | .mapCore l p => .next (s.ifService (s.mapCore l p))
  | .rowFault p r => .next (s.rowFault p r)

/-! ## What the module may do next by itself (log 1) -/

/-- Something that may happen next. -/
abbrev Move := State → Out

/-- The scalar turns of partition `i` of core `p` in this cycle: the wave whose turn it is, waits to be looked at again, and pending
waves to be tried. -/
def State.scalarMoves (s : State) (p i : Nat) : List Move :=
  let clk := s.clk p
  let ws := (s.inPart p i).filter fun e => e.2.life == .running
  let go := ws.filter fun e => e.2.park == .none && decide (e.2.sched.readyS ≤ clk)
  ((s.nextS p i).toList ++ ws.filter (fun e => e.2.park != .none || e.2.under != .none) ++ go.filter fun e => !e.2.sched.active && e.2.sched.holdS != .none).map
    fun e => scalarTurn e.1

/-- The lane turns of a partition in this cycle. -/
def State.laneMoves (s : State) (p i : Nat) : List Move :=
  let clk := s.clk p
  let ws := (s.inPart p i).filter fun e => e.2.life == .running
  let go := ws.filter fun e => (nextBlock e.2.queue).isSome && decide (e.2.sched.readyL ≤ clk)
  ((s.nextL p i).toList ++ ws.filter (fun e => e.2.laneAcqOpen && (nextBlock e.2.queue).isNone)
    ++ go.filter fun e => !e.2.sched.active && e.2.sched.holdL != .none).map fun e => laneTurn e.1

/-- What may happen to one wave. -/
def waveMoves (n : Nat) (w : Wave) : List Move :=
  [execWaveStart n, execRowRelease n, execTrapEntry n, execResultLanding n, execSpecialFunctionComplete n,
    execPublishedArrival n, execMemberReport n,
    execSplitEntryWrite n, execRdvArrival n, execRdvTimeout n, execWaitaddrTimeout n, execSpawnAnswer n,
    execOperandLogReplay n, execTimedWaitDeadline n, execShedParkDeadline n, execHonourPointStop n]
    ++ [0, 1, 2, 3, 4].map (execOperationRetire n)
    ++ w.rings.flatMap fun e => [execPipePushReport n e.1, execPipePopReport n e.1]

/-- What may happen to request `k` on its way. -/
def reqMoves (k : Nat) : List Move :=
  [execHomeRequestApply k, execScratchpadRequestArrival k, execTagRequestApply k, execRefusedRetry k, execBarrierArriveApply k,
    execBarrierJoinApply k, execBarrierLeaveApply k, execBarrierEngineAdd k, execWaitaddrRequest k, execWakeRequest k, execStubForward k]

/-- What may happen to answer `k` on its way back. -/
def respMoves (k : Nat) : List Move :=
  [execLoadResponse k, execAccessErrorResponse k, execArriveAck k, execLateResponseToContext k]

/-- Homes answer a chunk's writes with errors; which of its other bytes stay written is free (R264; log 2). -/
def commitError (p : Nat) : Move := fun s =>
  execCommitErrorResponse p ((List.range 4096).filter fun i => Config.seesNew s.fresh i) s

/-- What may happen at one core: its partitions, its engines, its slots, its stubs and its route tables. -/
def coreMoves (p : Nat) (c : Core) : List Move :=
  [execScoreboardEntryRemove p, execChunkFetch p, execChunkCommit p, commitError p, execCopyCommandStart p .copy, execCopyCommandStart p .longVector,
    (fun s => .next (s.readLv p)), execLvCommandFinish p, execMxLoadExecute p, execMxLoadEndError p, execPassStart p, execRowEntersAligner p, execAccRowWrite p,
    execRtOpenExecute p, execRtRouteExecute p, execPreemptStopDeadline p, execStubRetire p]
    ++ (List.range 4).flatMap (fun i => [fun s => execPartitionSwap p i (s.lookPart p i), fun s => execForcedSwap p i (s.lookPart p i)])
    ++ (List.range c.mx.held.length).map (execEngineRingWrite p)
    ++ c.rt.chans.flatMap (fun e => [execRouteFlushExpiry p e.1, execUnbindComplete p e.1, execBatchDispatch p e.1])
    ++ c.rt.tables.flatMap (fun e => [execTableTimeout p e.1, execTableClose p e.1])
    ++ c.slots.map (fun x => execConsignmentSlotFree p x.cid)
    ++ c.snap.map (fun x => fun s => .next (s.evictSector p x.1))
    ++ c.stubs.flatMap fun x => x.unacked.map fun q => execTableUpdateAck p q

/-- What the firmware of the service cores may do (R414). -/
def State.serviceMoves (s : State) : List Move :=
  [execArbiterGrant]
    ++ s.queues.map (fun e => execDependenceReread e.1)
    ++ s.cons.flatMap (fun e => [execDispatch e.1, execConsignmentCompletion e.1])
    ++ s.waves.map (fun e => execTranslateOnCall e.1)
    ++ s.moves.map (fun m => execMigrationMove m.cid m.lcore)
    ++ s.ctxs.flatMap (fun e => s.ready.cores.map (execContextRestore e.1))

/-- What may happen to the placement engines, the fabric and the moves. -/
def State.sharedMoves (s : State) : List Move :=
  [execWavePlacement 0, execWavePlacement 1, execWavePlacement 2, execWavePlacement 3]
    ++ s.wqs.map (fun e => execWriteQueueDrain e.1 e.2.1)
    ++ s.tickets.map (fun e => execTicketDrop e.1)
    ++ (List.range s.offers.length).flatMap (fun k => [execXchOfferArrival k, execXchValuesLand k])
    ++ (List.range s.routeMsgs.length).flatMap (fun k => [execRoutedRowArrival k, execReturnAccept k])
    ++ (List.range s.held.length).map execEngineInboxEntry
    ++ s.moves.map (fun m => execMigrationDeadline m.cid m.lcore)
    ++ s.routers.flatMap (fun e => [execRouterIdleGate e.1, execRouterWake e.1])
    ++ s.peers.map fun e => execPeerRetransmitTimeout e.1

/-- What the power controller may do. -/
def State.powerMoves (s : State) : List Move :=
  [execTelemetryStale, execLimitLoopPeriod, execCadenceApply, execEmergencySave] ++ s.pc.shed.map execClassRestore
    ++ s.bands.flatMap fun e => [execBandRatioChange e.1, execThrottleRelease e.1]

/-- Time passes by a third of a cycle at ratio 1. -/
def idle (s : State) : Out := .next (s.passTime (s.now + 4))

/-- Everything that may come next; that time passes is always among it. -/
def State.allMoves (s : State) : List Move :=
  (s.waves.map fun e => coreOfWave e.1).dedup.flatMap (fun p => (List.range 4).flatMap fun i => s.scalarMoves p i ++ s.laneMoves p i)
    ++ s.waves.flatMap (fun e => waveMoves e.1 e.2) ++ (List.range s.reqs.length).flatMap reqMoves
    ++ (List.range s.resps.length).flatMap respMoves ++ s.cores.flatMap (fun e => coreMoves e.1 e.2) ++ s.sharedMoves
    ++ (if s.serviceUp then s.serviceMoves else []) ++ s.powerMoves
    ++ [idle]

/-- The one that a free value picks (log 1). -/
def State.freeMove (s : State) : Move := s.allMoves.getD (Config.pick s.fresh % s.allMoves.length) idle

/-- One step: the turn at the head of the agenda, or with none something that the module does by itself; without power nothing happens by
itself (R399, R401). -/
def nextStep (s : State) : Out :=
  match s.agenda with
  | t :: ts => runTurn t { s with agenda := ts }
  | [] => if s.rails.lost then .fault .noPower else s.freeMove s.bumpFresh

end Sys2Proof.Machine
end

