-- ==== Sys2Proof/Machine/Step.lean ====
section
/-! DEFINITION. One step of the module, and a machine that is about to run one given instruction word. -/

namespace Sys2Proof.Machine

/-- One step of the module: its turn, after which the packets that have set out in it wake the routers on their way (R347). -/
def step (s : State) : Host.Outcome State Fault Refusal :=
  match nextStep s with
  | .next t => .next (s.wakeRoutes t)
  | r => r

/-! ## A module about to run one word (log 9) -/

/-- The footprint of the wave that runs the word. -/
def fetchFp : Footprint := ⟨192, 128, 384, 64, 65536, 4096⟩

/-- The consignment of that wave: one wave of 64 lanes, with `.scalar` at 0x11000 and `.lane` at 0x12000. -/
def fetchCons : Cons where
  queue := 0
  qslot := 0
  aspace := 0
  man := ⟨0x10000, 0, 64, 0, 0, 1, 64, 0, 0, 0, 0, 0, 0, 0, fetchFp, 0, 0, 0, [], [], 0⟩
  obj := ⟨0x10000, 0, 64, 0, fetchFp, [(1, (0x1000, 0x1000)), (2, (0x2000, 0xC00))]⟩
  dataBase := none
  lct := []
  stage := .placed
  placedG := [0]
  total := 1
  live := 1
  exited := 0
  killed := 0
  error := false
  debugger := false
  status := 0
  since := 0
  gangCids := []
  handled := []
  blocks := []

/-- Page tables of three levels at 0x40000000 that map the first GiB onto itself, readable, writable and executable. -/
def fetchTables : List Host.Cell :=
  let entry := fun pa v => ((toBytes 8 v).zipIdx).map fun b => ((storageKey pa 0 0 0 + b.2, b.1) : Host.Cell)
  entry 0x40000000 (1 + 0x40001 * 2 ^ 16) ++ entry 0x40001000 (1 + 0x40002 * 2 ^ 16) ++ entry 0x40002000 31

/-- Wave 0, started and active; for a lane word its lane queue holds a block of that one word, which has issued before the wave's next scalar
word. -/
def fetchWave (s : State) (lane : Bool) : Wave :=
  { bornWave fetchCons 0 0 ⟨0, 0, 0, 0, 0, 0⟩ 64 0 0 0 none with
    life := .running
    laneQ := if lane then [⟨0, 0, 1, 0, 0, 0, BitVec.allOnes 64, 0⟩] else []
    sched := ⟨true, s.clk 0, s.clk 0, s.clk 0, s.clk 0, s.clk 0 + lane.toNat, s.clk 0, .none, .none, 0, 0, none⟩ }

/-- The machine with a word of `nbits` bits where its next step fetches: wave 0 of core 0 runs, its code holds the word, and its turn
comes next. A word of at most 32 bits is a scalar word, a longer one a lane word (log 9). -/
def State.withFetchWord (s : State) (nbits w : Nat) : State :=
  let lane := decide (32 < nbits)
  let code := if lane then (toBytes 12 w).zipIdx.map fun b => ((storageKey (0x12000 + b.2) 0 0 0, b.1) : Host.Cell)
    else (toBytes 4 w).zipIdx.map fun b => ((storageKey (0x11000 + b.2) 0 0 0, b.1) : Host.Cell)
  let leases : List Lease := ⟨0, 0, 0, 0, false⟩ :: (List.range 16).map fun g => ⟨4, g, 0, 0, false⟩
  let core := { s.core 0 with leases := leases, slots := [⟨0, 0, 0, 0, 0⟩], tlb := [], preempt := [] }
  let ready := { s.ready with cores := [0], engines := [0, 1, 2, 3], hbm := List.range 16, done := true, was := none }
  { s with
    rails := .on
    mem := Memory.setCells s.mem (fetchTables ++ code)
    roots := put s.roots 0 0x40000000
    cons := put s.cons 0 fetchCons
    waves := put s.waves 0 (fetchWave s lane)
    cores := put s.cores 0 core
    ready := ready
    moves := []
    agenda := (if lane then .lane 0 else .scalar 0) :: s.agenda }

end Sys2Proof.Machine
end

