-- ==== Sys2Proof/Safety.lean ====
section
/-! DEFINITION. The terms that claims use: the sound form of a state, when a word of a wave may have its effect, and what a word leaves
unchanged. -/

namespace Sys2Proof.Machine

/-- The module's memory is in canonical form. -/
def State.memOk (s : State) : Bool := Memory.wf s.mem

/-- The numbers of the full words stand in ascending order, each once. -/
def State.tagsOk (s : State) : Bool := decide (s.full.Pairwise (· < ·))

/-! ## Scalar words -/

/-- The current wave and its consignment, where a scalar word that names the registers `fields`, reads `reads` and writes `dst` (with its
latency) passes the checks of R51 and R118: every register name is legal, and under DEBUG nothing is read too early. -/
def scalarReady (s : State) (fields reads : List Nat) (dst : Option (Nat × Nat)) : Option (Wave × Cons) :=
  match s.wave s.cur with
  | none => none
  | some w => match s.con w.cid with
    | none => none
    | some c =>
      if fields.all w.sOk && (!c.debug || (w.hazardS s.clkCur reads dst).isNone) then some (w, c) else none

/-- The wave keeps everything but its results in flight, its scalar PC and what the scheduler notes. -/
def Wave.onlySends (w v : Wave) : Prop := v = { w with pend := v.pend, spc := v.spc, edge := v.edge, sched := v.sched }

/-- State `t` differs from `s` at most in wave `n`, in which partition slot was taken last on that wave's core, and in the counters of
fresh numbers: memory, tags and every other part of the module are the same. -/
def State.onlyWave (s t : State) (n : Nat) : Prop :=
  (∀ m, m ≠ n → t.wave m = s.wave m) ∧
  (∀ p, p ≠ coreOfWave n → t.core p = s.core p) ∧
  { t.core (coreOfWave n) with parts := [] } = { s.core (coreOfWave n) with parts := [] } ∧
  t = { s with waves := t.waves, cores := t.cores, fresh := t.fresh, nextId := t.nextId }

/-! ## Lane words -/

/-- How a lane word of layout A uses its fields: the uses of d, a, b and c, whether imm carries slot indices (R38), whether it stands for
operand b (R40), the lanes in which the first source is read, and the latency. -/
structure LaneUse where
  d   : FUse
  a   : FUse
  b   : FUse
  c   : FUse
  idx : Bool
  imB : Bool
  rd  : Word → Word
  lat : Nat

/-- A slot index of field `j`, of d, a, b and c in the order 3, 0, 1, 2 (R38). -/
def LaneUse.slot (u : LaneUse) (l : LaneA) (j : Nat) : Nat := if u.idx then l.imm / 256 ^ j % 256 else 0

/-- What the next lane word of the current wave sees when it passes every check and nothing holds it: legal operands (R37), ring slots that
are there as the cycle began (R124, R130), no fence and no access ahead of it at a slot (R268, R298, R308), and under DEBUG no early read, where
it reads the bits `rfld` of its first source and writes the bits `fld` of each slice (R118, R171). -/
def laneReady (s : State) (l : LaneA) (u : LaneUse) (fld : W32 := BitVec.allOnes 32) (rfld : W32 := BitVec.allOnes 32) : Option LaneCtx :=
  let ub := if u.imB then .none else u.b
  match s.wave s.cur with
  | none => none
  | some w => match s.con w.cid, nextBlock w.queue with
    | some c, some blk =>
      let n := s.cur
      let v := w.seen s.clkCur
      let fields := [(u.d, l.d, if u.idx then l.imm / 256 ^ 3 else 0), (u.a, l.a, u.slot l 0), (ub, l.b, u.slot l 1), (u.c, l.c, u.slot l 2)]
      let k : LaneCtx := ⟨n, w, c, blk, w.active s.fresh s.clkCur blk.mask l.pred l.neg, s.fresh, s.clkCur,
        v.dstOf n u.d l.d (if u.idx then l.imm / 256 ^ 3 else 0), v.srcOf n blk u.a l.a (u.slot l 0),
        (if u.imB then .imm (BitVec.ofNat 32 l.imm) else v.srcOf n blk ub l.b (u.slot l 1)), v.srcOf n blk u.c l.c (u.slot l 2), s.rowsAimed n⟩
      if fields.all (fun f => (v.badField n blk f.1 f.2.1 f.2.2).isNone && !v.waits n blk f.1 f.2.1 f.2.2) && !w.pipeFull k.d && !k.held s
          && (!c.debug || (k.hazard l.pred [(u.d, l.d), (u.a, l.a), (ub, l.b), (u.c, l.c)] (u.lat + k.late) (u.rd k.act) fld rfld).isNone)
      then some k else none
    | _, _ => none

end Sys2Proof.Machine
end

