-- ==== Sys2Proof/WellFormed.lean ====
section
/-! DEFINITION. Which instructions an encoding exists for: every field fits its bits (R32, R36) and no check of
R51 that looks at the word alone fails. -/

namespace Sys2Proof

/-- An integer that fits `k` bits in two's complement. -/
def signed (k : Nat) (i : Int) : Bool := decide (-(2 ^ (k - 1) : Int) ≤ i) && decide (i < 2 ^ (k - 1))

/-- The widths of R36 in layout A. -/
def LaneA.widths (l : LaneA) : Bool :=
  decide (l.pred < 64) && decide (l.d < 512) && decide (l.a < 512) && decide (l.b < 512) && decide (l.c < 512)
    && decide (l.imm < 4294967296)

/-- The widths of R36 in layout M. -/
def LaneM.widths (l : LaneM) : Bool :=
  decide (l.pred < 64) && decide (l.d < 512) && decide (l.a < 512) && decide (l.b < 512) && decide (l.c < 512)
    && decide (l.imm < 4294967296)

/-- Every field fits the bits R32 and R36 give it; an event has no fields to encode. -/
def Instr.widths : Instr → Bool
  | .trap n => decide (n < 32768)
  | .settv off => signed 24 off
  | .sleep d imm => decide (d < 512) && decide (imm < 32768)
  | .mfs d _ => decide (d < 512)
  | .mts d _ => decide (d < 512)
  | .wait d imm => decide (d < 512) && decide (imm < 32768)
  | .add d a b => decide (d < 512) && decide (a < 512) && decide (b < 64)
  | .sub d a b => decide (d < 512) && decide (a < 512) && decide (b < 64)
  | .mul d a b => decide (d < 512) && decide (a < 512) && decide (b < 64)
  | .mulhI64 d a b => decide (d < 512) && decide (a < 512) && decide (b < 64)
  | .mulhN64 d a b => decide (d < 512) && decide (a < 512) && decide (b < 64)
  | .divI64 d a b => decide (d < 512) && decide (a < 512) && decide (b < 64)
  | .divN64 d a b => decide (d < 512) && decide (a < 512) && decide (b < 64)
  | .remI64 d a b => decide (d < 512) && decide (a < 512) && decide (b < 64)
  | .remN64 d a b => decide (d < 512) && decide (a < 512) && decide (b < 64)
  | .and d a b => decide (d < 512) && decide (a < 512) && decide (b < 64)
  | .or d a b => decide (d < 512) && decide (a < 512) && decide (b < 64)
  | .xor d a b => decide (d < 512) && decide (a < 512) && decide (b < 64)
  | .shl d a b => decide (d < 512) && decide (a < 512) && decide (b < 64)
  | .shrN64 d a b => decide (d < 512) && decide (a < 512) && decide (b < 64)
  | .shrI64 d a b => decide (d < 512) && decide (a < 512) && decide (b < 64)
  | .minI64 d a b => decide (d < 512) && decide (a < 512) && decide (b < 64)
  | .minN64 d a b => decide (d < 512) && decide (a < 512) && decide (b < 64)
  | .maxI64 d a b => decide (d < 512) && decide (a < 512) && decide (b < 64)
  | .maxN64 d a b => decide (d < 512) && decide (a < 512) && decide (b < 64)
  | .clz d a => decide (d < 512) && decide (a < 512)
  | .popc d a => decide (d < 512) && decide (a < 512)
  | .seq d a b => decide (d < 512) && decide (a < 512) && decide (b < 64)
  | .sne d a b => decide (d < 512) && decide (a < 512) && decide (b < 64)
  | .sltI64 d a b => decide (d < 512) && decide (a < 512) && decide (b < 64)
  | .sltN64 d a b => decide (d < 512) && decide (a < 512) && decide (b < 64)
  | .sleI64 d a b => decide (d < 512) && decide (a < 512) && decide (b < 64)
  | .sleN64 d a b => decide (d < 512) && decide (a < 512) && decide (b < 64)
  | .scadd2 d a b => decide (d < 512) && decide (a < 512) && decide (b < 64)
  | .scadd4 d a b => decide (d < 512) && decide (a < 512) && decide (b < 64)
  | .scadd8 d a b => decide (d < 512) && decide (a < 512) && decide (b < 64)
  | .scadd16 d a b => decide (d < 512) && decide (a < 512) && decide (b < 64)
  | .addi d imm => decide (d < 512) && signed 15 imm
  | .muli d imm => decide (d < 512) && signed 15 imm
  | .andi d imm => decide (d < 512) && signed 15 imm
  | .ori d imm => decide (d < 512) && signed 15 imm
  | .xori d imm => decide (d < 512) && signed 15 imm
  | .shli d imm => decide (d < 512) && decide (imm < 32768)
  | .shriN64 d imm => decide (d < 512) && decide (imm < 32768)
  | .shriI64 d imm => decide (d < 512) && decide (imm < 32768)
  | .sltiI64 d imm => decide (d < 512) && signed 15 imm
  | .sltiN64 d imm => decide (d < 512) && signed 15 imm
  | .seqi d imm => decide (d < 512) && signed 15 imm
  | .movi d imm => decide (d < 512) && signed 15 imm
  | .lim d imm => decide (d < 512) && decide (imm < 32768)
  | .adr d imm => decide (d < 512) && signed 15 imm
  | .lblk d imm => decide (d < 512) && decide (imm < 32768)
  | .j off => signed 24 off
  | .call off => signed 24 off
  | .jr a off => decide (a < 512) && signed 15 off
  | .callr a off => decide (a < 512) && signed 15 off
  | .bz a off => decide (a < 512) && signed 15 off
  | .bnz a off => decide (a < 512) && signed 15 off
  | .bltz a off => decide (a < 512) && signed 15 off
  | .bgez a off => decide (a < 512) && signed 15 off
  | .bgtz a off => decide (a < 512) && signed 15 off
  | .blez a off => decide (a < 512) && signed 15 off
  | .callv t => decide (t < 512)
  | .lrun a b => decide (a < 512) && decide (b < 512)
  | .lwait n => decide (n < 32768)
  | .chsub tag a b => decide (tag < 512) && decide (a < 512) && decide (b < 64)
  | .chleave tag off => decide (tag < 512) && signed 15 off
  | .rdv tag a => decide (tag < 512) && decide (a < 512)
  | .ldsI8 d a off => decide (d < 512) && decide (a < 512) && decide (off < 64)
  | .ldsN8 d a off => decide (d < 512) && decide (a < 512) && decide (off < 64)
  | .ldsI16 d a off => decide (d < 512) && decide (a < 512) && decide (off < 64)
  | .ldsN16 d a off => decide (d < 512) && decide (a < 512) && decide (off < 64)
  | .ldsI32 d a off => decide (d < 512) && decide (a < 512) && decide (off < 64)
  | .ldsN32 d a off => decide (d < 512) && decide (a < 512) && decide (off < 64)
  | .lds64 d a off => decide (d < 512) && decide (a < 512) && decide (off < 64)
  | .sts8 d a off => decide (d < 512) && decide (a < 512) && decide (off < 64)
  | .sts16 d a off => decide (d < 512) && decide (a < 512) && decide (off < 64)
  | .sts32 d a off => decide (d < 512) && decide (a < 512) && decide (off < 64)
  | .sts64 d a off => decide (d < 512) && decide (a < 512) && decide (off < 64)
  | .ldfe d a off => decide (d < 512) && decide (a < 512) && decide (off < 64)
  | .stfe d a off => decide (d < 512) && decide (a < 512) && decide (off < 64)
  | .ldf d a off => decide (d < 512) && decide (a < 512) && decide (off < 64)
  | .tagset d a off => decide (d < 512) && decide (a < 512) && decide (off < 64)
  | .xlat d a => decide (d < 512) && decide (a < 512)
  | .phase _ _ => true
  | .fence pred succ => decide (pred < 64) && decide (succ < 64)
  | .arrive _ a b => decide (a < 512) && decide (b < 64)
  | .await _ a b => decide (a < 512) && decide (b < 64)
  | .arriveWait _ a b => decide (a < 512) && decide (b < 64)
  | .bjoin a b => decide (a < 512) && decide (b < 64)
  | .bleave a => decide (a < 512)
  | .waitaddr d a b => decide (d < 512) && decide (a < 512) && decide (b < 64)
  | .wake a b => decide (a < 512) && decide (b < 64)
  | .amoAdd d a _ _ => decide (d < 512) && decide (a < 512)
  | .amoAnd d a _ _ => decide (d < 512) && decide (a < 512)
  | .amoOr d a _ _ => decide (d < 512) && decide (a < 512)
  | .amoXor d a _ _ => decide (d < 512) && decide (a < 512)
  | .amoMinI64 d a _ _ => decide (d < 512) && decide (a < 512)
  | .amoMinN64 d a _ _ => decide (d < 512) && decide (a < 512)
  | .amoMaxI64 d a _ _ => decide (d < 512) && decide (a < 512)
  | .amoMaxN64 d a _ _ => decide (d < 512) && decide (a < 512)
  | .amoSwap d a _ _ => decide (d < 512) && decide (a < 512)
  | .amoCas d a _ _ => decide (d < 512) && decide (a < 512)
  | .redAdd d a _ _ => decide (d < 512) && decide (a < 512)
  | .redAnd d a _ _ => decide (d < 512) && decide (a < 512)
  | .redOr d a _ _ => decide (d < 512) && decide (a < 512)
  | .redXor d a _ _ => decide (d < 512) && decide (a < 512)
  | .redMinI64 d a _ _ => decide (d < 512) && decide (a < 512)
  | .redMinN64 d a _ _ => decide (d < 512) && decide (a < 512)
  | .redMaxI64 d a _ _ => decide (d < 512) && decide (a < 512)
  | .redMaxN64 d a _ _ => decide (d < 512) && decide (a < 512)
  | .qinit d a b => decide (d < 512) && decide (a < 512) && decide (b < 64)
  | .qpush d imm => decide (d < 512) && decide (imm < 32768)
  | .qpop d imm => decide (d < 512) && decide (imm < 32768)
  | .launch a b => decide (a < 512) && decide (b < 64)
  | .spawn d a b => decide (d < 512) && decide (a < 512) && decide (b < 64)
  | .mxLoad a b => decide (a < 512) && decide (b < 512)
  | .mxStream a b => decide (a < 512) && decide (b < 512)
  | .mxDist a b => decide (a < 512) && decide (b < 512)
  | .mxMips a b => decide (a < 512) && decide (b < 512)
  | .cpCopy a b => decide (a < 512) && decide (b < 512)
  | .cpGather a b => decide (a < 512) && decide (b < 512)
  | .cpScatter a b => decide (a < 512) && decide (b < 512)
  | .cpTensor a b => decide (a < 512) && decide (b < 512)
  | .cpFill a b => decide (a < 512) && decide (b < 512)
  | .lvMax a b => decide (a < 512) && decide (b < 512)
  | .lvSumexp a b => decide (a < 512) && decide (b < 512)
  | .lvSoftmax a b => decide (a < 512) && decide (b < 512)
  | .lvTopk a b => decide (a < 512) && decide (b < 512)
  | .lvSample a b => decide (a < 512) && decide (b < 512)
  | .rtOpen a b => decide (a < 512) && decide (b < 512)
  | .rtRoute a b => decide (a < 512) && decide (b < 512)
  | .rtReturn a b => decide (a < 512) && decide (b < 512)
  | .rtctlBind a b => decide (a < 512) && decide (b < 512)
  | .rtctlUnbind a b => decide (a < 512) && decide (b < 512)
  | .rtctlHoldSet a b => decide (a < 512) && decide (b < 512)
  | .rtctlHoldClear a b => decide (a < 512) && decide (b < 512)
  | .rtctlReadySet a b => decide (a < 512) && decide (b < 512)
  | .rtctlReadyClear a b => decide (a < 512) && decide (b < 512)
  | .rtctlConsume a b => decide (a < 512) && decide (b < 512)
  | .rtctlFlush a b => decide (a < 512) && decide (b < 512)
  | .vadd l => l.widths
  | .vsub l => l.widths
  | .vmul l => l.widths
  | .vmulh l => l.widths
  | .vfma l => l.widths
  | .vmin l => l.widths
  | .vmax l => l.widths
  | .vabs l => l.widths
  | .vneg l => l.widths
  | .vand l => l.widths
  | .vor l => l.widths
  | .vxor l => l.widths
  | .vnot l => l.widths
  | .vshl l => l.widths
  | .vshr l => l.widths
  | .vclz l => l.widths
  | .vpopc l => l.widths
  | .vcmpEq l => l.widths
  | .vcmpNe l => l.widths
  | .vcmpLt l => l.widths
  | .vcmpLe l => l.widths
  | .vcmpGt l => l.widths
  | .vcmpGe l => l.widths
  | .vcmpUn l => l.widths
  | .vcmpOr l => l.widths
  | .pand l => l.widths
  | .por l => l.widths
  | .pxor l => l.widths
  | .pandn l => l.widths
  | .pnot l => l.widths
  | .vmov l => l.widths
  | .vsel l => l.widths
  | .mvs l => l.widths
  | .vcvt l => l.widths
  | .vpack l => l.widths
  | .vunpack l => l.widths
  | .vcbset l => l.widths
  | .vcbw l => l.widths
  | .vscacc l => l.widths
  | .vrcp l => l.widths
  | .vrsqrt l => l.widths
  | .vsqrt l => l.widths
  | .vexp2 l => l.widths
  | .vlog2 l => l.widths
  | .vsinpi l => l.widths
  | .vcospi l => l.widths
  | .vtanh l => l.widths
  | .vperm l => l.widths
  | .vpermX l => l.widths
  | .vswap l => l.widths
  | .vbcast l => l.widths
  | .vredAdd l => l.widths
  | .vredMin l => l.widths
  | .vredMax l => l.widths
  | .vscanAdd l => l.widths
  | .vscanMin l => l.widths
  | .vscanMax l => l.widths
  | .vballot l => l.widths
  | .vrng l => l.widths
  | .vldp l => l.widths
  | .vstp l => l.widths
  | .vlds l => l.widths
  | .vsts l => l.widths
  | .vld l => l.widths
  | .vst l => l.widths
  | .vldGspad l => l.widths
  | .vstGspad l => l.widths
  | .laneAmoAdd l => l.widths
  | .laneAmoAnd l => l.widths
  | .laneAmoOr l => l.widths
  | .laneAmoXor l => l.widths
  | .laneAmoMin l => l.widths
  | .laneAmoMax l => l.widths
  | .laneAmoSwap l => l.widths
  | .laneAmoCas l => l.widths
  | .laneAmoFadd l => l.widths
  | .laneRedAdd l => l.widths
  | .laneRedAnd l => l.widths
  | .laneRedOr l => l.widths
  | .laneRedXor l => l.widths
  | .laneRedMin l => l.widths
  | .laneRedMax l => l.widths
  | .laneRedFadd l => l.widths
  | .vpop l => l.widths
  | .vexit l => l.widths
  | .xch l => l.widths
  | _ => true

/-- A well-formed instruction: its fields fit, and the word-only checks of R51 pass. -/
def Instr.wf (i : Instr) : Bool := i.widths && i.legal

end Sys2Proof
end

