-- ==== Sys2Proof/Certificates/Slice0/Obligations.lean ====
section
/-! DEFINITION. The statements for the provers: what the rules of spec/ say the instructions, the events and the machine do. -/

open Sys2Proof Sys2Proof.Machine

/-! ## Words, steps, memory and reset -/

/-- R32, R36, R40, R46, R48. Words that the rules give an encoding of, and words put together from the field layouts: each decodes to its
instruction. -/
def Obligations.WordsDecode : Prop :=
  decodeTableWord 32 0x1403_8209 = some (.mulhN64 7 8 9) ∧ decodeTableWord 32 0x2303_01C0 = some (.clz 6 7) ∧
  decodeTableWord 32 0x3501_8005 = some (.shli 3 5) ∧ decodeTableWord 32 0x3C02_1234 = some (.lim 4 0x1234) ∧
  decodeTableWord 32 0x0902_8011 = some (.mfs 5 .fpflags) ∧ decodeTableWord 32 0x4502_7FFB = some (.bz 4 (-5)) ∧
  decodeTableWord 32 0x40FF_FFFD = some (.j (-3)) ∧ decodeTableWord 32 0x4B03_8000 = some (.callv 7) ∧
  decodeTableWord 32 0x500A_0540 = some (.lrun 20 21) ∧ decodeTableWord 32 0x5500_828B = some (.chsub 1 10 11) ∧
  decodeTableWord 32 0x6402_8183 = some (.ldsI32 5 6 3) ∧ decodeTableWord 32 0x6A03_8201 = some (.sts64 7 8 1) ∧
  decodeTableWord 32 0x6E00_8280 = some (.tagset 1 10 0) ∧ decodeTableWord 32 0x8002_819C = some (.amoAdd 5 6 .ar .pk) ∧
  decodeTableWord 32 0x7201_028B = some (.arrive .bd 10 11) ∧ decodeTableWord 32 0x7702_828B = some (.waitaddr 5 10 11) ∧
  decodeTableWord 32 0xA000_828B = some (.qinit 1 10 11) ∧ decodeTableWord 32 0xB102_8187 = some (.spawn 5 6 7) ∧
  decodeTableWord 32 0xC00B_05C1 = some (.mxStream 22 23) ∧ decodeTableWord 32 0xC10A_0543 = some (.cpTensor 20 21) ∧
  decodeTableWord 32 0xC20A_0544 = some (.lvSample 20 21) ∧ decodeTableWord 32 0xC30C_0642 = some (.rtReturn 24 25) ∧
  decodeTableWord 32 0x0400_0021 = some (.trap 0x21) ∧ decodeTableWord 32 0x07FF_FFF8 = some (.settv (-8)) ∧
  decodeTableWord 32 0x0B01_0000 = some (.wait 2 0) ∧ decodeTableWord 32 0x3F00_0000 = none ∧
  decodeTableWord 96 0x0140_0281_60C0_6A40_0000_0000 = some (.vfma ⟨0, false, 10, 11, 12, 13, .f32, .rne, false, false, false, 0⟩) ∧
  decodeTableWord 96 0x0040_0100_A000_02E0_3F80_3F80 = some (.vadd ⟨0, false, 4, 5, 0, 0, .bf16, .rne, false, false, true, 0x3F80_3F80⟩) ∧
  decodeTableWord 96 0x0980_0080_6030_0240_0000_0000 = some (.vcmpUn ⟨0, false, 2, 3, 3, 0, .f32, .rne, false, false, false, 0⟩) ∧
  decodeTableWord 96 0x1080_0780_8000_8800_0000_0000 = some (.mvs ⟨0, false, 30, 4, 0, 17, .raw, .rne, false, false, false, 0⟩) ∧
  decodeTableWord 96 0x1400_0200_C000_4B00_0000_0001 = some (.vcvt ⟨0, false, 8, 6, 0, 9, .e4m3, .rne, false, false, false, 1⟩) ∧
  decodeTableWord 96 0x3100_0780_8000_0240_0000_0000 = some (.vredAdd ⟨0, false, 30, 4, 0, 0, .f32, .rne, false, false, false, 0⟩) ∧
  decodeTableWord 96 0x20C0_0180_A000_0240_0000_0000 = some (.vexp2 ⟨0, false, 6, 5, 0, 0, .f32, .rne, false, false, false, 0⟩) ∧
  decodeTableWord 96 0x4100_0040_6000_0000_0000_0000 = some (.vld ⟨0, false, 1, 3, 0, 0, .raw, .wv, .none, 0⟩) ∧
  decodeTableWord 96 0x5000_0140_C070_1004_0000_0000 = some (.laneAmoAdd ⟨0, false, 5, 6, 7, 2, .raw, .pk, .none, 0⟩) ∧
  decodeTableWord 96 0x5580_0000_C070_1244_0000_0000 = some (.laneRedFadd ⟨0, false, 0, 6, 7, 2, .f32, .pk, .none, 0⟩) ∧
  decodeTableWord 96 0x6080_0180_E000_1800_0000_0014 = some (.xch ⟨0, false, 6, 7, 0, 3, .raw, .rne, false, false, false, 20⟩)

/-- Encoding and decoding agree: a well-formed instruction word, followed by any bytes, is read back as that instruction, with
every operand at every value its field admits, and the bytes after it are left. The eight forms of `rtctl` share one word; that the decoder reads
it as the first of them is the model's choice, no rule of the spec (log 52, DEDUCED). -/
def Obligations.DecodeEncode : Prop :=
  ∀ (i : Instr) (rest : List Byte), i.wf = true → (encodeWord i).isSome = true →
    let j := match i with
      | .rtctlUnbind a b | .rtctlHoldSet a b | .rtctlHoldClear a b | .rtctlReadySet a b | .rtctlReadyClear a b | .rtctlConsume a b
      | .rtctlFlush a b => .rtctlBind a b
      | i => i
    if i.isLane = true then decodeLaneBytes (encode i ++ rest) = .ok (j, rest) else decodeScalarBytes (encode i ++ rest) = .ok (j, rest)

/-- R46, R50. A word that decodes has one meaning: its instruction is well-formed, and the instruction's word is the word. -/
def Obligations.EncodeDecode : Prop :=
  (∀ (x : Nat) (i : Instr), x < 2 ^ 32 → decodeScalar x = some i → i.wf = true ∧ encodeWord i = some x) ∧
  ∀ (x : Nat) (i : Instr), x < 2 ^ 96 → decodeLane x = some i → i.wf = true ∧ encodeWord i = some x

/-- R79, R86, R106, R108, R247. A scalar turn of a running wave that waits for nothing brings the wave up to the cycle of its next issue. Where
no finished matrix row is due in it, and the wave then still runs, is active, has its partition's scalar slot, and takes its words from memory,
and no channel FIFO or breakpoint holds it, its lane stream does not trap in the same cycle, and the four bytes at its scalar PC may be executed,
can be read and decode to an instruction, the step is that instruction's effect, and after it what a convoy and the boundary of the stream add,
the fetch counted at its home slices, and the routers that its packets wake: the instruction runs.
The model's own choices of log 1, 15 bear on it. -/
def Obligations.StepRunsScalar : Prop :=
  ∀ (s : State) (n : Nat) (w v : Wave) (c : Cons) (ts : List Turn) (i : Instr) (ka kb : Nat), s.agenda = .scalar n :: ts →
    s.wave n = some w → w.life = .running → w.park = .none →
    let q := (State.pollUnder { s with agenda := ts } n).timeS n w
    let p := ((q.settle n).takeHeld n).boundary n
    let x := ofBytes (codeBytes p c (coreOfWave n) v.spc 4)
    q.rowDue (coreOfWave n) = false → p.hasS n = true → p.wave n = some v → v.life = .running → v.park = .none → v.sched.active = true → v.sched.readyS ≤ p.clk (coreOfWave n) →
    p.con v.cid = some c → v.followsFifo = false → (p.isLead n v = false ∨ v.ctl.hmode = true ∨ p.fifoFull n v = false) →
    trapOf p n (laneNow p n) = none →
    codePlace p c (coreOfWave n) v.spc = .at ka → codePlace p c (coreOfWave n) (v.spc + 3) = .at kb → codeLost p c (coreOfWave n) v.spc 4 = none →
    v.breakAt c (.scalar v.spc) = none → decodeScalar x = some i →
    step s = match exec (p.refine n v i) { p with cur := n } with
      | .next t =>
        let u := p.afterS t n v x none
        .next (s.wakeRoutes (if u.fresh ≠ p.fresh ∨ p.trapped u n = true then u.lookedS n v c else u))
      | .fault r => .fault r
      | .refused r => .refused r

/-- R29, R79, R83, R106, R108, R247. The same of the lane stream: the twelve bytes of the lane word that issues next, which no acquire, finished
matrix row or breakpoint holds back, where the wave's scalar stream does not trap in the same cycle; where a placed function owns the word they come
from the code heap's copy of it.
R412. An event of the table whose turn it is runs as the next step, a partition's swap by the readiness of its cycle; but what the firmware of
the service cores makes happens only while verified firmware runs, and in recovery nothing that a host or a peer sends is answered. That an
instruction word is no event, and which events are which, is the model's choice (log 1, log 66).
The model's own choices of log 1, 15, 20 bear on it. -/
def Obligations.StepRunsLane : Prop :=
  (
    ∀ (s : State) (n : Nat) (w v : Wave) (c : Cons) (ts : List Turn) (b : LBlock) (i : Instr), s.agenda = .lane n :: ts →
      s.wave n = some w → w.life = .running → (nextBlock w.queue).isSome = true →
      let q := State.timeL { s with agenda := ts } n w
      let p := (q.settle n).takeHeld n
      let k := b.start + b.pos
      let x := match p.heapKeys v c k with
        | some ks => ofBytes (ks.map (Memory.get p.mem))
        | none => ofBytes (codeBytes p c (coreOfWave n) (c.obj.laneAt k) 12)
      q.rowDue (coreOfWave n) = false → p.hasL n = true → p.wave n = some v → v.life = .running → v.sched.active = true → p.con v.cid = some c →
      nextBlock v.queue = some b → v.sched.readyL ≤ p.clk (coreOfWave n) → v.laneAcqOpen = false → v.followsFifo = false →
      (p.isLead n v = false ∨ v.ctl.hmode = true ∨ p.fifoFull n v = false) →
      trapOf p n (scalarNow p n) = none →
      (∀ ks, p.heapKeys v c k = some ks → ∀ i ∈ ks, p.lostBytes i 1 = false) →
      (p.heapKeys v c k = none → codeLost p c (coreOfWave n) (c.obj.laneAt k) 12 = none ∧
        ∃ ka kb, codePlace p c (coreOfWave n) (c.obj.laneAt k) = .at ka ∧ codePlace p c (coreOfWave n) (c.obj.laneAt k + 11) = .at kb) →
      v.breakAt c (.lane k) = none → decodeLane x = some i →
      step s = match exec i { p with cur := n } with
        | .next t =>
          let u := p.afterL t n v x k none
          .next (s.wakeRoutes (if u.fresh ≠ p.fresh ∨ p.trapped u n = true then u.lookedL n v c k else u))
        | .fault r => .fault r
        | .refused r => .refused r) ∧
  (
    ∀ (s : State) (i : Instr) (ts : List Turn), s.agenda = .event i :: ts →
      (encodeWord i = none → s.shuts i = false →
        step s = match exec i (State.lookFor { s with agenda := ts } i) with
          | .next t => .next (s.wakeRoutes t)
          | r => r) ∧
      (s.shuts i = true → step s = .next (s.wakeRoutes { s with agenda := ts })) ∧
      (s.shuts i = true ↔ byService i = true ∧ (s.dwen.running = [] ∨ s.dwen.recovery = true) ∨ fromOutside i = true ∧ s.dwen.recovery = true))

/-- R7. A byte written to memory reads back, every other byte reads as before, and memory keeps its canonical form: strictly rising
addresses, and no entry equal to what an unlisted address reads as (log 3). Memories in that form that read alike are equal.
The model's own choice of log 3 bears on it. -/
def Obligations.MemoryBytes : Prop :=
  (∀ (m : Memory) (k : Nat) (b : Byte), Memory.wf m = true → (m.set k b).get k = b ∧ (∀ j, j ≠ k → (m.set k b).get j = m.get j) ∧
    Memory.wf (m.set k b) = true) ∧
  ∀ m m' : Memory, Memory.wf m = true → Memory.wf m' = true → (∀ j, m.get j = m'.get j) → m = m'

/-- R7. Numbers stand in memory least significant byte first: a number written reads back, byte j of it is the number's byte j, and bytes
outside it read as before. -/
def Obligations.LittleEndian : Prop :=
  ∀ (s : State) (n k v : Nat), s.memOk = true → v < 2 ^ (8 * n) →
    (s.writeNum n k v).num n k = v ∧ (s.writeNum n k v).memOk = true ∧
    (∀ j < n, (Memory.get (s.writeNum n k v).mem (k + j)).toNat = v / 2 ^ (8 * j) % 256) ∧
    ∀ q, q < k ∨ k + n ≤ q → Memory.get (s.writeNum n k v).mem q = Memory.get s.mem q

/-- Whatever the step does, from any state whose memory and tags are in canonical form, a next state's are. The canonical form of both is the
model's choice of representation, no rule of the spec (log 3, DESIGN CHOICE): addresses strictly rising with no entry equal to what an unlisted one
reads as, and the full words listed in ascending order, each once. -/
def Obligations.StepKeepsMemory : Prop :=
  ∀ s t : State, s.memOk = true → s.tagsOk = true → step s = .next t → t.memOk = true ∧ t.tagsOk = true

/-- R53, R385, R396, R400. The machine right after reset: memory in canonical form with nothing written, no wave, no consignment, no
request, no error and no migration logged, nothing tested yet; the registers of every work queue, and those of the power controller, at the
values of their Reset columns.
The model's own choices of log 3, 4 bear on it. -/
def Obligations.ResetState : Prop :=
  State.reset.memOk = true ∧ State.reset.tagsOk = true ∧ (∀ k, Memory.get State.reset.mem k = 0) ∧ State.reset.waves = [] ∧ State.reset.cons = [] ∧ State.reset.reqs = [] ∧ State.reset.saved = [] ∧
  (∀ q, (State.reset.queue q).base = 0 ∧ (State.reset.queue q).en = false ∧ (State.reset.queue q).prio = 0 ∧
    (State.reset.queue q).log2size = 1 ∧ (State.reset.queue q).devsub = false ∧ (State.reset.queue q).aspace = 0 ∧
    (State.reset.queue q).tail = 0 ∧ (State.reset.queue q).head = 0 ∧
    (State.reset.queue q).cqTail = 0 ∧ (State.reset.queue q).cqHead = 0 ∧ (State.reset.queue q).cqBase = 0 ∧
    (State.reset.queue q).ovf = false ∧ (State.reset.queue q).refused = false ∧ (State.reset.queue q).blocked = false) ∧
  (State.reset.pc.limit = 4200 ∧ State.reset.pc.pbase = 2200 ∧ State.reset.pc.pmx = 1980 ∧ State.reset.pc.battlim = 3000 ∧
    State.reset.pc.fnom = 50000 ∧ State.reset.pc.vnom = 50000 ∧ State.reset.pc.kv = 0 ∧ State.reset.pc.failsafe = 2500 ∧
    State.reset.pc.allow = 2500 ∧ State.reset.pc.cadc = 7 ∧ State.reset.pc.cadl = 1 ∧ State.reset.pc.cad = 7) ∧
  (State.reset.pc.stale = true ∧ State.reset.pc.badCurve = false ∧ State.reset.pc.shed = [] ∧ State.reset.pc.freq = 0 ∧
    State.reset.pc.volt = 0 ∧ State.reset.pc.state = 0 ∧ State.reset.pc.seq = 0 ∧ State.reset.pc.crcErr = 0 ∧ State.reset.pc.gaps = 0) ∧
  (∀ i : Nat, i < 16 → State.reset.pc.curveX[i]? = some (-1500 + 100 * (i : Int)) ∧ State.reset.pc.curveP[i]? = some 4200 ∧
    State.reset.pc.actX[i]? = some (-1500 + 100 * (i : Int)) ∧ State.reset.pc.actP[i]? = some 4200) ∧
  (∀ k, lookD State.reset.pc.classes k ⟨0, 0, 0⟩ = ⟨0, 0, 0⟩ ∧ lookD State.reset.pc.actC k ⟨0, 0, 0⟩ = ⟨0, 0, 0⟩) ∧
  (State.reset.pc.warn = 0x5F0 ∧ State.reset.pc.throttle = 0x690 ∧ State.reset.pc.critical = 0x730 ∧ State.reset.pc.esave = 0x6F000000000 ∧
    ∀ e ∈ State.reset.pc.energy, e = 0) ∧
  (∀ d, (State.reset.die d).head = 0 ∧ (State.reset.die d).rd = 0 ∧ (State.reset.die d).ce = 0 ∧ (State.reset.die d).ovf = false) ∧
  (State.reset.migHead = 0 ∧ State.reset.migRd = 0 ∧ State.reset.migOvf = false) ∧
  (State.reset.ready.cores = [] ∧ State.reset.ready.engines = [] ∧ State.reset.ready.hbm = [] ∧ State.reset.ready.done = false) ∧
  (∀ n, State.reset.wave n = none) ∧ (∀ p, State.reset.clk p = 0) ∧ State.reset.nsc = 0

/-! ## Scalar arithmetic -/

/-- A natural number as a register value: bits 63:0. -/
def Sys2Proof.Machine.wordN (n : Nat) : Word := BitVec.ofNat 64 n

/-- An integer as a register value. -/
def Sys2Proof.Machine.wordZ (z : Int) : Word := BitVec.ofInt 64 z

/-- A truth value as a register value. -/
def Sys2Proof.Machine.wordB (p : Prop) [Decidable p] : Word := if p then 1 else 0

/-- The scalar words that read scalar registers and write one: destination, registers read, latency and value, as R153 to R160 give
them. -/
def Sys2Proof.Machine.regForm : Instr → Option (Nat × List Nat × Nat × (State → Wave → Word))
  | .add d a b => some (d, [a, b], 2, fun s w => wordN ((s.rS w a).toNat + (s.rS w b).toNat))
  | .sub d a b => some (d, [a, b], 2, fun s w => wordZ ((s.rS w a).toInt - (s.rS w b).toInt))
  | .mul d a b => some (d, [a, b], 4, fun s w => wordN ((s.rS w a).toNat * (s.rS w b).toNat))
  | .mulhI64 d a b => some (d, [a, b], 4, fun s w => wordZ ((s.rS w a).toInt * (s.rS w b).toInt / 2 ^ 64))
  | .mulhN64 d a b => some (d, [a, b], 4, fun s w => wordN ((s.rS w a).toNat * (s.rS w b).toNat / 2 ^ 64))
  | .divI64 d a b => some (d, [a, b], 20, fun s w =>
      if s.rS w b = 0 then wordN (2 ^ 64 - 1) else wordZ (Int.tdiv (s.rS w a).toInt (s.rS w b).toInt))
  | .divN64 d a b => some (d, [a, b], 20, fun s w =>
      if s.rS w b = 0 then wordN (2 ^ 64 - 1) else wordN ((s.rS w a).toNat / (s.rS w b).toNat))
  | .remI64 d a b => some (d, [a, b], 20, fun s w =>
      if s.rS w b = 0 then s.rS w a
      else wordZ ((s.rS w a).toInt - (s.rS w b).toInt * Int.tdiv (s.rS w a).toInt (s.rS w b).toInt))
  | .remN64 d a b => some (d, [a, b], 20, fun s w =>
      if s.rS w b = 0 then s.rS w a
      else wordN ((s.rS w a).toNat - (s.rS w b).toNat * ((s.rS w a).toNat / (s.rS w b).toNat)))
  | .and d a b => some (d, [a, b], 2, fun s w => s.rS w a &&& s.rS w b)
  | .or d a b => some (d, [a, b], 2, fun s w => s.rS w a ||| s.rS w b)
  | .xor d a b => some (d, [a, b], 2, fun s w => s.rS w a ^^^ s.rS w b)
  | .shl d a b => some (d, [a, b], 2, fun s w => wordN ((s.rS w a).toNat * 2 ^ ((s.rS w b).toNat % 64)))
  | .shrN64 d a b => some (d, [a, b], 2, fun s w => wordN ((s.rS w a).toNat / 2 ^ ((s.rS w b).toNat % 64)))
  | .shrI64 d a b => some (d, [a, b], 2, fun s w => wordZ ((s.rS w a).toInt / 2 ^ ((s.rS w b).toNat % 64)))
  | .minI64 d a b => some (d, [a, b], 2, fun s w => wordZ (min (s.rS w a).toInt (s.rS w b).toInt))
  | .minN64 d a b => some (d, [a, b], 2, fun s w => wordN (min (s.rS w a).toNat (s.rS w b).toNat))
  | .maxI64 d a b => some (d, [a, b], 2, fun s w => wordZ (max (s.rS w a).toInt (s.rS w b).toInt))
  | .maxN64 d a b => some (d, [a, b], 2, fun s w => wordN (max (s.rS w a).toNat (s.rS w b).toNat))
  | .clz d a => some (d, [a], 2, fun s w => wordN ((List.range 64).countP fun k => (s.rS w a).toNat < 2 ^ k))
  | .popc d a => some (d, [a], 2, fun s w => wordN ((List.range 64).countP fun k => (s.rS w a).getLsbD k))
  | .seq d a b => some (d, [a, b], 2, fun s w => wordB (s.rS w a = s.rS w b))
  | .sne d a b => some (d, [a, b], 2, fun s w => wordB (s.rS w a ≠ s.rS w b))
  | .sltI64 d a b => some (d, [a, b], 2, fun s w => wordB ((s.rS w a).toInt < (s.rS w b).toInt))
  | .sltN64 d a b => some (d, [a, b], 2, fun s w => wordB ((s.rS w a).toNat < (s.rS w b).toNat))
  | .sleI64 d a b => some (d, [a, b], 2, fun s w => wordB ((s.rS w a).toInt ≤ (s.rS w b).toInt))
  | .sleN64 d a b => some (d, [a, b], 2, fun s w => wordB ((s.rS w a).toNat ≤ (s.rS w b).toNat))
  | .scadd2 d a b => some (d, [a, b], 2, fun s w => wordN ((s.rS w a).toNat + 2 * (s.rS w b).toNat))
  | .scadd4 d a b => some (d, [a, b], 2, fun s w => wordN ((s.rS w a).toNat + 4 * (s.rS w b).toNat))
  | .scadd8 d a b => some (d, [a, b], 2, fun s w => wordN ((s.rS w a).toNat + 8 * (s.rS w b).toNat))
  | .scadd16 d a b => some (d, [a, b], 2, fun s w => wordN ((s.rS w a).toNat + 16 * (s.rS w b).toNat))
  | .addi d i => some (d, [d], 2, fun s w => wordZ ((s.rS w d).toInt + i))
  | .muli d i => some (d, [d], 4, fun s w => wordZ ((s.rS w d).toInt * i))
  | .andi d i => some (d, [d], 2, fun s w => s.rS w d &&& wordZ i)
  | .ori d i => some (d, [d], 2, fun s w => s.rS w d ||| wordZ i)
  | .xori d i => some (d, [d], 2, fun s w => s.rS w d ^^^ wordZ i)
  | .shli d k => some (d, [d], 2, fun s w => wordN ((s.rS w d).toNat * 2 ^ (k % 64)))
  | .shriN64 d k => some (d, [d], 2, fun s w => wordN ((s.rS w d).toNat / 2 ^ (k % 64)))
  | .shriI64 d k => some (d, [d], 2, fun s w => wordZ ((s.rS w d).toInt / 2 ^ (k % 64)))
  | .sltiI64 d i => some (d, [d], 2, fun s w => wordB ((s.rS w d).toInt < (wordZ i).toInt))
  | .sltiN64 d i => some (d, [d], 2, fun s w => wordB ((s.rS w d).toNat < (wordZ i).toNat))
  | .seqi d i => some (d, [d], 2, fun s w => wordB (s.rS w d = wordZ i))
  | .movi d i => some (d, [], 2, fun _ _ => wordZ i)
  | .lim d i => some (d, [d], 2, fun s w => wordN ((s.rS w d).toNat * 2 ^ 15 + i % 2 ^ 15))
  | .adr d i => some (d, [], 2, fun _ w => wordZ ((w.spc : Int) + 4 * i))
  | .mfs d r => some (d, [], 4, fun s w => specialVal s s.cur w r)
  | _ => none

/-- R114, R153 to R160. Every scalar word of `regForm` issues where its checks pass: its value is sent to its destination, to land after its
latency, and the scalar PC goes to the next word. -/
def Obligations.ScalarRegisterWords : Prop :=
  ∀ (i : Instr) (s : State) (w : Wave) (c : Cons) (d lat : Nat) (reads : List Nat) (v : State → Wave → Word),
    regForm i = some (d, reads, lat, v) → scalarReady s (d :: reads) reads (some (d, lat)) = some (w, c) →
    exec i s = .next (s.step4 s.cur w fun w => w.sendS s.nextId (s.clkCur + lat) d (v s w))

/-! ## Control transfers -/

/-- The word offset target of R34: `spc` + 4 × sext(off), in 57 bits. -/
def Sys2Proof.Machine.relTarget (spc : Nat) (off : Int) : Nat := (((spc : Int) + 4 * off) % 2 ^ 57).toNat

/-- The transfers that touch no return stack: whether it is taken, and where it then goes (R34, R35, R86). -/
def Sys2Proof.Machine.jumpForm (s : State) (w : Wave) : Instr → Option (List Nat × Bool × Nat)
  | .j off => some ([], true, relTarget w.spc off)
  | .bz a off => some ([a], decide (s.rS w a = 0), relTarget w.spc off)
  | .bnz a off => some ([a], decide (s.rS w a ≠ 0), relTarget w.spc off)
  | .bltz a off => some ([a], decide ((s.rS w a).toInt < 0), relTarget w.spc off)
  | .bgez a off => some ([a], decide (0 ≤ (s.rS w a).toInt), relTarget w.spc off)
  | .bgtz a off => some ([a], decide (0 < (s.rS w a).toInt), relTarget w.spc off)
  | .blez a off => some ([a], decide ((s.rS w a).toInt ≤ 0), relTarget w.spc off)
  | .jr a off =>
    let t := (s.rS w a).toInt + 4 * off
    if t % 4 = 0 then some ([a], true, (t % 2 ^ 64).toNat) else none
  | _ => none

/-- R34, R35, R86, R114. A transfer goes to its target when it is taken, and the next scalar word issues 3 cycles later; when it is not, it
goes on to the next word one cycle later. Nothing else of the wave changes. -/
def Obligations.Transfers : Prop :=
  ∀ (i : Instr) (s : State) (w : Wave) (c : Cons) (rs : List Nat) (taken : Bool) (t : Nat),
    w.spc < 2 ^ 57 → jumpForm s w i = some (rs, taken, t) → scalarReady s rs rs none = some (w, c) →
    exec i s = .next (if taken then s.goTo s.cur w t 3 else s.goTo s.cur w (w.spc + 4) 1)

/-- Where a call goes, by form (R89). -/
def Sys2Proof.Machine.callForm (s : State) (w : Wave) : Instr → Option (List Nat × Nat)
  | .call off => some ([], relTarget w.spc off)
  | .callr a off =>
    let t := (s.rS w a).toInt + 4 * off
    if t % 4 = 0 then some ([a], (t % 2 ^ 64).toNat) else none
  | _ => none

/-- R88, R114, R382. A transfer that spills or refills is held for 12 cycles before it issues, without any of its effect; the hold that has begun
runs on when the word is tried again. Otherwise, and once the hold is over, it has its effect, and the next scalar word issues 3 cycles later. -/
def Sys2Proof.Machine.transfer (s : State) (w : Wave) (spills : Bool) (s' : State) (w' : Wave) (t : Nat) : State :=
  if spills = true ∧ w.sched.spill.all (fun e => decide (s.clkCur < e)) = true then
    s.setWave s.cur { w with sched := { w.sched with
      holdS := .stall
      readyS := max (s.clkCur + 1) (w.sched.spill.getD (s.clkCur + 12))
      spill := some (w.sched.spill.getD (s.clkCur + 12)) } }
  else s'.goTo s.cur w' t 3

/-- R88, R89. A call pushes an entry of kind call with the next word's address and `lmask`, and goes to its target; where the push spills, after
the 12 cycles of it. Where the spill area is full it takes an access-violation trap instead.
R88. A pop after a push gives the entry that was pushed, and leaves the wave with the entries it had: all of them where the push did not
spill, and the newest twelve, with the others in the spill area, where it did. A pop from the wave with no entry held, while the 64 bytes of that
chunk stand as the push wrote them, refills from it: it gives the newest of the four spilled entries, and the three under it are held again, as
they were pushed.
R89, R90. A `ret` whose top entry is a call goes there with the entry's `lmask`, after the 12 cycles of a refill where it pops one; a top entry
that is a round with live lanes runs the lanes of the lowest of their targets and leaves the others waiting in a round entry; a round with
none goes back to the word after the `callv` of the frame under it, with the frame's `lmask`. An address that is no multiple of 4 takes the
misaligned-access trap at the `ret`; with no entry, or a frame on top, it takes the illegal-operand trap. A round traps as its `callv` would where a target fails the checks.
The model's own choice of log 12 bears on it. -/
def Obligations.CallsReturns : Prop :=
  (
    ∀ (i : Instr) (s : State) (w : Wave) (c : Cons) (rs : List Nat) (t : Nat),
      w.spc < 2 ^ 57 → callForm s w i = some (rs, t) → scalarReady s rs rs none = some (w, c) →
      exec i s = .next (match pushRet s s.cur w ⟨.call, (w.spc + 4) % 2 ^ 57, w.lmask⟩ with
        | some (s', w', spilled) => transfer s w spilled s' w' t
        | none => s.trapS s.cur 4 (BitVec.ofNat 64 (w.chunkKey s.cur w.spilled)) 0 0)) ∧
  (
    ∀ (s s' : State) (n : Nat) (w w' : Wave) (e : RetEntry) (spilled : Bool), pushRet s n w e = some (s', w', spilled) →
      popRet s' n w' = some (e, { w' with stack := if spilled then w.stack.take 12 else w.stack }, false) ∧
      w'.spilled = w.spilled + spilled.toNat ∧
      (spilled = true → s.memOk = true → w.stack.length = 16 → (∀ r ∈ w.stack, r.addr < 2 ^ 57) →
        ∀ (u : State) (x : Wave), x.stack = [] → x.spilled = w'.spilled → x.sbase = w.sbase → x.fp = w.fp →
          (∀ k, w.chunkKey n w.spilled ≤ k → k < w.chunkKey n w.spilled + 64 → Memory.get u.mem k = Memory.get s'.mem k) →
          popRet u n x = (w.stack[12]?).map fun r => (r, { x with stack := w.stack.drop 13, spilled := w.spilled }, true))) ∧
  (
    ∀ (s : State) (w : Wave) (c : Cons), scalarReady s [] [] none = some (w, c) →
      (popRet s s.cur w = none → exec .ret s = .next (s.trapS s.cur 2 0 0 0)) ∧
      ∀ (w' : Wave) (e : RetEntry) (refilled : Bool), popRet s s.cur w = some (e, w', refilled) →
        (e.kind = .call → exec .ret s = .next (if e.addr % 4 = 0
          then transfer s w refilled s { w' with lmask := e.mask } e.addr
          else s.trapS s.cur 3 (wordN e.addr) 0 0)) ∧
        (e.kind = .frame → exec .ret s = .next (s.trapS s.cur 2 0 0 0)) ∧
        (e.kind = .round → w'.live e.mask = 0 →
          (popRet s s.cur w' = none → exec .ret s = .next (s.trapS s.cur 2 0 0 0)) ∧
          ∀ (w2 : Wave) (f : RetEntry) (more : Bool), popRet s s.cur w' = some (f, w2, more) →
            exec .ret s = .next (if (f.addr + 4) % 4 = 0
              then transfer s w (refilled || more) s { w2 with lmask := f.mask } (f.addr + 4)
              else s.trapS s.cur 3 (wordN ((f.addr + 4) % 2 ^ 57)) 0 0)) ∧
        (e.kind = .round → w'.live e.mask ≠ 0 → w.vOk (e.addr % 512) = true →
          (c.debug = true → s.lateV s.cur w s.clkCur (e.addr % 512) (w'.live e.mask) = false) →
          (∀ (code : Nat) (mask : Word) (a : Nat),
            callvFails (w'.targets s.fresh s.clkCur (e.addr % 512) (w'.live e.mask)) c.obj.scalarSize = some (code, mask, a) →
            exec .ret s = .next (s.trapS s.cur code (wordN a) mask 0)) ∧
          (callvFails (w'.targets s.fresh s.clkCur (e.addr % 512) (w'.live e.mask)) c.obj.scalarSize = none → w'.stack.length < 16 →
            ∃ lanes : Word,
              (∀ l, lanes.getLsbD l = (w'.targets s.fresh s.clkCur (e.addr % 512) (w'.live e.mask)).contains
                (l, lowestTarget (w'.targets s.fresh s.clkCur (e.addr % 512) (w'.live e.mask)))) ∧
              exec .ret s = .next (transfer s w refilled s
                { w' with lmask := lanes, stack := ⟨.round, e.addr % 512, w'.live e.mask &&& ~~~lanes⟩ :: w'.stack }
                (c.obj.scalarBase + lowestTarget (w'.targets s.fresh s.clkCur (e.addr % 512) (w'.live e.mask)))))))

/-- R90. `callv` with live lanes whose targets are aligned and inside `.scalar`: the lanes of the lowest target run there, after the 12 cycles of a
spill where a push makes one, and a frame entry and a round entry wait on the stack. With no live lane it goes on to the next word. It traps at
itself, with none of its effect, on a register outside the wave's (code 2), on a misaligned target or one outside `.scalar` (codes 3 and 4, with
the failing lanes and the lowest offset among them), and where the stack and its spill area have no room for both entries (code 4).
The model's own choice of log 12 bears on it. -/
def Obligations.VectorCalls : Prop :=
  ∀ (s : State) (w : Wave) (c : Cons) (v : Nat), scalarReady s [] [] none = some (w, c) →
    (w.vOk v = false → exec (.callv v) s = .next (s.trapS s.cur 2 (wordN v) 0 0)) ∧
    (w.vOk v = true → c.debug = true → s.lateV s.cur w s.clkCur v (w.live w.lmask) = true →
      exec (.callv v) s = .next (s.trapS s.cur 7 (wordN v) 0 0)) ∧
    (w.vOk v = true → (c.debug = true → s.lateV s.cur w s.clkCur v (w.live w.lmask) = false) →
      (w.live w.lmask = 0 → exec (.callv v) s = .next (s.step4 s.cur w id)) ∧
      (w.live w.lmask ≠ 0 →
        (∀ (code : Nat) (mask : Word) (a : Nat),
          callvFails (w.targets s.fresh s.clkCur v (w.live w.lmask)) c.obj.scalarSize = some (code, mask, a) →
          exec (.callv v) s = .next (s.trapS s.cur code (wordN a) mask 0)) ∧
        (callvFails (w.targets s.fresh s.clkCur v (w.live w.lmask)) c.obj.scalarSize = none →
          (16 < w.stack.length + 2 → w.fp.stack / 64 ≤ w.spilled →
            exec (.callv v) s = .next (s.trapS s.cur 4 (wordN (w.chunkKey s.cur w.spilled)) 0 0)) ∧
          (w.stack.length + 2 ≤ 16 → ∃ t x, exec (.callv v) s = .next t ∧ t.wave s.cur = some x ∧
            x.spc = (c.obj.scalarBase + lowestTarget (w.targets s.fresh s.clkCur v (w.live w.lmask))) % 2 ^ 57 ∧
            (∀ l, x.lmask.getLsbD l = (w.targets s.fresh s.clkCur v (w.live w.lmask)).contains
              (l, lowestTarget (w.targets s.fresh s.clkCur v (w.live w.lmask)))) ∧
            x.stack = ⟨.round, v, w.live w.lmask &&& ~~~x.lmask⟩ :: ⟨.frame, w.spc, w.lmask⟩ :: w.stack) ∧
          (∀ lanes : Word, (∀ l, lanes.getLsbD l = (w.targets s.fresh s.clkCur v (w.live w.lmask)).contains
              (l, lowestTarget (w.targets s.fresh s.clkCur v (w.live w.lmask)))) →
            ∀ (s1 s2 : State) (w1 w2 : Wave) (sp1 sp2 : Bool), w.stack.length + 2 ≤ 16 ∨ w.spilled < w.fp.stack / 64 →
              pushRet s s.cur w ⟨.frame, w.spc, w.lmask⟩ = some (s1, w1, sp1) →
              pushRet s1 s.cur w1 ⟨.round, v, w.live w.lmask &&& ~~~lanes⟩ = some (s2, w2, sp2) →
              exec (.callv v) s = .next (transfer s w (sp1 || sp2) s2 { w2 with lmask := lanes }
                (c.obj.scalarBase + lowestTarget (w.targets s.fresh s.clkCur v (w.live w.lmask))))))))

/-! ## Lane blocks, waits, special registers and the rest of the scalar stream -/

/-- Scalar words that issue with an effect on the wave alone, where nothing holds them: registers named, registers read, destination, and the
wave before its PC goes on (R81 to R85, R113, R121, R158, R159, R362, R394). -/
def Sys2Proof.Machine.waveForm (s : State) (w : Wave) (c : Cons) : Instr → Option (List Nat × List Nat × Option (Nat × Nat) × (Wave → Wave))
  | .nop => some ([], [], none, id)
  | .wait k n => if w.count (Ctr.ofCode k) ≤ n then some ([], [], none, id) else none
  | .lwait k => if w.lbusy ≤ k then some ([], [], none, Wave.cover) else none
  | .mts d r => if r.writable then some ([d], [d], none, fun w => w.sendSpecial s.nextId (s.clkCur + 2) r (s.rS w d)) else none
  | .settv off => some ([], [], none, fun w => { w with ctl := { w.ctl with
      handler := if off = 0 then none else some (relTarget w.spc off) } })
  | .sleep d k =>
    if (s.rS w d).toNat + k = 0 then some ([d], [d], none, id)
    else some ([d], [d], none, fun w => { w with park := .sleep (s.nsc + min ((s.rS w d).toNat + k) (2 ^ 64 - 1)) })
  | .lrun a b =>
    let x := (s.rS w a).toNat
    let y := (s.rS w b).toNat
    let n := if x / 2 ^ 24 % 2 ^ 8 = 0 then 256 else x / 2 ^ 24 % 2 ^ 8
    if x % 2 ^ 24 + n ≤ c.obj.laneWords ∧ w.lbusy < 8 then some ([a, b], [a, b], none, fun w => w.setQueue (w.prune.queue ++
      [⟨s.nextId, x % 2 ^ 24, n, BitVec.ofNat 32 (x / 2 ^ 32), BitVec.ofNat 32 y, BitVec.ofNat 32 (y / 2 ^ 32), w.lmask, 0⟩]))
    else none
  | .lblk d k =>
    if 8 * k + 8 ≤ (c.obj.sect 5).2 then some ([d], [d], some (d, 2), fun w => w.sendS s.nextId (s.clkCur + 2) d
      (wordN ((s.rS w d).toNat / 2 ^ 32 * 2 ^ 32 + c.blocks.getD k 0 % 2 ^ 32)))
    else none
  | _ => none

/-- R81 to R85, R113, R121, R158, R159, R362, R394. The words of `waveForm` issue, with that effect on the wave. -/
def Obligations.StreamWords : Prop :=
  ∀ (i : Instr) (s : State) (w : Wave) (c : Cons) (fields reads : List Nat) (dst : Option (Nat × Nat)) (f : Wave → Wave),
    w.spc < 2 ^ 57 → waveForm s w c i = some (fields, reads, dst, f) → scalarReady s fields reads dst = some (w, c) →
    exec i s = .next (s.step4 s.cur w f)

/-- R110, R113. `yield` issues as `nop` does; with a ready pending wave in the partition the wave gives its place to the one that has waited
longest, but where the partition has already made a swap in this cycle the word waits for the next.
R83, R84, R121. While more than k blocks are unfinished an `lwait`, and while a counter is above n a `wait`, holds the scalar stream: the
word does not issue, and nothing but the scheduler's view of the wave changes. -/
def Obligations.StreamHolds : Prop :=
  (
    ∀ (s : State) (w : Wave) (c : Cons), scalarReady s [] [] none = some (w, c) →
      exec .yield s = .next (match s.longestPending (coreOfWave s.cur) (partOfWave s.cur) with
        | some e => if w.sched.active then
            if s.swapped (coreOfWave s.cur) (partOfWave s.cur) = true then s.holdS s.cur w .stall
            else (s.step4 s.cur w id).swapOrdinary (coreOfWave s.cur) (partOfWave s.cur) (some s.cur) e.1 else s.step4 s.cur w id
        | none => s.step4 s.cur w id)) ∧
  (
    ∀ (s : State) (w : Wave) (c : Cons) (k n : Nat), scalarReady s [] [] none = some (w, c) →
      (n < w.count (Ctr.ofCode k) → exec (.wait k n) s = .next (s.holdS s.cur w .long)) ∧
      (k < w.lbusy → exec (.lwait k) s = .next (s.holdS s.cur w .stall)))

/-- R74, R103, R281. `exit` is held while a lane block is unfinished. With every block finished it issues: a wave that waits for an
acknowledgement, or that leaves a barrier behind a page fault, is exiting and keeps its barriers, the fault raised; any other stops and drains, each
barrier that has a place is sent its leave, and the consignment counts the wave as exited. A lead's channel is free then, with an empty split
table. -/
def Obligations.Exit : Prop :=
  ∀ (s : State) (w : Wave) (c : Cons), scalarReady s [] [] none = some (w, c) →
    (0 < w.lbusy → exec .exit s = .next (s.holdS s.cur w .stall)) ∧
    (w.lbusy = 0 →
      ((s.core (coreOfWave s.cur)).chan.lead = some s.cur → ∀ e ∈ s.waves, e.2.convoy.role ≠ .departed w.lcore) →
      (w.acks ≠ [] → ∃ t x, exec .exit s = .next t ∧ t.wave s.cur = some x ∧ x.life = .exiting false ∧ x.members = w.members ∧
        t.con w.cid = some c) ∧
      (w.acks = [] →
        (∀ va, leaveFault s c (coreOfWave s.cur) w.members = some va → ∃ t x, exec .exit s = .next t ∧ t.wave s.cur = some x ∧
          x.life = .exiting false ∧ x.members = w.members ∧ t.con w.cid = some c ∧ Fault1.wave s.cur c.aspace va ∈ t.faults) ∧
        (leaveFault s c (coreOfWave s.cur) w.members = none → ∃ t x y, exec .exit s = .next t ∧ t.wave s.cur = some x ∧
          x.life = .draining false ∧ x.members = [] ∧ x.laneQ = [] ∧ x.handQ = [] ∧
          t.con w.cid = some y ∧ y.exited = c.exited + 1 ∧ y.live = c.live - 1 ∧ y.killed = c.killed ∧
          (∀ m ∈ w.members, ∀ k, place s c (coreOfWave s.cur) m.addr.toNat .write = .at k →
            ∃ q ∈ t.reqs, q.wave = s.cur ∧ q.kind = .leave m.count m.arrived m.phase ∧ q.accs = [⟨0, k, m.addr.toNat, 0, 0⟩]) ∧
          ((s.core (coreOfWave s.cur)).chan.lead = some s.cur → (t.core (coreOfWave s.cur)).chan.lead = none ∧
            (t.core (coreOfWave s.cur)).chan.splits = []))))

/-! ## Taking an exception and returning from one -/

/-- Die `d`'s log has entry `e` among those of this cycle, and at HEAD's place when it is the first of them. -/
def Sys2Proof.Machine.logged (s t : State) (d : Nat) (e : LogRec) : Prop :=
  e ∈ (t.die d).entriesOf (s.now / 12) ∧
    ((s.die d).entriesOf (s.now / 12) = [] → look (t.die d).log ((s.die d).head % 64) = some e)

/-- A handler address that is usable: a multiple of 4 inside `.scalar` (R366). -/
def Sys2Proof.Machine.usable (c : Cons) (h : Nat) : Prop := h % 4 = 0 ∧ c.obj.scalarBase ≤ h ∧ h < c.obj.scalarBase + c.obj.scalarSize

/-- R358, R359, R360, R364. A trap of a wave outside its handler, whose handler is usable: every result in flight and every special function
lands; `xcause`, `xmask` and `xaddr` take the cause, the lanes and the address, `xspc` and `xlpc` where the two streams stand; the
wave is in handler mode and its scalar PC at the handler. Without a result in flight every register keeps its value, and memory is as
before. A hazard or a breakpoint of a consignment that a debugger holds stops the wave at the word instead, with the cause registers and the stop
point written and nothing else changed. What a wait of the scalar stream becomes that a lane trap interrupts is the model's reading (log 16), and how
a wave stops for a debugger its choice (log 44). -/
def Obligations.TrapEntry : Prop :=
  ∀ (s : State) (n h : Nat) (t : TrapInfo) (w : Wave) (c : Cons), s.wave n = some w → s.con w.cid = some c → w.ctl.hmode = false →
    t.code < 256 → t.arg < 65536 → w.spc < 2 ^ 57 →
    (toDebugger c t.code = true → ∃ x, (s.takeTrap n t).wave n = some x ∧ x.life = .halted ∧ x.spc = w.spc ∧ x.regs = w.regs ∧ x.laneQ = w.laneQ ∧
      x.ctl.hmode = false ∧ x.ctl.xcause = wordN (t.code + 256 * t.lane.toNat + 512 * t.async.toNat + 65536 * t.arg) ∧
      x.ctl.xmask = t.mask ∧ x.ctl.xaddr = t.addr ∧ x.ctl.xspc = wordN w.spc ∧
      x.ctl.xlpc = BitVec.ofNat 24 (t.lpc.getD (w.nextLpc w.queue)) ∧ (s.takeTrap n t).mem = s.mem ∧
      ∀ m, m ≠ n → (s.takeTrap n t).wave m = s.wave m) ∧
    (toDebugger c t.code = false → w.ctl.handler = some h → usable c h →
    let conv := (match w.convoy.role with
      | .member _ => true
      | _ => false) && w.convoy.width.isNone
    ∃ x, (s.takeTrap n t).wave n = some x ∧ x.spc = h ∧ x.ctl.hmode = true ∧
      x.ctl.xcause = wordN (t.code + 256 * t.lane.toNat + 512 * t.async.toNat + 1024 * conv.toNat + 65536 * t.arg) ∧
      x.ctl.xmask = t.mask ∧ x.ctl.xaddr = t.addr ∧ x.ctl.xspc = wordN w.spc ∧
      x.ctl.xlpc = BitVec.ofNat 24 (t.lpc.getD (w.nextLpc w.queue)) ∧
      (t.code = 6 → x.ctl.fpflags.toNat / 256 = t.trig.toNat) ∧
      x.pend = [] ∧ x.ops.all (fun o => o.ctr != .sf) = true ∧ x.park = .none ∧ x.under = w.park.kept ∧
      (w.pend = [] → w.ops.all (fun o => o.ctr != .sf) = true → x.regs = w.regs ∧ x.lmask = w.lmask ∧ x.handQ = w.pruneList w.handQ ∧
        (s.takeTrap n t).mem = s.mem) ∧
      ∀ m, m ≠ n → (s.takeTrap n t).wave m = s.wave m)

/-- R366, R368, R405. A trap without a usable handler, or in handler mode, that no debugger takes (R358) kills the wave: it stops as killed, or waits to stop until its
arrives are acknowledged; the consignment's error flag is set; and its die's error log records the cause, the address and the scalar
PC, with NEST where the wave was in handler mode.
The model's own choice of log 37 bears on it. -/
def Obligations.TrapKills : Prop :=
  ∀ (s : State) (n : Nat) (t : TrapInfo) (w : Wave) (c : Cons), s.wave n = some w → s.con w.cid = some c →
    (w.ctl.hmode = true ∨ w.ctl.handler = none ∨ ∃ h, w.ctl.handler = some h ∧ ¬ usable c h) → toDebugger c t.code = false →
    w.members = [] → w.ops.all (fun o => o.failed.isEmpty) = true → w.spc < 2 ^ 57 →
    let u := s.takeTrap n t
    let d := dieOf (coreOfWave n)
    ∃ x y e, u.wave n = some x ∧ x.life = (if w.acks = [] then .draining true else .exiting true) ∧ u.con w.cid = some y ∧ y.error = true ∧
      (w.acks = [] → y.killed = c.killed + 1 ∧ y.live = c.live - 1) ∧
      logged s u d e ∧ e.cause = t.code ∧ e.addr = t.addr.toNat ∧ e.spc = w.spc ∧
      e.nest = w.ctl.hmode ∧ (u.die d).head = ((s.die d).head + 1) % 2 ^ 32

/-- R28, R29, R363. `trap #n`: for n below 0x7F00 the user trap with n in `xaddr` and ARG; for n from 0x7F00 to 0x7FFE an illegal-instruction
trap with the word in `xaddr`; for 0x7FFF translate-on-call, which parks the wave with the function that the next word of code names.
R367. Outside handler mode either form of `xret` is an illegal-instruction trap. In handler mode, once the handler queue is empty, it ends
handler mode: the scalar stream resumes at `xspc`, one word further for a skip past a scalar word that trapped synchronously, and the
lane stream at `xlpc`, one word further for a skip past such a lane word; registers and trap registers stay. A resume point outside
`.scalar` or the block kills the wave with cause 0x16.
The model's own choice of log 16 bears on it. -/
def Obligations.HandlerEntryReturn : Prop :=
  (
    ∀ (s : State) (w : Wave) (c : Cons) (n : Nat), scalarReady s [] [] none = some (w, c) → n < 0x8000 →
      (n < 0x7F00 → exec (.trap n) s = .next (s.trapS s.cur 0x0B (wordN n) 0 n)) ∧
      (0x7F00 ≤ n → n < 0x7FFF → exec (.trap n) s = .next (s.trapS s.cur 1 (wordN (0x0400_0000 + n)) 0 0)) ∧
      (n = 0x7FFF → ∃ t, exec (.trap n) s = .next t ∧ t.wave s.cur =
        some { w with park := .translate (ofBytes (codeBytes s c (coreOfWave s.cur) (w.spc + 4) 4)) } ∧ t.mem = s.mem)) ∧
  (
    ∀ (s : State) (w : Wave) (c : Cons) (skip : Bool), scalarReady s [] [] none = some (w, c) →
      let i : Instr := if skip then .xretSkip else .xretRedo
      let past := skip && !w.ctl.xcause.getLsbD 9
      let sp := if past && !w.ctl.xcause.getLsbD 8 then (w.ctl.xspc.toNat + 4) % 2 ^ 57 else w.ctl.xspc.toNat
      let k := if past && w.ctl.xcause.getLsbD 8 then w.ctl.xlpc.toNat + 1 else w.ctl.xlpc.toNat
      let blk := w.ctl.trapBlk.getD (none, k, k)
      (w.ctl.hmode = false → exec i s = .next (s.trapS s.cur 1 (if skip then 0x0600_0000 else 0x0500_0000) 0 0)) ∧
      (w.ctl.hmode = true → 0 < w.lbusy → exec i s = .next (s.holdS s.cur w .stall)) ∧
      (w.ctl.hmode = true → w.lbusy = 0 → usable c sp → sp < 2 ^ 57 → blk.2.1 ≤ k → k ≤ blk.2.2 →
        ∃ t x, exec i s = .next t ∧ t.wave s.cur = some x ∧ x.ctl = { w.ctl with hmode := false, trapBlk := none } ∧ x.spc = sp ∧
          x.lpc = k ∧ x.regs = w.regs ∧ x.lmask = w.lmask ∧ x.park = w.under ∧ x.under = .none ∧ t.mem = s.mem ∧
          ∀ b bs, w.laneQ = b :: bs → blk = (some b.id, b.start, b.start + b.count) → k < b.start + b.count →
            x.laneQ = { b with pos := k - b.start } :: bs) ∧
      (w.ctl.hmode = true → w.lbusy = 0 → (¬ usable c sp ∨ k < blk.2.1 ∨ blk.2.2 < k) → w.members = [] → w.acks = [] →
        w.ops.all (fun o => o.failed.isEmpty) = true →
        ∃ t x y e, exec i s = .next t ∧ t.wave s.cur = some x ∧ x.life = .draining true ∧ t.con w.cid = some y ∧ y.error = true ∧
          logged s t (dieOf (coreOfWave s.cur)) e ∧ e.cause = 0x16))

/-! ## Scalar memory words -/

/-- What a scalar memory word asks of its home: the registers it names and reads, its address, its width in bytes, what the home does,
where the answer goes, the two data words, and its order and scope. -/
structure Sys2Proof.Machine.MemUse where
  fields : List Nat
  reads  : List Nat
  addr   : Word
  size   : Nat
  kind   : MemKind
  dest   : OpDest
  data   : Word
  data2  : Word
  ord    : Order
  sc     : Scope

/-- A load: `size` bytes from sA + off × size into sD (R258). -/
def Sys2Proof.Machine.loadUse (s : State) (w : Wave) (d a off size : Nat) (signed : Bool) : MemUse :=
  ⟨[d, a], [a], wordN ((s.rS w a).toNat + off * size), size, .load, .sreg d size signed, 0, 0, .none, .wv⟩

/-- A store of the low `size` bytes of sD (R258). -/
def Sys2Proof.Machine.storeUse (s : State) (w : Wave) (d a off size : Nat) : MemUse :=
  ⟨[d, a], [d, a], wordN ((s.rS w a).toNat + off * size), size, .store, .none, wordN ((s.rS w d).toNat % 2 ^ (8 * size)), 0, .none, .wv⟩

/-- An atomic whose old word goes to sD (R273). -/
def Sys2Proof.Machine.amoUse (s : State) (w : Wave) (op : AmoOp) (d a : Nat) (ord : Order) (sc : Scope) : MemUse :=
  ⟨[d, a], [d, a], s.rS w a, 8, .amo op, .sreg d 8 false, s.rS w d, 0, ord, sc⟩

/-- A reduction, which returns nothing (R273). -/
def Sys2Proof.Machine.redUse (s : State) (w : Wave) (op : AmoOp) (d a : Nat) (ord : Order) (sc : Scope) : MemUse :=
  ⟨[d, a], [d, a], s.rS w a, 8, .red op, .none, s.rS w d, 0, ord, sc⟩

/-- Every scalar memory word (R258, R273, R286). `amo.cas` is one where s(d+1) is a legal register (R47). -/
def Sys2Proof.Machine.memUse (s : State) (w : Wave) : Instr → Option MemUse
  | .ldsI8 d a off => some (loadUse s w d a off 1 true)
  | .ldsN8 d a off => some (loadUse s w d a off 1 false)
  | .ldsI16 d a off => some (loadUse s w d a off 2 true)
  | .ldsN16 d a off => some (loadUse s w d a off 2 false)
  | .ldsI32 d a off => some (loadUse s w d a off 4 true)
  | .ldsN32 d a off => some (loadUse s w d a off 4 false)
  | .lds64 d a off => some (loadUse s w d a off 8 false)
  | .sts8 d a off => some (storeUse s w d a off 1)
  | .sts16 d a off => some (storeUse s w d a off 2)
  | .sts32 d a off => some (storeUse s w d a off 4)
  | .sts64 d a off => some (storeUse s w d a off 8)
  | .ldfe d a off => some { loadUse s w d a off 8 false with kind := .ldfe }
  | .ldf d a off => some { loadUse s w d a off 8 false with kind := .ldf }
  | .stfe d a off => some { storeUse s w d a off 8 with kind := .stfe, data := s.rS w d }
  | .tagset d a off => some ⟨[a], [a], wordN ((s.rS w a).toNat + off * 8), 8, .tagset (decide (d = 1)), .none, 0, 0, .none, .wv⟩
  | .amoAdd d a ord sc => some (amoUse s w .add d a ord sc)
  | .amoAnd d a ord sc => some (amoUse s w .and d a ord sc)
  | .amoOr d a ord sc => some (amoUse s w .or d a ord sc)
  | .amoXor d a ord sc => some (amoUse s w .xor d a ord sc)
  | .amoMinI64 d a ord sc => some (amoUse s w .minS d a ord sc)
  | .amoMinN64 d a ord sc => some (amoUse s w .minU d a ord sc)
  | .amoMaxI64 d a ord sc => some (amoUse s w .maxS d a ord sc)
  | .amoMaxN64 d a ord sc => some (amoUse s w .maxU d a ord sc)
  | .amoSwap d a ord sc => some (amoUse s w .swap d a ord sc)
  | .amoCas d a ord sc =>
    if w.sOk (d + 1) then some { amoUse s w .cas d a ord sc with reads := [d, d + 1, a], data2 := s.rS w (d + 1) } else none
  | .redAdd d a ord sc => some (redUse s w .add d a ord sc)
  | .redAnd d a ord sc => some (redUse s w .and d a ord sc)
  | .redOr d a ord sc => some (redUse s w .or d a ord sc)
  | .redXor d a ord sc => some (redUse s w .xor d a ord sc)
  | .redMinI64 d a ord sc => some (redUse s w .minS d a ord sc)
  | .redMinN64 d a ord sc => some (redUse s w .minU d a ord sc)
  | .redMaxI64 d a ord sc => some (redUse s w .maxS d a ord sc)
  | .redMaxN64 d a ord sc => some (redUse s w .maxU d a ord sc)
  | _ => none

/-- The one access of a scalar memory word, at storage key `k`. -/
def Sys2Proof.Machine.MemUse.acc (u : MemUse) (k : Nat) : Acc := ⟨0, k, u.addr.toNat, u.data, u.data2⟩

/-- Nothing holds the word: room in the operand log and in its counter, no fence before it, no scoreboard entry against it, its release
complete (R120, R245, R268, R296, R298). -/
def Sys2Proof.Machine.MemUse.free (u : MemUse) (s : State) (w : Wave) (c : Cons) : Prop :=
  memHeld s s.cur w u.kind u.size none [want64 s c (coreOfWave s.cur) u.kind 0 u.addr.toNat u.data u.data2] = false ∧
    (hasRel u.ord = true → s.releasedS s.cur w u.sc = true)

/-- The register that the word's value comes to, at a time not known when it issues (R118). -/
def Sys2Proof.Machine.MemUse.dst (u : MemUse) : Option (Nat × Nat) := match u.dest with
  | .sreg r _ _ => some (r, lateLat)
  | _ => none

/-- R119, R252, R256, R258, R269, R273, R286, R296, R305. A scalar memory word whose address is aligned, maps to a place where it may act, and
that nothing holds: it issues, its counter counts it as one more operation, and one request with its data sets out to the home of the
bytes, or, for a load that the core's snapshot serves, the answer: it carries the bytes of the sector that the snapshot holds, waits for the other waves'
stores to it, and lands 6 cycles later at the earliest. With an acquire the scalar stream waits for the value. Memory, the tags,
the wave's registers and every other wave are as before. Which loads the snapshot serves is the model's reading (log 14).
The model's own choices of log 14, 26 bear on it. -/
def Obligations.ScalarMemoryWords : Prop :=
  ∀ (i : Instr) (s : State) (w : Wave) (c : Cons) (u : MemUse) (k : Nat), w.spc < 2 ^ 57 → memUse s w i = some u →
    scalarReady s u.fields u.reads u.dst = some (w, c) → u.addr.toNat % u.size = 0 → u.free s w c →
    place s c (coreOfWave s.cur) u.addr.toNat u.kind.need = .at k → (u.kind.syncs = true → keyIsHost k = false) →
    (keyIsSpad k = true ∨ w.pageLogged u.addr.toNat = false) →
    ∃ t x, exec i s = .next t ∧ t.wave s.cur = some x ∧ t.mem = s.mem ∧ t.full = s.full ∧ (∀ m, m ≠ s.cur → t.wave m = s.wave m) ∧
      x = { w with spc := (w.spc + 4) % 2 ^ 57, edge := .none, sched := x.sched
                   park := if hasAcq u.ord then .atomic s.nextId u.sc else w.park
                   ops := w.ops ++ [⟨s.nextId, u.kind.ctr, 1, none, u.dest, none, 0, false, w.spc, w.nextLpc w.queue, [],
                     (keyIsHost k || keyIsPeer k).toNat, none, 1⟩] } ∧
      match (if u.kind = .load then s.snapFor s.cur true k u.addr.toNat else none) with
      | some sec => (s.core (coreOfWave s.cur)).held k = some sec ∧ t.reqs = s.reqs ∧ t.resps = s.resps ++
          [⟨s.cur, w.cid, coreOfWave s.cur, s.nextId, [(0, wordN (sectorNum sec k u.size))], [], false, none, false, none, false,
            s.hitBehind s.cur k, s.tickOf (coreOfWave s.cur) (s.clkCur + 6)⟩]
      | none => t.resps = s.resps ∧ t.reqs = s.reqs ++
          [⟨s.nextId + 1, s.cur, w.cid, coreOfWave s.cur, homeOf k, s.nextId, .mem u.kind, u.size, [u.acc k], [], [], 0, s.now, false, 0, 0⟩]

/-- R241, R243, R244, R246. Where the page of a scalar memory word is absent, its access goes to the operand log and a page fault waits for
service; where the page forbids the access, an error answer is on its way, but where the log already names the page the access goes
there behind it, whatever the page allows. In each case the word has issued, and no request sets out.
R15, R238. `xlat` of a pointer that is mapped writes a register with the pointer as its base, the pointer's frame, the page's attributes,
and a limit that reaches at least to the end of the page; of one into `.data`, the frame of the consignment's own copy, and a limit that
reaches to the copy's end; of one that is not mapped or not canonical, a register of limit 0. The scalar stream is parked, and its next word
issues 8 cycles later at the earliest.
The model's own choices of log 19, 23 bear on it. -/
def Obligations.ScalarMemoryFaults : Prop :=
  (
    ∀ (i : Instr) (s : State) (w : Wave) (c : Cons) (u : MemUse), memUse s w i = some u →
      scalarReady s u.fields u.reads u.dst = some (w, c) → u.addr.toNat % u.size = 0 → u.free s w c → hasAcq u.ord = false →
      (place s c (coreOfWave s.cur) u.addr.toNat u.kind.need = .fault →
        ∃ t x, exec i s = .next t ∧ t.wave s.cur = some x ∧ t.mem = s.mem ∧ t.reqs = s.reqs ∧ t.resps = s.resps ∧
          x.oplog = w.oplog ++ [⟨s.nextId, false, w.spc, w.nextLpc w.queue, u.kind, u.size, u.kind.syncs, [u.acc 0]⟩] ∧
          ∃ va, Fault1.wave s.cur c.aspace va ∈ t.faults ∧ va / 4096 = u.addr.toNat / 4096) ∧
      (place s c (coreOfWave s.cur) u.addr.toNat u.kind.need ≠ .fault → isSpad u.addr.toNat = false → w.pageLogged u.addr.toNat = true →
        ∃ t x, exec i s = .next t ∧ t.wave s.cur = some x ∧ t.mem = s.mem ∧ t.reqs = s.reqs ∧ t.resps = s.resps ∧ t.faults = s.faults ∧
          x.oplog = w.oplog ++ [⟨s.nextId, false, w.spc, w.nextLpc w.queue, u.kind, u.size, u.kind.syncs, [u.acc 0]⟩]) ∧
      (place s c (coreOfWave s.cur) u.addr.toNat u.kind.need = .violation → isSpad u.addr.toNat = true ∨ w.pageLogged u.addr.toNat = false →
        ∃ t, exec i s = .next t ∧ t.mem = s.mem ∧ t.reqs = s.reqs ∧ t.faults = s.faults ∧
          t.resps = s.resps ++ [⟨s.cur, w.cid, coreOfWave s.cur, s.nextId, [], [(0, u.addr.toNat)], false, none, decide (u.kind.ctr = .st), none, false, [], 0⟩])) ∧
  (
    ∀ (s : State) (w : Wave) (c : Cons) (d a : Nat), scalarReady s [a] [a] none = some (w, c) → d < 8 →
      ∃ t x r, exec (.xlat d a) s = .next t ∧ t.wave s.cur = some x ∧ look x.tbs d = some r ∧ t.mem = s.mem ∧
        x.sched.readyS = s.clkCur + 8 ∧ x.park = .xlat ∧ x.spc = (w.spc + 4) % 2 ^ 57 ∧ r.base = s.rS w a ∧
        (canonical (s.rS w a).toNat = false → r.limit = 0) ∧
        (canonical (s.rS w a).toNat = true → match c.dataAt (s.rS w a).toNat with
          | some pa => r.frame = pa ∧ r.limit = va57 (c.obj.base + (c.obj.sect 4).1) + (c.obj.sect 4).2 - va57 (s.rS w a).toNat
          | none => match translate s (coreOfWave s.cur) c.aspace (s.rS w a).toNat with
            | .ok b pa z attr => r.attr = attr ∧ r.frame = pa + (va57 (s.rS w a).toNat - b) ∧ z - (va57 (s.rS w a).toNat - b) ≤ r.limit
            | _ => r.limit = 0))

/-! ## Ordering, barriers and waits on addresses -/

/-- R230, R294, R295, R296. A `phase` that finds its release and its acquire complete issues; with an acquire at `.bd` or wider the core's
snapshot is emptied. One that does not find them so holds the scalar stream. A release is not complete while a load, store, atomic, tag
operation or `launch` before it, or an arrive, a join, a leave or a wake of the wave, is on its way, nor an acquire while a read is; the parts of an
operation that lie in the host and peer windows count at `.sy` only.
R298, R299. A `fence` issues at once. Where neither set is empty, a later access of a class of its second set
waits while an operation of its first set, issued before it, is not complete.
The model's own choice of log 14 bears on it. -/
def Obligations.Ordering : Prop :=
  (
    ∀ (s : State) (w : Wave) (c : Cons) (ord : Order) (sc : Scope), scalarReady s [] [] none = some (w, c) →
      ((hasRel ord = true → s.releasedS s.cur w sc = true) → (hasAcq ord = true → readsLanded sc w.beforeScalar = true) →
        ∃ t x, exec (.phase ord sc) s = .next t ∧ t.wave s.cur = some x ∧ x.spc = (w.spc + 4) % 2 ^ 57 ∧ x.regs = w.regs ∧ x.ops = w.ops ∧
          t.mem = s.mem ∧ t.reqs = s.reqs ∧ (t.core (coreOfWave s.cur)).snap =
            if hasAcq ord = true ∧ 2 ≤ sc.code then [] else (s.core (coreOfWave s.cur)).snap) ∧
      ((hasRel ord = true ∧ s.releasedS s.cur w sc = false) ∨ (hasAcq ord = true ∧ readsLanded sc w.beforeScalar = false) →
        exec (.phase ord sc) s = .next (s.holdS s.cur w .long)) ∧
      (∀ o ∈ w.beforeScalar, o.need ≠ 0 → (o.far < o.need ∨ sc.code = 5) →
        (o.ctr = .ld ∨ o.ctr = .st → s.releasedS s.cur w sc = false) ∧ (o.ctr = .ld → readsLanded sc w.beforeScalar = false)) ∧
      (∀ r ∈ s.reqs, r.wave = s.cur → r.kind.posted = true → r.home < 4000 → s.releasedS s.cur w sc = false)) ∧
  (
    ∀ (s : State) (w : Wave) (c : Cons) (pred succ : Nat), scalarReady s [] [] none = some (w, c) → pred < 64 → succ < 64 →
      (pred = 0 ∨ succ = 0 → exec (.fence pred succ) s = .next (s.step4 s.cur w id)) ∧
      (pred ≠ 0 → succ ≠ 0 → ∃ t x, exec (.fence pred succ) s = .next t ∧ t.wave s.cur = some x ∧ x.spc = (w.spc + 4) % 2 ^ 57 ∧
        x.regs = w.regs ∧ x.ops = w.ops ∧ t.mem = s.mem ∧ t.reqs = s.reqs ∧
        (∀ o ∈ w.beforeScalar, o.need ≠ 0 → (o.ctr = .ld ∧ pred % 2 = 1 ∨ o.ctr = .st ∧ pred / 2 % 2 = 1) →
          ∀ k : Cls, succ / 2 ^ k.bit % 2 = 1 → x.fenced s.clkCur k none = true) ∧
        ∀ o ∈ w.cmds, (o.reads = true ∧ pred / (if o.matrix = true then 16 else 4) % 2 = 1 ∨
            o.writes = true ∧ pred / (if o.matrix = true then 32 else 8) % 2 = 1) →
          ∀ k : Cls, succ / 2 ^ k.bit % 2 = 1 → x.fenced s.clkCur k none = true))

/-- What a word of barriers or address waits asks of its home: registers named and read, its address and alignment, its request, whether the
wave parks and how, and the wave's lists of unacknowledged arrives and of barriers joined. -/
structure Sys2Proof.Machine.SyncUse where
  fields  : List Nat
  reads   : List Nat
  addr    : Word
  align   : Nat
  kind    : ReqKind
  op      : Nat
  park    : Nat → Park
  acks    : List Word
  members : List Member
  edge    : Edge

/-- The count that sB gives: bits 29:0, with 0 meaning 1, where bits 63:30 are zero (R278). -/
def Sys2Proof.Machine.countIn (v : Word) : Option Nat := if v.toNat < 2 ^ 30 then some (max 1 v.toNat) else none

/-- The words of R278 to R284, where their operands are legal and what they wait for before they issue is complete. -/
def Sys2Proof.Machine.syncUse (s : State) (w : Wave) : Instr → Option SyncUse
  | .arrive sc a b => (countIn (s.rS w b)).bind fun k =>
    if s.releasedS s.cur w sc then some ⟨[a, b], [a, b], s.rS w a, 8, .arrive k false, 0, fun _ => w.park, w.acks ++ [s.rS w a], w.members, .arrive⟩
    else none
  | .await sc a b => some ⟨[a, b], [a, b], s.rS w a, 8, .await ((s.rS w b).getLsbD 0), s.nextId,
      fun _ => .barrier sc b (s.rS w a).toNat s.nextId (some ((s.rS w b).getLsbD 0)), w.acks, w.members, .none⟩
  | .arriveWait sc a b => (countIn (s.rS w b)).bind fun k =>
    if s.releasedS s.cur w sc then some ⟨[a, b], [a, b], s.rS w a, 8, .arrive k true, s.nextId,
      fun _ => .barrier sc b (s.rS w a).toNat s.nextId none,
      w.acks ++ [s.rS w a], w.members, .arrive⟩
    else none
  | .bjoin a b => (countIn (s.rS w b)).bind fun k =>
    if (w.members.any fun m => m.addr == s.rS w a) ∨ w.members.length < 8 then
      some ⟨[a, b], [a, b], s.rS w a, 8, .join k, 0, fun _ => w.park, w.acks, joinList w.members (s.rS w a) k, .none⟩
    else none
  | .bleave a => (w.members.find? fun m => m.addr == s.rS w a).bind fun m =>
    if w.acks.contains (s.rS w a) then none
    else some ⟨[a], [a], s.rS w a, 8, .leave m.count m.arrived m.phase, 0, fun _ => w.park, w.acks,
      w.members.filter fun m => m.addr != s.rS w a, .none⟩
  | .waitaddr d a b =>
    let t := (s.rS w b).toNat
    some ⟨[d, a, b], [d, a, b], s.rS w a, 16, .waitaddr (s.rS w d), s.nextId,
      fun key => .address d key 0 s.nextId (if t = 0 then none else some (s.nsc + t)), w.acks, w.members, .none⟩
  | .wake a b => some ⟨[a, b], [a, b], s.rS w a, 16, .wake (s.rS w b).toNat, 0, fun _ => w.park, w.acks, w.members, .none⟩
  | _ => none

/-- The words of R278 to R284 that come to the check of their address: registers read, the address, and the alignment it needs. -/
def Sys2Proof.Machine.syncAddr (s : State) (w : Wave) : Instr → Option (List Nat × Word × Nat)
  | .arrive _ a b => (countIn (s.rS w b)).map fun _ => ([a, b], s.rS w a, 8)
  | .await _ a b => some ([a, b], s.rS w a, 8)
  | .arriveWait _ a b => (countIn (s.rS w b)).map fun _ => ([a, b], s.rS w a, 8)
  | .bjoin a b => (countIn (s.rS w b)).map fun _ => ([a, b], s.rS w a, 8)
  | .bleave a => (w.members.find? fun m => m.addr == s.rS w a).map fun _ => ([a], s.rS w a, 8)
  | .waitaddr d a b => some ([d, a, b], s.rS w a, 16)
  | .wake a b => some ([a, b], s.rS w a, 16)
  | _ => none

/-- The address of such a word passes the check: aligned, at a place it may write that is not the host's, leased where it is a scratchpad,
and named by no logged access. -/
def Sys2Proof.Machine.syncPasses (s : State) (w : Wave) (c : Cons) (va align : Nat) : Prop :=
  va % align = 0 ∧ (isSpad va = true ∨ w.pageLogged va = false) ∧ ∃ k, place s c (coreOfWave s.cur) va .write = .at k ∧ keyIsHost k = false ∧
    (keyIsSpad k = true → spadLeased s (keyCore k) (keyOff k) align w.cid = true)

/-- R278 to R284. A word of `syncUse` at an aligned address that maps to a place it may write, and that is leased to the consignment where it
is a scratchpad, and that no logged access of the wave comes before: it issues, one request sets out to the home of the bytes, and the wave
parks where the word waits. Memory, the tags, the registers and every other wave are as before; the sector leaves the core's snapshot, so that
no later read of the wave falls behind what the word finds there (R305; log 14).
R230, R241, R278, R280. Such a word at a misaligned address takes the misaligned-access trap, and at one it may not write, in the host's
window, or in a scratchpad that is not leased to the consignment, the access-violation trap; an absent page holds the wave at the word with a page
fault raised; behind a logged access of the wave to the page it is held. A count with bits 63:30 set, a ninth barrier joined, and a
barrier left that the wave has not joined are illegal operands. An arrive is held until its release is complete, and a leave until the wave's arrives to
the address are acknowledged. No request sets out.
The model's own choices of log 12, 16 bear on it. -/
def Obligations.SyncWords : Prop :=
  (
    ∀ (i : Instr) (s : State) (w : Wave) (c : Cons) (u : SyncUse) (k : Nat), w.spc < 2 ^ 57 → syncUse s w i = some u →
      scalarReady s u.fields u.reads none = some (w, c) → u.addr.toNat % u.align = 0 →
      place s c (coreOfWave s.cur) u.addr.toNat .write = .at k → keyIsHost k = false →
      (keyIsSpad k = true → spadLeased s (keyCore k) (keyOff k) u.align w.cid = true) →
      (isSpad u.addr.toNat = true ∨ w.pageLogged u.addr.toNat = false) →
      ∃ t x, exec i s = .next t ∧ t.wave s.cur = some x ∧ t.mem = s.mem ∧ t.full = s.full ∧ t.resps = s.resps ∧
        (∀ m, m ≠ s.cur → t.wave m = s.wave m) ∧
        x = { w with spc := (w.spc + 4) % 2 ^ 57, edge := u.edge, sched := x.sched, park := u.park k, acks := u.acks, members := u.members } ∧
        t.reqs = s.reqs ++ [⟨s.nextId + 1, s.cur, w.cid, coreOfWave s.cur, homeOf k, u.op, u.kind, u.align,
          [⟨0, k, u.addr.toNat, 0, 0⟩], [], [], 0, s.now, false, w.spc, w.nextLpc w.queue⟩] ∧
        (t.core (coreOfWave s.cur)).held k = none) ∧
  (
    ∀ (s : State) (w : Wave) (c : Cons),
      (∀ (i : Instr) (fs : List Nat) (x : Word) (align : Nat), syncAddr s w i = some (fs, x, align) → scalarReady s fs fs none = some (w, c) →
        (x.toNat % align ≠ 0 → exec i s = .next (s.trapS s.cur 3 x 0 0)) ∧
        (x.toNat % align = 0 →
          (place s c (coreOfWave s.cur) x.toNat .write = .violation ∨
            (∃ k, place s c (coreOfWave s.cur) x.toNat .write = .at k ∧
              (keyIsHost k = true ∨ keyIsSpad k = true ∧ spadLeased s (keyCore k) (keyOff k) align w.cid = false)) →
            exec i s = .next (s.trapS s.cur 4 x 0 0)) ∧
          (place s c (coreOfWave s.cur) x.toNat .write = .fault → ∃ t y, exec i s = .next t ∧ t.wave s.cur = some y ∧ y.spc = w.spc ∧
            y.park = .pageFault false x.toNat ∧ Fault1.wave s.cur c.aspace x.toNat ∈ t.faults ∧ t.reqs = s.reqs ∧ t.mem = s.mem) ∧
          (∀ k, place s c (coreOfWave s.cur) x.toNat .write = .at k → keyIsHost k = false →
            (keyIsSpad k = true → spadLeased s (keyCore k) (keyOff k) align w.cid = true) → isSpad x.toNat = false →
            w.pageLogged x.toNat = true → exec i s = .next (s.holdS s.cur w .long)))) ∧
      (∀ (sc : Scope) (a b : Nat), scalarReady s [a, b] [a, b] none = some (w, c) → countIn (s.rS w b) = none →
        exec (.arrive sc a b) s = .next (s.trapS s.cur 2 (wordN b) 0 0) ∧ exec (.arriveWait sc a b) s = .next (s.trapS s.cur 2 (wordN b) 0 0) ∧
        exec (.bjoin a b) s = .next (s.trapS s.cur 2 (wordN b) 0 0)) ∧
      (∀ (a b : Nat), scalarReady s [a, b] [a, b] none = some (w, c) → (countIn (s.rS w b)).isSome = true →
        syncPasses s w c (s.rS w a).toNat 8 →
        let s' := if isSpad (s.rS w a).toNat = true then s else fillTlb s (coreOfWave s.cur) c.aspace (s.rS w a).toNat
        ((w.members.any fun m => m.addr == s.rS w a) = false → 8 ≤ w.members.length →
          exec (.bjoin a b) s = .next (s'.trapS s.cur 2 (wordN a) 0 0)) ∧
        ∀ sc : Scope, s'.releasedS s.cur w sc = false →
          exec (.arrive sc a b) s = .next (s'.holdS s.cur w .long) ∧ exec (.arriveWait sc a b) s = .next (s'.holdS s.cur w .long)) ∧
      (∀ a : Nat, scalarReady s [a] [a] none = some (w, c) →
        let s' := if isSpad (s.rS w a).toNat = true then s else fillTlb s (coreOfWave s.cur) c.aspace (s.rS w a).toNat
        ((w.members.find? fun m => m.addr == s.rS w a) = none → exec (.bleave a) s = .next (s.trapS s.cur 2 (wordN a) 0 0)) ∧
        ((w.members.find? fun m => m.addr == s.rS w a).isSome = true → syncPasses s w c (s.rS w a).toNat 8 →
          w.acks.contains (s.rS w a) = true → exec (.bleave a) s = .next (s'.holdS s.cur w .long))))

/-! ## Rings, convoys, launch and spawn -/

/-- R123. `qinit` of a legal run, where the handle is no pipe and no engine command replies there, makes it a valid empty ring: over vector
registers, or over the wave's own scratchpad where bit 63 of sA is set. A reserved bit, fewer than 2 or more than 128 slots, a run that is
not the wave's, and a pipe's handle are illegal operands, and a base that is no multiple of 256 a misaligned access; while engine commands reply
there the word is held.
R125, R126, R130. `qpush` of n slots, where the ring has n free and every lane word before it has written its slot, advances the tail by n;
`qpop` of n, where n are filled, advances the head by n; the count of filled slots follows, and of zero slots either does nothing. A push
without room or before its slots are written, and a pop of more than is filled, hold the scalar stream. A handle that is not valid, more slots
than the ring has, a push by a pipe's consumer and a pop by its producer are illegal operands. Every test looks at the handle as the cycle began, and
what another word of the cycle has done to it stays.
The model's own choices of log 12, 18, 55 bear on it. -/
def Obligations.Rings : Prop :=
  (
    ∀ (s : State) (w : Wave) (c : Cons) (d a b : Nat) (scratch : Bool) (base : Nat), scalarReady s [a, b] [a, b] none = some (w, c) →
      (((s.rS w a).toNat < 2 ^ 63 → (s.rS w a).toNat / 2 ^ 9 ≠ 0 → exec (.qinit d a b) s = .next (s.trapS s.cur 2 (wordN a) 0 0)) ∧
        (2 ^ 63 ≤ (s.rS w a).toNat → (s.rS w a).toNat / 2 ^ 20 % 2 ^ 43 ≠ 0 → exec (.qinit d a b) s = .next (s.trapS s.cur 2 (wordN a) 0 0))) ∧
      ((s.rS w a).toNat = scratch.toNat * 2 ^ 63 + base → base < (if scratch then 2 ^ 20 else 512) →
        let slots := (s.rS w b).toNat
        (slots < 2 ∨ 128 < slots → exec (.qinit d a b) s = .next (s.trapS s.cur 2 (wordN b) 0 0)) ∧
        (2 ≤ slots → slots ≤ 128 →
          (scratch = false → w.runOk base slots = false → exec (.qinit d a b) s = .next (s.trapS s.cur 2 (wordN a) 0 0)) ∧
          (scratch = true → base % 256 ≠ 0 → exec (.qinit d a b) s = .next (s.trapS s.cur 3 (wordN base) 0 0)) ∧
          (scratch = true → base % 256 = 0 → (base < w.sbase ∨ w.sbase + w.fp.spad < base + 256 * slots) →
            exec (.qinit d a b) s = .next (s.trapS s.cur 2 (wordN a) 0 0)) ∧
          ((scratch = false → w.runOk base slots = true) →
            (scratch = true → base % 256 = 0 ∧ w.sbase ≤ base ∧ base + 256 * slots ≤ w.sbase + w.fp.spad) →
            (∀ r, look (w.ringsSeen s.clkCur) d = some r → r.pipe ≠ .none → exec (.qinit d a b) s = .next (s.trapS s.cur 2 (wordN d) 0 0)) ∧
            (∀ r, look (w.ringsSeen s.clkCur) d = some r → r.pipe = .none → 0 < r.e → exec (.qinit d a b) s = .next (s.holdS s.cur w .long)) ∧
            ((∀ r, look (w.ringsSeen s.clkCur) d = some r → r.pipe = .none ∧ r.e = 0) →
              exec (.qinit d a b) s = .next (s.step4 s.cur w fun w => { w.touchRings s.clkCur with
                rings := put (w.touchRings s.clkCur).rings d ⟨scratch, base, slots, 0, 0, 0, 0, .none, 0, 0, 0, true⟩ })))))) ∧
  (
    ∀ (s : State) (w : Wave) (c : Cons) (d n : Nat), scalarReady s [] [] none = some (w, c) →
      (look (w.ringsSeen s.clkCur) d = none → exec (.qpush d n) s = .next (s.trapS s.cur 2 (wordN d) 0 0) ∧
        exec (.qpop d n) s = .next (s.trapS s.cur 2 (wordN d) 0 0)) ∧
      ∀ r y : Ring, look (w.ringsSeen s.clkCur) d = some r → look w.rings d = some y → r.filled ≤ r.slots →
        (r.slots < n → exec (.qpush d n) s = .next (s.trapS s.cur 2 (wordN n) 0 0) ∧ exec (.qpop d n) s = .next (s.trapS s.cur 2 (wordN n) 0 0)) ∧
        (n ≤ r.slots →
          (r.isConsumer = true → exec (.qpush d n) s = .next (s.trapS s.cur 2 (wordN d) 0 0)) ∧
          (r.isConsumer = false → n = 0 → exec (.qpush d n) s = .next (s.step4 s.cur w id)) ∧
          (r.isConsumer = false → 0 < n → r.filled + n ≤ r.slots → w.slotsOpen s.cur r = false →
            ∃ t x q, exec (.qpush d n) s = .next t ∧ t.wave s.cur = some x ∧ look x.rings d = some q ∧ q.tail = y.tail + n ∧
              q.filled = y.filled + n ∧ q.head = y.head ∧ x.spc = (w.spc + 4) % 2 ^ 57 ∧ x.regs = w.regs ∧ t.mem = s.mem) ∧
          (r.isConsumer = false → 0 < n → r.slots < r.filled + n ∨ w.slotsOpen s.cur r = true →
            exec (.qpush d n) s = .next (s.holdS s.cur w .long)) ∧
          (r.isProducer = true → exec (.qpop d n) s = .next (s.trapS s.cur 2 (wordN d) 0 0)) ∧
          (r.isProducer = false → n = 0 → exec (.qpop d n) s = .next (s.step4 s.cur w id)) ∧
          (r.isProducer = false → 0 < n → n ≤ r.filled →
            ∃ t x q, exec (.qpop d n) s = .next t ∧ t.wave s.cur = some x ∧ look x.rings d = some q ∧ q.head = y.head + n ∧
              q.filled = y.filled - n ∧ q.tail = y.tail ∧ x.spc = (w.spc + 4) % 2 ^ 57 ∧ x.regs = w.regs ∧ t.mem = s.mem) ∧
          (r.isProducer = false → r.filled < n → exec (.qpop d n) s = .next (s.holdS s.cur w .long))))

/-- R92, R93, R100, R101, R105. `chpub` makes the wave the lead of its core's free channel, again does nothing, and traps where another wave leads it;
`chsub`, once the wave's lane blocks have finished, makes it a pending subscriber that parks at its word, and the split entry that it has at its lead's core is gone, with every other entry kept, and traps on a
channel beyond 1535 and in a wave that publishes or is subscribed; `chleave` takes a member out of its stream to the target, and is a `nop` in a
wave that is no member; `rdv`, once the lane blocks have finished, begins the lead's wait for the entries with its tag, parks a departed
member with its arrival on its way, is a late-rendezvous trap in a wave that left without an entry, and is a `nop` in any other. In a wave
of a width convoy each of the four is an illegal operand, where no other wave leads the channel that `chpub` asks for.
The model's own choices of log 12, 16, 61 bear on it. -/
def Obligations.ConvoyWords : Prop :=
  ∀ (s : State) (w : Wave) (c : Cons) (tag a b : Nat) (off : Int), w.spc < 2 ^ 57 →
    let ch0 := (s.core (coreOfWave s.cur)).chan
    let isMember := ∃ ch, w.convoy.role = .member ch
    (scalarReady s [] [] none = some (w, c) →
      (∀ m, ch0.lead = some m → m ≠ s.cur → exec .chpub s = .next (s.trapS s.cur 4 (wordN w.lcore) 0 0)) ∧
      (ch0.lead = none ∨ ch0.lead = some s.cur →
        (w.convoy.width.isSome = true ∨ isMember ∨ ∃ ch, w.convoy.role = .departed ch) → exec .chpub s = .next (s.trapS s.cur 2 0 0 0)) ∧
      (w.convoy.width = none → ¬ isMember → (∀ ch, w.convoy.role ≠ .departed ch) →
        (ch0.lead = some s.cur → exec .chpub s = .next (s.step4 s.cur w id)) ∧
        (ch0.lead = none → ∃ t x, exec .chpub s = .next t ∧ t.wave s.cur = some x ∧ x.convoy.role = .lead ∧ x.spc = (w.spc + 4) % 2 ^ 57 ∧
          (t.core (coreOfWave s.cur)).chan = ⟨some s.cur, [], 0, ch0.gen + 1, 0⟩)) ∧
      (w.convoy.width.isSome = true → exec (.chleave tag off) s = .next (s.trapS s.cur 2 0 0 0)) ∧
      (w.convoy.width = none → ∀ ch, w.convoy.role = .member ch →
        ∃ t x, exec (.chleave tag off) s = .next t ∧ t.wave s.cur = some x ∧ x.convoy.role = .departed ch ∧ x.spc = relTarget w.spc off ∧
          x.convoy.fifo = [] ∧ x.convoy.leaving = some (relTarget w.spc off, tag, s.clkCur + w.convoy.skew) ∧ s.clkCur + 6 ≤ x.sched.readyS) ∧
      (w.convoy.width = none → ¬ isMember → exec (.chleave tag off) s = .next (s.step4 s.cur w id))) ∧
    (scalarReady s [a, b] [a, b] none = some (w, c) →
      (1536 ≤ (s.rS w a).toNat → exec (.chsub tag a b) s = .next (s.trapS s.cur 2 (wordN a) 0 0)) ∧
      ((s.rS w a).toNat < 1536 →
        (ch0.lead = some s.cur ∨ isMember ∨ w.convoy.width.isSome = true → exec (.chsub tag a b) s = .next (s.trapS s.cur 2 0 0 0)) ∧
        (ch0.lead ≠ some s.cur → ¬ isMember → w.convoy.width = none →
          (0 < w.lbusy → exec (.chsub tag a b) s = .next (s.holdS s.cur w .stall)) ∧
          (w.lbusy = 0 → ∃ t x, exec (.chsub tag a b) s = .next t ∧ t.wave s.cur = some x ∧
            x.convoy.role = .pending (s.rS w a).toNat tag (s.rS w b) ∧ x.park = .channel ∧ x.spc = w.spc ∧
            ∀ p, (t.core p).chan.splits = (s.core p).chan.splits.filter fun e => e.wave ≠ s.cur)))) ∧
    (scalarReady s [a] [a] none = some (w, c) →
      let until_ := if (s.rS w a).toNat = 0 then none else some (s.nsc + (s.rS w a).toNat)
      (w.convoy.width.isSome = true → exec (.rdv tag a) s = .next (s.trapS s.cur 2 0 0 0)) ∧
      (w.convoy.width = none → 0 < w.lbusy → exec (.rdv tag a) s = .next (s.holdS s.cur w .stall)) ∧
      (w.convoy.width = none → w.lbusy = 0 →
        (ch0.lead = some s.cur → ∃ t x watch, exec (.rdv tag a) s = .next t ∧ t.wave s.cur = some x ∧ x.spc = w.spc ∧
          x.park = .rdvLead tag until_ watch ∧ ∀ m, m ∈ watch ↔ ∃ e ∈ ch0.splits, e.tag = tag ∧ e.wave = m) ∧
        (ch0.lead ≠ some s.cur →
          (∀ ch, w.convoy.role = .departed ch → ∃ t x, exec (.rdv tag a) s = .next t ∧ t.wave s.cur = some x ∧ x.spc = w.spc ∧
            x.park = .rdvMember tag until_ ∧ x.convoy.arriving = some (w.spc, tag, s.clkCur + w.convoy.skew)) ∧
          (w.convoy.role = .lost → exec (.rdv tag a) s = .next
            ((s.onWave s.cur fun w => { w with park := .none, convoy := { w.convoy with role := .none } }).trapS s.cur 9 (wordN tag) 0 0)) ∧
          ((∀ ch, w.convoy.role ≠ .departed ch) → w.convoy.role ≠ .lost → exec (.rdv tag a) s = .next (s.step4 s.cur w Wave.cover)))))

/-- R71. `launch` with its release complete, an aligned manifest in the consignment's own scratchpad and an enabled queue that takes device
submissions: with a free slot that no earlier `launch` waits for, the manifest's 128 bytes stand at the queue's tail and the tail moves on;
without, the wave parks with the bytes it read. Reserved bits that are not zero are illegal operands, an address that is no multiple of 128 a
misaligned access, and a queue that is disabled or takes no device submission, or bytes not leased to the consignment, an access violation;
until the release is complete the word is held.
R72. `spawn` of a legal count and entry with its release complete parks until the lease table answers, and is held until then; at depth 4
it gives −2 at once. Reserved bits that are not zero, a count of 0, and an entry outside `.scalar` are illegal operands, and an entry that is no
multiple of 4 a misaligned access.
The model's own choices of log 12, 16, 31 bear on it. -/
def Obligations.LaunchSpawn : Prop :=
  (
    ∀ (s : State) (w : Wave) (c : Cons) (a b : Nat), scalarReady s [a, b] [a, b] none = some (w, c) →
      let q := s.queue (s.rS w b).toNat
      let m := s.bytes 128 (spadKey (coreOfWave s.cur) (s.rS w a).toNat)
      let bad := (2 ^ 20 ≤ (s.rS w a).toNat) ∨ 2048 ≤ (s.rS w b).toNat
      (bad → exec (.launch a b) s = .next (s.trapS s.cur 2 (wordN (if 2 ^ 20 ≤ (s.rS w a).toNat then a else b)) 0 0)) ∧
      (¬ bad → (s.rS w a).toNat % 128 ≠ 0 → exec (.launch a b) s = .next (s.trapS s.cur 3 (s.rS w a) 0 0)) ∧
      (¬ bad → (s.rS w a).toNat % 128 = 0 →
        (q.devsub = false ∨ q.en = false → exec (.launch a b) s = .next (s.trapS s.cur 4 (s.rS w b) 0 0)) ∧
        (q.devsub = true → q.en = true → spadLeased s (coreOfWave s.cur) (s.rS w a).toNat 128 w.cid = false →
          exec (.launch a b) s = .next (s.trapS s.cur 4 (s.rS w a) 0 0)) ∧
        (q.devsub = true → q.en = true → spadLeased s (coreOfWave s.cur) (s.rS w a).toNat 128 w.cid = true →
          (s.releasedS s.cur w .pk = false ∨ 255 ≤ w.count .st ∨ descHeld s s.cur w (some (s.rS w a).toNat) = true →
            exec (.launch a b) s = .next (s.holdS s.cur w .long)) ∧
          (s.releasedS s.cur w .pk = true → w.count .st < 255 → descHeld s s.cur w (some (s.rS w a).toNat) = false →
            (q.used < q.slots → s.launchAhead (s.rS w b).toNat s.nextId = false → ∃ t x, exec (.launch a b) s = .next t ∧
              t.wave s.cur = some x ∧ x.spc = (w.spc + 4) % 2 ^ 57 ∧ x.regs = w.regs ∧
              (s.memOk = true → t.bytes 128 (q.manKey q.tail) = m) ∧ (t.queue (s.rS w b).toNat).tail = (q.tail + 1) % 65536) ∧
            (q.slots ≤ q.used ∨ s.launchAhead (s.rS w b).toNat s.nextId = true → ∃ t x, exec (.launch a b) s = .next t ∧
              t.wave s.cur = some x ∧ x.park = .launch s.nextId (s.rS w b).toNat m ∧ t.mem = s.mem))))) ∧
  (
    ∀ (s : State) (w : Wave) (c : Cons) (d a b count entry : Nat), scalarReady s [d, a, b] [a, b] none = some (w, c) → w.spc < 2 ^ 57 →
      (s.rS w a).toNat = count * 2 ^ 32 + entry → entry < 2 ^ 32 →
      (count = 0 ∨ 4096 ≤ count → exec (.spawn d a b) s = .next (s.trapS s.cur 2 (wordN a) 0 0)) ∧
      (0 < count → count < 4096 → entry % 4 ≠ 0 → exec (.spawn d a b) s = .next (s.trapS s.cur 3 (wordN entry) 0 0)) ∧
      (0 < count → count < 4096 → entry % 4 = 0 → c.obj.scalarSize ≤ entry → exec (.spawn d a b) s = .next (s.trapS s.cur 2 (wordN a) 0 0)) ∧
      (0 < count → count < 4096 → entry % 4 = 0 → entry < c.obj.scalarSize →
        (w.depth ≠ 4 → s.releasedS s.cur w .pk = false → exec (.spawn d a b) s = .next (s.holdS s.cur w .long)) ∧
        (w.depth ≠ 4 → s.releasedS s.cur w .pk = true → ∃ t x, exec (.spawn d a b) s = .next t ∧ t.wave s.cur = some x ∧
          x = { w with spc := (w.spc + 4) % 2 ^ 57, edge := .none, sched := x.sched, park := .spawn d count entry (s.rS w b) } ∧ t.mem = s.mem) ∧
        (w.depth = 4 → ∃ t x, exec (.spawn d a b) s = .next t ∧ t.wave s.cur = some x ∧ x.spc = (w.spc + 4) % 2 ^ 57 ∧
          x = { w with spc := x.spc, edge := .none, sched := x.sched, regs := x.regs } ∧ (d ≠ 0 → look x.regs.s d = some (wordZ (-2))))))

/-! ## Engine commands -/

/-- How an engine command's word is read: its two registers, whether it goes to the issuing core's engine, the engine, what it is to fences,
the bits of word 0 that must be zero, its descriptor, and the checks of its own fields, which give the command's body. -/
structure Sys2Proof.Machine.EngineUse where
  a     : Nat
  b     : Nat
  own   : Bool
  eng   : Engine
  cls   : Option Classes
  top   : Nat
  desc  : Nat → Option Nat
  check : State → Wave → Cons → Nat × Nat → Nat → Nat → Except (Nat × Nat) CmdBody

/-- The engine commands: copies (R261 to R263), long-vector commands (R188, R189), matrix commands (R205, R206, R210, R211), and those of
the route engine (R325, R326, R330 to R334). -/
def Sys2Proof.Machine.engineUse : Instr → Option EngineUse
  | .cpCopy a b => some ⟨a, b, false, .copy, some ⟨false, true, true⟩, 38, fun x => some (x % 2 ^ 20), copyCheck .copy a b⟩
  | .cpGather a b => some ⟨a, b, false, .copy, some ⟨false, true, true⟩, 38, fun x => some (x % 2 ^ 20), copyCheck .gather a b⟩
  | .cpScatter a b => some ⟨a, b, false, .copy, some ⟨false, true, true⟩, 38, fun x => some (x % 2 ^ 20), copyCheck .scatter a b⟩
  | .cpTensor a b => some ⟨a, b, false, .copy, some ⟨false, true, true⟩, 38, fun x => some (x % 2 ^ 20), copyCheck .tensor a b⟩
  | .cpFill a b => some ⟨a, b, false, .copy, some ⟨false, false, true⟩, 38, fun x => some (x % 2 ^ 20), copyCheck .fill a b⟩
  | .lvMax a b => some ⟨a, b, false, .longVector, some ⟨false, true, true⟩, 57, fun _ => none, lvCheck .max a b⟩
  | .lvSumexp a b => some ⟨a, b, false, .longVector, some ⟨false, true, true⟩, 57, fun _ => none, lvCheck .sumexp a b⟩
  | .lvSoftmax a b => some ⟨a, b, false, .longVector, some ⟨false, true, true⟩, 57, fun _ => none, lvCheck .softmax a b⟩
  | .lvTopk a b => some ⟨a, b, false, .longVector, some ⟨false, true, true⟩, 57, fun _ => none, lvCheck .topk a b⟩
  | .lvSample a b => some ⟨a, b, false, .longVector, some ⟨false, true, true⟩, 57, fun _ => none, lvCheck .sample a b⟩
  | .mxLoad a b => some ⟨a, b, false, .matrix, some ⟨true, true, false⟩, 57, fun _ => none, mxLoadCheck a b⟩
  | .mxStream a b => some ⟨a, b, false, .matrix, some ⟨true, true, true⟩, 62, fun _ => none, mxQuarterCheck .stream a b⟩
  | .mxDist a b => some ⟨a, b, false, .matrix, some ⟨true, true, true⟩, 62, fun _ => none, mxQuarterCheck .dist a b⟩
  | .mxMips a b => some ⟨a, b, false, .matrix, some ⟨true, true, true⟩, 62, fun _ => none, mxQuarterCheck .mips a b⟩
  | .rtOpen a b => some ⟨a, b, false, .route, some ⟨false, false, true⟩, 41, fun x => some (x % 2 ^ 20), rtOpenCheck a b⟩
  | .rtRoute a b => some ⟨a, b, false, .route, some ⟨false, true, true⟩, 41, fun _ => none, rtRouteCheck a b⟩
  | .rtReturn a b => some ⟨a, b, true, .route, some ⟨false, true, false⟩, 58, fun _ => none, rtReturnCheck a b⟩
  | .rtctlBind a b => some ⟨a, b, false, .route, none, 50, fun x => some (x % 2 ^ 20), rtctlCheck 0 a b⟩
  | .rtctlUnbind a b => some ⟨a, b, false, .route, none, 50, fun _ => none, rtctlCheck 1 a b⟩
  | .rtctlHoldSet a b => some ⟨a, b, false, .route, none, 50, fun _ => none, rtctlCheck 2 a b⟩
  | .rtctlHoldClear a b => some ⟨a, b, false, .route, none, 50, fun _ => none, rtctlCheck 3 a b⟩
  | .rtctlReadySet a b => some ⟨a, b, false, .route, none, 50, fun _ => none, rtctlCheck 4 a b⟩
  | .rtctlReadyClear a b => some ⟨a, b, false, .route, none, 50, fun _ => none, rtctlCheck 5 a b⟩
  | .rtctlConsume a b => some ⟨a, b, false, .route, none, 50, fun _ => none, rtctlCheck 6 a b⟩
  | .rtctlFlush a b => some ⟨a, b, false, .route, none, 50, fun _ => none, rtctlCheck 7 a b⟩
  | _ => none

/-- Word 0 of a message keeps R43 and R45: a core that exists, a valid ring where it replies to one, unused reply fields and reserved bits of
zero, an aligned barrier offset, and a target core in the consignment's table, named with its physical core. -/
def Sys2Proof.Machine.messageOk (w : Wave) (c : Cons) (w0 top l q : Nat) : Prop :=
  (w0 % 2 ^ 12 < 1536 ∨ w0 % 2 ^ 12 = 4095) ∧ (w0 / 2 ^ 12 % 4 = 2 → (look w.rings (w0 / 2 ^ 14 % 16)).isSome = true) ∧
    (w0 / 2 ^ 12 % 4 ≠ 2 → w0 / 2 ^ 14 % 16 = 0) ∧ (w0 / 2 ^ 12 % 4 ≠ 3 → w0 / 2 ^ 18 % 2 ^ 20 = 0) ∧ w0 / 2 ^ top = 0 ∧
    w0 / 2 ^ 18 % 2 ^ 20 % 8 = 0 ∧ l = (if w0 % 2 ^ 12 = 4095 then w.lcore else w0 % 2 ^ 12) ∧ c.phys l = some q

/-- R43, R45, R119, R187, R222. An engine command whose message and fields pass their checks, and that nothing holds: its word issues, the command
sets out for the target core's engine with the reply it names, and the counter or ring that it replies to counts it. Where the inbox
has no room, or the scoreboard none for a quarter operation's entry, the scalar stream waits with it. Memory, registers and requests are as before.
The model's own choice of log 16 bears on it. -/
def Obligations.EngineWords : Prop :=
  ∀ (i : Instr) (s : State) (w : Wave) (c : Cons) (u : EngineUse) (l q : Nat) (body : CmdBody), engineUse i = some u →
    scalarReady s [u.a, u.b] [u.a, u.b] none = some (w, c) → messageOk w c (s.rS w u.a).toNat u.top l q →
    u.check s w c (l, q) (s.rS w u.a).toNat (s.rS w u.b).toNat = .ok body →
    cmdHeld s s.cur w u.cls (u.desc (s.rS w u.b).toNat) = false → w.count .en < 255 →
    let w0 := (s.rS w u.a).toNat
    let tgt := if u.own = true then coreOfWave s.cur else q
    let r : Reply := if w0 / 2 ^ 12 % 4 = 0 then .none else if w0 / 2 ^ 12 % 4 = 1 then .counter
      else if w0 / 2 ^ 12 % 4 = 2 then .ring (w0 / 2 ^ 14 % 16) else .bar (w0 / 2 ^ 18 % 2 ^ 20)
    let cmd : Cmd := ⟨s.nextId, s.cur, w.cid, w.lcore, coreOfWave s.cur, tgt, u.eng, r, body, w.spc, 0, 0, 0, false, w.wid, 0, false,
      if u.own = true then w.lcore else l⟩
    ∃ t x, exec i s = .next t ∧ t.wave s.cur = some x ∧ t.mem = s.mem ∧ t.full = s.full ∧ t.reqs = s.reqs ∧ t.held = s.held ++ [cmd] ∧
      x.spc = (w.spc + 4) % 2 ^ 57 ∧ x.regs = w.regs ∧
      x.ops = w.ops ++ (if r = .counter then [⟨s.nextId, .en, 1, none, .none, none, 0, false, w.spc, w.nextLpc w.queue, [], 0, none, 0⟩] else []) ∧
      (∀ k y, r = .ring k → look w.rings k = some y → ∃ z, look x.rings k = some z ∧ z = { y with e := y.e + 1, own := z.own, made := z.made }) ∧
      x.park = (if ((s.core tgt).inbox u.eng).length + (s.heldFor tgt u.eng).length < inboxCap u.eng ∧
          s.spansFit ((s.heldFor tgt u.eng).flatMap quarterSpan ++ quarterSpan cmd) = true
        then w.park else .inbox s.nextId)

/-! ## Lane words with one value a lane -/

/-- Two sources and a destination. -/
def Sys2Proof.Machine.use2 (l : LaneA) (lat : Nat) : LaneUse := ⟨.dst, .src, .src, .none, !l.im, l.im, id, lat⟩

/-- One source and a destination. -/
def Sys2Proof.Machine.use1 (l : LaneA) (lat : Nat) : LaneUse := ⟨.dst, .src, .none, .none, !l.im, false, id, lat⟩

/-- The latency of a lane word by its type: 6 cycles for floating point, 4 otherwise (R114). -/
def Sys2Proof.Machine.byType (l : LaneA) : Nat := if l.ty.isFloat then 6 else 4

/-- How the lane words with one value a lane use their fields, and their latency (R114, R163 to R168, R172, R173, R177, R179, R181, R198,
R223, R254). -/
def Sys2Proof.Machine.valueUse : Instr → Option (LaneA × LaneUse)
  | .vadd l => some (l, use2 l (byType l))
  | .vsub l => some (l, use2 l (byType l))
  | .vmul l => some (l, use2 l (byType l))
  | .vmulh l => some (l, use2 l 4)
  | .vfma l => some (l, { use2 l 6 with c := .src })
  | .vmin l => some (l, use2 l (byType l))
  | .vmax l => some (l, use2 l (byType l))
  | .vabs l => some (l, use1 l (byType l))
  | .vneg l => some (l, use1 l (byType l))
  | .vand l => some (l, use2 l 4)
  | .vor l => some (l, use2 l 4)
  | .vxor l => some (l, use2 l 4)
  | .vnot l => some (l, use1 l 4)
  | .vshl l => some (l, use2 l 4)
  | .vshr l => some (l, use2 l 4)
  | .vclz l => some (l, use1 l 4)
  | .vpopc l => some (l, use1 l 4)
  | .vpack l => some (l, use2 l 4)
  | .vunpack l => some (l, use1 l 4)
  | .vmov l => some (l, { use1 l 2 with a := if l.im then .none else .src })
  | .vsel l => some (l, { use2 l 4 with c := .psrc })
  | .vperm l => some (l, ⟨.dst, .src, .src, .src, true, false, fun _ => BitVec.allOnes 64, 8⟩)
  | .vswap l => some (l, ⟨.dst, .src, .none, .none, true, false, fun _ => BitVec.allOnes 64, 6⟩)
  | .vbcast l => some (l, ⟨.dst, .src, .none, .none, true, false, fun _ => BitVec.allOnes 64, 6⟩)
  | .vrng l => some (l, ⟨.dst, .src, .src, .none, false, false, id, 10⟩)
  | .vscacc l => some (l, ⟨.dst, .row, .src, if l.im then .none else .src, !l.im, false, id, 8⟩)
  | .vldp l => some (asA l, ⟨.dst, .src, .none, .none, false, false, id, 10⟩)
  | _ => none

/-- The bits of its source that a lane word reads: those of the elements that `vunpack` names, and all of them otherwise (R171, R172). -/
def Sys2Proof.Machine.readBits : Instr → W32
  | .vunpack l => fieldMask l.ty.bits (l.c % 2 * (32 / l.ty.bits / 2)) (32 / l.ty.bits / 2)
  | _ => BitVec.allOnes 32

/-- Element `e` of a lane's word as an integer of the type. -/
def Sys2Proof.Machine.intAt (l : LaneA) (e : Nat) (x : W32) : Int := readInt l.ty.signed l.ty.bits (x.toNat / 2 ^ (l.ty.bits * e) % 2 ^ l.ty.bits)

/-- The same integer operation in every element: computed exactly, then narrowed to the type, wrapping or with `sat` clamping (R163). -/
def Sys2Proof.Machine.ints (l : LaneA) (sat : Bool) (f : Nat → Int) : W32 × Flags :=
  mapElems l.ty.bits fun e => (narrow l.ty.signed l.ty.bits sat (f e), 0)

/-- The same floating-point operation in every element: computed exactly, then rounded once to the type (R164). -/
def Sys2Proof.Machine.floats (l : LaneA) (f : Nat → Num × Flags) : W32 × Flags := mapElems l.ty.bits fun e => l.ty.fmt.deliver l.rnd l.sat l.ftz (f e)

/-- A type's floating-point or integer operation of two sources. -/
def Sys2Proof.Machine.either (l : LaneA) (sat : Bool) (x y : W32) (g : Int → Int → Int) (f : Num → Num → Num × Flags) : W32 × Flags :=
  if l.ty.isFloat then floats l fun e => f (fval l.ty l.ftz e x) (fval l.ty l.ftz e y) else ints l sat fun e => g (intAt l e x) (intAt l e y)

/-- What `vmin` and `vmax` give (R163, R164). -/
def Sys2Proof.Machine.extreme (l : LaneA) (isMax : Bool) (x y : W32) : W32 × Flags :=
  if l.ty.isFloat then mapElems l.ty.bits fun e => l.ty.fmt.minMax isMax (l.ty.fmt.flushIn l.ftz (elem l.ty.bits e x))
    (l.ty.fmt.flushIn l.ftz (elem l.ty.bits e y))
  else ints l false fun e => if isMax then max (intAt l e x) (intAt l e y) else min (intAt l e x) (intAt l e y)

/-- The exceptions that a lane word of the type can raise (R149). -/
def Sys2Proof.Machine.canRaise (l : LaneA) : Flags := if l.ty.isFloat then 0x1D else 0

/-- What a lane word of `valueUse` computes in lane `j`, with the exceptions that it raises there, and those that it can raise. -/
def Sys2Proof.Machine.valueOf (s : State) (k : LaneCtx) (i : Instr) : Option (Flags × (Nat → W32 × Flags)) :=
  let a := k.val s k.a
  let b := k.val s k.b
  let c := k.val s k.x
  match i with
  | .vadd l => some (canRaise l, fun j => either l l.sat (a j) (b j) (fun x y => x + y) (Num.add l.rnd))
  | .vsub l => some (canRaise l, fun j => either l l.sat (a j) (b j) (fun x y => x - y) fun x y => Num.add l.rnd x y.negate)
  | .vmul l => some (canRaise l, fun j => either l l.sat (a j) (b j) (fun x y => x * y) Num.mul)
  | .vmulh l => some (0, fun j => ints l false fun e => intAt l e (a j) * intAt l e (b j) / 2 ^ l.ty.bits)
  | .vfma l => some (0x1D, fun j => floats l fun e =>
      Num.fma l.rnd (fval l.ty l.ftz e (a j)) (fval l.ty l.ftz e (b j)) (fval l.ty l.ftz e (c j)))
  | .vmin l => some (if l.ty.isFloat then 1 else 0, fun j => extreme l false (a j) (b j))
  | .vmax l => some (if l.ty.isFloat then 1 else 0, fun j => extreme l true (a j) (b j))
  | .vabs l => some (0, fun j => if l.ty.isFloat then mapElems l.ty.bits fun e => (elem l.ty.bits e (a j) % 2 ^ l.ty.fmt.sign, 0)
      else ints l l.sat fun e => if intAt l e (a j) < 0 then -intAt l e (a j) else intAt l e (a j))
  | .vneg l => some (0, fun j => if l.ty.isFloat then
        mapElems l.ty.bits fun e => ((elem l.ty.bits e (a j) + 2 ^ l.ty.fmt.sign) % 2 ^ (l.ty.fmt.sign + 1), 0)
      else ints l l.sat fun e => 0 - intAt l e (a j))
  | .vand _ => some (0, fun j => (a j &&& b j, 0))
  | .vor _ => some (0, fun j => (a j ||| b j, 0))
  | .vxor _ => some (0, fun j => (a j ^^^ b j, 0))
  | .vnot _ => some (0, fun j => (BitVec.allOnes 32 ^^^ a j, 0))
  | .vshl l => some (0, fun j => mapElems l.ty.bits fun e =>
      (elem l.ty.bits e (a j) * 2 ^ (elem l.ty.bits e (b j) % l.ty.bits) % 2 ^ l.ty.bits, 0))
  | .vshr l => some (0, fun j => ints l false fun e => intAt l e (a j) / 2 ^ (elem l.ty.bits e (b j) % l.ty.bits))
  | .vclz l => some (0, fun j => mapElems l.ty.bits fun e =>
      ((List.range l.ty.bits).countP fun n => elem l.ty.bits e (a j) < 2 ^ n, 0))
  | .vpopc l => some (0, fun j => mapElems l.ty.bits fun e =>
      ((List.range l.ty.bits).countP fun n => elem l.ty.bits e (a j) / 2 ^ n % 2 = 1, 0))
  | .vpack l =>
    let w := l.ty.bits
    let h := 32 / w / 2
    some (0, fun j => mapElems w fun e => (narrowTo l.ty l.sat (2 * w) (if e < h then elem (2 * w) e (a j) else elem (2 * w) (e - h) (b j)), 0))
  | .vunpack l =>
    let w := l.ty.bits
    let at_ := fun j e => elem w (e + l.c % 2 * (32 / w / 2)) (a j)
    some (if l.ty = .t2 then 1 else 0, fun j => mapElems (2 * w) fun e =>
      if l.ty = .t2 then (if at_ j e = 2 then (0, 1) else (if at_ j e = 3 then 15 else at_ j e, 0))
      else (low (2 * w) (readInt l.ty.signed w (at_ j e)), 0))
  | .vmov l => some (0, fun j => (if l.im then BitVec.ofNat 32 l.imm else a j, 0))
  | .vsel l => some (0, fun j => (if k.w.readP k.fr k.clk l.c j then a j else b j, 0))
  | .vperm _ => some (0, fun j => (if k.w.present ((b j).toNat % k.w.reach) then a ((b j).toNat % k.w.reach) else c j, 0))
  | .vswap l => if 0 < l.c ∧ l.c < k.w.reach then some (0, fun j => (if k.w.present (j ^^^ l.c) then a (j ^^^ l.c) else 0, 0)) else none
  | .vbcast l => if l.c < k.w.reach then some (0, fun _ => (if k.w.present l.c then a l.c else 0, 0)) else none
  | .vrng l => if pairBad k.w l = none ∧ pairLate k l = none then some (0, fun j =>
        let r := rng (rngOperand s k l.a j) (rngOperand s k l.b j)
        (if l.ty.isFloat then BitVec.ofNat 32 (fmtF32.round .rne false false false (r.toNat / 2 ^ 8) (2 ^ 24)).1 else r, 0))
      else none
  | .vscacc l =>
    let row := match k.a with
      | .reg r => r - 192
      | _ => 0
    let t := lookD k.w.regs.tags row ⟨0, 0, 0, false⟩
    let late := match k.d with
      | .reg r => k.c.debug && k.lateV k.clk r k.act
      | _ => false
    if t.sel = false ∧ late = false then some (0x1D, fun j =>
      let r := fmtF32.deliver .rne l.sat false (Num.add .rne (fmtF32.value (k.oldDst s j).toNat)
        (scaccTerm t j (a j).toInt ((b j).toNat % 256) (if l.im then l.imm % 256 else (c j).toNat % 256)))
      (BitVec.ofNat 32 r.1, r.2)) else none
  | .vldp l =>
    if k.w.oplog.length < 4 ∧ ∀ j < 64, k.act.getLsbD j = true → ((a j).toNat + l.imm) % 4 = 0 ∧ (a j).toNat + l.imm + 4 ≤ k.w.fp.priv
    then some (0, fun j => (BitVec.ofNat 32 (Memory.num k.w.regs.priv 4 (512 * j + ((a j).toNat + l.imm))), 0)) else none
  | _ => none

/-- R114, R163 to R168, R172, R173, R177, R179, R198, R223, R254. A lane word of `valueUse` that passes its checks, and that nothing holds,
issues: in every active lane its value is sent to its destination, to land after its latency.
R138, R163. Each element of what `ints` gives is the exact integer narrowed: modulo 2^w, or with `sat` the nearest integer of the type. -/
def Obligations.LaneValues : Prop :=
  (
    ∀ (i : Instr) (s : State) (l : LaneA) (u : LaneUse) (k : LaneCtx) (can : Flags) (f : Nat → W32 × Flags),
      valueUse i = some (l, u) → laneReady s l u (BitVec.allOnes 32) (readBits i) = some k → valueOf s k i = some (can, f) → exec i s = .next (s.laneResult k u.lat can f)) ∧
  (
    ∀ (l : LaneA) (sat : Bool) (f : Nat → Int) (e : Nat), l.ty.bits ∈ [4, 8, 16, 32] → e < 32 / l.ty.bits →
      let lo : Int := if l.ty.signed then -(2 ^ (l.ty.bits - 1)) else 0
      let hi : Int := if l.ty.signed then 2 ^ (l.ty.bits - 1) - 1 else 2 ^ l.ty.bits - 1
      (lo ≤ f e → f e ≤ hi → intAt l e (ints l sat f).1 = f e) ∧
      (sat = true → f e < lo → intAt l e (ints l sat f).1 = lo) ∧
      (sat = true → hi < f e → intAt l e (ints l sat f).1 = hi) ∧
      (sat = false → (intAt l e (ints l sat f).1 - f e) % 2 ^ l.ty.bits = 0))

/-- The frame of the words of `regForm`: but for the result in flight nothing changes: no register, flag, predicate, counter or queue of
the wave, no other wave, no byte of memory and no tag.
R79, R114, R149. What a lane word's result leaves where its destination is a vector register: one result in flight with the values of
the active lanes and the exceptions raised in them, the block one word further, the lane PC after the word; registers, predicates,
counters, other waves, memory and tags are as before. -/
def Obligations.RegisterFrames : Prop :=
  (
    ∀ (i : Instr) (s t : State) (w : Wave) (c : Cons) (d lat : Nat) (reads : List Nat) (v : State → Wave → Word),
      regForm i = some (d, reads, lat, v) → scalarReady s (d :: reads) reads (some (d, lat)) = some (w, c) → exec i s = .next t →
      s.onlyWave t s.cur ∧ t.mem = s.mem ∧ t.full = s.full ∧
      ∃ x, t.wave s.cur = some x ∧ w.onlySends x ∧ x.spc = (w.spc + 4) % 2 ^ 57 ∧
        ∀ r, r ≠ d → ∀ fr clk, x.readS fr clk r = w.readS fr clk r) ∧
  (
    ∀ (s : State) (l : LaneA) (u : LaneUse) (k : LaneCtx) (lat r : Nat) (can : Flags) (f : Nat → W32 × Flags),
      laneReady s l u = some k → k.d = .reg r →
      ∃ x y, (s.laneResult k lat can f).wave s.cur = some x ∧ x.pend = insertLanding y k.w.pend ∧ y.due = s.clkCur + lat + k.late ∧
        y.dest = .vreg r (BitVec.allOnes 32) ((lanesOf k.act).map fun j => (j, (f j).1)) ∧
        (∀ n, y.flags.getLsbD n = (lanesOf k.act).any fun j => (f j).2.getLsbD n) ∧
        x.regs = k.w.regs ∧ x.ctl = k.w.ctl ∧ x.ops = k.w.ops ∧ x.spc = k.w.spc ∧ x.lpc = k.blk.start + k.blk.pos + 1 ∧
        (s.laneResult k lat can f).mem = s.mem ∧ (s.laneResult k lat can f).full = s.full ∧
        ∀ m, m ≠ s.cur → (s.laneResult k lat can f).wave m = s.wave m)

/-- What a scalar result leaves: where no other result is aimed at register `d`, a read at or after the cycle it lands gives the value;
s0 keeps reading as zero; and no other register changes.
R37, R114, R115. Where no other result is aimed at the slice, a read of vector register `r` at or after the landing cycle gives the value
sent in each lane sent to, and the old slice in every other; other registers read as before.
The model's own choices of log 2, 13 bear on it. -/
def Obligations.ResultRead : Prop :=
  (
    ∀ (w : Wave) (seq due d : Nat) (v : Word) (fr clk : Nat),
      (d ≠ 0 → w.pend.all (fun l => (l.toS d).isNone) = true → due ≤ clk → (w.sendS seq due d v).readS fr clk d = v) ∧
      (w.sendS seq due d v).readS fr clk 0 = 0 ∧
      ∀ r, r ≠ d → (w.sendS seq due d v).readS fr clk r = w.readS fr clk r) ∧
  (
    ∀ (w : Wave) (y : Landing) (r : Nat) (vals : List (Nat × W32)) (fr clk q j : Nat), y.dest = .vreg r (BitVec.allOnes 32) vals → y.due ≤ clk →
      w.pend.all (fun x => (x.toV q j 0).isNone) = true → w.ops = [] →
      Wave.readV { w with pend := insertLanding y w.pend } fr clk q j =
        if q = r then (look vals j).getD (lookD w.regs.v (64 * q + j) 0) else lookD w.regs.v (64 * q + j) 0)

/-! ## Lane words with other results -/

/-- The outcomes of a compare on integers and on numbers, and whether any NaN raises NV, or only a signalling one (R165). -/
def Sys2Proof.Machine.cmpForm : Instr → Option (LaneA × (Int → Int → Bool) × (Sys2Proof.Num → Sys2Proof.Num → Bool) × Bool)
  | .vcmpEq l => some (l, fun x y => decide (x = y), fun x y => Num.eq x y, false)
  | .vcmpNe l => some (l, fun x y => decide (x ≠ y), fun x y => !Num.eq x y, false)
  | .vcmpLt l => some (l, fun x y => decide (x < y), fun x y => Num.lt false x y, true)
  | .vcmpLe l => some (l, fun x y => decide (x ≤ y), fun x y => Num.lt false x y || Num.eq x y, true)
  | .vcmpGt l => some (l, fun x y => decide (x > y), fun x y => Num.lt false y x, true)
  | .vcmpGe l => some (l, fun x y => decide (x ≥ y), fun x y => Num.lt false y x || Num.eq y x, true)
  | .vcmpUn l => some (l, fun _ _ => false, fun x y => x.isNan || y.isNan, false)
  | .vcmpOr l => some (l, fun _ _ => true, fun x y => !(x.isNan || y.isNan), false)
  | _ => none

/-- Predicate logic: whether it reads a second predicate, and the outcome (R166). -/
def Sys2Proof.Machine.logicForm : Instr → Option (LaneA × Bool × (Bool → Bool → Bool))
  | .pand l => some (l, true, fun x y => x && y)
  | .por l => some (l, true, fun x y => x || y)
  | .pxor l => some (l, true, fun x y => x ^^ y)
  | .pandn l => some (l, true, fun x y => x && !y)
  | .pnot l => some (l, false, fun x _ => !x)
  | _ => none

/-- R114, R149, R165. A compare issues, and sends to its predicate, in the active lanes, the outcome in each: of the integers, or of the
numbers, where it raises NV as the rule says.
R114, R166. Predicate logic issues, and sends to its predicate, 2 cycles later and in the active lanes, the outcome in each.
R36, R37. Predicate p0 reads true whatever is sent to it; a predicate result changes the lanes it was sent to, from its landing on, and
no others. -/
def Obligations.PredicateLogic : Prop :=
  (
    ∀ (i : Instr) (s : State) (l : LaneA) (k : LaneCtx) (g : Int → Int → Bool) (f : Sys2Proof.Num → Sys2Proof.Num → Bool) (any : Bool),
      cmpForm i = some (l, g, f, any) → laneReady s l ⟨.pdst, .src, .src, .none, !l.im, l.im, id, byType l⟩ = some k →
      let num := fun (x : Src) j => fval l.ty l.ftz 0 (k.val s x j)
      let int := fun (x : Src) j => readInt l.ty.signed 32 (k.val s x j).toNat
      let nv := fun j => l.ty.isFloat && (if any then (num k.a j).isNan || (num k.b j).isNan else (num k.a j).isSig || (num k.b j).isSig)
      ∃ m fl up, exec i s = .next (s.sendDest k (byType l + k.late) 1 (.pred l.d k.act m) fl up (fl &&& k.w.ctl.fpctl)
          (if l.ty.isFloat then 1 else 0)) ∧
        fl = (if (lanesOf k.act).any nv then 1 else 0) ∧
        ∀ j < 64, m.getLsbD j = (k.act.getLsbD j && (if l.ty.isFloat then f (num k.a j) (num k.b j) else g (int k.a j) (int k.b j))) ∧
          up.getLsbD j = (k.act.getLsbD j && nv j && k.w.ctl.fpctl.getLsbD 0)) ∧
  (
    ∀ (i : Instr) (s : State) (l : LaneA) (k : LaneCtx) (two : Bool) (f : Bool → Bool → Bool), logicForm i = some (l, two, f) →
      laneReady s l ⟨.pdst, .psrc, if two then .psrc else .none, .none, false, false, id, 2⟩ = some k →
      ∃ m, exec i s = .next (s.sendDest k 2 1 (.pred l.d k.act m) 0 0 0 0) ∧
        ∀ j < 64, m.getLsbD j = (k.act.getLsbD j && f (k.w.readP k.fr k.clk l.a j) (k.w.readP k.fr k.clk l.b j))) ∧
  (
    ∀ (w : Wave) (y : Landing) (p : Nat) (lanes v : Word) (fr clk q j : Nat), y.dest = .pred p lanes v → y.due ≤ clk →
      w.pend.all (fun x => (x.toP q j).isNone) = true →
      Wave.readP { w with pend := insertLanding y w.pend } fr clk q j =
        if q = 0 then true else if q = p ∧ lanes.getLsbD j then v.getLsbD j else w.readP fr clk q j)

/-- The words of R180 and of R181. -/
def Sys2Proof.Machine.redForm : Instr → Option (LaneA × RedOp)
  | .vredAdd l => some (l, .add)
  | .vredMin l => some (l, .min)
  | .vredMax l => some (l, .max)
  | _ => none

/-- The words of R181. -/
def Sys2Proof.Machine.scanForm : Instr → Option (LaneA × RedOp)
  | .vscanAdd l => some (l, .add)
  | .vscanMin l => some (l, .min)
  | .vscanMax l => some (l, .max)
  | _ => none

/-- The integers of the active lanes, in lane order. -/
def Sys2Proof.Machine.activeInts (s : State) (l : LaneA) (k : LaneCtx) : List Int := (lanesOf k.act).map fun j => readInt l.ty.signed 32 (k.val s k.a j).toNat

/-- R169, R182, R114. `mvs` sends the named lane's slice, zero-extended, to its scalar register, whatever that lane's mask; `vballot` sends
the mask of the active lanes in which the predicate holds.
R174, R175. `vcbset` sends lanes 0 to 7 of its source, whatever their mask, to the codebook as its sixteen entries; `vcbw` sends to the
named fields of each active lane the index of the entry nearest to each element.
R180. An integer reduction sends, 12 cycles later, the exact sum of the active lanes in 64 bits, or their least or greatest; with no
active lane 0, or the type's greatest or least value. A floating-point one sends, 16 cycles later, what the tree over the active lanes
gives.
R181. A scan sends to each active lane the running result over the active lanes up to it: the first lane's own value, then each step of
the operation on what came before and the lane's value. An integer sum without `sat` is the sum of those lanes modulo 2^32, and an
integer minimum or maximum is their least or greatest. -/
def Obligations.CrossLane : Prop :=
  (
    ∀ (s : State) (l : LaneA) (k : LaneCtx),
      (laneReady s l ⟨.sdst, .src, .none, .none, true, false, fun _ => 1#64 <<< (l.c % 64), 10⟩ = some k →
        exec (.mvs l) s = .next (s.sendDest k (10 + k.late) 1 (.sreg l.d (wordN (k.val s k.a (l.c % 64)).toNat)) 0 0 0 0)) ∧
      (laneReady s l ⟨.sdst, .psrc, .none, .none, false, false, id, 8⟩ = some k →
        ∃ v, exec (.vballot l) s = .next (s.sendDest k 8 1 (.sreg l.d v) 0 0 0 0) ∧
          ∀ j < 64, v.getLsbD j = (k.act.getLsbD j && k.w.readP k.fr k.clk l.a j))) ∧
  (
    ∀ (s : State) (l : LaneA) (k : LaneCtx),
      (laneReady s l ⟨.none, .src, .none, .none, true, false, fun _ => 0xFF, 4⟩ = some k →
        ∃ v, exec (.vcbset l) s = .next (s.sendDest k (4 + k.late) 1 (.cbook (l.d % 4) v) 0 0 0 0) ∧
          ∀ n < 16, cbEntry v n = (k.val s k.a (n / 2)).toNat / 2 ^ (16 * (n % 2)) % 2 ^ 16) ∧
      (l.ty.bits ∈ [16, 32] → l.c / 4 % 8 * (32 / l.ty.bits) < 8 →
        laneReady s l ⟨.dst, .src, .none, .none, true, false, id, 8⟩ (fieldMask 4 (l.c / 4 % 8 * (32 / l.ty.bits)) (32 / l.ty.bits)) = some k →
        ∃ vals fl up flds, exec (.vcbw l) s = .next (s.sendFields k (8 + k.late) flds vals fl up (fl &&& k.w.ctl.fpctl) 0x11) ∧
          vals.map Prod.fst = lanesOf k.act ∧ flds.length = 32 / l.ty.bits ∧
          (∀ e g, flds[e]? = some g → ∀ b < 32, g.getLsbD b = decide (b / 4 = l.c / 4 % 8 * (32 / l.ty.bits) + e)) ∧
          ∀ j v, (j, v) ∈ vals → ∀ e < 32 / l.ty.bits, elem 4 (l.c / 4 % 8 * (32 / l.ty.bits) + e) v =
            (nearest (fval l.ty false e (k.val s k.a j)) (k.w.readCb k.fr k.clk (l.c % 4))).1 % 16)) ∧
  (
    ∀ (i : Instr) (s : State) (l : LaneA) (o : RedOp) (k : LaneCtx), redForm i = some (l, o) →
      laneReady s l ⟨.sdst, .src, .none, .none, !l.im, false, id, if l.ty.isFloat then 16 else 12⟩ = some k →
      (l.ty.isFloat = false → ∃ v : Int, exec i s = .next (s.sendDest k (12 + k.late) 1 (.sreg l.d (wordZ v)) 0 0 0 0) ∧
        match o with
        | .add => v = (activeInts s l k).sum
        | .min => if activeInts s l k = [] then v = maxOf l.ty.signed 32 else v ∈ activeInts s l k ∧ ∀ x ∈ activeInts s l k, v ≤ x
        | .max => if activeInts s l k = [] then v = minOf l.ty.signed 32 else v ∈ activeInts s l k ∧ ∀ x ∈ activeInts s l k, x ≤ v) ∧
      (l.ty.isFloat = true →
        let r := tree o.f32 k.w.ctl.fpctl 6 ((List.range 64).map fun j =>
          if k.act.getLsbD j then some (((k.val s k.a j).toNat : Int), 1#64 <<< j) else none)
        ∃ v : Int, exec i s = .next (s.sendDest k (16 + k.late) 1 (.sreg l.d (wordZ v)) r.2.1 r.2.2 (r.2.1 &&& k.w.ctl.fpctl)
            (if o = .add then 0x1D else 1)) ∧
          match r.1 with
          | some x => v = x.1
          | none => v = (match o with
            | .add => 0
            | .min => 0x7F800000
            | .max => 0xFF800000))) ∧
  (
    ∀ (i : Instr) (s : State) (l : LaneA) (o : RedOp) (k : LaneCtx), scanForm i = some (l, o) →
      laneReady s l ⟨.dst, .src, .none, .none, !l.im, false, id, if l.ty.isFloat then 16 else 12⟩ = some k →
      ∃ rs : List (Nat × Int × Flags), ∃ fl up,
        exec i s = .next (s.sendLane k ((if l.ty.isFloat then 16 else 12) + k.late) 1 (BitVec.allOnes 32)
          (rs.map fun r => (r.1, BitVec.ofInt 32 r.2.1)) fl up (fl &&& k.w.ctl.fpctl) (redCan o l.ty)) ∧
        rs.map Prod.fst = lanesOf k.act ∧
        (l.ty.isFloat = false → l.sat = false → ∀ n, ∀ r, rs[n]? = some r →
          let xs := (activeInts s l k).take (n + 1)
          match o with
          | .add => (r.2.1 - xs.sum) % 2 ^ 32 = 0
          | .min => r.2.1 ∈ xs ∧ ∀ x ∈ xs, r.2.1 ≤ x
          | .max => r.2.1 ∈ xs ∧ ∀ x ∈ xs, x ≤ r.2.1) ∧
        (∀ r, rs[0]? = some r → (r.2.1, r.2.2) = (redVal l.ty (k.val s k.a r.1), 0)) ∧
        (∀ n r q, rs[n]? = some r → rs[n + 1]? = some q →
          (q.2.1, q.2.2) = scanStep l o r.2.1 (redVal l.ty (k.val s k.a q.1))))

/-- The exact value of a finite number. -/
def Sys2Proof.Machine.ratOf : Sys2Proof.Num → Option ℚ
  | .fin neg n d => some ((if neg = true then -1 else 1) * (n : ℚ) / (d : ℚ))
  | _ => none

/-- `k` is the integer that a rounding mode makes of the exact value `q` (R139). -/
def Sys2Proof.Machine.roundsTo (m : Rnd) (q : ℚ) (k : ℤ) : Prop :=
  match m with
  | .rdn => k = ⌊q⌋
  | .rup => k = ⌈q⌉
  | .rz => k = if 0 ≤ q then ⌊q⌋ else ⌈q⌉
  | .rne => |q - k| ≤ 1 / 2 ∧ (|q - k| = 1 / 2 → k % 2 = 0)
  | .rna => |q - k| ≤ 1 / 2 ∧ (|q - k| = 1 / 2 → |q| < |(k : ℚ)|)

/-- What an overflow gives in a type, by R140's table. -/
def Sys2Proof.Machine.overflowOf (t : Ty) (m : Rnd) (sat neg : Bool) : Nat :=
  let sign := if neg = true then 2 ^ t.fmt.sign else 0
  let big := sign + t.fmt.maxFin
  let top := match t.fmt.inf, t.fmt.nan with
    | some i, _ => sign + i
    | none, some c => c
    | none, none => big
  if sat = true then big else match m with
    | .rne | .rna => top
    | .rz => big
    | .rup => if neg = true then big else top
    | .rdn => if neg = true then top else big

/-- R170, R171. `vcvt` converts the elements that both sides have: it reads the named part of a source with more elements, and of a
destination with more it writes the named part only, each field of it a result of its own.
R131, R134, R135, R136. The value of an element: of a floating-point type, whose magnitude is at most the largest finite one, from its
sign, its exponent field and its mantissa; of an integer type, of `.t2`, whose reserved encoding is 0 with NV, and of `.e8m0`.
R139, R140, R142 to R145. What a conversion makes of an element: an integer of an integer, clamped or modulo 2^w; an integer or a `.t2`
of another number, rounded once and then clamped; the power of two that E8M0 chooses; a floating-point result, rounded once at the spacing of
its format near the value, with its overflow and its flush by `.ftz`; and what special values give. With each, the exceptions that
it raises.
R146. The index that a conversion to a codebook chooses: the lowest whose entry is a NaN, for a NaN; the lowest whose entry is the
greatest or the least number, for an infinity; and the lowest whose entry is nearest, for another value, where an infinite entry lies
infinitely far. With no such entry it is 0, with NV. -/
def Obligations.Conversions : Prop :=
  (
    ∀ (s : State) (l : LaneA) (k : LaneCtx) (src : Ty), Ty.ofCode l.c = some src → src.bits ∈ [2, 4, 8, 16, 32] → l.ty.bits ∈ [2, 4, 8, 16, 32] →
      let ns := 32 / src.bits
      let nd := 32 / l.ty.bits
      let n := min ns nd
      let part := l.imm % 16
      let lat := if src = .cb4 then 8 else 6
      laneReady s l ⟨.dst, .src, .none, .none, false, false, id, lat⟩
        (if ns < nd then fieldMask l.ty.bits (part * n) n else BitVec.allOnes 32)
        (if nd < ns then fieldMask src.bits (part * n) n else BitVec.allOnes 32) = some k →
      ∃ vals fl up flds, exec (.vcvt l) s = .next (s.sendFields k (lat + k.late) flds vals fl up (fl &&& k.w.ctl.fpctl) (canCvt l.ty src)) ∧
        vals.map Prod.fst = lanesOf k.act ∧
        (ns < nd → part < nd / ns → flds.length = n ∧ ∀ e g, flds[e]? = some g → ∀ b < 32,
          g.getLsbD b = (decide (l.ty.bits * (part * n + e) ≤ b) && decide (b < l.ty.bits * (part * n + e + 1)))) ∧
        (nd ≤ ns → flds = [BitVec.allOnes 32]) ∧
        (∀ r, k.d = .reg r → ∃ x, (s.sendFields k (lat + k.late) flds vals fl up (fl &&& k.w.ctl.fpctl) (canCvt l.ty src)).wave s.cur = some x ∧
          x.regs = k.w.regs ∧ x.lpc = k.blk.start + k.blk.pos + 1 ∧
          ∀ g ∈ flds, ∃ y ∈ x.pend, y.dest = .vreg r g vals ∧ y.due = s.clkCur + lat + k.late) ∧
        ((ns < nd → part < nd / ns) → ∀ j v, (j, v) ∈ vals → ∀ e < n,
          let x := elem src.bits (e + if nd < ns then part * n else 0) (k.val s k.a j)
          elem l.ty.bits (e + if ns < nd then part * n else 0) v =
            (convert l.ty src l.rnd l.sat l.ftz (if src = .cb4 then cbEntry (k.w.readCb k.fr k.clk (l.imm / 16 % 4)) x else x)).1 % 2 ^ l.ty.bits)) ∧
  (
    ∀ (t : Ty) (b : Nat),
      (t.isFloat = true → b < 2 ^ (t.fmt.sign + 1) → b % 2 ^ t.fmt.sign ≤ t.fmt.maxFin →
        let e := b % 2 ^ t.fmt.sign / 2 ^ t.fmt.man
        let m : ℚ := (b % 2 ^ t.fmt.man : Nat)
        ratOf (t.fmt.value b) = some ((if b / 2 ^ t.fmt.sign = 1 then -1 else 1) *
          (if e = 0 then (2 : ℚ) ^ t.fmt.emin * (m / 2 ^ t.fmt.man) else (2 : ℚ) ^ ((e : ℤ) + t.fmt.emin - 1) * (1 + m / 2 ^ t.fmt.man)))) ∧
      (t.isIntSource = true → t ≠ .t2 → ratOf (sourceValue t b).1 = some ((readInt t.signed t.bits b : ℤ) : ℚ) ∧ (sourceValue t b).2 = 0) ∧
      (t = .t2 → ratOf (sourceValue t b).1 = some (if b % 4 = 1 then 1 else if b % 4 = 3 then -1 else 0) ∧
        (sourceValue t b).2 = if b % 4 = 2 then 1 else 0) ∧
      (t = .e8m0 → b % 256 ≠ 255 → ratOf (sourceValue t b).1 = some ((2 : ℚ) ^ ((b % 256 : Nat) - 127 : ℤ)) ∧ (sourceValue t b).2 = 0)) ∧
  (
    ∀ (d s : Ty) (m : Rnd) (sat ftz : Bool) (b : Nat), s ≠ .raw → d ≠ .raw → d ≠ .cb4 →
      let x := (sourceValue s (if s.isFloat = true ∧ ftz = true ∧ b % 2 ^ s.fmt.sign < 2 ^ s.fmt.man
        then b / 2 ^ s.fmt.sign % 2 * 2 ^ s.fmt.sign else b)).1
      let nv : Flags := if s = .t2 ∧ b % 4 = 2 then 1 else 0
      let r := convert d s m sat ftz b
      let lo : Int := if d.signed then -(2 ^ (d.bits - 1)) else 0
      let hi : Int := if d.signed then 2 ^ (d.bits - 1) - 1 else 2 ^ d.bits - 1
      let int := readInt d.signed d.bits r.1
      (d.isIntSource = true → d ≠ .t2 →
        (s.isIntSource = true → ∀ z : ℤ, ratOf x = some (z : ℚ) → r.2 = nv ∧ r.1 < 2 ^ d.bits ∧
          (lo ≤ z → z ≤ hi → int = z) ∧ (sat = true → z < lo → int = lo) ∧ (sat = true → hi < z → int = hi) ∧
          (sat = false → (int - z) % 2 ^ d.bits = 0)) ∧
        (s.isIntSource = false → ∀ q, ratOf x = some q → ∃ k, roundsTo m q k ∧ r.1 < 2 ^ d.bits ∧
          (lo ≤ k → k ≤ hi → int = k ∧ r.2 = if (k : ℚ) = q then 0 else 0x10) ∧
          (k < lo → int = lo ∧ r.2 = 1) ∧ (hi < k → int = hi ∧ r.2 = 1)) ∧
        (x.isNan = true → r = (0, 1)) ∧ (x = .inf true → int = lo ∧ r.2 = 1) ∧ (x = .inf false → int = hi ∧ r.2 = 1)) ∧
      (d = .t2 →
        (∀ q, ratOf x = some q → ∃ k, roundsTo m q k ∧
          let c : Int := if k < -1 then -1 else if 1 < k then 1 else k
          r.1 = (if c = -1 then 3 else c.toNat) ∧ r.2 = nv ||| (if (c : ℚ) = q then 0 else 0x10)) ∧
        (x.isNan = true → r = (0, 1)) ∧ (x = .inf true → r = (3, 1)) ∧ (x = .inf false → r = (1, 1))) ∧
      (d = .e8m0 →
        ((∀ q, ratOf x = some q → q ≤ 0) → r = (255, 1)) ∧
        (∀ q, ratOf x = some q → 0 < q → ∃ j e : ℤ, (2 : ℚ) ^ j ≤ q ∧ q < (2 : ℚ) ^ (j + 1) ∧
          e = (match m with
            | .rz | .rdn => j
            | .rup => if q = (2 : ℚ) ^ j then j else j + 1
            | .rna => if q < 3 / 2 * (2 : ℚ) ^ j then j else j + 1
            | .rne => if q < 3 / 2 * (2 : ℚ) ^ j ∨ (q = 3 / 2 * (2 : ℚ) ^ j ∧ (j + 127) % 2 = 0) then j else j + 1) ∧
          r = (if 254 < e + 127 then (0xFE, 0x14) else if e + 127 < 0 then (0, 0x18)
            else ((e + 127).toNat, if (2 : ℚ) ^ e = q then 0 else 0x10)))) ∧
      (d.isFloat = true →
        (∀ sig, x = .nan sig → r = match d.fmt.nan with
          | some c => (c, if sig = true then 1 else 0)
          | none => (0, 1)) ∧
        (∀ neg, x = .inf neg →
          let sign := if neg = true then 2 ^ d.fmt.sign else 0
          r = match d.fmt.inf, d.fmt.nan with
            | some i, _ => (sign + i, 0)
            | none, some c => (if sat = true then sign + d.fmt.maxFin else c, 1)
            | none, none => (sign + d.fmt.maxFin, 1)) ∧
        (∀ neg n e, x = .fin neg n e →
          let q : ℚ := (if neg = true then -1 else 1) * n / e
          let sign := if neg = true then 2 ^ d.fmt.sign else 0
          (n = 0 → r = (sign, nv)) ∧
          (n ≠ 0 → ftz = true → |q| < (2 : ℚ) ^ d.fmt.emin → r = (sign, 0x18)) ∧
          (n ≠ 0 → (ftz = false ∨ (2 : ℚ) ^ d.fmt.emin ≤ |q|) → ∃ k X : ℤ, d.fmt.emin ≤ X ∧ |q| < (2 : ℚ) ^ (X + 1) ∧
            (d.fmt.emin < X → (2 : ℚ) ^ X ≤ |q|) ∧ roundsTo m (q / (2 : ℚ) ^ (X - d.fmt.man)) k ∧
            let y : ℚ := k * (2 : ℚ) ^ (X - d.fmt.man)
            (∀ top, ratOf (d.fmt.value d.fmt.maxFin) = some top →
              (top < |y| → r = (overflowOf d m sat neg, 0x14)) ∧
              (|y| ≤ top → ratOf (d.fmt.value r.1) = some y ∧ r.1 / 2 ^ d.fmt.sign = (if neg = true then 1 else 0) ∧
                r.2 = if y = q then 0 else if |q| < (2 : ℚ) ^ d.fmt.emin then 0x18 else 0x10)))))) ∧
  (
    ∀ (x : Sys2Proof.Num) (t : BitVec 256), (∀ neg n d, x = .fin neg n d → d ≠ 0) →
      let e := fun i => Ty.bf16.fmt.value (cbEntry t i)
      let r := nearest x t
      let ok := fun i => i < 16 ∧ (e i).isNan = false
      (x.isNan = true → (∃ i < 16, (e i).isNan = true) →
        r.1 < 16 ∧ (e r.1).isNan = true ∧ (∀ i < r.1, (e i).isNan = false) ∧ r.2 = (if x.isSig = true then 1 else 0)) ∧
      (x.isNan = true → (∀ i < 16, (e i).isNan = false) → r = (0, 1)) ∧
      (x.isNan = false → (∀ i, ¬ ok i) → r = (0, 1)) ∧
      (∀ neg, x = .inf neg → (∃ i, ok i) → ok r.1 ∧ r.2 = 0 ∧ ∀ i, ok i →
        let less := if neg = true then Num.lt false (e i) (e r.1) else Num.lt false (e r.1) (e i)
        less = false ∧ (i < r.1 → Num.eq (e i) (e r.1) = false)) ∧
      (∀ q, ratOf x = some q → (∃ i, ok i) → ok r.1 ∧ r.2 = (if ratOf (e r.1) = some q then 0 else 0x10) ∧ ∀ i, ok i →
        match ratOf (e i), ratOf (e r.1) with
        | some y, some z => |q - z| ≤ |q - y| ∧ (i < r.1 → |q - z| < |q - y|)
        | some _, none => False
        | none, some _ => True
        | none, none => r.1 ≤ i))

/-- The special functions (R184). -/
def Sys2Proof.Machine.fnForm : Instr → Option (LaneA × Fn)
  | .vrcp l => some (l, .rcp)
  | .vrsqrt l => some (l, .rsqrt)
  | .vsqrt l => some (l, .sqrt)
  | .vexp2 l => some (l, .exp2)
  | .vlog2 l => some (l, .log2)
  | .vsinpi l => some (l, .sinpi)
  | .vcospi l => some (l, .cospi)
  | .vtanh l => some (l, .tanh)
  | _ => none

/-- R107, R119, R183. A special function whose unit is free issues: `sf` counts one more operation, which holds the results of the active
lanes and their exceptions until it completes, and the unit is taken for 4 cycles.
R185. Special inputs of the special functions in FP32: the two zeros, the two infinities, a quiet and a signalling NaN, and a negative
number where the function has none; each with the exceptions it raises.
The model's own choice of log 5 bears on it. -/
def Obligations.SpecialFunctions : Prop :=
  (
    ∀ (i : Instr) (s : State) (l : LaneA) (fn : Fn) (k : LaneCtx), fnForm i = some (l, fn) →
      laneReady s l ⟨.dst, .src, .none, .none, !l.im, false, id, 1⟩ = some k → k.d ≠ .none →
      (s.part (coreOfWave s.cur) (partOfWave s.cur)).sfuAt ≤ s.clkCur → k.w.count .sf < 255 →
      let f := fun j => mapElems l.ty.bits fun e => special fn l.ty l.ftz (elem l.ty.bits e (k.val s k.a j))
      let vals := (lanesOf k.act).map fun j => (j, (f j).1)
      ∃ t x o, exec i s = .next t ∧ t.wave s.cur = some x ∧ o ∈ x.ops ∧ o.ctr = .sf ∧ o.need = 1 ∧ o.blk = some k.blk.id ∧
        o.dest = .vals (match k.d with
          | .reg r => .vreg r (BitVec.allOnes 32) vals
          | .spad key => .spad key (BitVec.allOnes 32) vals
          | _ => .nothing) ∧
        (∀ n, o.flags.getLsbD n = (lanesOf k.act).any fun j => (f j).2.getLsbD n) ∧
        x.regs = k.w.regs ∧ x.lpc = k.blk.start + k.blk.pos + 1 ∧ x.count .sf = k.w.count .sf + 1 ∧ t.mem = s.mem ∧
        (t.part (coreOfWave s.cur) (partOfWave s.cur)).sfuAt = s.clkCur + 4) ∧
  (
    (∀ fn : Fn, special fn .f32 false 0x7FC12345 = (0x7FC00000, 0) ∧ special fn .f32 false 0x7F812345 = (0x7FC00000, 1)) ∧
    special .rcp .f32 false 0 = (0x7F800000, 2) ∧ special .rcp .f32 false 0x80000000 = (0xFF800000, 2) ∧
    special .rcp .f32 false 0x7F800000 = (0, 0) ∧ special .rcp .f32 false 0xFF800000 = (0x80000000, 0) ∧
    special .rsqrt .f32 false 0 = (0x7F800000, 2) ∧ special .rsqrt .f32 false 0x7F800000 = (0, 0) ∧
    special .rsqrt .f32 false 0xBF800000 = (0x7FC00000, 1) ∧
    special .sqrt .f32 false 0x80000000 = (0x80000000, 0) ∧ special .sqrt .f32 false 0x7F800000 = (0x7F800000, 0) ∧
    special .sqrt .f32 false 0xBF800000 = (0x7FC00000, 1) ∧
    special .exp2 .f32 false 0 = (0x3F800000, 0) ∧ special .exp2 .f32 false 0x7F800000 = (0x7F800000, 0) ∧
    special .exp2 .f32 false 0xFF800000 = (0, 0) ∧
    special .log2 .f32 false 0 = (0xFF800000, 2) ∧ special .log2 .f32 false 0x7F800000 = (0x7F800000, 0) ∧
    special .log2 .f32 false 0xBF800000 = (0x7FC00000, 1) ∧
    special .sinpi .f32 false 0x80000000 = (0x80000000, 0) ∧ special .sinpi .f32 false 0x7F800000 = (0x7FC00000, 1) ∧
    special .cospi .f32 false 0 = (0x3F800000, 0) ∧ special .cospi .f32 false 0xFF800000 = (0x7FC00000, 1) ∧
    special .tanh .f32 false 0x80000000 = (0x80000000, 0) ∧ special .tanh .f32 false 0xFF800000 = (0xBF800000, 0))

/-- R107, R178. `vperm.x`, where the core's cross-lane network is free, takes it for 2 cycles. In a wave of no width convoy it permutes the
wave's own lanes. The lead of a width convoy, once no member has a word still to issue, sends what the source lanes of every member give
as they stand two cycles later, so far as the results in flight tell, and keeps the word's operands. The first member to issue after it reads every member's source
lanes as they then stand, makes the lead's result from them, and each member uses those. A lane whose index names no present lane takes the fill.
The model's own choice of log 20 bears on it. -/
def Obligations.WidePermute : Prop :=
  ∀ (s : State) (l : LaneA) (k : LaneCtx), laneReady s l ⟨.dst, .src, .src, .src, true, false, fun _ => BitVec.allOnes 64, 14⟩ = some k →
    (s.part (coreOfWave s.cur) (partOfWave s.cur)).netAt ≤ s.clkCur →
    (k.w.convoy.width = none → ∃ t, exec (.vpermX l) s = .next t ∧ (t.part (coreOfWave s.cur) (partOfWave s.cur)).netAt = s.clkCur + 2 ∧
      t.wave s.cur = (s.laneResult k 14 0 fun j =>
        let q := (k.val s k.b j).toNat % k.w.reach
        (if k.w.present q then k.val s k.a q else k.val s k.x j, 0)).wave s.cur) ∧
    (∀ lead place n, k.w.convoy.width = some (lead, place, n) →
      (place = 0 → (s.widthMembers lead).all (fun e => e.1 == s.cur || e.2.convoy.fifo.isEmpty && e.2.convoy.hops.isEmpty) = true) →
      ∃ t x y, exec (.vpermX l) s = .next t ∧ (t.part (coreOfWave s.cur) (partOfWave s.cur)).netAt = s.clkCur + 2 ∧ t.wave s.cur = some x ∧
        x.lpc = k.blk.start + k.blk.pos + 1 ∧ x.pend = insertLanding y k.w.pend ∧ y.due = s.clkCur + 14 + k.late ∧
        (place = 0 → x.convoy.permX = some ⟨s.nextId, k.act, k.a, k.b, k.x⟩ ∧
          ∀ r, k.d = .reg r → y.dest = .vreg r (BitVec.allOnes 32) ((lanesOf k.act).map fun j =>
            (j, pickX (s.gatherX lead k.fr k.clk (k.clk + 2) l.a (l.imm % 256)) k.w.width (k.val s k.b j).toNat (k.val s k.x j)))) ∧
        (place ≠ 0 → ∀ r, k.d = .reg r → ∃ v, (s.readX lead k.fr k.clk l.a (l.imm % 256)).wave s.cur = some v ∧
          y.dest = .vreg r (BitVec.allOnes 32) ((lanesOf k.act).map fun j =>
            (j, pickX v.convoy.gather k.w.width
              (k.val (s.readX lead k.fr k.clk l.a (l.imm % 256)) k.b j).toNat (k.val (s.readX lead k.fr k.clk l.a (l.imm % 256)) k.x j))))) ∧
    (∀ lead fr clk f i v px u, s.wave lead = some v → v.convoy.permX = some px → (s.readX lead fr clk f i).wave lead = some u →
      let g := s.gatherX lead fr clk clk f i
      u.convoy.permX = none ∧ (∀ e n m, s.wave e = some n → n.convoy.width.any (fun x => x.1 == lead) = true →
        (s.readX lead fr clk f i).wave e = some m → m.convoy.gather = g) ∧
      ∀ y ∈ v.pend, (y.seq ≠ px.seq → y ∈ u.pend) ∧ ∀ r fld vals, y.seq = px.seq → y.dest = .vreg r fld vals →
        ∃ z ∈ u.pend, z.due = y.due ∧ z.seq = y.seq ∧ z.dest = .vreg r fld ((lanesOf px.act).map fun j =>
          (j, pickX g v.width (px.b.valAt s lead v fr clk j).toNat (px.x.valAt s lead v fr clk j))))

/-- R126, R127, R130. `vpop` of a ring that is no pipe's producer sends the slice of its head slot in the active lanes, and the head goes on by
one slot.
R73. `vexit` marks the active lanes as exited, and no others.
R119, R349, R350. `xch` with a partner core of another band that the consignment's table holds: `xc` counts one more operation, and an
offer with the values of the active lanes sets out.
The model's own choice of log 61 bears on it. -/
def Obligations.LaneControl : Prop :=
  (
    ∀ (s : State) (l : LaneA) (k : LaneCtx) (r z : Ring), 320 ≤ l.a → l.a < 336 → l.d < 320 →
      look (k.w.ringsSeen s.clkCur) (l.a - 320) = some r → look k.w.rings (l.a - 320) = some z → r.isProducer = false → laneReady s l ⟨.dst, .src, .none, .none, false, false, id, 4⟩ = some k →
      ∃ t x y q, exec (.vpop l) s = .next t ∧ t.wave s.cur = some x ∧ x.pend = insertLanding y k.w.pend ∧
        y.dest = .vreg l.d (BitVec.allOnes 32) ((lanesOf k.act).map fun j => (j, k.val s k.a j)) ∧ y.due = s.clkCur + 4 + k.late ∧
        look x.rings (l.a - 320) = some q ∧ q.head = z.head + 1 ∧ q.filled = z.filled - 1 ∧ q.tail = z.tail ∧ t.mem = s.mem) ∧
  (
    ∀ (s : State) (l : LaneA) (k : LaneCtx), laneReady s l ⟨.none, .none, .none, .none, false, false, id, 1⟩ = some k →
      ∃ t x, exec (.vexit l) s = .next t ∧ t.wave s.cur = some x ∧ x.exited = k.w.exited ||| k.act ∧ x.launched = k.w.launched ∧
        x.lpc = k.blk.start + k.blk.pos + 1 ∧ x.regs = k.w.regs ∧ t.mem = s.mem ∧
        ∀ j p neg fr clk m, k.act.getLsbD j = true → (x.active fr clk m p neg).getLsbD j = false) ∧
  (
    ∀ (s : State) (l : LaneA) (k : LaneCtx), l.d < 320 → (l.a < 320 ∨ 336 ≤ l.a) →
      laneReady s l ⟨.dst, .src, .none, .none, false, false, id, lateLat⟩ = some k → l.imm % 2048 < 1536 → l.imm % 2048 / 4 ≠ k.w.lcore / 4 →
      (k.c.phys (l.imm % 2048)).isSome = true → k.w.count .xc < 255 →
      ∃ t x, exec (.xch l) s = .next t ∧ t.wave s.cur = some x ∧ x.lpc = k.blk.start + k.blk.pos + 1 ∧ x.regs = k.w.regs ∧ t.mem = s.mem ∧
        x.ops = k.w.ops ++ [⟨s.nextId, .xc, 1, some k.blk.id, .none, none, 0, false, k.w.spc, k.blk.start + k.blk.pos, [], 0, some l.d, k.act⟩] ∧
        t.offers = s.offers ++ [⟨s.cur, k.w.cid, s.nextId, k.w.lcore, l.imm % 2048, l.c % 256, l.d, k.act,
          (lanesOf k.act).map fun j => (j, k.val s k.a j), false, none, 0, none, 0⟩])

/-! ## Lane memory words -/

/-- A lane memory word: whether d is a destination, whether b is a source, its address form, and what the homes do (R251, R255 to R257, R274,
R275). -/
def Sys2Proof.Machine.laneMem : Instr → Option (LaneM × Bool × Bool × MemForm × MemKind)
  | .vlds l => some (l, true, false, .loc, .load)
  | .vsts l => some (l, false, true, .loc, .store)
  | .vld l => some (l, true, false, .tb (l.c % 8), .load)
  | .vst l => some (l, false, true, .tb (l.c % 8), .store)
  | .vldGspad l => some (l, true, false, .gspad, .load)
  | .vstGspad l => some (l, false, true, .gspad, .store)
  | .laneAmoAdd l => some (l, true, true, memForm l, .amo .add)
  | .laneAmoAnd l => some (l, true, true, memForm l, .amo .and)
  | .laneAmoOr l => some (l, true, true, memForm l, .amo .or)
  | .laneAmoXor l => some (l, true, true, memForm l, .amo .xor)
  | .laneAmoMin l => some (l, true, true, memForm l, .amo (if l.ty.signed then .minS else .minU))
  | .laneAmoMax l => some (l, true, true, memForm l, .amo (if l.ty.signed then .maxS else .maxU))
  | .laneAmoSwap l => some (l, true, true, memForm l, .amo .swap)
  | .laneAmoCas l => some (l, true, true, memForm l, .amo .cas)
  | .laneAmoFadd l => some (l, true, true, memForm l, .amo .fadd)
  | .laneRedAdd l => some (l, false, true, memForm l, .red .add)
  | .laneRedAnd l => some (l, false, true, memForm l, .red .and)
  | .laneRedOr l => some (l, false, true, memForm l, .red .or)
  | .laneRedXor l => some (l, false, true, memForm l, .red .xor)
  | .laneRedMin l => some (l, false, true, memForm l, .red (if l.ty.signed then .minS else .minU))
  | .laneRedMax l => some (l, false, true, memForm l, .red (if l.ty.signed then .maxS else .maxU))
  | .laneRedFadd l => some (l, false, true, memForm l, .red .fadd)
  | _ => none

/-- The data that a lane sends: nothing for a load, the compare value and the new one for `cas`, else the source's slice (R252, R274). -/
def Sys2Proof.Machine.laneData (s : State) (k : LaneCtx) (l : LaneM) (m : MemKind) (j : Nat) : Word × Word :=
  match m with
  | .load => (0, 0)
  | .amo .cas => (wordN (k.val s (.reg l.d) j).toNat, wordN (k.val s k.b j).toNat)
  | _ => (wordN (k.val s k.b j).toNat, 0)

/-- The access of lane `j`, with its place (R251, R274). -/
def Sys2Proof.Machine.laneAt (s : State) (k : LaneCtx) (l : LaneM) (f : MemForm) (m : MemKind) (j : Nat) : Want :=
  laneWant s k f m l.imm j (laneData s k l m j).1 (laneData s k l m j).2

/-- The checks of an atomic or reduction that lanes do not differ in: its release is complete, and under DEBUG `cas` reads no late
destination (R118, R296). -/
def Sys2Proof.Machine.lanePasses (s : State) (k : LaneCtx) (l : LaneM) (m : MemKind) : Prop :=
  (m.syncs = true → hasRel l.ord = true → s.releasedL s.cur k.w l.sc k.blk.id = true) ∧
    (m = .amo .cas → k.c.debug = true → k.lateV k.clk l.d k.act = false)

/-- Two accesses that one request carries: in the local form of one pass, which takes one word from each bank, and else of one sector (R255 to
R257). -/
def Sys2Proof.Machine.oneRequest (f : MemForm) (a b : Acc) : Prop :=
  if f = .loc then a.key / 8 % 32 = b.key / 8 % 32 → a.key / 8 = b.key / 8 else a.key / 32 = b.key / 32

/-- An active lane's access goes to the operand log: its page is absent, or the log already names it (R243, R244). -/
def Sys2Proof.Machine.laneLogged (s : State) (k : LaneCtx) (l : LaneM) (f : MemForm) (m : MemKind) (j : Nat) : Bool := (laneAt s k l f m j).faults k.w

/-- An active lane's access is refused, and not logged (R246). -/
def Sys2Proof.Machine.laneRefused (s : State) (k : LaneCtx) (l : LaneM) (f : MemForm) (m : MemKind) (j : Nat) : Bool :=
  decide ((laneAt s k l f m j).pl = .violation) && !laneLogged s k l f m j

/-- The accesses that set out, in the groups that one request or answer each carries (R255 to R257). -/
def Sys2Proof.Machine.laneGroups (s : State) (k : LaneCtx) (l : LaneM) (f : MemForm) (m : MemKind) : List (List Acc) :=
  accGroups (f == .loc) (((lanesOf k.act).filter fun j => !laneLogged s k l f m j && !laneRefused s k l f m j).map fun j =>
    (laneAt s k l f m j).keyed)

/-- The acquire of an atomic (R296). -/
def Sys2Proof.Machine.laneAcq (l : LaneM) : MemKind → Option Scope
  | .amo _ => if hasAcq l.ord then some l.sc else none
  | _ => none

/-- R119, R129, R230, R241, R243, R244, R246, R252, R255 to R257, R274, R275. A lane memory word whose active lanes are aligned, and that nothing
holds, issues. With an active lane its counter counts one more operation; a load into a pipe's slot opens a store too. The lanes whose pages
are absent, or that the operand log already names, take one entry of it and their page faults wait for service; the lanes that may not act
where their addresses lead are answered with an error; every other active lane's access is in exactly one of the requests that set out, or
for a load of the answers that the snapshot gives. Each request is one sector's or, in the local form, one pass's. Each answer out of the
snapshot names the wave and the operation, carries the bytes of the sector held there, and waits for the stores of the core's other waves to it.
Memory, tags, registers and other waves are as before. Which loads the snapshot serves is the model's reading (log 14).
The model's own choices of log 14, 26, 55 bear on it. -/
def Obligations.LaneMemoryWords : Prop :=
  ∀ (i : Instr) (s : State) (l : LaneM) (dst src : Bool) (f : MemForm) (m : MemKind) (k : LaneCtx), laneMem i = some (l, dst, src, f, m) →
    (dst = true → src = true → l.d < 320) →
    laneReady s (asA l) ⟨if dst then .dst else .none, .src, if src then .src else .none, .none, false, false, id, 1000⟩ = some k →
    badTb k.w f = false → lanePasses s k l m → (∀ j ∈ lanesOf k.act, (laneAt s k l f m j).acc.va % 4 = 0) →
    memHeld s s.cur k.w m 4 (some k.blk.id) ((lanesOf k.act).map (laneAt s k l f m)) = false →
    let logged := (lanesOf k.act).filter (laneLogged s k l f m)
    let refused := (lanesOf k.act).filter (laneRefused s k l f m)
    let groups := laneGroups s k l f m
    ∃ t x, exec i s = .next t ∧ t.wave s.cur = some x ∧ t.mem = s.mem ∧ t.full = s.full ∧ (∀ n, n ≠ s.cur → t.wave n = s.wave n) ∧
      x.regs = k.w.regs ∧ x.lpc = k.blk.start + k.blk.pos + 1 ∧ x.spc = k.w.spc ∧
      (k.act ≠ 0 →
        let n := groups.length + (if refused = [] then 0 else 1) + (if logged = [] then 0 else 1)
        let op : OpDest → OutOp := fun d => ⟨s.nextId, m.ctr, n, some k.blk.id, d, laneAcq l m, 0, false, k.w.spc, k.blk.start + k.blk.pos, [],
          groups.countP farGroup, none, k.act⟩
        0 < n ∧ x.ops = match k.d with
          | .pipe key => k.w.ops ++ [⟨s.nextId + 1, .st, 1, some k.blk.id, .none, none, 0, false, k.w.spc, k.blk.start + k.blk.pos, [], 0, none, 0⟩,
              op (.pipe key (s.nextId + 1))]
          | _ => k.w.ops ++ [op k.opDest]) ∧
      (x.oplog = if logged = [] then k.w.oplog else k.w.oplog ++
        [⟨s.nextId, true, k.w.spc, k.blk.start + k.blk.pos, m, 4, m.syncs, logged.map fun j => (laneAt s k l f m j).acc⟩]) ∧
      (∀ j ∈ lanesOf k.act, (laneAt s k l f m j).pl = .fault →
        ∃ va, Fault1.wave s.cur k.c.aspace va ∈ t.faults ∧ va / 4096 = (laneAt s k l f m j).acc.va / 4096) ∧
      ((∀ j ∈ lanesOf k.act, (laneAt s k l f m j).pl ≠ .fault) → t.faults = s.faults) ∧
      ∃ rs ps, t.reqs = s.reqs ++ rs ∧
        t.resps = s.resps ++ (if refused = [] then [] else [⟨s.cur, k.w.cid, coreOfWave s.cur, s.nextId, [],
          refused.map fun j => (j, (laneAt s k l f m j).acc.va), false, none, decide (m.ctr = .st), none, false, [], 0⟩]) ++ ps ∧
        (m ≠ .load → ps = []) ∧ rs.length + ps.length = groups.length ∧
        ((rs.flatMap fun r => r.accs.map Acc.lane) ++ ps.flatMap fun p => p.vals.map Prod.fst).Perm
          ((lanesOf k.act).filter fun j => !laneLogged s k l f m j && !laneRefused s k l f m j) ∧
        (∀ r ∈ rs, r.wave = s.cur ∧ r.cid = k.w.cid ∧ r.pcore = coreOfWave s.cur ∧ r.op = s.nextId ∧ r.kind = .mem m ∧ r.size = 4 ∧ r.born = s.now ∧
          r.replay = false ∧
          (∀ a ∈ r.accs, a = (laneAt s k l f m a.lane).keyed ∧ r.home = homeOf a.key ∧ ∀ b ∈ r.accs, oneRequest f a b) ∧
          (m = .load → ∀ a, r.accs[0]? = some a → s.snapFor s.cur false a.key a.va = none)) ∧
        ∀ p ∈ ps, p.wave = s.cur ∧ p.cid = k.w.cid ∧ p.pcore = coreOfWave s.cur ∧ p.op = s.nextId ∧ p.failed = [] ∧ p.ue = false ∧ p.far = false ∧
          p.notBefore = 0 ∧ ∃ a sec, p.vals[0]?.map Prod.fst = some a ∧
            let key := (laneAt s k l f m a).keyed.key
            s.snapFor s.cur false key (laneAt s k l f m a).acc.va = some sec ∧ (s.core (coreOfWave s.cur)).held key = some sec ∧
            p.behind = s.hitBehind s.cur key ∧
            ∀ v ∈ p.vals, (laneAt s k l f m v.1).keyed.key / 32 = key / 32 ∧ v.2 = wordN (sectorNum sec (laneAt s k l f m v.1).keyed.key 4)

/-- R51, R358, log 10. A scalar word of `regForm` that names an illegal scalar register takes the
illegal-operand trap, with the first such field in `xaddr`, and has no other effect.
R118, R358. Under DEBUG, a scalar word of `regForm` that would read a register whose result has not landed takes the hazard trap, with the
first such register in `xaddr`.
R45, R51. The first check of word 0 that fails gives the trap: a core that does not exist, a reply to an invalid ring, unused or
reserved bits that are not zero, each an illegal operand; a misaligned barrier offset, a misaligned access; and a target outside the
consignment's table, an access violation. No command sets out. Which register or value `xaddr` takes is the model's choice where the rules
name none (log 10, 12).
A `jr` or `callr` to an address that is no multiple of 4 takes the misaligned-access trap at the jump, with the target in `xaddr`
(R35).
R51, R258, R273. A scalar memory word whose address is no multiple of its width takes the misaligned-access trap, with the address in
`xaddr`, whatever else holds it.
R37, R51, R358, log 10. A lane word of `valueUse` with an illegal operand field takes the illegal-operand
trap, with the first such field's value in `xaddr` and the active lanes in `xmask`; `vswap` and `vbcast` of a lane outside their reach
take the illegal-instruction trap before that.
R51, R251, R252. Where an active lane's address is no multiple of 4, the word takes the misaligned-access trap with the lowest such
address, in the scratchpad form the 32-bit lane address, and the mask of those lanes, and no lane accesses anything.
The model's own choices of log 10, 11, 12, 25, 58 bear on it. -/
def Obligations.OperandTraps : Prop :=
  (
    ∀ (i : Instr) (s : State) (w : Wave) (c : Cons) (d lat f : Nat) (reads : List Nat) (v : State → Wave → Word),
      regForm i = some (d, reads, lat, v) → s.wave s.cur = some w → s.con w.cid = some c → (d :: reads).find? (fun r => !w.sOk r) = some f →
      exec i s = .next (s.trapS s.cur 2 (wordN f) 0 0)) ∧
  (
    ∀ (i : Instr) (s : State) (w : Wave) (c : Cons) (d lat f : Nat) (reads : List Nat) (v : State → Wave → Word),
      regForm i = some (d, reads, lat, v) → s.wave s.cur = some w → s.con w.cid = some c → (d :: reads).all w.sOk = true → c.debug = true →
      reads.find? (w.lateS s.clkCur) = some f → exec i s = .next (s.trapS s.cur 7 (wordN f) 0 0)) ∧
  (
    ∀ (i : Instr) (s : State) (w : Wave) (c : Cons) (u : EngineUse), engineUse i = some u →
      scalarReady s [u.a, u.b] [u.a, u.b] none = some (w, c) →
      let w0 := (s.rS w u.a).toNat
      let bad := (1536 ≤ w0 % 2 ^ 12 ∧ w0 % 2 ^ 12 ≠ 4095) ∨ (w0 / 2 ^ 12 % 4 = 2 ∧ look w.rings (w0 / 2 ^ 14 % 16) = none) ∨
        (w0 / 2 ^ 12 % 4 ≠ 2 ∧ w0 / 2 ^ 14 % 16 ≠ 0) ∨ (w0 / 2 ^ 12 % 4 ≠ 3 ∧ w0 / 2 ^ 18 % 2 ^ 20 ≠ 0) ∨ w0 / 2 ^ u.top ≠ 0
      (bad → exec i s = .next (s.trapS s.cur 2 (wordN u.a) 0 0)) ∧
      (¬ bad → w0 / 2 ^ 18 % 2 ^ 20 % 8 ≠ 0 → exec i s = .next (s.trapS s.cur 3 (wordN (w0 / 2 ^ 18 % 2 ^ 20)) 0 0)) ∧
      (¬ bad → w0 / 2 ^ 18 % 2 ^ 20 % 8 = 0 → c.phys (if w0 % 2 ^ 12 = 4095 then w.lcore else w0 % 2 ^ 12) = none →
        exec i s = .next (s.trapS s.cur 4 (wordN (if w0 % 2 ^ 12 = 4095 then w.lcore else w0 % 2 ^ 12)) 0 0))) ∧
  (
    ∀ (s : State) (w : Wave) (c : Cons) (a : Nat) (off : Int) (i : Instr), i = .jr a off ∨ i = .callr a off →
      scalarReady s [a] [a] none = some (w, c) → (s.rS w a).toNat % 4 ≠ 0 →
      exec i s = .next (s.trapS s.cur 3 (wordZ ((s.rS w a).toInt + 4 * off)) 0 0)) ∧
  (
    ∀ (i : Instr) (s : State) (w : Wave) (c : Cons) (u : MemUse), memUse s w i = some u →
      scalarReady s u.fields u.reads u.dst = some (w, c) → u.addr.toNat % u.size ≠ 0 → exec i s = .next (s.trapS s.cur 3 u.addr 0 0)) ∧
  (
    ∀ (i : Instr) (s : State) (w : Wave) (c : Cons) (b : LBlock) (l : LaneA) (u : LaneUse), valueUse i = some (l, u) →
      s.wave s.cur = some w → s.con w.cid = some c → nextBlock w.queue = some b →
      let act := w.active s.fresh s.clkCur b.mask l.pred l.neg
      let v := w.seen s.clkCur
      let out := match i with
        | .vswap l => decide (l.c = 0) || decide (w.reach ≤ l.c)
        | .vbcast l => decide (w.reach ≤ l.c)
        | _ => false
      (out = false → ∀ f, firstSome [v.badField s.cur b u.d l.d (if u.idx then l.imm / 256 ^ 3 else 0), v.badField s.cur b u.a l.a (u.slot l 0),
          v.badField s.cur b (if u.imB then .none else u.b) l.b (u.slot l 1), v.badField s.cur b u.c l.c (u.slot l 2)] = some f →
        exec i s = .next (s.trapL s.cur 2 (wordN f) act)) ∧
      (out = true → (∀ k, laneReady s l ⟨.none, .none, .none, .none, false, false, id, 0⟩ = some k →
        ∃ x, exec i s = .next (s.trapL s.cur 1 x act)))) ∧
  (
    ∀ (i : Instr) (s : State) (l : LaneM) (dst src : Bool) (f : MemForm) (m : MemKind) (k : LaneCtx), laneMem i = some (l, dst, src, f, m) →
      (dst = true → src = true → l.d < 320) →
      laneReady s (asA l) ⟨if dst then .dst else .none, .src, if src then .src else .none, .none, false, false, id, 1000⟩ = some k →
      badTb k.w f = false → (m = .amo .cas → k.c.debug = true → k.lateV k.clk l.d k.act = false) → (∃ j ∈ lanesOf k.act, (laneAt s k l f m j).acc.va % 4 ≠ 0) →
      ∃ addr mask, exec i s = .next (s.trapL s.cur 3 (wordN addr) mask) ∧
        (∀ j < 64, mask.getLsbD j = (k.act.getLsbD j && decide ((laneAt s k l f m j).acc.va % 4 ≠ 0))) ∧
        let x := fun j => match f with
          | .gspad => ((k.val s k.a j).toNat + l.imm) % 2 ^ 32
          | _ => (laneAt s k l f m j).acc.va
        (∃ j ∈ lanesOf k.act, x j = addr ∧ addr % 4 ≠ 0) ∧ ∀ j ∈ lanesOf k.act, (laneAt s k l f m j).acc.va % 4 ≠ 0 → addr ≤ x j)

/-- R254, R259. A lane-private store of aligned words inside the wave's private bytes: each active lane's word reads as its slice from then
on, and every other private byte as before; memory, tags and registers are as before.
The model's own choice of log 19 bears on it. -/
def Obligations.PrivateStore : Prop :=
  ∀ (s : State) (l : LaneM) (k : LaneCtx), laneReady s (asA l) ⟨.none, .src, .src, .none, false, false, id, 4⟩ = some k →
    k.w.oplog.length < 4 → k.w.fp.priv ≤ 512 → Memory.wf k.w.regs.priv = true →
    (∀ j ∈ lanesOf k.act, ((k.val s k.a j).toNat + l.imm) % 4 = 0 ∧ (k.val s k.a j).toNat + l.imm + 4 ≤ k.w.fp.priv) →
    ∃ t x, exec (.vstp l) s = .next t ∧ t.wave s.cur = some x ∧ t.mem = s.mem ∧ t.full = s.full ∧ x.lpc = k.blk.start + k.blk.pos + 1 ∧
      x.regs = { k.w.regs with priv := x.regs.priv } ∧ Memory.wf x.regs.priv = true ∧
      (∀ j ∈ lanesOf k.act, Memory.num x.regs.priv 4 (512 * j + ((k.val s k.a j).toNat + l.imm)) = (k.val s k.b j).toNat) ∧
      ∀ q, (∀ j ∈ lanesOf k.act, q < 512 * j + ((k.val s k.a j).toNat + l.imm) ∨ 512 * j + ((k.val s k.a j).toNat + l.imm) + 4 ≤ q) →
        Memory.get x.regs.priv q = Memory.get k.w.regs.priv q

/-! ## Requests at their homes, and answers -/

/-- A resource of `cap` slots, `used` of them taken, has `n` for a request with ticket `k`: two stay free, but for the lowest ticket (R287,
R288). -/
def Sys2Proof.Machine.slotsFor (s : State) (res used n cap : Nat) (k : Option Nat) : Prop :=
  n = 0 ∨ used + n + 2 ≤ cap ∨ used + n ≤ cap ∧ ∃ x, k = some x ∧ (s.ticketsOf res).out.head? = some x

/-- A request joins its home's write queue, or needs no entry: the home has no queue, or there are slots for the lines of the request that
have no entry (R269, R271, R287). -/
def Sys2Proof.Machine.admits (s : State) (r : Req) : Prop :=
  homeQueued r.home = false ∨
    slotsFor s (resQueue r.home) (s.wqs.filter fun e => e.1 == r.home).length
      ((linesOf r.size r.accs).filter fun l => !s.hasEntry r.home l).length (queueCap r.home) (r.ticket (resQueue r.home))

/-- Request `r` as it waits in a park slot: without the tickets that brought it there. -/
def Sys2Proof.Machine.parkedAs (r q : Req) : Prop :=
  q = { r with refusals := q.refusals, tickets := q.tickets } ∧
    (∀ res, res ≠ resPark r.home → res ≠ resQueue r.home → q.ticket res = r.ticket res) ∧
    ((r.tickets.map Prod.fst).Nodup → q.ticket (resPark r.home) = none)

/-- A memory request without tags: a load, a store, an atomic or a reduction. -/
def Sys2Proof.Machine.plain : MemKind → Bool
  | .load | .store | .amo _ | .red _ => true
  | _ => false

/-- No byte of the request's accesses has an uncorrectable error (R253). -/
def Sys2Proof.Machine.sound (s : State) (r : Req) : Prop := ∀ a ∈ r.accs, s.memBad a.key r.size = false

/-- The event that applies request `k` where nothing fails it: at a scratchpad whose granules are leased, at a home slice whose stack is
ready, or in the host window, and no byte has an uncorrectable error (R249, R253, R269, R410). -/
def Sys2Proof.Machine.applies (s : State) (k : Nat) (r : Req) (i : Instr) : Prop :=
  sound s r ∧
    (homeIsSpad r.home = true ∧ r.accs.all (leaseOk s r) = true ∧ i = .scratchpadRequestArrival k ∨
      homeIsSpad r.home = false ∧ r.home < 5000 ∧ s.homeUp r = true ∧ i = .homeRequestApply k)

/-- The accesses of a request that its home performs: at a scratchpad not those of an ended wave to a granule that is being cleared for
another (log 22). -/
def Sys2Proof.Machine.performed (s : State) (r : Req) : List Acc := if homeIsSpad r.home = true then r.accs.filter fun a => !s.stale r a else r.accs

/-- The word that an atomic or reduction leaves, of width `w` (R273 to R275): `fadd` rounds the exact sum once, to nearest even. -/
def Sys2Proof.Machine.amoGives (op : AmoOp) (w m x y : Nat) : Nat :=
  match op with
  | .add => (m + x) % 2 ^ w
  | .and => m &&& x
  | .or => m ||| x
  | .xor => m ^^^ x
  | .minS => if (BitVec.ofNat w m).toInt ≤ (BitVec.ofNat w x).toInt then m else x
  | .minU => min m x
  | .maxS => if (BitVec.ofNat w m).toInt ≤ (BitVec.ofNat w x).toInt then x else m
  | .maxU => max m x
  | .swap => x
  | .cas => if m = x then y else m
  | .fadd => (fmtF32.deliver .rne false false (Num.add .rne (fmtF32.value m) (fmtF32.value x))).1

/-- What a store, an atomic or a reduction of `w` bits leaves where `m` stood; of a store's word the bits of `data2` stay (R171, R252). -/
def Sys2Proof.Machine.leaves (k : MemKind) (w m : Nat) (a : Acc) : Option Nat :=
  match k with
  | .store => some ((wordN m &&& a.data2) ||| (a.data &&& ~~~a.data2)).toNat
  | .amo op => some (amoGives op w m a.data.toNat a.data2.toNat)
  | .red op => some (amoGives op w m a.data.toNat a.data2.toNat)
  | _ => none

/-- R252, R253, R256, R269, R271, R273 to R275, R287, R288, R410. A load at its home is answered with the bytes as they stand. A store, an
atomic or a reduction that the write queue admits is performed lane by lane in ascending order: each lane leaves its word where it found
one, and every other byte stays; an atomic is answered with the word that each lane found at its own turn.
One without a slot for each new line is refused as a whole and tried again 32 cycles later, and its third refusal draws a ticket of that
resource. A scratchpad lane outside its lease or at a byte with an uncorrectable error, and every lane at a home slice where the stack is
not ready or a byte has such an error, is answered with an error.
The model's own choices of log 27, 57 bear on it. -/
def Obligations.RequestsApply : Prop :=
  (∀ (s : State) (k : Nat) (r : Req) (i : Instr), s.front k = some r → applies s k r i → r.kind = .mem .load → r.fromPeer = false →
    ∃ t, exec i s = .next t ∧ t.mem = s.mem ∧ t.full = s.full ∧ t.waves = s.waves ∧ t.reqs = s.reqs.eraseIdx k ∧ t.resps = s.resps ++
      [⟨r.wave, r.cid, r.pcore, r.op, (performed s r).map fun a => (a.lane, wordN (s.num r.size a.key)), [], false, none, false, none, r.isFar, [], 0⟩]) ∧
  (∀ (s : State) (k : Nat) (r : Req) (i : Instr) (m : MemKind), s.memOk = true → s.front k = some r →
    applies s k r i → r.kind = .mem m → r.size ∈ [1, 2, 4, 8] → r.fromPeer = false → admits s r → plain m = true → m ≠ .load →
    (∀ a ∈ r.accs, a.data.toNat < 2 ^ (8 * r.size) ∧ a.data2.toNat < 2 ^ (8 * r.size)) → (m = .amo .fadd ∨ m = .red .fadd → r.size = 4) →
    let as := performed s r
    ∃ (t : State) (ms : List Memory), exec i s = .next t ∧ t.reqs = s.reqs.eraseIdx k ∧ t.full = s.full ∧
      ms.length = as.length + 1 ∧ ms[0]? = some s.mem ∧ ms[as.length]? = some t.mem ∧
      (∀ (n : Nat) (a : Acc) (x y : Memory), as[n]? = some a → ms[n]? = some x → ms[n + 1]? = some y →
        leaves m (8 * r.size) (Memory.num x r.size a.key) a = some (Memory.num y r.size a.key) ∧
        ∀ q, q < a.key ∨ a.key + r.size ≤ q → Memory.get y q = Memory.get x q) ∧
      ∃ vals, t.resps = s.resps ++ (match m with
        | .amo _ => [⟨r.wave, r.cid, r.pcore, r.op, vals, [], false, none, false, none, r.isFar, [], 0⟩]
        | _ => []) ∧ vals.length = as.length ∧
        ∀ (n : Nat) (a : Acc) (x : Memory), as[n]? = some a → ms[n]? = some x → vals[n]? = some (a.lane, wordN (Memory.num x r.size a.key))) ∧
  (∀ (s : State) (k : Nat) (r : Req) (i : Instr) (m : MemKind), s.front k = some r → applies s k r i → r.kind = .mem m →
    plain m = true → m ≠ .load → ¬ admits s r →
    ∃ t q, exec i s = .next t ∧ t.mem = s.mem ∧ t.full = s.full ∧ t.resps = s.resps ∧ t.waves = s.waves ∧ t.reqs = s.reqs.set k q ∧
      q = { r with retryAt := s.clk r.pcore + 32, refusals := q.refusals, tickets := q.tickets } ∧
      (∀ res, lookD q.refusals res 0 = lookD r.refusals res 0 + (if res = resQueue r.home then 1 else 0)) ∧
      ∀ res, q.ticket res = if res = resQueue r.home ∧ lookD r.refusals res 0 = 2 ∧ r.ticket res = none
        then some (s.ticketsOf res).next else r.ticket res) ∧
  (∀ (s : State) (k : Nat) (r : Req) (m : MemKind), s.front k = some r → homeIsSpad r.home = false → r.home < 5000 → s.homeUp r = false →
    r.kind = .mem m → plain m = true → r.fromPeer = false →
    ∃ t, exec (.homeRequestApply k) s = .next t ∧ t.mem = s.mem ∧ t.reqs = s.reqs.eraseIdx k ∧ t.resps = s.resps ++
      [⟨r.wave, r.cid, r.pcore, r.op, [], r.accs.map fun a => (a.lane, a.va), true, none, r.stores, none, r.isFar, [], 0⟩]) ∧
  (∀ (s : State) (k : Nat) (r : Req), s.front k = some r → homeIsSpad r.home = true → r.kind = .mem .load → r.fromPeer = false →
    (∀ a ∈ r.accs, leaseOk s r a = true) → ¬ sound s r →
    ∃ t, exec (.scratchpadRequestArrival k) s = .next t ∧ t.mem = s.mem ∧ t.reqs = s.reqs.eraseIdx k ∧ t.resps = s.resps ++
      [⟨r.wave, r.cid, r.pcore, r.op,
        ((performed s r).filter fun a => !s.memBad a.key r.size).map fun a => (a.lane, wordN (s.num r.size a.key)),
        (r.accs.filter fun a => s.memBad a.key r.size).map fun a => (a.lane, a.va), true, none, false, none, r.isFar, [], 0⟩]) ∧
  (∀ (s : State) (k : Nat) (r : Req), s.front k = some r → homeIsSpad r.home = true → r.kind = .mem .load → r.fromPeer = false →
    sound s r → (∃ a ∈ r.accs, leaseOk s r a = false) →
    ∃ t, exec (.scratchpadRequestArrival k) s = .next t ∧ t.mem = s.mem ∧ t.reqs = s.reqs.eraseIdx k ∧ t.resps = s.resps ++
      [⟨r.wave, r.cid, r.pcore, r.op, ((performed s r).filter (leaseOk s r)).map fun a => (a.lane, wordN (s.num r.size a.key)),
        (r.accs.filter fun a => !leaseOk s r a).map fun a => (a.lane, a.va), false, none, false, none, r.isFar, [], 0⟩])

/-- A tag operation, whether it waits for a full word, and the tag it leaves (R286). -/
def Sys2Proof.Machine.tagForm : MemKind → Option (Option Bool × Option Bool)
  | .ldfe => some (some true, some false)
  | .ldf => some (some true, none)
  | .stfe => some (some false, some true)
  | .tagset b => some (none, some b)
  | _ => none

/-- R247, R248, R271, R288. A write-queue entry leaves after 64 cycles of its home without a request, or while no general slot is left; a
refused request may be tried again once its 32 cycles have passed; a lowest ticket not presented for 256 cycles is dropped, and its holder
begins again with that resource; a clear leaves in a hotness entry the misses of its own cycle.
R285, R286. A tag operation at a word whose tag is as it needs, and for which no request waits, is performed as one action: `ldfe` and
`ldf` are answered with the word, `stfe` stores it, and the tag is left as the operation says; no other tag changes. One whose tag is not
so takes a park slot where one is granted.
The model's own choices of log 27, 54 bear on it. -/
def Obligations.HomeUpkeep : Prop :=
  (
    (∀ (s : State) (home line : Nat) (e : Nat × Nat × Nat), s.wqs.find? (fun e => e.1 == home && e.2.1 == line) = some e →
      (e.2.2 + 64 ≤ s.homeClk home ∨ queueCap home ≤ (s.wqs.filter fun e => e.1 == home).length + 2) →
      exec (.writeQueueDrain home line) s = .next { s with wqs := s.wqs.erase e }) ∧
    (∀ (s : State) (k : Nat) (r : Req), s.reqs[k]? = some r → r.retryAt ≠ 0 → r.retryAt ≤ s.clk r.pcore →
      exec (.refusedRetry k) s = .next { s with reqs := s.reqs.set k { r with retryAt := 0 } }) ∧
    (∀ (s : State) (res x : Nat) (xs : List Nat), (s.ticketsOf res).out = x :: xs → (s.ticketsOf res).since + 256 ≤ s.resClk res →
      ∃ t, exec (.ticketDrop res) s = .next t ∧ t.mem = s.mem ∧ t.waves = s.waves ∧ (t.ticketsOf res).out = xs ∧
        (t.ticketsOf res).since = s.resClk res ∧
        t.reqs = s.reqs.map fun r => if r.ticket res = some x
          then { r with tickets := del r.tickets res, refusals := del r.refusals res } else r) ∧
    ∀ (s : State) (stack r i : Nat) (e : HotEntry), stack < 16 → r < 32768 → i = stack * 32768 + r → s.hotness i = e →
      (s.hot.map Prod.fst).Nodup → e.new.length = 5 →
      ∃ t, exec (.hotnessClear stack r) s = .next t ∧ t = { s with hot := t.hot } ∧ (∀ k, k ≠ i → look t.hot k = look s.hot k) ∧
        ∀ j, j < 5 → (t.hotness i).counts.getD j 0 = if e.at_ = s.hotClk i then e.new.getD j 0 else 0) ∧
  (
    ∀ (s : State) (k : Nat) (r : Req) (a : Acc) (m : MemKind) (need leave : Option Bool), s.memOk = true → s.tagsOk = true →
      s.front k = some r → r.kind = .mem m → tagForm m = some (need, leave) → r.accs = [a] → r.home < 2536 → r.fromPeer = false →
      (homeIsSpad r.home = true → leaseOk s r a = true) → s.homeUp r = true → admits s r →
      ((∀ b, need = some b → s.isFull a.key = b) → (∀ q ∈ s.parked, q.req.spot.1 ≠ a.key) →
        ∃ t, exec (.tagRequestApply k) s = .next t ∧ t.reqs = s.reqs.eraseIdx k ∧ t.parked = s.parked ∧
          t.isFull a.key = leave.getD (s.isFull a.key) ∧ (∀ q, q / 8 ≠ a.key / 8 → t.isFull q = s.isFull q) ∧
          (m = .stfe → t.num 8 a.key = a.data.toNat) ∧
          (∀ q, (m = .stfe → q < a.key ∨ a.key + 8 ≤ q) → Memory.get t.mem q = Memory.get s.mem q) ∧
          t.resps = s.resps ++ (if m.ctr = .ld then
            [⟨r.wave, r.cid, r.pcore, r.op, [(a.lane, wordN (s.num 8 a.key))], [], false, none, false, none, r.isFar, [], 0⟩] else [])) ∧
      ((∃ b, need = some b ∧ s.isFull a.key = !b) → s.fromKilled r = false →
        slotsFor s (resPark r.home) (s.parkUsed r.home) 1 128 (r.ticket (resPark r.home)) →
        ∃ t q, exec (.tagRequestApply k) s = .next t ∧ t.reqs = s.reqs.eraseIdx k ∧ t.mem = s.mem ∧ t.full = s.full ∧
          t.resps = s.resps ∧ t.parked = s.parked ++ [⟨q, false⟩] ∧ parkedAs r q))

/-- R114, R115, R116, R119, R149, R150, R183, R246, R253, R256, R258, R405. An answer that waits for nothing lands in the destination of its
operation, which is done with its last
part; an error answer lands zero in its lanes, and with the last part the lowest address is logged and a trap with those lanes is held.
RESULT_LANDING leaves what every register reads as, and lands all that is due up to a result that raises an enabled exception; that result
lands, its exceptions enter `fpflags`, and the floating-point trap of its word is taken, with the lanes that raised one and the word's index.
OPERATION_RETIRE removes the complete operations at the
front of one counter, and only those; a special function's completion writes its lanes, raises its flags, and retires it.
The model's own choices of log 2, 23 bear on it. -/
def Obligations.AnswersLand : Prop :=
  (∀ (s : State) (k j : Nat) (r : Resp) (w : Wave) (o : OutOp) (v : Word), s.resps[k]? = some r → r.failed = [] → r.ack = none →
    s.respWaits r = false → (∀ y ∈ w.landed, y.due ≠ s.clk (coreOfWave r.wave)) →
    r.wave < ctxBase → s.wave r.wave = some w → w.cid = r.cid → w.wasKilled = false → w.pend = [] → w.ops = [o] → o.id = r.op → o.need = 1 →
    o.acq = none → o.failed = [] → o.ctr ≠ .sf → (r.vals.map Prod.fst).Nodup → (j, v) ∈ r.vals →
    ∃ t x, exec (.loadResponse k) s = .next t ∧ t.wave r.wave = some x ∧ x.ops = [] ∧ t.resps = s.resps.eraseIdx k ∧
      (∀ n size, o.dest = .sreg n size false → n ≠ 0 → r.vals = [(j, v)] → look x.regs.s n = some v ∧ t.mem = s.mem) ∧
      (∀ n size, o.dest = .sreg n size true → n ≠ 0 → r.vals = [(j, v)] → size ∈ [1, 2, 4] → v.toNat < 2 ^ (8 * size) →
        look x.regs.s n = some (wordZ (BitVec.ofNat (8 * size) v.toNat).toInt)) ∧
      (∀ n, o.dest = .vreg n → j < 64 → (∀ y ∈ r.vals, y.1 < 64) → lookD x.regs.v (64 * n + j) 0 = v.setWidth 32 ∧ t.mem = s.mem)) ∧
  (∀ (s : State) (k : Nat) (r : Resp), s.resps[k]? = some r → s.respWaits r = true → exec (.loadResponse k) s = .next s) ∧
  (∀ (s : State) (k n size l va : Nat) (signed : Bool) (r : Resp) (w : Wave) (o : OutOp), s.resps[k]? = some r → r.failed = [(l, va)] →
    r.vals = [] → l < 64 → r.wave < ctxBase → s.wave r.wave = some w → w.cid = r.cid → w.life = .running → w.pend = [] → w.ops = [o] →
    (∀ y ∈ w.landed, y.due ≠ s.clk (coreOfWave r.wave)) →
    o.id = r.op → o.need = 1 → o.acq = none → o.failed = [] → o.ctr = .ld → o.dest = .sreg n size signed → n ≠ 0 → va < 2 ^ 64 →
    ∃ t x e, exec (.accessErrorResponse k) s = .next t ∧ t.wave r.wave = some x ∧ x.ops = [] ∧ look x.regs.s n = some 0 ∧
      x.ctl.held = w.ctl.held ++ [⟨if r.ue then 5 else 4, o.blk.isSome, wordN va, wordN (2 ^ l), 0, none⟩] ∧
      logged s t (dieOf (coreOfWave r.wave)) e ∧
      e.addr = va ∧ e.cause = (if r.ue then 5 else 4) ∧ e.spc = o.spc) ∧
  (∀ (s : State) (n : Nat) (w : Wave), s.wave n = some w → (∀ l ∈ w.pend, l.raised = 0) →
    ∃ t x, exec (.resultLanding n) s = .next t ∧ t.wave n = some x ∧ x.ops = w.ops ∧ x.spc = w.spc ∧ (∀ l ∈ x.pend, l ∈ w.pend) ∧
      ((∀ l ∈ w.pend, l.due ≤ s.clk (coreOfWave n)) → x.pend = []) ∧
      ∀ fr r, x.readS fr (s.clk (coreOfWave n)) r = w.readS fr (s.clk (coreOfWave n)) r) ∧
  (∀ (s : State) (n h : Nat) (w : Wave) (c : Cons) (l : Landing) (ls : List Landing), s.wave n = some w → s.con w.cid = some c →
    w.pend = l :: ls → l.due ≤ s.clk (coreOfWave n) → l.raised ≠ 0 → w.ctl.hmode = false → w.ctl.handler = some h → usable c h → w.spc < 2 ^ 57 →
    let conv := (match w.convoy.role with
      | .member _ => true
      | _ => false) && w.convoy.width.isNone
    ∃ t x, exec (.resultLanding n) s = .next t ∧ t.wave n = some x ∧ x.ctl.hmode = true ∧ x.spc = h ∧ x.pend = [] ∧
      x.ctl.xcause = wordN (6 + 256 + 1024 * conv.toNat) ∧ x.ctl.xmask = l.raised ∧ x.ctl.xaddr = 0 ∧ x.ctl.xspc = wordN w.spc ∧
      x.ctl.xlpc = BitVec.ofNat 24 l.lpcAt ∧ x.ctl.fpflags.toNat / 256 = l.trig.toNat ∧
      ((∀ y ∈ ls, ∀ v, y.dest ≠ .special .fpflags v) → ∀ b, l.flags.getLsbD b = true → x.ctl.fpflags.getLsbD b = true) ∧
      (ls = [] → w.ops.all (fun o => o.ctr != .sf) = true → ∀ r vals j v, l.dest = .vreg r (BitVec.allOnes 32) vals →
        (vals.map Prod.fst).Nodup → (∀ y ∈ vals, y.1 < 64) → (j, v) ∈ vals → lookD x.regs.v (64 * r + j) 0 = v)) ∧
  (∀ (s : State) (n ctr : Nat) (w : Wave), s.wave n = some w →
    ∃ t x, exec (.operationRetire n ctr) s = .next t ∧ t.wave n = some x ∧ x = { w with ops := x.ops } ∧ x.ops.Sublist w.ops ∧
      (∀ o ∈ w.ops, o.ctr ≠ Ctr.ofCode ctr ∨ o.need ≠ 0 ∨ o.acq ≠ none → o ∈ x.ops) ∧
      ∀ o, x.ops.find? (fun o => o.ctr == Ctr.ofCode ctr) = some o → o.need ≠ 0 ∨ o.acq ≠ none) ∧
  ∀ (s : State) (n r j : Nat) (w : Wave) (o : OutOp) (vals : List (Nat × W32)) (v : W32), s.wave n = some w → w.ops = [o] → o.ctr = .sf →
    o.need ≠ 0 → o.acq = none → o.dest = .vals (.vreg r (BitVec.allOnes 32) vals) → (vals.map Prod.fst).Nodup → (j, v) ∈ vals →
    (∀ l ∈ w.pend, l.raised = 0) →
    ∃ t x, exec (.specialFunctionComplete n) s = .next t ∧ t.wave n = some x ∧ x.ops = [] ∧ lookD x.regs.v (64 * r + j) 0 = v ∧
      (w.pend = [] → x.ctl.fpflags = w.ctl.fpflags ||| o.flags.setWidth 13 ∧ t.mem = s.mem)

/-! ## Barriers and wait pairs at their homes -/

/-- A barrier word of its fields (R276). -/
def Sys2Proof.Machine.barWord (arrived expected mode : Nat) (error phase : Bool) : Nat :=
  arrived + expected * 2 ^ 30 + mode * 2 ^ 60 + error.toNat * 2 ^ 62 + phase.toNat * 2 ^ 63

/-- The check that ends an add and a leave (R277). -/
def Sys2Proof.Machine.checkWord (arrived expected mode : Nat) (error phase : Bool) : Nat :=
  if expected ≤ arrived ∧ 0 < arrived then barWord 0 expected mode (error || decide (expected < arrived)) (!phase)
  else barWord arrived expected mode error phase

/-- The word that a request leaves where `v` stood (R76, R277, R278, R281). -/
def Sys2Proof.Machine.barGives (v : Nat) (k : ReqKind) : Nat :=
  let ar := v % 2 ^ 30
  let ex := v / 2 ^ 30 % 2 ^ 30
  let mo := v / 2 ^ 60 % 4
  let er := decide (v / 2 ^ 62 % 2 = 1)
  let ph := decide (v / 2 ^ 63 % 2 = 1)
  let add := fun (n : Nat) (er : Bool) => checkWord (min (ar + n) (2 ^ 30 - 1)) ex mo (er || decide (2 ^ 30 ≤ ar + n)) ph
  if 2 ≤ mo then barWord ar ex mo true ph
  else match k with
    | .arrive n _ => add n er
    | .join n => barWord ar (min (ex + n) (2 ^ 30 - 1)) mo (er || decide (2 ^ 30 ≤ ex + n)) ph
    | .leave n a p =>
      let took := a && (ph == p)
      checkWord (if took then ar - n else ar) (ex - n) mo (er || took && decide (ar < n) || decide (ex < n)) ph
    | .engineAdd n last failed =>
      if failed then barWord ar ex mo true ph
      else if mo = 1 then (if n = 0 then v else add n er)
      else if last then add 1 er else v
    | .completion failed => add 1 (er || failed)
    | _ => v

/-- The event that applies a barrier request. -/
def Sys2Proof.Machine.barEvent (k : Nat) (q : ReqKind) (i : Instr) : Prop :=
  match q with
  | .arrive _ _ => i = .barrierArriveApply k
  | .await _ => i = .barrierArriveApply k
  | .join _ => i = .barrierJoinApply k
  | .leave _ _ _ => i = .barrierLeaveApply k
  | .engineAdd _ _ _ => i = .barrierEngineAdd k
  | .completion _ => i = .barrierEngineAdd k
  | _ => False

/-- A synchronising request `k` at the word of key `a.key` that its home applies: it is of this module and at the front, at a leased granule or
a ready stack, and admitted (R249, R271, R410). -/
def Sys2Proof.Machine.syncAt (s : State) (k : Nat) (r : Req) (a : Acc) : Prop :=
  s.front k = some r ∧ r.fromPeer = false ∧ r.accs = [a] ∧ r.home < 5000 ∧ (homeIsSpad r.home = true → leaseOk s r a = true) ∧ s.homeUp r = true ∧ admits s r

/-- Nothing of the wave is in flight, and nothing of it has landed in this cycle (R114, R116). -/
def Sys2Proof.Machine.quiet (s : State) (n : Nat) (w : Wave) : Prop := w.pend = [] ∧ ∀ y ∈ w.landed, y.due ≠ s.clk (coreOfWave n)

/-- R76, R276 to R281. A request that does not wait leaves the word that the rules give, and no other byte changes; an arrive is answered
with the phase it found. A wait for another phase than the word shows ends at once, and one for the phase it shows takes a park slot. An
arrive that flips the phase releases the wave that is parked there: its register takes the word, and it begins its acquire.
R278, R280, R281. The acknowledgement of an arrive leaves the wave's list, marks the barrier among those it has joined as arrived with
the phase found, and tells an `arrive.wait` its phase, one that a handler has interrupted too; one whose wait was given up meanwhile asks for it again. With the last one a
wave that waited to exit stops.
The model's own choice of log 29 bears on it. -/
def Obligations.BarrierRequests : Prop :=
  (
    (∀ (s : State) (k : Nat) (r : Req) (a : Acc) (i : Instr), s.memOk = true → syncAt s k r a → barEvent k r.kind i →
      (∀ p, r.kind ≠ .await p) → (∀ n, r.kind ≠ .arrive n true) → (∀ q ∈ s.parked, q.atBarrier a.key = false) →
      ∃ t, exec i s = .next t ∧ t.num 8 a.key = barGives (s.num 8 a.key) r.kind ∧ t.reqs = s.reqs.eraseIdx k ∧ t.parked = s.parked ∧
        (∀ q, q < a.key ∨ a.key + 8 ≤ q → Memory.get t.mem q = Memory.get s.mem q) ∧
        t.resps = s.resps ++ match r.kind with
          | .arrive _ _ => [⟨r.wave, r.cid, r.pcore, r.op, [], [], false, some (wordN a.va), decide (2 ^ 63 ≤ s.num 8 a.key), none, false, [], 0⟩]
          | _ => []) ∧
    (∀ (s : State) (k b key : Nat) (r : Req) (a : Acc) (p : Bool) (w : Wave) (sc : Scope) (ph : Option Bool), s.memOk = true → syncAt s k r a →
      r.kind = .await p → s.num 8 a.key / 2 ^ 61 % 2 = 0 →
      (decide (2 ^ 63 ≤ s.num 8 a.key) ≠ p → s.wave r.wave = some w → quiet s r.wave w → w.park = .barrier sc b key r.op ph →
        ∃ t x, exec (.barrierArriveApply k) s = .next t ∧ t.mem = s.mem ∧ t.reqs = s.reqs.eraseIdx k ∧ t.wave r.wave = some x ∧
          x.park = .acquire sc ∧ (b ≠ 0 → look x.regs.s b = some (wordN (s.num 8 a.key)))) ∧
      (decide (2 ^ 63 ≤ s.num 8 a.key) = p → s.fromKilled r = false →
        slotsFor s (resPark r.home) (s.parkUsed r.home) 1 128 (r.ticket (resPark r.home)) →
        ∃ t q, exec (.barrierArriveApply k) s = .next t ∧ t.mem = s.mem ∧ t.waves = s.waves ∧ t.reqs = s.reqs.eraseIdx k ∧
          t.parked = s.parked ++ [⟨q, p⟩] ∧ parkedAs r q)) ∧
    ∀ (s : State) (k n b key : Nat) (r : Req) (a : Acc) (q : Parked) (w : Wave) (sc : Scope) (ph : Option Bool), s.memOk = true →
      syncAt s k r a → r.kind = .arrive n false → s.parked = [q] → q.atBarrier a.key = true → q.req.wave < peerBase →
      s.wave q.req.wave = some w → quiet s q.req.wave w → w.park = .barrier sc b key q.req.op ph →
      let v := barGives (s.num 8 a.key) r.kind
      decide (2 ^ 63 ≤ v) ≠ decide (2 ^ 63 ≤ s.num 8 a.key) →
      ∃ t x, exec (.barrierArriveApply k) s = .next t ∧ t.num 8 a.key = v ∧ t.parked = [] ∧ t.wave q.req.wave = some x ∧ x.park = .acquire sc ∧
        (b ≠ 0 → look x.regs.s b = some (wordN v))) ∧
  (
    ∀ (s : State) (k : Nat) (r : Resp) (w : Wave) (va : Word), s.resps[k]? = some r → r.ack = some va → r.wave < ctxBase →
      s.wave r.wave = some w → w.cid = r.cid →
      (w.life = .running → ∃ t x, exec (.arriveAck k) s = .next t ∧ t.resps = s.resps.eraseIdx k ∧ t.mem = s.mem ∧ t.wave r.wave = some x ∧
        x.acks = w.acks.erase va ∧ x.members = w.members.map (fun m => if m.addr = va then { m with arrived := true, phase := r.phase } else m) ∧
        x.regs = w.regs ∧ (∀ sc b at_, w.under = .barrier sc b at_ r.op none → r.op ≠ 0 → (∃ q ∈ s.reqs, q.wave = r.wave ∧ q.op = r.op) →
          x.under = .barrier sc b at_ r.op (some r.phase)) ∧
        ∀ sc b at_, w.park = .barrier sc b at_ r.op none → w.under = .none → r.op ≠ 0 →
          ((∃ q ∈ s.reqs, q.wave = r.wave ∧ q.op = r.op) ∨ (∃ q ∈ s.parked, q.req.wave = r.wave ∧ q.req.op = r.op) →
            x.park = .barrier sc b at_ r.op (some r.phase) ∧ t.reqs = s.reqs) ∧
          ((∀ q ∈ s.reqs, q.wave = r.wave → q.op ≠ r.op) → (∀ q ∈ s.parked, q.req.wave = r.wave → q.req.op ≠ r.op) →
            (∀ e ∈ s.peers, ∀ x ∈ e.2.out, x.req.wave = r.wave → x.req.op ≠ r.op) → ∀ c key, s.con w.cid = some c → syncPlace s w c (coreOfWave r.wave) at_ 8 = .ok key →
              x.park = .barrier sc b at_ r.op (some r.phase) ∧ ∃ q, t.reqs = s.reqs ++ [q] ∧ q.kind = .await r.phase ∧ q.wave = r.wave ∧
                q.op = r.op ∧ q.home = homeOf key ∧ q.accs = [⟨0, key, at_, 0, 0⟩])) ∧
      ∀ killed c, w.life = .exiting killed → w.acks = [va] → w.members = [] → s.con w.cid = some c →
        ∃ t x y, exec (.arriveAck k) s = .next t ∧ t.wave r.wave = some x ∧ x.life = .draining killed ∧ t.con w.cid = some y ∧ y.live = c.live - 1)

/-- The wave of an address wait, with nothing in flight: its register and its operation (R283). -/
def Sys2Proof.Machine.waitsAt (s : State) (n d op : Nat) (dl : Option Nat) (w : Wave) : Prop :=
  s.wave n = some w ∧ quiet s n w ∧ ∃ key node, w.park = .address d key node op dl

/-- R282 to R284. A `waitaddr` whose word holds another value returns 1; else its wave is linked at the tail of the queue, and a link word
that is not well-formed returns 3 and is logged. At its deadline it returns 2. A `wake` releases the first n waiters with 0, in order; the
link word names those that are left.
The model's own choice of log 28 bears on it. -/
def Obligations.AddressWaits : Prop :=
  (∀ (s : State) (k d : Nat) (dl : Option Nat) (r : Req) (a : Acc) (w : Wave) (v : Word), s.memOk = true → syncAt s k r a →
    r.kind = .waitaddr v → waitsAt s r.wave d r.op dl w → d ≠ 0 →
    s.fromKilled r = false →
    slotsFor s (resNodes r.pcore) (s.nodes.filter fun x => x.pcore == r.pcore).length 1 96 (r.ticket (resNodes r.pcore)) →
    (s.num 8 a.key ≠ v.toNat → ∃ t x, exec (.waitaddrRequest k) s = .next t ∧ t.mem = s.mem ∧ t.nodes = s.nodes ∧ t.wave r.wave = some x ∧
      x.park = .none ∧ look x.regs.s d = some 1) ∧
    (s.num 8 a.key = v.toNat → s.num 8 (a.key + 8) = 0xFFFFFFFFFF → ∃ t i, exec (.waitaddrRequest k) s = .next t ∧ i < 96 ∧
      (∀ x ∈ s.nodes, x.pcore = r.pcore → x.node ≠ i) ∧
      t.nodes = s.nodes ++ [⟨r.pcore, i, r.wave, a.key, w.lcore, none⟩] ∧ t.num 8 a.key = s.num 8 a.key ∧
      t.num 8 (a.key + 8) % 2 ^ 64 = ((w.lcore * 256 + i) * (1 + 2 ^ 20) + 2 ^ 40) % 2 ^ 64 ∧ t.reqs = s.reqs.eraseIdx k) ∧
    (s.num 8 a.key = v.toNat → linked s a.key = none → ∃ t x e, exec (.waitaddrRequest k) s = .next t ∧ t.mem = s.mem ∧ t.wave r.wave = some x ∧
      x.park = .none ∧ look x.regs.s d = some 3 ∧
      logged s t (dieOf r.pcore) e ∧ e.cause = 0x13 ∧ e.addr = a.va)) ∧
  (∀ (s : State) (n d op dl key node : Nat) (w : Wave), s.wave n = some w → quiet s n w → w.park = .address d key node op (some dl) → d ≠ 0 →
    dl ≤ s.nsc → ∃ t x, exec (.waitaddrTimeout n) s = .next t ∧ t.wave n = some x ∧ x.park = .none ∧ look x.regs.s d = some 2 ∧
      (∀ y ∈ t.nodes, y.wave = n → y.key ≠ key) ∧ ∀ r ∈ t.reqs, r.wave = n → r.op ≠ op) ∧
  ∀ (s : State) (k n : Nat) (r : Req) (a : Acc), s.memOk = true → syncAt s k r a → r.kind = .wake n →
    (∀ ns, linked s a.key = some ns → ns ≠ [] → (ns.map Node.wave).Nodup →
      (∀ x ∈ ns, ∃ w d op dl, waitsAt s x.wave d op dl w ∧ d ≠ 0) →
      let m := if n = 0 then ns.length else min n ns.length
      ∃ t, exec (.wakeRequest k) s = .next t ∧ t.reqs = s.reqs.eraseIdx k ∧ t.num 8 a.key = s.num 8 a.key ∧
        t.num 8 (a.key + 8) = linkWord (ns.drop m) % 2 ^ 64 ∧
        (∀ x ∈ ns.take m, ∃ w y d op dl, waitsAt s x.wave d op dl w ∧ t.wave x.wave = some y ∧ y.park = .none ∧ look y.regs.s d = some 0) ∧
        ∀ x ∈ ns.drop m, (t.wave x.wave).map Wave.park = (s.wave x.wave).map Wave.park) ∧
    (linked s a.key = none → ∃ t e, exec (.wakeRequest k) s = .next t ∧ t.mem = s.mem ∧ t.waves = s.waves ∧ t.reqs = s.reqs.eraseIdx k ∧
      logged s t (dieOf r.pcore) e ∧ e.cause = 0x13)

/-! ## Work queues and placement -/

/-- R53 to R57, R401. A doorbell sets the tail, is refused under DEVSUB, and sets OVF where the ring would overflow. A grant takes the
manifest, or the gang, at the head of a queue of the highest level with an eligible queue, the first from that level's pointer on, and
moves the pointer past it; at most one comes every 32 cycles. The dependence words of a head that waits for them, in a queue that is enabled,
are read again after 256 cycles. A register write changes what
R53 lets it change, and a read returns what the queue holds, with zero in reserved bits.
R54, R58, R60, R61, R65, R158. A queue that is not enabled dispatches nothing. Dispatch of a manifest without a gang: a code object that
fails its checks ends the consignment with status 2, one that cannot be read with status 9 and a log entry of the first address that cannot, a page fault leaves the
manifest at the head of its queue, and a manifest that passes goes to the placement engine of every die, with the lane block table as it
was read. A member of a gang fails with its own status, or with 6 where another one fails.
The model's own choices of log 30, 39, 54, 62 bear on it. -/
def Obligations.QueuesAndDispatch : Prop :=
  (
    (∀ (s : State) (i v : Nat), i < 2048 → let q := s.queue i
      (q.devsub = true → exec (.wqTailDoorbell i v) s = .next { s with queues := put s.queues i { q with refused := true } }) ∧
      (q.devsub = false → (v % 65536 + 65536 - q.head) % 65536 ≤ q.slots →
        exec (.wqTailDoorbell i v) s = .next { s with queues := put s.queues i { q with tail := v % 65536 } }) ∧
      (q.devsub = false → q.slots < (v % 65536 + 65536 - q.head) % 65536 →
        exec (.wqTailDoorbell i v) s = .next { s with queues := put s.queues i { q with ovf := true } })) ∧
    (∀ (s : State), s.rails = .on → (∀ x, s.grantAt = some x → x + 384 ≤ s.now) → (∀ d, d < 4 → (s.die d).queue.length < 64) →
      s.queues.Pairwise (fun a b => a.1 < b.1) → (∀ e ∈ s.queues, s.headBroken e.2 = false) →
      (∃ e ∈ s.queues, e.2.depHeld = false ∧ s.eligible e.1 e.2 = true) →
      ∃ t i q, exec .arbiterGrant s = .next t ∧ (i, q) ∈ s.queues ∧ q.depHeld = false ∧ s.eligible i q = true ∧
        (∀ e ∈ s.queues, e.2.depHeld = false → s.eligible e.1 e.2 = true → e.2.prio ≤ q.prio ∧
          (e.2.prio = q.prio → (lookD s.arbPtr q.prio 0 ≤ i → lookD s.arbPtr q.prio 0 ≤ e.1 → i ≤ e.1) ∧
            (i < lookD s.arbPtr q.prio 0 → e.1 < lookD s.arbPtr q.prio 0 ∧ i ≤ e.1))) ∧
        let ms := s.headGroup q
        t.queue i = { q with head := (q.head + ms.length) % 65536, inFlight := q.inFlight + ms.length, blocked := false, depHeld := false } ∧
          t.grantAt = some s.now ∧ lookD t.arbPtr q.prio 0 = (i + 1) % 2048 ∧ t.mem = s.mem ∧ t.waves = s.waves ∧
          ∀ j m, ms[j]? = some m → ∃ c, t.con (s.nextId + j) = some c ∧ c.man = m ∧ c.queue = i ∧ c.stage = .granted ∧ c.status = 0 ∧
            c.qslot = (q.head + j) % 65536 ∧ c.since = s.nsc) ∧
    (∀ (s : State) (i : Nat), let q := s.queue i
      (q.en = false ∨ s.now < q.reread + 3072 → exec (.dependenceReread i) s = .next s) ∧
      (q.en = true → q.depHeld = true → q.used ≠ 0 → q.reread + 3072 ≤ s.now → s.headBroken q = false →
        let wait := s.depWaits q
        ∃ t, exec (.dependenceReread i) s = .next t ∧ t = { s with
          queues := put s.queues i { q with blocked := s.headWaits q, depHeld := wait, reread := if wait then s.now else q.reread }
          hot := t.hot })) ∧
    ∀ (s : State) (service : Bool) (i v : Nat), i < 2048 → s.dwen.recovery = false → let q := s.queue i
      exec (.controlRegisterWrite service (0x090001000000 + 64 * i) 8 v) s =
        .next { s with queues := put s.queues i (if q.en = true then q else { q with base := v / 128 % 2 ^ 41 * 128 }) } ∧
      (let x := { q with en := v.testBit 0, prio := v / 2 % 8, devsub := v.testBit 8 }
        let y := if q.en = true then x else { x with log2size := v / 16 % 16, aspace := v / 65536 % 65536 }
        exec (.controlRegisterWrite service (0x090001000000 + 64 * i + 8) 8 v) s = .next { s with queues := put s.queues i y }) ∧
      (look (s.controlRead service (0x090001000000 + 64 * i + 8)).reads
        (0x090001000000 + 64 * i + 8) = some (wordN (q.en.toNat + 2 * (q.prio % 8) + 16 * (q.log2size % 16) + 256 * q.devsub.toNat +
          2 ^ 16 * (q.aspace % 65536)))) ∧
      (look (s.controlRead service (0x090001000000 + 64 * i + 0x14)).reads
        (0x090001000000 + 64 * i + 0x14) = some (wordN (q.head % 65536))) ∧
      (look (s.controlRead service (0x090001000000 + 64 * i + 0x28)).reads
        (0x090001000000 + 64 * i + 0x28) = some (wordN (q.ovf.toNat + 2 * q.refused.toNat + 4 * q.blocked.toNat +
          8 * (if (q.cqTail + 65536 - q.cqHead) % 65536 + q.inFlight < q.slots then 0 else 1)))) ∧
      exec (.controlRegisterWrite service (0x090001000000 + 64 * i + 0x1C) 4 v) s =
        .next { s with queues := put s.queues i { q with cqHead := v % 65536 } } ∧
      exec (.controlRegisterWrite service (0x090001000000 + 64 * i + 0x28) 8 v) s =
        .next { s with queues := put s.queues i { q with ovf := q.ovf && !v.testBit 0, refused := q.refused && !v.testBit 1 } }) ∧
  (
    (∀ (s : State) (cid : Nat) (c : Cons), s.con cid = some c → (s.queue c.queue).en = false → exec (.dispatch cid) s = .next s) ∧
    (∀ (s : State) (cid : Nat) (c : Cons), s.con cid = some c → c.stage = .granted → s.faults = [] → c.ganged = false →
      (s.queue c.queue).en = true → (∀ d, d < 4 → (s.die d).queue.length < 64) →
      (∀ va o, loadObject s c.aspace c.man.code = (.fault va, o) → ∃ t, exec (.dispatch cid) s = .next t ∧ t.cons = s.cons ∧
        t.faults = [.dispatch cid c.aspace va] ∧ (t.queue c.queue).head = c.qslot ∧ t.mem = s.mem) ∧
      (∀ va ue o, loadObject s c.aspace c.man.code = (.bad va ue, o) → ∃ t e, exec (.dispatch cid) s = .next t ∧ t.mem = s.mem ∧
        t.con cid = some { c with stage := .placed, status := 9, error := true } ∧
        logged s t 0 e ∧ e.cause = (if ue = true then 5 else 4) ∧ e.addr = va ∧ e.src = 7) ∧
      (loadObject s c.aspace c.man.code = (.ok, none) → ∃ t, exec (.dispatch cid) s = .next t ∧ t.mem = s.mem ∧ t.dies = s.dies ∧
        t.con cid = some { c with stage := .placed, status := 2, error := true }) ∧
      (∀ o st va ue, checkOne s cid c = .ok ⟨cid, c, st, some o, va, ue⟩ → st ≠ 0 → st ≠ 9 → ∃ t, exec (.dispatch cid) s = .next t ∧ t.mem = s.mem ∧
        t.dies = s.dies ∧ t.con cid = some { c with stage := .placed, status := st, error := true }) ∧
      ∀ o va ue, checkOne s cid c = .ok ⟨cid, c, 0, some o, va, ue⟩ → o.flags % 2 = 0 → (o.sect 4).2 = 0 →
        (unfit (s.passHead c [(cid, c)]) [(cid, c)] = true → ∃ t, exec (.dispatch cid) s = .next t ∧ t.mem = s.mem ∧ t.dies = s.dies ∧
          t.con cid = some { c with stage := .placed, status := 5, error := true }) ∧
        (unfit (s.passHead c [(cid, c)]) [(cid, c)] = false → ∃ t x, exec (.dispatch cid) s = .next t ∧ t.mem = s.mem ∧
          t.con cid = some x ∧ x.stage = .placing ∧ x.obj = o ∧
          x.man.entry = (if c.man.entry = 0xFFFFFFFF then o.entry else c.man.entry) ∧ x.since = s.nsc ∧ x.dataBase = none ∧
          x.blocks = blockEntries s c.aspace o ∧ ∀ d, d < 4 → (t.die d).queue = (s.die d).queue ++ [cid])) ∧
    ∀ (s : State) (cid : Nat) (c : Cons) (rs : List Checked), s.con cid = some c → c.stage = .granted → s.faults = [] → c.ganged = true →
      (s.queue c.queue).en = true → c.gangCids.Nodup → (∀ d, d < 4 → (s.die d).queue.length + (s.gangOf cid c).length ≤ 64) →
      checkAll s ((s.gangOf cid c).filter fun e => e.2.stage == .granted) = .ok rs → (∃ r ∈ rs, r.status ≠ 0) →
      ∃ t, exec (.dispatch cid) s = .next t ∧ t.mem = s.mem ∧ t.waves = s.waves ∧ ∀ r ∈ rs,
        t.con r.cid = some { r.con with stage := .placed, status := if r.status = 0 then 6 else r.status, error := true })

/-- R29, R31, R63, R65 to R70, R72, R74 to R78, R110, R204, R329. Placement leases the rows of the head's next group and clears its
granules; the waves of a width convoy have skew 2. With the last rows of a gang its pipes are ready. A wave starts in the active set where
that has room. A `spawn` that fits nowhere returns −1. A drained wave's rows are released, and stores that its operand log still holds are kept beside
them; a consignment's empty slot is freed, its done word is told, and then the record of a consignment that has ended is written where
its queue says. A function that has been placed lets the waves parked on it go on; where no room can be made its consignment has status
3.
The model's own choices of log 6, 21, 22, 30, 48, 62, 63 bear on it. -/
def Obligations.PlacementAndEnd : Prop :=
  (∀ (s : State) (die cid i l p n g pg : Nat) (ls : List Lease) (rest : List Nat) (c : Cons), (s.die die).queue = cid :: rest →
    s.con cid = some c → s.headPlan die = some (cid, i, l, p, ls, [(n, g, pg)]) → die = dieOf p → s.rails = .on → s.asksSpawn p = false →
    s.asksTask p = false →
    ∃ t w y, exec (.wavePlacement die) s = .next t ∧ t.wave n = some w ∧ w.life = .clearing ∧ w.cid = cid ∧ w.wid = i ∧
      w.depth = 0 ∧ w.lcore = l ∧ w.launched = BitVec.ofNat 64 (2 ^ min 64 (if i + 1 = c.man.waves ∧ c.man.last ≠ 0 then c.man.last else c.man.width) - 1) ∧
      w.lmask = w.launched ∧ w.regs.s = [(1, c.man.args), (2, wordN i), (3, wordN c.man.waves)] ∧ w.regs.v = [] ∧ w.sbase = 4096 * g ∧
      w.rings = [] ∧ w.spc = s.entryAt cid c c.man.entry ∧ (c.ozz = false → w.spc = va57 (c.obj.scalarBase + c.man.entry)) ∧
      (t.core p).leases = ls ∧ (∃ x ∈ (t.core p).slots, x.cid = cid) ∧
      (∀ k, t.granuleKeys n k = true → Memory.get t.mem k = 0) ∧ (∀ k, t.granuleKeys n (8 * (k / 8)) = true → t.isFull k = false) ∧
      (∀ k, t.granuleKeys n k = false → Memory.get t.mem k = Memory.get s.mem k) ∧
      t.con cid = some y ∧ y.live = c.live + 1 ∧ y.placedG = c.placedG ++ [i] ∧ ∀ m, m ≠ n → t.wave m = s.wave m) ∧
  (∀ (s : State) (die cid i l p j n g pg : Nat) (ls : List Lease) (ws : List (Nat × Nat × Nat)) (rest : List Nat) (c : Cons),
    (s.die die).queue = cid :: rest → s.con cid = some c → s.headPlan die = some (cid, i, l, p, ls, ws) → die = dieOf p → s.rails = .on →
    s.asksSpawn p = false → s.asksTask p = false → 2 ≤ ws.length → (ws.map Prod.fst).Nodup → ws[j]? = some (n, g, pg) →
    ∃ t w lead y, exec (.wavePlacement die) s = .next t ∧ t.wave n = some w ∧ w.life = .clearing ∧ w.wid = i ∧
      (ws.map Prod.fst).head? = some lead ∧ w.convoy.width = some (lead, j, ws.length) ∧ w.convoy.skew = 2 ∧
      w.launched = BitVec.ofNat 64 (2 ^ min 64 ((if i + 1 = c.man.waves ∧ c.man.last ≠ 0 then c.man.last else c.man.width) - 64 * j) - 1) ∧
      t.con cid = some y ∧ y.live = c.live + ws.length) ∧
  (∀ (s : State) (die cid : Nat) (rest : List Nat) (c : Cons), (s.die die).queue = cid :: rest → s.con cid = some c → s.rails = .on →
    (∀ i, i < c.man.waves → targetDie c.man i = die → i ∈ c.placedG) →
    ∃ t y, exec (.wavePlacement die) s = .next t ∧ (t.die die).queue = rest ∧ t.con cid = some y ∧
      y.handled = c.handled ++ [die] ∧ (3 ≤ c.handled.length → y.stage = .placed) ∧ (c.man.gang = 0 → t.waves = s.waves) ∧
      (3 ≤ c.handled.length → c.man.gang ≠ 0 → cid ∈ c.gangCids →
        (∀ i ∈ c.gangCids, i ≠ cid → ∃ d, s.con i = some d ∧ d.stage = .placed) →
        ∀ m w d, t.wave m = some w → w.cid ∈ c.gangCids → t.con w.cid = some d → w.rings = t.pipeRings d w)) ∧
  (∀ (s : State) (n : Nat) (w : Wave) (c : Cons), (s.waves.map Prod.fst).Nodup → s.wave n = some w → s.con w.cid = some c →
    w.life = .clearing → w.convoy.width = none → c.man.whole = false → s.rails = .on →
    ∃ t x, exec (.waveStart n) s = .next t ∧ t.wave n = some x ∧ x.life = .running ∧ x.regs = w.regs ∧ x.spc = w.spc ∧
      (x.sched.active = true ↔ s.activeCount (coreOfWave n) (partOfWave n) < 8) ∧ x.rings = w.rings ∧
      t.mem = s.mem ∧ t.full = s.full ∧ ∀ m, m ≠ n → t.wave m = s.wave m) ∧
  (∀ (s : State) (n d count entry : Nat) (arg : Word) (w : Wave), s.wave n = some w → w.pend = [] → w.park = .spawn d count entry arg →
    s.rails = .on → d ≠ 0 →
    let free := fun p => s.asksHead p = false ∧ s.asksTask p = false ∧ ∀ x, (s.core p).turnAt = some x → x.1 ≠ s.clk p
    (s.spawnIn w count entry arg = none → free (coreOfWave n) → ∃ t x, exec (.spawnAnswer n) s = .next t ∧ t.mem = s.mem ∧ t.cores = s.cores ∧
      t.wave n = some x ∧ x.park = .none ∧ look x.regs.s d = some (BitVec.ofInt 64 (-1))) ∧
    ∀ u x c, s.spawnIn w count entry arg = some u → (∀ p ∈ newCores s u, free p) → u.wave n = some x → x.pend = [] → u.con w.cid = some c →
      ∃ t y, exec (.spawnAnswer n) s = .next t ∧ t.mem = u.mem ∧ t.cores = u.cores ∧ t.wave n = some y ∧ y.park = .none ∧
        look y.regs.s d = some (wordN count) ∧ t.con w.cid = some { c with total := c.total + count }) ∧
  (∀ (s : State) (n : Nat) (w : Wave) (killed : Bool), s.wave n = some w → w.life = .draining killed → (∀ o ∈ w.ops, o.ctr = .st) →
    (∀ e ∈ w.rings, e.2.e = 0 ∧ e.2.pipe = .none) → w.storesLogged = true → (∀ r ∈ s.reqs, r.wave = n → r.home ≠ 1000 + coreOfWave n) →
    let c := s.core (coreOfWave n)
    ∃ t, exec (.rowRelease n) s = .next t ∧ t.mem = s.mem ∧ t.cons = s.cons ∧ t.waves = del s.waves n ∧
      (t.core (coreOfWave n)).leases = c.leases.filter (fun l => l.wave != n) ∧
      (t.core (coreOfWave n)).orphans = c.orphans ++ w.oplog.map fun g => ⟨n, w.cid, w.lcore, g⟩) ∧
  (∀ (s : State) (p cid : Nat) (x : CSlot), let c := s.core p
    (∀ e ∈ s.waves, coreOfWave e.1 = p → e.2.cid ≠ cid) → c.slots.find? (fun x => x.cid == cid) = some x → x = ⟨cid, 0, 0, 0, 0⟩ →
    (∀ e ∈ c.rt.tables, e.2.owner = cid → e.2.state = .free ∨ e.2.state = .closed) → (∀ x ∈ c.stubs, x.cid ≠ cid) →
    ∃ t, exec (.consignmentSlotFree p cid) s = .next t ∧ t.mem = s.mem ∧ t.waves = s.waves ∧
      (t.core p).slots = c.slots.filter (fun x => x.cid != cid) ∧
      (∀ e ∈ (t.core p).rt.chans, (∀ h, e.2.send = some h → h.owner ≠ cid) ∧ ∀ h, e.2.recv = some h → h.owner ≠ cid) ∧
      (∀ y, (t.core p).mx.slot0 = some y → y.cid ≠ cid) ∧ ∀ y, (t.core p).mx.slot1 = some y → y.cid ≠ cid) ∧
  (∀ (s : State) (cid : Nat) (c : Cons), s.memOk = true → s.con cid = some c → c.live = 0 → (∀ e ∈ s.cores, ∀ x ∈ e.2.slots, x.cid ≠ cid) →
    s.faults = [] → (∀ r ∈ s.openReqs, r.cid ≠ cid) →
    (c.stage = .placed → c.man.done = 0 → exec (.consignmentCompletion cid) s =
      .next { s with cons := put s.cons cid { c with stage := .completed } }) ∧
    (∀ k, c.stage = .placed → c.man.done ≠ 0 → isSpad c.man.done.toNat = false → keyIsHost k = false →
      place s c 0 c.man.done.toNat .write = .at k →
      ∃ t q, exec (.consignmentCompletion cid) s = .next t ∧ t.mem = s.mem ∧ t.con cid = some { c with stage := .completed } ∧
        t.reqs = s.reqs ++ [q] ∧ q.kind = .completion (decide (c.status ≠ 0) || c.error) ∧ q.home = homeOf k ∧
        q.accs = [⟨0, k, c.man.done.toNat, 0, 0⟩]) ∧
    (c.stage = .completed → let q := s.queue c.queue
      let k := q.recKey q.cqTail
      let status := if c.status = 0 ∧ c.error = true then 1 else c.status
      ∃ t, exec (.consignmentCompletion cid) s = .next t ∧ t.cons = del s.cons cid ∧
        t.queue c.queue = { q with cqTail := (q.cqTail + 1) % 65536, inFlight := q.inFlight - 1 } ∧
        t.num 8 k = c.man.tag.toNat ∧ t.num 4 (k + 8) = status % 2 ^ 32 ∧ t.num 2 (k + 12) = c.qslot % q.slots % 2 ^ 16 ∧
        t.num 2 (k + 14) = (if status = 0 then 0 else 1) + 2 * ((q.cqTail / q.slots + 1) % 2) ∧ t.num 4 (k + 16) = c.exited % 2 ^ 32 ∧
        t.num 4 (k + 20) = c.killed % 2 ^ 32 ∧ t.num 8 (k + 24) = (s.nsc - c.since) % 2 ^ 64 ∧
        ∀ j, j < k ∨ k + 32 ≤ j → Memory.get t.mem j = Memory.get s.mem j)) ∧
  ∀ (s : State) (n fn : Nat) (w : Wave) (c : Cons), s.wave n = some w → w.park = .translate fn → s.con w.cid = some c →
    ∃ t, exec (.translateOnCall n) s = .next t ∧
      ((∃ f ∈ s.heap.placed, f.1 = w.cid ∧ f.2.1 = fn) → t.mem = s.mem ∧ t.heap = s.heap ∧ t.wave n = some { w with park := .none } ∧
        ∀ m v, s.wave m = some v → v.park ≠ .translate fn → t.wave m = some v) ∧
      ∀ stub a, (∀ f ∈ s.heap.placed, f.1 = w.cid → f.2.1 ≠ fn) → s.stubOf w.cid fn = some stub →
        let ks := fnLane s c.aspace c.obj fn
        let size := Config.nativeSize w.cid fn + 12 * ks.length
        let code := (List.range (Config.nativeSize w.cid fn)).map (Config.nativeByte w.cid fn a (s.stubsOf w.cid))
        (s.heap.room size (jumpReaches stub) = some a → t.heap.placed = s.heap.placed ++ [(w.cid, fn, a, size)] ∧
          t.heap.stubs = s.heap.stubs ∧
          t.mem = ((s.heapWrite a (code ++ ks.flatMap (laneBytes s c.aspace c.obj))).heapWrite stub (jumpStub stub a)).mem ∧
          t.wave n = some { w with park := .none }) ∧
        (s.heap.room size (jumpReaches stub) = none → (∀ f ∈ s.heap.placed, pinned s f.2.2.1 f.2.2.2 = true) →
          t.heap = s.heap ∧ ∃ y, t.con w.cid = some y ∧ y.status = 3 ∧ y.error = true)

/-! ## Scheduling, pipes and convoys -/

/-- Wave `y` is wave `v` with handle `k` changed to `x` by a report that came in cycle `clk`, which nothing sees in that cycle (R129, R130). -/
def Sys2Proof.Machine.reported (clk k : Nat) (v y : Wave) (x : Ring) : Prop :=
  y = { v with rings := y.rings, rings0 := y.rings0, ringsAt := y.ringsAt } ∧ y.ringsSeen clk = v.ringsSeen clk ∧
    (look y.rings k).map (fun r => { r with own := x.own }) = some x ∧
    (∀ c, clk < c → look (y.ringsSeen c) k = look y.rings k) ∧
    ∀ j, j ≠ k → (look y.rings j).map (fun r => { r with own := 0 }) = (look v.rings j).map fun r => { r with own := 0 }

/-- R110, R111, R129, R130. A swap lets the ready pending wave that has waited longest into a free place of the active set, or in place of a
blocked active wave; at the start of a window of 256 cycles it takes the place of the wave longest in the set, when it has waited 256 cycles
and none was let in meanwhile. Both waves issue two cycles later at the earliest. A pipe's reports move the other end's tail, or its head, as that end sees from the next
cycle on.
The model's own choices of log 18, 49 bear on it. -/
def Obligations.SwapsAndPipes : Prop :=
  (∀ (s : State) (p i : Nat), (s.waves.map Prod.fst).Nodup → s.swapped p i = false →
    (∃ e ∈ s.inPart p i, e.2.sched.active = false ∧ e.2.isReady (s.clk p) = true) →
    let first := fun (e : Nat × Wave) => e ∈ s.inPart p i ∧ e.2.sched.active = false ∧ e.2.isReady (s.clk p) = true ∧
      ∀ f ∈ s.inPart p i, f.2.sched.active = false → f.2.isReady (s.clk p) = true → e.2.sched.waiting ≤ f.2.sched.waiting
    let entered := fun (t : State) (e : Nat × Wave) => ∃ x, t.wave e.1 = some x ∧ x = { e.2 with sched := x.sched } ∧ x.sched.active = true ∧
      s.clk p + 2 ≤ x.sched.readyS ∧ s.clk p + 2 ≤ x.sched.readyL
    let left := fun (t : State) (o : Nat × Wave) => ∃ x, t.wave o.1 = some x ∧ x = { o.2 with sched := x.sched } ∧ x.sched.active = false ∧
      s.clk p + 2 ≤ x.sched.readyS ∧ s.clk p + 2 ≤ x.sched.readyL
    (s.activeCount p i < 8 → ∃ t e, exec (.partitionSwap p i) s = .next t ∧ first e ∧ entered t e ∧ t.mem = s.mem ∧
      (∀ m, m ≠ e.1 → t.wave m = s.wave m) ∧ (t.part p i).lastSwap = some (s.clk p)) ∧
    (8 ≤ s.activeCount p i → (∃ o ∈ s.inPart p i, o.2.isActive = true ∧ o.2.blocked (s.clk p) = true) →
      ∃ t e o, exec (.partitionSwap p i) s = .next t ∧ first e ∧ entered t e ∧ o ∈ s.inPart p i ∧ o.2.isActive = true ∧
        o.2.blocked (s.clk p) = true ∧ left t o ∧ t.mem = s.mem ∧ (∀ m, m ≠ e.1 → m ≠ o.1 → t.wave m = s.wave m) ∧
        (t.part p i).lastSwap = some (s.clk p)) ∧
    (s.clk p % 256 = 0 → 0 < s.activeCount p i → (∀ c, (s.part p i).lastSwap = some c → c + 256 < s.clk p) →
      (∃ e ∈ s.inPart p i, e.2.sched.active = false ∧ e.2.isReady (s.clk p) = true ∧ e.2.sched.waiting + 256 ≤ s.clk p) →
      ∃ t e o, exec (.forcedSwap p i) s = .next t ∧ first e ∧ entered t e ∧ o ∈ s.inPart p i ∧ o.2.isActive = true ∧
        (∀ f ∈ s.inPart p i, f.2.isActive = true → o.2.sched.entered ≤ f.2.sched.entered) ∧ left t o ∧ t.mem = s.mem ∧
        (∀ m, m ≠ e.1 → m ≠ o.1 → t.wave m = s.wave m) ∧ (t.part p i).lastForced = some (s.clk p))) ∧
  ∀ (s : State) (n m q k : Nat) (w v : Wave) (r x : Ring), n ≠ m → m < ctxBase → s.wave n = some w → s.wave m = some v →
    look w.rings q = some r → look v.rings k = some x →
    (r.pipe = .producer m k → ∃ t a y, exec (.pipePushReport n q) s = .next t ∧ t.mem = s.mem ∧
      t.wave n = some { w with rings := a } ∧ look a q = some { r with pushes := 0 } ∧ (∀ j, j ≠ q → look a j = look w.rings j) ∧
      t.wave m = some y ∧ reported (s.clkOf m) k v y { x with tail := x.tail + r.pushes, filled := x.filled + r.pushes }) ∧
    (r.pipe = .consumer m k → ∃ t a y, exec (.pipePopReport n q) s = .next t ∧ t.mem = s.mem ∧
      t.wave n = some { w with rings := a } ∧ look a q = some { r with pops := 0 } ∧ (∀ j, j ≠ q → look a j = look w.rings j) ∧
      t.wave m = some y ∧ reported (s.clkOf m) k v y { x with head := x.head + r.pops, filled := x.filled - r.pops })

/-- A wave that has taken a late-rendezvous trap for `tag` to its handler at `h` (R102, R358). -/
def Sys2Proof.Machine.lateTaken (t : State) (n h tag : Nat) : Prop :=
  ∃ x, t.wave n = some x ∧ x.spc = h ∧ x.ctl.hmode = true ∧ x.ctl.xcause.toNat % 256 = 9 ∧ x.ctl.xaddr = wordN tag ∧ x.park = .none

/-- R96, R97, R99, R101, R102, R393. A published instruction enters the FIFO once its skew has passed and there is room; a report reaches the lead
its skew after the issue. A departure takes a split entry at the lead's core, or none where the table is full, the lead is another, or the
member has exited. An arrival is recorded there; from the cycle after the last one that a lead's `rdv` waits for it completes, and the
member goes on with the lead's stream. At the time limit a lead marks what
has not arrived as missed and goes on, and a member, or one whose entry was missed, takes a late-rendezvous trap; a wave that does not run sees the
limit when it runs again.
The model's own choice of log 16 bears on it. -/
def Obligations.ConvoyEvents : Prop :=
  (∀ (s : State) (n : Nat) (w : Wave) (q : Pub) (qs : List Pub), s.wave n = some w → w.convoy.hops = q :: qs → w.convoy.fifo.length < 64 →
    q.due ≤ s.clk (coreOfWave n) →
    exec (.publishedArrival n) s = .next (s.setWave n { w with convoy := { w.convoy with hops := qs, fifo := w.convoy.fifo ++ [q] } })) ∧
  (∀ (s : State) (n ch : Nat) (w : Wave), s.wave n = some w → w.convoy.role = .member ch →
    (∀ lc mc, w.convoy.lastPub = some (lc, mc) → mc + w.convoy.skew ≤ s.clk (coreOfWave n)) →
    ∃ t, exec (.memberReport n) s = .next t ∧ t.mem = s.mem ∧
      t.wave n = some { w with convoy := { w.convoy with reported := w.convoy.issued } } ∧ (∀ m, m ≠ n → t.wave m = s.wave m) ∧
      ∀ p, s.chanCore w.cid ch = some p → w.convoy.reported ≠ w.convoy.issued → (t.core p).chan.recAt = s.clk p + 1) ∧
  (∀ (s : State) (n ch addr tag due p l : Nat) (w lw : Wave), s.wave n = some w → w.convoy.role = .departed ch →
    w.convoy.leaving = some (addr, tag, due) → due ≤ s.clk (coreOfWave n) → s.chanCore w.cid ch = some p →
    (s.core p).chan.lead = some l → l ≠ n → s.wave l = some lw →
    (w.receives = false → exec (.splitEntryWrite n) s = .next s) ∧
    (w.receives = true → (s.core p).chan.gen = w.convoy.gen → (s.core p).chan.splits.length < 64 → ∃ t y, exec (.splitEntryWrite n) s = .next t ∧ t.mem = s.mem ∧
      t.wave n = some { w with convoy := { w.convoy with leaving := none } } ∧
      (t.core p).chan.splits = (s.core p).chan.splits ++ [⟨n, ch, addr, tag, false, false⟩] ∧ t.wave l = some y ∧
      ∀ dl ws, lw.park = .rdvLead tag dl ws → n ∉ ws → y.park = .rdvLead tag dl (ws ++ [n])) ∧
    (w.receives = true → 64 ≤ (s.core p).chan.splits.length ∨ (s.core p).chan.gen ≠ w.convoy.gen → w.park = .none → ∃ t, exec (.splitEntryWrite n) s = .next t ∧ t.cores = s.cores ∧
      t.wave n = some { w with convoy := { w.convoy with leaving := none, arriving := none, role := .lost } })) ∧
  (∀ (s : State) (n ch addr tag due p l : Nat) (w lw : Wave) (e : Split), s.wave n = some w → w.convoy.role = .departed ch →
    w.convoy.leaving = none → w.convoy.arriving = some (addr, tag, due) → due ≤ s.clk (coreOfWave n) → s.chanCore w.cid ch = some p →
    s.entryOf p n = some e → (s.core p).chan.lead = some l → l ≠ n → s.wave l = some lw → coreOfWave l = p →
    (e.missed = false → ∃ t y, exec (.rdvArrival n) s = .next t ∧ t.mem = s.mem ∧
      t.wave n = some { w with convoy := { w.convoy with arriving := none } } ∧ (t.core p).chan.recAt = s.clk p + 1 ∧
      (t.core p).chan.splits = ((s.core p).chan.splits.map fun x =>
        if x.wave = n then { x with addr := addr, tag := tag, arrived := true } else x) ∧
      t.wave l = some y ∧ (lw.park = .none → y = lw) ∧
      ∀ dl ws, lw.park = .rdvLead tag dl ws → n ∉ ws → y.park = .rdvLead tag dl (ws ++ [n])) ∧
    ∀ c h, e.missed = true → s.con w.cid = some c → w.ctl.hmode = false → w.ctl.handler = some h → usable c h → w.pend = [] →
      w.ops.all (fun o => o.ctr != .sf) = true →
      ∃ t, exec (.rdvArrival n) s = .next t ∧ t.mem = s.mem ∧ lateTaken t n h tag) ∧
  (∀ (s : State) (n l tag : Nat) (dl : Option Nat) (w lw : Wave) (e : Split), s.wave n = some w → s.wave l = some lw → n ≠ l →
    let p := coreOfWave l
    (s.core p).chan.lead = some l → (s.core p).chan.splits = [e] → e.wave = n → e.tag = tag → e.arrived = true → e.missed = false →
    e.chan = lw.lcore → e.addr = lw.spc → lw.park = .rdvLead tag dl [n] → w.convoy.role = .departed lw.lcore → w.convoy.width = none →
    w.convoy.leaving = none → s.allReported l lw = true → (∀ z ∈ s.waves, ∀ c t m, z.2.convoy.role ≠ .pending c t m) →
    (s.clk p < (s.core p).chan.recAt → s.pollRdv l lw tag [n] = s) ∧
    ((s.core p).chan.recAt ≤ s.clk p → ∃ x y, (s.pollRdv l lw tag [n]).wave n = some x ∧ x.convoy.role = .member lw.lcore ∧
      x.spc = (lw.spc + 4) % 2 ^ 57 ∧ x.park = .none ∧ x.regs = w.regs ∧ (s.pollRdv l lw tag [n]).wave l = some y ∧ y.park = .none ∧
      y.spc = (lw.spc + 4) % 2 ^ 57 ∧ ((s.pollRdv l lw tag [n]).core p).chan.splits = [] ∧ (s.pollRdv l lw tag [n]).mem = s.mem)) ∧
  (∀ (s : State) (n tag d : Nat) (w : Wave) (ws : List Nat), s.wave n = some w → w.park = .rdvLead tag (some d) ws → d ≤ s.nsc →
    w.life = .running →
    (∀ e ∈ (s.core (coreOfWave n)).chan.splits, e.arrived = false) → (∀ z ∈ s.waves, ∀ c t m, z.2.convoy.role ≠ .pending c t m) →
    ∃ t x, exec (.rdvTimeout n) s = .next t ∧ t.mem = s.mem ∧ t.wave n = some x ∧ x.park = .none ∧ x.spc = (w.spc + 4) % 2 ^ 57 ∧
      x.regs = w.regs ∧ (t.core (coreOfWave n)).chan.splits =
        (s.core (coreOfWave n)).chan.splits.map fun e => if e.wave ∈ ws then { e with missed := true } else e) ∧
  (∀ (s : State) (n : Nat) (w : Wave), s.wave n = some w → w.life ≠ .running → exec (.rdvTimeout n) s = .next s) ∧
  ∀ (s : State) (n tag d h : Nat) (w : Wave) (c : Cons), s.wave n = some w → w.park = .rdvMember tag (some d) → d ≤ s.nsc →
    w.life = .running →
    s.con w.cid = some c → w.ctl.hmode = false → w.ctl.handler = some h → usable c h → w.pend = [] →
      w.ops.all (fun o => o.ctr != .sf) = true →
    ∃ t, exec (.rdvTimeout n) s = .next t ∧ t.mem = s.mem ∧ lateTaken t n h tag

/-! ## Page faults, traps at their boundary, kills -/

/-- R239, R241 to R245. A walk that finds a page fills the TLB. A page made present lets the word that waits for it issue again; one declared
lost gives that word an access violation in its own stream, and lets a suspended copy go on to its error. The oldest entry of an operand log is translated
again: a lane whose page is present is performed and leaves the log, one whose page is absent stays. A shootdown removes the TLB entries and
the translation registers that overlap its range, once no access that used them is on its way, waits at its home or is unanswered by a peer.
R358, R361, R368, R405. A held trap is taken when no stall, dependence or park holds its stream: of those whose stream is free the one of
the lowest code, marked asynchronous, with the others still held. A kill stops a wave that has not ended, sets its consignment's error flag and is logged.
The debugger sets and clears the breakpoints of a DEBUG consignment's wave.
The model's own choices of log 23, 44 bear on it. -/
def Obligations.FaultsAndTraps : Prop :=
  (
    (∀ (s : State) (p a va b pa z : Nat) (x : PageAttr), canonical va = true → tlbHit (s.core p).tlb a va = none → walk s a va = .ok b pa z x →
      ∃ t, exec (.tableWalk p a va) s = .next t ∧ t = { s with cores := t.cores, hot := t.hot, looks := t.looks } ∧
        (t.core p).tlb = (⟨a, b, z, pa, x⟩ :: (s.core p).tlb).take 2048 ∧ ∀ q, q ≠ p → t.core q = s.core q) ∧
    (∀ (s : State) (k n a va v h : Nat) (lane : Bool) (w : Wave) (c : Cons), s.faults[k]? = some (.wave n a va) → n < ctxBase → s.wave n = some w →
      w.life = .running → w.park = .pageFault lane v → w.under = .none → v / 4096 = va / 4096 →
      (pageThere s a va = true → ∃ t, exec (.pageFaultService k true) s = .next t ∧ t.faults = s.faults.eraseIdx k ∧ t.mem = s.mem ∧
        t.wave n = some { w with park := .none }) ∧
      (s.con w.cid = some c → w.ctl.hmode = false → w.ctl.handler = some h → usable c h → w.oplog = [] → w.pend = [] →
        w.ops.all (fun o => o.ctr != .sf) = true →
        ∃ t x, exec (.pageFaultService k false) s = .next t ∧ t.faults = s.faults.eraseIdx k ∧ t.mem = s.mem ∧ t.wave n = some x ∧
          x.spc = h ∧ x.ctl.hmode = true ∧ x.ctl.xcause.toNat % 256 = 4 ∧ x.ctl.xcause.getLsbD 8 = lane ∧
          x.ctl.xaddr = wordN va ∧ x.park = .none)) ∧
    (∀ (s : State) (k p a va : Nat) (r : CopyRun), s.faults[k]? = some (.engine p .copy a va) → (s.core p).cpRun = some r →
      (pageThere s a va = true → ∃ t, exec (.pageFaultService k true) s = .next t ∧ t.faults = s.faults.eraseIdx k ∧
        (t.core p).cpRun = some { r with suspended := false }) ∧
      ∃ t, exec (.pageFaultService k false) s = .next t ∧ t.faults = s.faults.eraseIdx k ∧
        (t.core p).cpRun = some { r with suspended := false, failedAt := some (r.next, va) }) ∧
    (∀ (s : State) (n : Nat) (w : Wave) (c : Cons) (g : LogEntry) (gs : List LogEntry) (a : Acc), s.wave n = some w → s.con w.cid = some c →
      w.oplog = g :: gs → g.lanes = [a] → faultOpen s.faults n g = false → s.orphanDue n = none →
      (∀ key, barHost g.kind (placeVirtual s (coreOfWave n) c a.va g.kind.need) = .at key →
        ∃ t x, exec (.operandLogReplay n) s = .next t ∧ t.mem = s.mem ∧ t.faults = s.faults ∧ t.wave n = some x ∧ x.oplog = gs ∧ x.regs = w.regs ∧
          t.reqs = s.reqs ++ [⟨s.nextId, n, w.cid, coreOfWave n, homeOf key, g.op, .mem g.kind, g.size, [{ a with key := key }], [], [], 0, s.now, true, 0, 0⟩]) ∧
      (barHost g.kind (placeVirtual s (coreOfWave n) c a.va g.kind.need) = .fault →
        ∃ t x, exec (.operandLogReplay n) s = .next t ∧ t.mem = s.mem ∧ t.reqs = s.reqs ∧ t.wave n = some x ∧ x.oplog = w.oplog ∧
          ∃ va, .wave n c.aspace va ∈ t.faults ∧ va / 4096 = a.va / 4096)) ∧
    (∀ (s : State) (a lo hi : Nat) (c : Cons) (r : Req), r ∈ s.openReqs → r.fromPeer = false → s.con r.cid = some c → c.aspace = a →
      ((∃ x ∈ r.accs, keyIsSpad x.key = false ∧ lo ≤ va57 x.va ∧ va57 x.va ≤ hi) ∨ 147456 ≤ r.wave ∧ 5000 ≤ r.home) →
      exec (.shootdown a lo hi) s = .next s) ∧
    ∀ (s : State) (a lo hi : Nat), s.shootBusy a lo hi = false → ∃ t, exec (.shootdown a lo hi) s = .next t ∧ t.mem = s.mem ∧ t.reqs = s.reqs ∧
        (∀ p, (t.core p).tlb = (s.core p).tlb.filter fun x => !(x.aspace == a && decide (x.va ≤ hi) && decide (lo < x.va + x.size))) ∧
        ∀ n w q r, s.wave n = some w → look w.tbs q = some r → ∃ x, t.wave n = some x ∧ x.regs = w.regs ∧ x.spc = w.spc ∧
          look x.tbs q = some (if (∃ c, s.con w.cid = some c ∧ c.aspace = a) ∧ va57 r.base.toNat ≤ hi ∧ lo < va57 r.base.toNat + r.limit
            then { r with limit := 0 } else r)) ∧
  (
    (∀ (s : State) (n h : Nat) (w : Wave) (c : Cons), s.wave n = some w → s.con w.cid = some c → w.ctl.hmode = false → w.life = .running →
      w.ctl.handler = some h → usable c h → w.pend = [] → w.ops.all (fun o => o.ctr != .sf) = true → w.convoy.width = none →
      let free := fun (g : HeldTrap) => if g.lane then w.sched.holdL = .none else w.sched.holdS = .none ∧ w.park = .none
      (∃ g ∈ w.ctl.held, free g) → (∀ g ∈ w.ctl.held, g.code < 256 ∧ toDebugger c g.code = false) →
      ∃ t x g, exec (.trapEntry n) s = .next t ∧ t.mem = s.mem ∧ t.wave n = some x ∧ g ∈ w.ctl.held ∧ free g ∧
        (∀ f ∈ w.ctl.held, free f → g.code ≤ f.code) ∧ x.spc = h ∧ x.ctl.hmode = true ∧ x.ctl.xcause.toNat % 256 = g.code ∧
        x.ctl.xcause.getLsbD 8 = g.lane ∧ x.ctl.xcause.getLsbD 9 = true ∧ x.ctl.xmask = g.mask ∧
        x.ctl.xaddr = g.addr ∧ x.ctl.xspc = wordN w.spc ∧ x.ctl.held = w.ctl.held.erase g) ∧
    (∀ (s : State) (n cause : Nat) (w : Wave) (c : Cons), s.wave n = some w → s.con w.cid = some c → w.resident = true → w.members = [] →
      w.ops.all (fun o => o.failed.isEmpty) = true → (∀ x ∈ s.nodes, x.wave ≠ n) →
      ∃ t x y e, exec (.waveKill n cause) s = .next t ∧ t.mem = s.mem ∧ t.wave n = some x ∧
        x.life = (if w.acks = [] then .draining true else .exiting true) ∧ t.con w.cid = some y ∧ y.error = true ∧
        (w.acks = [] → y.killed = c.killed + 1 ∧ y.live = c.live - 1) ∧
        logged s t (dieOf (coreOfWave n)) e ∧ e.cause = cause ∧ e.core = w.lcore) ∧
    ∀ (s : State) (n i : Nat) (w : Wave) (c : Cons) (b : Breakpoint), s.wave n = some w → s.con w.cid = some c → c.debug = true → i < 4 →
      exec (.breakpointSet n i (some b)) s = .next (s.setWave n { w with ctl := { w.ctl with bps := put w.ctl.bps i b } }) ∧
      exec (.breakpointSet n i none) s = .next (s.setWave n { w with ctl := { w.ctl with bps := del w.ctl.bps i } }))

/-! ## Copy, long-vector and matrix engines -/

/-- A command of the `en` counter that its wave's only open operation waits for, or one that replies nowhere; no result of the wave is on its
way (R43, R119). -/
def Sys2Proof.Machine.quietly (s : State) (c : Cmd) : Prop :=
  (∀ w, s.wave c.wave = some w → w.pend = []) ∧ (c.reply = .none ∨ c.reply = .counter ∧ c.wave < ctxBase ∧ ∃ w o, s.wave c.wave = some w ∧ w.cid = c.cid ∧ w.ops = [o] ∧ o.id = c.id ∧
    o.ctr = .en ∧ o.need = 1 ∧ o.acq = none ∧ o.failed = [])

/-- The reply of a command has been made: an operation that waited for it is done. -/
def Sys2Proof.Machine.replied (t : State) (c : Cmd) : Prop := c.reply = .counter → ∃ x, t.wave c.wave = some x ∧ x.ops = []

/-- R187, R222, R260 to R267, R277, R289, R299, R370. A held command enters its inbox in order when there is room, and its wave goes on. The head of the copy or
the long-vector inbox starts, and enters its spans. A chunk is read as a whole with its destinations, and later written as a whole; with the
last one read the command's reads are made, and the last one written ends the command, which replies; a barrier is told the bytes of every
chunk. A chunk that a home answers with an error leaves aligned words written or not, each as a whole, and ends the command with an entry in
the error log. While the wave that issued the command is halted the engine stops at the chunk boundary. Entries of the scoreboard go when their
command has ended, and those for reads when it has read all that it reads.
R187, R192, R195 to R197, R405. A long-vector command reads its source in ascending order, at most 64 elements in a cycle; one outside the
consignment's granules, or with an uncorrectable error, ends it with an entry in the error log that holds the address of the byte in the target's scratchpad, as does a destination that is not leased;
the consignment's error flag stays.
When it has read what it needs it writes its results, raises its flags and replies. `lv.max` without NaN writes the index of the greatest
element, the lowest of equals, and that element.
The model's own choices of log 32, 34, 57 bear on it. -/
def Obligations.CopyAndLongVector : Prop :=
  (
    (∀ (s : State) (k : Nat) (c : Cmd), s.held[k]? = some c → c.eng ≠ .route → c.moved = false → (s.core c.pcore).stubs = [] →
      (∀ x ∈ s.held.take k, x.wave = c.wave → x.pcore = c.pcore → x.eng ≠ c.eng) →
      ((s.core c.pcore).inbox c.eng).length < inboxCap c.eng → s.spansFit (quarterSpan c) = true →
      ∃ t, exec (.engineInboxEntry k) s = .next t ∧ t.held = s.held.eraseIdx k ∧ t.mem = s.mem ∧
        (t.core c.pcore).inbox c.eng = (s.core c.pcore).inbox c.eng ++ [{ c with since := s.clk c.pcore, seq := s.nextId }] ∧
        ∀ w, c.wave < ctxBase → s.wave c.wave = some w → t.wave c.wave = some { w with
          park := if w.park = .inbox c.id then .none else w.park, under := if w.under = .inbox c.id then .none else w.under }) ∧
    (∀ (s : State) (p : Nat) (cmd : Cmd) (rest : List Cmd) (o : CopyOp) (c : Cons), (s.core p).cpRun = none → (s.core p).cpIn = cmd :: rest →
      cmd.body = .copy o → s.con cmd.cid = some c → s.spansFit (o.spans c) = true →
      ∃ t, exec (.copyCommandStart p .copy) s = .next t ∧ t.mem = s.mem ∧ t.waves = s.waves ∧ (t.core p).cpIn = rest ∧
        (t.core p).cpRun = some ⟨cmd, cmd.done, [], cmd.done, false, none, [], 0, 0⟩) ∧
    (∀ (s : State) (p fn n src dst par : Nat) (cmd : Cmd) (rest : List Cmd), (s.core p).lvRun = none → (s.core p).lvIn = cmd :: rest →
      cmd.body = .lv fn n src dst par → cmd.pcore = p → (s.core p).stubs = [] → s.spansFit (lvSpans p (LvFn.ofCode fn) n src dst par) = true →
      ∃ t, exec (.copyCommandStart p .longVector) s = .next t ∧ t.mem = s.mem ∧ t.waves = s.waves ∧ (t.core p).lvIn = rest ∧
        (t.core p).lvRec = none ∧ (t.core p).lvRun = some ⟨cmd, ((s.core p).lvRec.filter fun x => x.cmd == cmd.id).getD
          ⟨cmd.id, s.num 4 (spadKey p dst), s.num 4 (spadKey p (dst + 8)), s.num 4 (spadKey p (dst + 16))⟩, [], s.clk p⟩) ∧
    (∀ (s : State) (p : Nat) (r : CopyRun) (o : CopyOp) (c : Cons) (f g : Nat → Nat), (s.core p).cpRun = some r → r.cmd.body = .copy o →
      s.con r.cmd.cid = some c → s.issuerHalted r.cmd = false → r.suspended = false → r.missing = 0 → r.failedAt = none → r.next * 4096 < o.total → r.next < r.committed + 16 →
      (o.overlaps = true → r.committed = r.next) →
      (∀ src dst len, o = .copy src dst len → (∀ i : Nat, i < min 4096 (len - 4096 * r.next) →
          engPlace s p r.cmd.cid c src ((4096 * r.next + i : Nat) : Int) .read = .at (f i) ∧ s.deadKey (f i) = false ∧ keyIsPeer (f i) = false ∧
          engPlace s p r.cmd.cid c dst ((4096 * r.next + i : Nat) : Int) .write = .at (g i)) →
        ∃ t, exec (.chunkFetch p) s = .next t ∧ t.mem = s.mem ∧ (t.core p).cpRun = some { r with next := r.next + 1, got := [], fetched :=
          r.fetched ++ [⟨r.next, (List.range (min 4096 (len - 4096 * r.next))).map fun i => (g i, Memory.get s.mem (f i)),
            (List.range (min 4096 (len - 4096 * r.next))).map fun i => reachVa dst ((4096 * r.next + i : Nat) : Int)⟩] } ∧
          ∀ w, len ≤ (r.next + 1) * 4096 → r.cmd.wave < ctxBase → s.wave r.cmd.wave = some w → t.wave r.cmd.wave =
            some { w with cmds := w.cmds.map fun x => if x.id = r.cmd.id then { x with reads := false } else x }) ∧
      (∀ pat dst len, o = .fill pat dst len → (∀ i : Nat, i < min 4096 (len - 4096 * r.next) →
          engPlace s p r.cmd.cid c dst ((4096 * r.next + i : Nat) : Int) .write = .at (g i)) →
        ∃ t, exec (.chunkFetch p) s = .next t ∧ t.mem = s.mem ∧ (t.core p).cpRun = some { r with next := r.next + 1, got := [], fetched :=
          r.fetched ++ [⟨r.next, (List.range (min 4096 (len - 4096 * r.next))).map fun i =>
            (g i, (BitVec.ofNat 8 (pat.toNat / 2 ^ (8 * ((4096 * r.next + i) % 8))) : Byte)),
            (List.range (min 4096 (len - 4096 * r.next))).map fun i => reachVa dst ((4096 * r.next + i : Nat) : Int)⟩] })) ∧
    (∀ (s : State) (p : Nat) (r : CopyRun) (o : CopyOp) (k : Chunk) (ks : List Chunk), s.memOk = true → (s.core p).cpRun = some r →
      r.cmd.body = .copy o → s.issuerHalted r.cmd = false → r.fetched = k :: ks → r.acks = 0 → (k.bytes.map Prod.fst).Nodup →
      (∀ x ∈ k.bytes, s.deadDst r.cmd.cid x.1 = false ∧ keyIsPeer x.1 = false) → (∀ off, r.cmd.reply = .bar off →
        ∃ t q, exec (.chunkCommit p) s = .next t ∧ t.reqs = s.reqs ++ [q] ∧ q.home = homeOf (s.barKey r.cmd off) ∧
          q.kind = .engineAdd (min 4096 (o.total - 4096 * r.committed)) (decide (o.total ≤ (r.committed + 1) * 4096)) false) ∧
      (quietly s r.cmd → ∃ t, exec (.chunkCommit p) s = .next t ∧ (∀ x ∈ k.bytes, Memory.get t.mem x.1 = x.2) ∧
        (∀ a, a ∉ k.bytes.map Prod.fst → Memory.get t.mem a = Memory.get s.mem a) ∧
        (o.total ≤ (r.committed + 1) * 4096 → (t.core p).cpRun = none ∧ replied t r.cmd) ∧
        ((r.committed + 1) * 4096 < o.total → (t.core p).cpRun = some { r with committed := r.committed + 1, fetched := ks, acks := 0 }))) ∧
    (∀ (s : State) (p : Nat) (written : List Nat) (r : CopyRun) (k : Chunk) (ks : List Chunk) (bad : Nat), s.memOk = true →
      (s.core p).cpRun = some r → r.fetched = k :: ks → r.acks = 0 → (k.bytes.map Prod.fst).Nodup →
      k.bytes.findIdx? (fun x => s.deadDst r.cmd.cid x.1) = some bad → quietly s r.cmd → r.cmd.pcore = p →
      ∃ t e, exec (.commitErrorResponse p written) s = .next t ∧ (t.core p).cpRun = none ∧ replied t r.cmd ∧
        (∀ x ∈ k.bytes, s.deadDst r.cmd.cid x.1 = false → keyIsPeer x.1 = false →
          Memory.get t.mem x.1 = if k.wordOf x.1 ∈ written then x.2 else Memory.get s.mem x.1) ∧
        (∀ x ∈ k.bytes, ∀ y ∈ k.bytes, x.1 / 4 = y.1 / 4 → k.wordOf x.1 = k.wordOf y.1) ∧
        (∀ a, a ∉ k.bytes.map Prod.fst → Memory.get t.mem a = Memory.get s.mem a) ∧
        logged s t (dieOf p) e ∧ e.cause = 0x12 ∧ e.src = engSrc r.cmd.eng ∧
        e.addr = k.dst.getD bad 0 ∧
        ∀ c, s.con r.cmd.cid = some c → ∃ y, t.con r.cmd.cid = some y ∧ y.error = true) ∧
    (∀ (s : State) (p : Nat) (r : CopyRun), (s.core p).cpRun = some r → s.issuerHalted r.cmd = true →
      exec (.chunkFetch p) s = .next s ∧ exec (.chunkCommit p) s = .next s) ∧
    (∀ (s : State) (p fn n src dst par : Nat) (r : LvRun) (t : State), (s.core p).lvRun = some r → r.cmd.body = .lv fn n src dst par →
      lvRead (LvFn.ofCode fn) par n r.fields r.got = true → exec (.scoreboardEntryRemove p) s = .next t →
      ∀ x ∈ (t.core p).spans, x.cmd = r.cmd.id → x.write = true) ∧
    ∀ (s : State) (p : Nat), ∃ t, exec (.scoreboardEntryRemove p) s = .next t ∧ t.mem = s.mem ∧ t.waves = s.waves ∧
      (t.core p).spans.Sublist (s.core p).spans ∧ (∀ x ∈ (t.core p).spans, s.cmdLive x.cmd = true) ∧
      ∀ x ∈ (s.core p).spans, s.cmdLive x.cmd = true → x.write = true → x ∈ (t.core p).spans) ∧
  (
    ∀ (s : State) (p fn n src dst par : Nat) (r : LvRun), (s.core p).lvRun = some r → r.cmd.body = .lv fn n src dst par →
      r.cmd.pcore = p → (s.core p).stubs = [] → quietly s r.cmd →
      let f := LvFn.ofCode fn
      let here := src + 4 * r.got.length
      let k := min 64 (n - r.got.length)
      let good := fun j => granuleOf s p ((here + 4 * j) / 4096) r.cmd.cid = true ∧ s.memBad (spadKey p (here + 4 * j)) 4 = false
      let size := if f = .topk then 512 else 32
      (lvRead f par n r.fields r.got = false → r.nextAt ≤ s.clk p →
        ((∀ j, j < k → good j) → (s.readLv p).mem = s.mem ∧ ((s.readLv p).core p).lvRun =
          some { r with got := r.got ++ (List.range k).map (fun j => s.num 4 (spadKey p (here + 4 * j))), nextAt := s.clk p + 1 }) ∧
        ∀ j, j < k → (∀ i, i < j → good i) → ¬ good j → ∃ e, ((s.readLv p).core p).lvRun = none ∧ (s.readLv p).mem = s.mem ∧
          replied (s.readLv p) r.cmd ∧ (s.readLv p).cons = s.cons ∧ logged s (s.readLv p) (dieOf p) e ∧ e.cause = 0x12 ∧
          e.src = engSrc r.cmd.eng ∧ e.va = true ∧ e.addr = 0xFE * 2 ^ 56 + r.cmd.tcore * 2 ^ 20 + (here + 4 * j)) ∧
      (lvRead f par n r.fields r.got = true → granulesOf s p r.cmd.cid dst (dst + size - 1) = true →
        let o := lvOut f par src dst r.fields r.got
        ∃ t, exec (.lvCommandFinish p) s = .next t ∧ (t.core p).lvRun = none ∧ t.mem = (s.writeWords p o.words).mem ∧ replied t r.cmd ∧
          (∀ w, r.cmd.wave < ctxBase → s.wave r.cmd.wave = some w → w.cid = r.cmd.cid → w.wid = r.cmd.wid →
            ∃ x, t.wave r.cmd.wave = some x ∧ x.ctl.fpflags = w.ctl.fpflags ||| o.flags.setWidth 13) ∧
          (s.memOk = true → f = .max → par = 0 → 0 < n → n < 2 ^ 32 → r.got.length = n →
            (∀ j, j < n → r.got.getD j 0 < 2 ^ 32 ∧ f32nan (r.got.getD j 0) = false) →
            ∃ a, a < n ∧ t.num 4 (spadKey p (dst + 4)) = a ∧ t.num 4 (spadKey p dst) = r.got.getD a 0 ∧
              ∀ j, j < n → f32key (r.got.getD j 0) ≤ f32key (r.got.getD a 0) ∧
                (j < a → f32key (r.got.getD j 0) < f32key (r.got.getD a 0)))) ∧
      (lvRead f par n r.fields r.got = true → granulesOf s p r.cmd.cid dst (dst + size - 1) = false →
        ∃ t e, exec (.lvCommandFinish p) s = .next t ∧ (t.core p).lvRun = none ∧ t.mem = s.mem ∧ replied t r.cmd ∧ t.cons = s.cons ∧
          logged s t (dieOf p) e ∧ e.cause = 0x12 ∧ e.src = engSrc r.cmd.eng ∧ e.va = true ∧ e.addr = 0xFE * 2 ^ 56 + r.cmd.tcore * 2 ^ 20 + dst))

/-- R203, R204, R207 to R209, R212 to R218, R220 to R222, R226. A load with free slots reads its image and installs its plane: for INT8, element
(k, c) of the plane is byte 64 k + c of the image, and the scales stand on the next 256-byte boundary. One that met an error ends with its
slots empty. A pass takes the head's rows when its window has closed; a row enters at its row step, and a column of integers is the sum of
products; 24 cycles later the row is written with its tag, and a cycle after the last one the operation replies. No row of a halted wave's operation enters. A row for a ring waits for
a slot, and moves the tail, as its wave sees from the next cycle on.
The model's own choice of log 33 bears on it. -/
def Obligations.MatrixEngine : Prop :=
  (∀ (s : State) (p tag fmt addr k : Nat) (norm : Bool) (bs : List Byte) (cmd : Cmd) (c : Cons), let m := (s.core p).mx
    m.inbox = [cmd] → m.load = none → m.slot0 = none → m.slot1 = none → m.pass = [] → cmd.body = .mxLoad tag fmt norm addr k →
    s.con cmd.cid = some c → quietly s cmd → engReads (s.onMx p MxEngine.startLoad) p cmd.cid c [] addr (imageBytes fmt k norm) 0 = .ok bs →
    ∃ t pl, exec (.mxLoadExecute p) s = .next t ∧ t.mem = s.mem ∧ (t.core p).mx.inbox = [] ∧ (t.core p).mx.load = none ∧ replied t cmd ∧
      (t.core p).mx.slot0 = some pl ∧ (t.core p).mx.slot1 = (if fmt = 3 then some pl else none) ∧ pl.tag = tag ∧ pl.cid = cmd.cid ∧
      pl.k = k ∧ pl.fmt = fmt ∧
      (fmt = 3 → k ≤ 256 → ∀ i j, i < k → j < 64 → pl.weight (64 * i + j) = (bs.getD (64 * i + j) 0).toInt) ∧
      ∀ j, j < 64 → pl.scales.getD j 0 = bs.getD (scalesAt fmt k + 4 * j) 0) ∧
  (∀ (s : State) (p va : Nat) (l : MxLoad), (s.core p).mx.load = some l → l.failed = some va → l.cmd.pcore = p → quietly s l.cmd →
    ∃ t e, exec (.mxLoadEndError p) s = .next t ∧ t.mem = s.mem ∧ (t.core p).mx.load = none ∧ (t.core p).mx.slot0 = (s.core p).mx.slot0 ∧
      (t.core p).mx.slot1 = (s.core p).mx.slot1 ∧ replied t l.cmd ∧
      logged s t (dieOf p) e ∧ e.cause = 0x12 ∧ e.src = engSrc l.cmd.eng ∧ e.addr = va) ∧
  (∀ (s : State) (p : Nat) (h : Cmd) (q : Quarter), let m := (s.core p).mx
    m.inbox = [h] → h.quarter = some q → (∃ pl, m.uses h = .plane pl) → (∀ r ∈ m.pass, r.entered.isSome = true) →
    s.issuerHalted h = false → h.since + 16 ≤ s.clk p → h.rowsLeft ≤ 128 → m.held.length + m.toHold + h.rowsLeft ≤ 128 →
    ∃ t, exec (.passStart p) s = .next t ∧ t = { s with cores := t.cores } ∧
      (t.core p).mx = { m with inbox := [], pass := m.pass ++ h.passRows, nextAt := max m.nextAt (s.clk p) }) ∧
  (∀ (s : State) (p : Nat) (r : PassRow) (q : Quarter) (pl : Plane), let m := (s.core p).mx
    m.pass = [r] → r.entered = none → r.cmd.quarter = some q → q.mode = .stream → m.uses r.cmd = .plane pl → m.nextAt ≤ s.clk p →
    r.cmd.wave < ctxBase → s.issuerHalted r.cmd = false → r.cmd.pcore = p → (s.core p).stubs = [] →
    ∃ t x, exec (.rowEntersAligner p) s = .next t ∧ t.mem = s.mem ∧ (t.core p).mx.pass = [x] ∧ x.entered = some m.nextAt ∧ x.row = r.row ∧
      x.flags &&& r.flags = r.flags ∧
      (t.core p).mx.nextAt = m.nextAt + rowStep s.pc.cad (some pl) q.afmt ∧
      (q.afmt = 0 → ∀ c, c < 64 → x.vals.getD c 0 = BitVec.ofInt 32 (((List.range q.k).map fun j =>
        (Memory.get s.mem (spadKey p (q.src + r.row * q.pitch) + j)).toInt * pl.weight (64 * j + c)).sum))) ∧
  (∀ (s : State) (p e : Nat) (r : PassRow) (q : Quarter), let m := (s.core p).mx
    m.pass = [r] → r.cmd.quarter = some q → r.entered = some e → r.cmd.wave < ctxBase →
    (r.written = false → e + 24 ≤ s.clk p → q.mode = .stream → (∀ x, r.cmd.reply ≠ .ring x) → r.vals.length = 64 →
      ∀ w, s.wave r.cmd.wave = some w → w.cid = r.cmd.cid → w.wid = r.cmd.wid → w.takesRows = true → quiet s r.cmd.wave w →
      ∃ t x, exec (.accRowWrite p) s = .next t ∧ t.mem = s.mem ∧ t.wave r.cmd.wave = some x ∧ x.regs.s = w.regs.s ∧
        (∀ j, j < 64 → lookD x.regs.v (64 * (192 + q.abase + r.row) + j) 0 = r.vals.getD j 0) ∧
        (∀ g j, j < 64 → g ≠ 192 + q.abase + r.row → lookD x.regs.v (64 * g + j) 0 = lookD w.regs.v (64 * g + j) 0) ∧
        look x.regs.tags (q.abase + r.row) = some r.tag ∧
        (t.core p).mx.pass = if r.row + 1 = q.rows then [{ r with written := true }] else []) ∧
    (r.written = false → e + 24 ≤ s.clk p → (∃ x, r.cmd.reply = .ring x) → ∃ t, exec (.accRowWrite p) s = .next t ∧
      t = { s with cores := t.cores } ∧ (t.core p).mx = { m with
        pass := [], held := m.held ++ [⟨r.cmd, r.row, r.vals, r.tag, r.flags, r.row + 1 == q.rows⟩] }) ∧
    (r.written = true → e + 25 ≤ s.clk p → quietly s r.cmd → ∃ t, exec (.accRowWrite p) s = .next t ∧ t.mem = s.mem ∧
      (t.core p).mx.pass = [] ∧ replied t r.cmd)) ∧
  (∀ (s : State) (p : Nat), (∀ r ∈ (s.core p).mx.pass, r.entered = none → s.issuerHalted r.cmd = true) →
    exec (.rowEntersAligner p) s = .next s) ∧
  ∀ (s : State) (p ring : Nat) (h : HeldRow) (q : Quarter) (w : Wave) (r : Ring), (s.core p).mx.held = [h] → h.cmd.quarter = some q →
    h.cmd.reply = .ring ring → h.cmd.wave < ctxBase → s.wave h.cmd.wave = some w → w.cid = h.cmd.cid → w.wid = h.cmd.wid →
    w.takesRows = true → quiet s h.cmd.wave w → w.ringsAt ≠ some (s.clkOf h.cmd.wave) →
    look w.rings ring = some r → r.filled < r.slots → q.mode = .stream → h.vals.length = 64 →
    ∃ t x, exec (.engineRingWrite p 0) s = .next t ∧ t.mem = s.mem ∧ (t.core p).mx.held = [] ∧ t.wave h.cmd.wave = some x ∧
      look x.rings ring = some { r with tail := r.tail + 1, filled := r.filled + 1, own := 0, e := if h.last then r.e - 1 else r.e } ∧
      x.ringsSeen (s.clkOf h.cmd.wave) = w.rings ∧
      (∀ j, j < 64 → lookD x.regs.v (64 * r.reg r.tail + j) 0 = h.vals.getD j 0) ∧ look x.regs.tags (r.reg r.tail - 192) = some h.tag

/-! ## Routed rows and reassembly tables -/

/-- R288, R321, R323 to R326, R329, R333. A routed row is written with its header into the tail slot of its channel's inbox, and its rank is
then SENT and counted; a slot counts as free by the head as the cycle began, and the RETRY policy leaves two slots to tickets. Where no slot
is free the row is refused and tried again 32 cycles later, the third time with a ticket; without a receive half, or with a slot too small, its
rank is dropped, with an entry in the error log. A batch goes to a resident waiter, as a store of its word and a wake, or to a task wave on the
channel's core, as the channel stood and the flush time had passed when the cycle began. A flush time that passes is noted; an UNBIND completes when nothing waits.
The model's own choices of log 35, 48 bear on it. -/
def Obligations.RouteRows : Prop :=
  (∀ (s : State) (m : RouteMsg), s.routeMsgs = [m] → m.back = false → m.retryAt ≤ s.clk m.fromP →
    (s.table m.fromP (tagFields m.tag).1).closing = false →
    let p := s.msgCore m
    let x := s.chan p m.ch
    let res := resInbox p m.ch
    let used := fun (r : RecvHalf) => r.tail - (x.seen (s.clk p)).head
    let retry := (s.table m.fromP (tagFields m.tag).1).desc.policy = 2
    (∀ r, s.memOk = true → x.recv = some r → m.bytes.length + 32 ≤ r.desc.sb → used r < r.desc.slots → (s.ticketsOf res).out = [] →
      (retry → used r + 3 ≤ r.desc.slots) →
      let key := spadKey p (r.desc.inbox + r.tail % r.desc.slots * r.desc.sb)
      ∃ t, exec (.routedRowArrival 0) s = .next t ∧ t.routeMsgs = [] ∧
        t.chan p m.ch = { x with recv := some { r with tail := r.tail + 1, times := r.times ++ [s.now] }, was := some (s.clk p, x.seen (s.clk p)) } ∧
        t.num 8 key = m.tag.toNat ∧ t.num 2 (key + 8) = m.weight % 2 ^ 16 ∧ t.num 1 (key + 10) = m.ch % 2 ^ 8 ∧
        t.num 4 (key + 12) = r.tail % 2 ^ 32 ∧ (∀ i b, m.bytes[i]? = some b → Memory.get t.mem (key + 32 + i) = b) ∧
        (∀ a, a < key ∨ key + 32 + m.bytes.length ≤ a → Memory.get t.mem a = Memory.get s.mem a) ∧
        ∀ n i, s.tagRank m.fromP m.tag = some (n, i) → (s.table m.fromP n).ranks[i]? = some .absent →
          t.table m.fromP n = { s.table m.fromP n with
            ranks := (s.table m.fromP n).ranks.set i .sent, sent := (s.table m.fromP n).sent + 1 }) ∧
    (∀ r, x.recv = some r → m.bytes.length + 32 ≤ r.desc.sb →
      (r.desc.slots ≤ used r ∨ retry ∧ m.ticket = none ∧ r.desc.slots ≤ used r + 2) →
      (m.refusals ≠ 2 → ∃ t, exec (.routedRowArrival 0) s = .next t ∧ t.mem = s.mem ∧ t.cores = s.cores ∧
        t.routeMsgs = [{ m with refusals := m.refusals + 1, retryAt := s.clk m.fromP + 32 }]) ∧
      (m.refusals = 2 → m.ticket = none → ∃ t, exec (.routedRowArrival 0) s = .next t ∧ t.mem = s.mem ∧ t.cores = s.cores ∧
        t.routeMsgs = [{ m with refusals := 3, ticket := some (s.ticketsOf res).next, retryAt := s.clk m.fromP + 32 }] ∧
        (t.ticketsOf res).out = (s.ticketsOf res).out ++ [(s.ticketsOf res).next] ∧
        (t.ticketsOf res).next = ((s.ticketsOf res).next + 1) % 65536)) ∧
    ((∀ r, x.recv = some r → r.desc.sb < m.bytes.length + 32) → ∃ t e, exec (.routedRowArrival 0) s = .next t ∧ t.mem = s.mem ∧
      t.routeMsgs = [] ∧ logged s t (dieOf m.fromP) e ∧ e.cause = 0x10 ∧ e.addr = m.ch ∧
      ∀ n i, s.tagRank m.fromP m.tag = some (n, i) → (s.table m.fromP n).ranks[i]? = some .absent →
        (t.table m.fromP n).ranks = (s.table m.fromP n).ranks.set i .dropped)) ∧
  (∀ (s : State) (p ch : Nat) (r : RecvHalf), let x := s.chan p ch
    x.recv = some r →
    (∀ v, x.was = some (s.clk p, v) → r.task = none → v.ready = false ∨ v.hold = true ∨ v.head ≠ v.next →
      exec (.batchDispatch p ch) s = .next s) ∧
    (∀ v, x.was = some (s.clk p, v) → r.task = none → v.flushed = false → v.tail - v.next < r.desc.thresh →
      (∀ d, v.oldest = some d → s.tickOf p (s.clk p) < d + r.desc.flush * 21) → exec (.batchDispatch p ch) s = .next s) ∧
    (∀ v, x.was = some (s.clk p, v) → v.tail ≠ v.head → exec (.unbindComplete p ch) s = .next s) ∧
    ((∀ y, x.was = some y → y.1 ≠ s.clk p) →
    let was := some (s.clk p, x.view)
    (∀ d ds, r.desc.flush ≠ 0 → r.times = d :: ds → d + r.desc.flush * 21 ≤ s.now →
      ∃ t, exec (.routeFlushExpiry p ch) s = .next t ∧ t = { s with cores := t.cores } ∧
        t.chan p ch = { x with recv := some { r with flushed := true }, was := was }) ∧
    (x.unbind.isSome = true → r.tail = r.head → r.head = r.next → ((s.core p).rt.chans.map Prod.fst).Nodup → ∃ t, exec (.unbindComplete p ch) s = .next t ∧
      t = { s with cores := t.cores } ∧ t.chan p ch = Channel.empty) ∧
    (r.task = none → x.ready = true → x.hold = false → r.head = r.next →
      (r.desc.thresh ≤ r.tail - r.next ∨ 1 ≤ r.tail - r.next ∧ (r.flushed = true ∨ r.desc.flushDue r.times.head? (s.tickOf p (s.clk p)) = true)) →
      let n := min (r.tail - r.next) r.desc.maxb
      let r2 := { r with next := r.next + n, times := r.times.drop n, flushed := false }
      (r.desc.res = true → ∃ t a b, exec (.batchDispatch p ch) s = .next t ∧ t.mem = s.mem ∧ t.waves = s.waves ∧
        t.chan p ch = { x with recv := some r2, was := was } ∧ t.reqs = s.reqs ++ [a, b] ∧ a.kind = .mem .store ∧ a.size = 8 ∧
        a.accs = [⟨0, spadKey p r.desc.pair, r.desc.pair, wordN (2 ^ 63 + n * 2 ^ 32 + r.next % 2 ^ 32), 0⟩] ∧ b.kind = .wake 1 ∧
        b.spot.1 = spadKey p r.desc.pair) ∧
      ∀ c ls k g pg, r.desc.res = false → s.con r.owner = some c → s.rails = .on → s.pc.shed = [] → s.asksSpawn p = false → (s.die (dieOf p)).queue = [] →
        planOn (s.core p) p r.owner { c.man with fp := r.desc.fp, pipes := [] } = some (ls, [(k, g, pg)]) →
        ∃ t w y, exec (.batchDispatch p ch) s = .next t ∧ t.chan p ch = { x with recv := some r2, was := was } ∧ t.wave k = some w ∧
          w.life = .clearing ∧ w.cid = r.owner ∧ w.wid = c.total ∧ w.fp = r.desc.fp ∧ w.spc = s.entryAt r.owner c r.desc.entry ∧
          w.regs.s = [(1, r.desc.arg), (2, wordN r.next), (3, wordN n)] ∧ (t.core p).leases = ls ∧ t.con r.owner = some y ∧
          y.total = c.total + 1 ∧ y.live = c.live + 1 ∧ (∀ j, j ≠ k → t.wave j = s.wave j) ∧
          ∀ a, Memory.get t.mem a = if t.granuleKeys k a = true then 0 else Memory.get s.mem a)))

/-- R300, R322, R327, R329, R331, R333 to R336. `rt.open` makes its table OPEN with a new generation, every rank ABSENT and its counts zero.
`rt.route` starts the timer, and sends the row of each pair to the target that the channel picks, with its tag, each once the one before is in
a slot; a rank is dropped where its channel has no send half, with an entry in the error log, or has used its cap. A returned row of a rank
that is SENT goes into the work area, and the rank is ARRIVED; any other is counted as late. The timer makes what is SENT, or not yet in a
slot, TIMEDOUT, and ends the command that routes; from the moment that a table closes nothing more of it is sent. A settled table raises its flags,
writes its rows, its status and its counts, each once what it follows has been performed, adds to its
barrier, and is CLOSED; one that met an error is logged and CLOSED. An `rt.open` whose write goes to a peer module replies once that has
answered.
The model's own choices of log 35, 64 bear on it. -/
def Obligations.RouteTables : Prop :=
  (∀ (s : State) (p n : Nat) (c : Cmd) (o : OpenDesc) (k : Cons) (cells : List Host.Cell), s.memOk = true → (s.core p).rt.run = none →
    (s.core p).rt.opening = none → (s.core p).rt.inbox = [c] → c.body = .rtOpen n o → s.con c.cid = some k → (s.table p n).state ∈ [.free, .closed] →
    s.spansFit (tableSpans p k o) = true → engCells s p c.cid k o.ctr.toNat 0 (List.replicate 16 0) = .ok cells →
    quietly s c →
    ∃ t, exec (.rtOpenExecute p) s = .next t ∧ (t.core p).rt.inbox = [] ∧ (∀ x ∈ cells, keyIsPeer x.1 = false → Memory.get t.mem x.1 = 0) ∧
      (∀ a, a ∉ cells.map Prod.fst → Memory.get t.mem a = Memory.get s.mem a) ∧ (t.table p n).state = .opened ∧
      (t.table p n).gen = ((s.table p n).gen + 1) % 65536 ∧ (t.table p n).owner = c.cid ∧ (t.table p n).desc = o ∧
      (t.table p n).ranks = List.replicate (o.rows * o.k) .absent ∧ (t.table p n).wid = c.wid ∧
      (t.table p n).closing = !s.wavesOn p c.cid ∧ ((∀ x ∈ cells, keyIsPeer x.1 = false) → (t.core p).rt.opening = none ∧ replied t c) ∧
      ((∃ x ∈ cells, keyIsPeer x.1 = true) → (t.core p).rt.opening = some c ∧ t.wave c.wave = s.wave c.wave)) ∧
  (∀ (s : State) (p n : Nat) (c : Cmd) (o : OpenDesc), (s.core p).rt.opening = some c → c.body = .rtOpen n o →
    ((s.table p n).acks ≠ 0 → exec (.rtOpenExecute p) s = .next s) ∧
    ((s.table p n).acks = 0 → (s.table p n).failed = none → (s.core p).rt.run = none → (s.core p).rt.inbox = [] → quietly s c →
      ∃ t, exec (.rtOpenExecute p) s = .next t ∧ t.mem = s.mem ∧ (t.core p).rt.opening = none ∧ replied t c)) ∧
  (∀ (s : State) (p n tile vec : Nat) (c : Cmd), let x := s.table p n
    (s.core p).rt.run = none → (s.core p).rt.opening = none → (s.core p).rt.inbox = [c] → c.body = .rtRoute n tile vec → x.state = .opened → x.closing = false →
    tile + x.desc.rows * x.desc.ib ≤ 0xFE000 → vec + 4 * (x.desc.rows * x.desc.k) ≤ 0xFE000 →
    (∀ i, i < x.desc.rows * x.desc.k → s.pairAt p vec i / 2 ^ 24 % 128 = 0) →
    s.spansFit [(p, tile, tile + x.desc.rows * x.desc.ib - 1, false), (p, vec, vec + 4 * (x.desc.rows * x.desc.k) - 1, false)] = true →
    ∃ t, exec (.rtRouteExecute p) s = .next t ∧ t.mem = s.mem ∧ (t.core p).rt.inbox = [] ∧ (t.core p).rt.run = some ⟨c, 0, []⟩ ∧
      ∃ d, t.table p n = { x with state := .routing, filled := true, tile := tile, wave := c.wave, wid := c.wid, deadline := d } ∧
        d = if x.desc.limit = 0 then none else some (s.now + x.desc.limit * 21)) ∧
  (∀ (s : State) (p n tile vec : Nat) (u : RouteRun), let x := s.table p n
    (s.core p).rt.run = some u → (s.core p).rt.opening = none → u.cmd.body = .rtRoute n tile vec → x.state = .routing →
    (x.closing = true ∨ (∃ m ∈ s.routeMsgs, m.back = false ∧ m.cmd = u.cmd.id) → exec (.rtRouteExecute p) s = .next s) ∧
    (s.routeMsgs = [] → x.closing = false → u.next < x.desc.rows * x.desc.k →
      let r := u.next / x.desc.k
      let v := s.pairAt p vec u.next
      let ch := v / 2 ^ 16 % 256
      (v / 2 ^ 31 = 1 → ∃ t, exec (.rtRouteExecute p) s = .next t ∧ t = { s with cores := t.cores } ∧
        (t.core p).rt.run = some { u with next := u.next + 1 } ∧ t.table p n = x) ∧
      (v / 2 ^ 31 ≠ 1 → (s.chan p ch).send = none → ∃ t e, exec (.rtRouteExecute p) s = .next t ∧ t.mem = s.mem ∧ t.routeMsgs = [] ∧
        (t.core p).rt.run = some { u with next := u.next + 1 } ∧ t.table p n = { x with ranks := x.ranks.set u.next .dropped } ∧
        logged s t (dieOf p) e ∧ e.cause = 0x10 ∧ e.addr = ch) ∧
      ∀ h, v / 2 ^ 31 ≠ 1 → (s.chan p ch).send = some h →
        let hash := (x.lcore * 0x9E3779B1 + r * 0x85EBCA77) % 2 ^ 32
        let d := h.desc.tgts.getD (hash * h.desc.ntgt / 2 ^ 32) 0
        (h.desc.cap ≤ usedOf u.used ch d → x.desc.policy = 0 → ∃ t, exec (.rtRouteExecute p) s = .next t ∧ t = { s with cores := t.cores } ∧
          (t.core p).rt.run = some { u with next := u.next + 1 } ∧ t.table p n = { x with ranks := x.ranks.set u.next .dropped }) ∧
        ((usedOf u.used ch d < h.desc.cap ∨ x.desc.policy = 2) → s.memBad (spadKey p (tile + r * x.desc.ib)) x.desc.ib = false →
        ∃ t, exec (.rtRouteExecute p) s = .next t ∧ t.mem = s.mem ∧ t.table p n = { x with weights := put x.weights u.next (v % 65536) } ∧
          (∃ w, (t.core p).rt.run = some w ∧ w.next = u.next + 1 ∧ usedOf w.used ch d = usedOf u.used ch d + 1) ∧
          t.routeMsgs = [⟨false, u.cmd.cid, p, d, ch, wordN (x.lcore + n * 2 ^ 11 + r * 2 ^ 14 + u.next % x.desc.k * 2 ^ 22 +
            (x.desc.ob / 32 - 1) * 2 ^ 24 + x.gen * 2 ^ 32), v % 65536, s.bytes x.desc.ib (spadKey p (tile + r * x.desc.ib)),
            u.cmd.id, 0, none, 0, p⟩])) ∧
    (s.routeMsgs = [] → x.closing = false → x.desc.rows * x.desc.k ≤ u.next → (s.core p).rt.inbox = [] → quietly s u.cmd →
      ∃ t, exec (.rtRouteExecute p) s = .next t ∧ t.mem = s.mem ∧ (t.core p).rt.run = none ∧ replied t u.cmd)) ∧
  (∀ (s : State) (m : RouteMsg), s.memOk = true → s.routeMsgs = [m] → m.back = true →
    let p := s.msgCore m
    let x := s.table p (tagFields m.tag).1
    x.closing = false → x.timedAt ≠ some (s.clk p) →
    (∀ n i, s.tagRank p m.tag = some (n, i) → (s.table p n).ranks[i]? = some .sent → (tagFields m.tag).2.2.2.1 = (s.table p n).desc.ob →
      let key := spadKey p ((s.table p n).desc.work + i * (s.table p n).desc.ob)
      ∃ t, exec (.returnAccept 0) s = .next t ∧ t.routeMsgs = [] ∧ (t.table p n).ranks = (s.table p n).ranks.set i .arrived ∧
        (∀ j b, m.bytes[j]? = some b → Memory.get t.mem (key + j) = b) ∧
        ∀ a, a < key ∨ key + m.bytes.length ≤ a → Memory.get t.mem a = Memory.get s.mem a) ∧
    ∀ c key, (∀ n i, s.tagRank p m.tag = some (n, i) → (s.table p n).ranks[i]? ≠ some .sent) → (s.con x.owner).or (s.con m.cid) = some c →
      barHost (.red .add) (engPlace s p x.owner c x.desc.ctr.toNat 12 .write) = .at key →
      ∃ t r, exec (.returnAccept 0) s = .next t ∧ t.routeMsgs = [] ∧ t.mem = s.mem ∧ t.reqs = s.reqs ++ [r] ∧ r.kind = .mem (.red .add) ∧
        r.size = 4 ∧ r.spot.1 = key ∧ r.accs.map Acc.data = [1]) ∧
  (∀ (s : State) (p n : Nat), let x := s.table p n
    x.closing = true ∨ (∃ d, x.deadline = some d ∧ d ≤ s.now) →
    (x.state = .opened → ∃ t, exec (.tableTimeout p n) s = .next t ∧ t = { s with cores := t.cores } ∧
      t.table p n = { x with state := .routing, filled := false, deadline := none, closing := false, timedAt := some (s.clk p) }) ∧
    (x.state = .routing → s.routeMsgs = [] →
      ((s.core p).rt.run = none → ∃ t, exec (.tableTimeout p n) s = .next t ∧ t = { s with cores := t.cores } ∧
        ∃ rs, t.table p n = { x with deadline := none, closing := false, timedAt := some (s.clk p), ranks := rs } ∧
          rs = x.ranks.map fun r => if r = .sent then .timedOut else r) ∧
      ∀ u tile vec, (s.core p).rt.run = some u → u.cmd.body = .rtRoute n tile vec → (s.core p).rt.opening = none → (s.core p).rt.inbox = [] → quietly s u.cmd →
        ∃ t, exec (.tableTimeout p n) s = .next t ∧ t.mem = s.mem ∧ (t.core p).rt.run = none ∧ replied t u.cmd ∧
          ∀ i r, x.ranks[i]? = some r → (t.table p n).ranks[i]? =
            some (if r = .sent ∨ r = .absent ∧ u.next ≤ i + 1 ∧ s.pairAt p vec i / 2 ^ 31 = 0 then .timedOut else r))) ∧
  ∀ (s : State) (p n : Nat) (c : Cons), let x := s.table p n
    s.settled p n = true → x.suspended = false → s.con x.owner = some c →
    (∀ u st ct key, x.failed = none → s.closeRows p n c (x.asCmd p) (x.desc.rows - x.wrote) = (u, .ok ()) →
      let y := u.table p n
      let a := (u.putCells p n (y.asCmd p) st).onTable p n fun z => { z with posted := 1 }
      let v := (a.putCells p n (y.asCmd p) ct).onTable p n fun z => { z with posted := 2 }
      y.posted = 0 → y.acks = 0 → y.desc.rows ≤ y.wrote → engCells u p y.owner c y.desc.stat.toNat 0 (statusBytes y) = .ok st →
      ((∃ z ∈ st, keyIsPeer z.1 = true) → ∃ t, exec (.tableClose p n) s = .next t ∧ (t.table p n).posted = 1 ∧
        t.mem = Memory.setCells u.mem (st.filter fun z => !keyIsPeer z.1)) ∧
      (engCells a p y.owner c y.desc.ctr.toNat 0 (countBytes y) = .ok ct →
      barHost (.red .add) (engPlace v p y.owner c y.desc.done.toNat 0 .write) = .at key →
      (∀ z ∈ st ++ ct, keyIsPeer z.1 = false) → (∀ w, v.wave y.wave = some w → w.pend = []) →
      ∃ t r, exec (.tableClose p n) s = .next t ∧ t.mem = Memory.setCells (Memory.setCells u.mem st) ct ∧ (t.table p n).state = .closed ∧
        t.reqs = u.reqs ++ [r] ∧ r.spot.1 = key ∧
        r.kind = .engineAdd (y.desc.rows * y.desc.ob + (y.desc.rows + 1) / 2 + 12) true false ∧
        ∀ w, y.wave < ctxBase → v.wave y.wave = some w → w.cid = y.owner → w.wid = y.wid →
          ∃ z, t.wave y.wave = some z ∧ z.ctl.fpflags = w.ctl.fpflags ||| (tableFlags v p (v.table p n)).setWidth 13)) ∧
    ∀ va, x.failed = some va → ∃ t e, exec (.tableClose p n) s = .next t ∧ t.mem = s.mem ∧ (t.table p n).state = .closed ∧
      logged s t (dieOf p) e ∧ e.cause = 0x12 ∧ e.src = 4 ∧ e.addr = va

/-! ## The mesh, the exchange and the links -/

/-- The values of offer `x` have landed in the wave of offer `o`: in the lanes active on both sides, and in no other; its operation is done
(R350). -/
def Sys2Proof.Machine.landed (s t : State) (o x : Offer) : Prop :=
  ∀ w p, o.wave < ctxBase → s.wave o.wave = some w → w.cid = o.cid → quiet s o.wave w → w.ops = [p] → p.id = o.op → p.ctr = .xc → p.need = 1 →
    p.acq = none → p.failed = [] → (x.vals.map Prod.fst).Nodup → (∀ e ∈ x.vals, e.1 < 64) →
    ∃ y, t.wave o.wave = some y ∧ y.ops = [] ∧ y.regs.s = w.regs.s ∧
      (∀ e ∈ x.vals, o.mask.getLsbD e.1 = true → lookD y.regs.v (64 * o.d + e.1) 0 = e.2) ∧
      ∀ g l, l < 64 → (g = o.d → o.mask.getLsbD l = true → l ∉ x.vals.map Prod.fst) →
        lookD y.regs.v (64 * g + l) 0 = lookD w.regs.v (64 * g + l) 0

/-- R8, R9, R115, R340 to R345, R347 to R351. An offer pairs with the oldest that waits for it, waits in a slot of its meeting band, or is refused for 32
cycles of its own clock; a halted wave's does not arrive. When it pairs, what each side will write is known, and then both sides' values land.
Between two dies a packet goes along the ring D0, D1, D3, D2, from D0 to D3 by D1 and from D1 to D2 by D0; each packet wakes the routers of its
route. A router idle for 1 µs powers down, four cycles later it is off, and a wake brings it back
in six; a bypassed one is never gated. After a stitch every ready core of the die has a route from every router that is not in bypass. A
region is redefined only inside the die and away from every wave, and its reserved bits read as zero. A packet between two cores of one region takes the region's overlay, any
other the mesh; the snake of a region holds each of its routers once, and on a ring or a tree a packet goes along express links, from the one
router to the other, on a ring the shorter way.
The model's own choices of log 36, 46, 54, 65 bear on it. -/
def Obligations.MeshAndExchange : Prop :=
  (∀ (s : State) (k : Nat) (o : Offer), s.offers[k]? = some o → o.arrived = false → o.wave < ctxBase → o.retryAt ≤ s.clk o.pcore →
    (∀ w, s.wave o.wave = some w → w.cid = o.cid → w.life ≠ .halted) →
    (∀ x ∈ s.offers.take k, x.wave = o.wave → x.band = o.band → x.arrived = true) →
    (∀ x, s.offers.find? o.meets = some x → ∃ t, exec (.xchOfferArrival k) s = .next t ∧ t.mem = s.mem ∧
      (∀ n w, s.wave n = some w → ∃ v, t.wave n = some v ∧ v = { w with ops := v.ops }) ∧
      (∀ w, o.wave ≠ x.wave → s.wave o.wave = some w → w.cid = o.cid → ∃ v, t.wave o.wave = some v ∧ v.ops = updOp o.op (fun y => { y with
        dest := .vals (.vreg o.d (BitVec.allOnes 32) (x.vals.filter fun e => o.mask.getLsbD e.1)), lanes := y.lanes &&& x.mask }) w.ops) ∧
      t.offers = s.offers.map fun y => if y.op = o.op then { o with arrived := true, ticket := none, pair := some x.op }
        else if y.op = x.op then { y with pair := some o.op } else y) ∧
    (s.offers.find? o.meets = none → s.grants (resPairs o.band) (s.pairsUsed o.band) 16 o.ticket = true →
      ∃ t, exec (.xchOfferArrival k) s = .next t ∧ t.mem = s.mem ∧ t.waves = s.waves ∧
        t.offers = s.offers.eraseIdx k ++ [{ o with arrived := true, ticket := none }]) ∧
    (s.offers.find? o.meets = none → s.grants (resPairs o.band) (s.pairsUsed o.band) 16 o.ticket = false → o.refusals ≠ 2 →
      ∃ t, exec (.xchOfferArrival k) s = .next t ∧ t.mem = s.mem ∧ t.waves = s.waves ∧
        t.offers = s.offers.set k { o with refusals := o.refusals + 1, retryAt := s.clk o.pcore + 32 })) ∧
  (∀ (s : State) (k : Nat) (o : Offer) (w : Wave), s.offers[k]? = some o → s.wave o.wave = some w → w.cid = o.cid → w.life = .halted →
    exec (.xchOfferArrival k) s = .next s) ∧
  (∀ (s : State) (o x : Offer), s.offers = [o, x] → o.op ≠ x.op → o.pair = some x.op → o.wave ≠ x.wave →
    ∃ t, exec (.xchValuesLand 0) s = .next t ∧ t.offers = [] ∧ landed s t o x ∧ landed s t x o) ∧
  (∀ (s : State) (p : Nat), p < 1536 →
    (∀ d, s.bypass.contains p = false → s.router p = .on d → d + 21000 ≤ s.now →
      exec (.routerIdleGate p) s = .next { s with routers := put s.routers p (.goingDown (s.clk p + 4)) }) ∧
    (s.router p = .off → exec (.routerWake p) s = .next { s with routers := put s.routers p (.goingUp (s.clk p + 6) s.now) }) ∧
    (∀ d, s.router p = .on d → exec (.routerWake p) s = .next { s with routers := put s.routers p (.on s.now) }) ∧
    (∀ d, s.router p = .goingDown d → d ≠ s.clk p + 4 →
      exec (.routerWake p) s = .next { s with routers := put s.routers p (.goingUp (d + 6) s.now) }) ∧
    (s.router p = .goingDown (s.clk p + 4) → exec (.routerWake p) s = .next { s with routers := put s.routers p (.on s.now) }) ∧
    (∀ d e, s.router p = .goingUp d e → exec (.routerWake p) s = .next { s with routers := put s.routers p (.goingUp d s.now) }) ∧
    (∀ d, lookD s.routers p (.on 0) = .goingDown d → d ≤ s.clk p → s.router p = .off) ∧
    ∀ d e, lookD s.routers p (.on 0) = .goingUp d e → d ≤ s.clk p → s.router p = .on e) ∧
  (∀ (s t : State) (x : Nat × Nat) (p : Nat), x ∈ newPackets s t → p ∈ t.routeOf x.1 x.2 →
    (s.wakeRoutes t).router p = .on t.now ∨ ∃ d, (s.wakeRoutes t).router p = .goingUp d t.now) ∧
  (dieRoute 0 3 = [0, 1, 3] ∧ dieRoute 3 0 = [3, 1, 0] ∧ dieRoute 1 2 = [1, 0, 2] ∧ dieRoute 2 1 = [2, 0, 1] ∧
    ∀ a b, (a, b) ∈ [(0, 1), (1, 3), (3, 2), (2, 0)] → dieRoute a b = [a, b] ∧ dieRoute b a = [b, a] ∧ dieRoute a a = [a]) ∧
  (∀ (s : State) (die : Nat), die < 4 → ∃ t, exec (.routeStitch die) s = .next t ∧ t.mem = s.mem ∧ t.waves = s.waves ∧
    (∀ n, n ∈ (t.die die).stitched ↔ n < 384 ∧ s.bypass.contains (384 * die + n) = true) ∧
    (∀ p ∈ t.ready.cores, p ∈ s.ready.cores ∧ (p / 384 = die → s.bypass.contains p = false ∧ ∀ a, a < 384 → a ≠ p % 384 →
      s.bypass.contains (384 * die + a) = false →
      (meshRoute (fun n => decide (n < 384) && s.bypass.contains (384 * die + n)) a (p % 384)).isSome = true)) ∧
    ∀ p ∈ s.ready.cores, p / 384 ≠ die → p ∈ t.ready.cores) ∧
  (∀ (s : State) (n v : Nat), let r := regionOf v
    let old := lookD s.regions n Region.reset
    (0 < n → n ≤ 255 → r.bx0 + r.bw ≤ 7 → r.by0 + r.bh ≤ 11 → (r.kind = 3 → r.bw ≠ 0 ∧ r.bh ≠ 0) →
      (∀ e ∈ s.waves, r.covers (coreOfWave e.1) = false ∧ old.covers (coreOfWave e.1) = false) →
      exec (.regionDescriptorWrite n v) s = .next { s with regions := put s.regions n r }) ∧
    (7 < r.bx0 + r.bw ∨ 11 < r.by0 + r.bh ∨ r.kind = 3 ∧ (r.bw = 0 ∨ r.bh = 0) ∨
      (∃ e ∈ s.waves, r.covers (coreOfWave e.1) = true ∨ old.covers (coreOfWave e.1) = true) →
      exec (.regionDescriptorWrite n v) s = .next s) ∧
    (∀ service, 0 < n → n ≤ 255 → s.dwen.recovery = false →
      look (s.controlRead service (0x090002000000 + 8 * n)).reads (0x090002000000 + 8 * n) = some (wordN old.word)) ∧
    r.word = v % 2 ^ 5 + v / 2 ^ 8 % 2 ^ 3 * 2 ^ 8 + v / 2 ^ 12 % 2 ^ 4 * 2 ^ 12 + v / 2 ^ 16 % 2 ^ 3 * 2 ^ 16 + v / 2 ^ 20 % 2 ^ 4 * 2 ^ 20) ∧
  (∀ (s : State) (a b : Nat), let by_ := fun n => s.bypass.contains (a / 384 * 384 + n)
    let mesh := (meshRoute (s.die (a / 384)).stitched.contains (a % 384) (b % 384)).map fun m => m.path (a % 384) (b % 384)
    (∀ r, s.overlay a b = some r → r.v = true ∧ r.covers a = true ∧ r.covers b = true ∧ s.bypass.contains a = false ∧
      s.bypass.contains b = false ∧ s.packetPath a b = r.path by_ mesh (a % 384) (b % 384)) ∧
    ((∀ n r, n < 256 → lookD s.regions n Region.reset = r → r.v = true → r.covers a = true → r.covers b = false) →
      s.packetPath a b = mesh)) ∧
  ∀ (r : Region) (bad : Nat → Bool) (mesh : Option (List Nat)), r.bx0 + r.bw ≤ 7 → r.by0 + r.bh ≤ 11 →
    (r.snake bad).Nodup ∧ (∀ n, n ∈ r.snake bad ↔ n < 384 ∧ r.covers (384 * r.die + n) = true ∧ bad n = false) ∧
    ∀ a b, r.kind = 1 ∨ r.kind = 2 → a ∈ r.snake bad → b ∈ r.snake bad →
      let n := (r.snake bad).length
      let up := ((r.snake bad).idxOf b + n - (r.snake bad).idxOf a) % n
      ∃ l, r.path bad mesh a b = some l ∧ l.head? = some a ∧ l.getLast? = some b ∧ (r.kind = 1 → l.length = min up (n - up) + 1) ∧
        ∀ i u v, l[i]? = some u → l[i + 1]? = some v → (u, v) ∈ r.express bad ∨ (v, u) ∈ r.express bad

/-- Responses to peer `m` have left, as far as its port takes flits; the others wait in order. -/
def Sys2Proof.Machine.responded (t : State) (m : Nat) (x : Peer) (rs : List (Nat × List Nat)) : Prop :=
  let y := lookD t.peers m Peer.reset
  ∃ j, j ≤ rs.length ∧ y.replies = x.replies ++ rs.take j ∧ y.owed = (rs.drop j).map some ∧ (j < rs.length → t.sendFlit m = none)

/-- R353 to R357. A good flit in sequence is accepted, any other draws a negative acknowledgement; a replay from a flit is counted for it and
for every later one, and the seventeenth of one flit retrains the port; an acknowledgement empties the replay buffer up to its flit; a port that
fails to retrain is not ready, and its flits move to another port. A
request to a peer without a response is sent again eight times, and then ends with an error and an entry in the log. A peer's request is
executed once and in sequence: a new one in its turn sets out for its home, one ahead of its turn waits, one done before is answered from its
record, one retired is discarded; a load performed at its home is answered with the bytes there, each copy of it. A response leaves when the
port takes a flit. That loads take none of the 512 records, and that a request without a record is discarded, is the model's choice (log 36).
The model's own choices of log 36, 37, 59 bear on it. -/
def Obligations.Links : Prop :=
  (∀ (s : State) (n q : Nat), n < 24 → let p := lookD s.ports n Port.reset
    (q = p.expected → exec (.flitReceive n q true) s = .next { s with ports := put s.ports n { p with expected := (q + 1) % 1024 } }) ∧
    (q ≠ p.expected → exec (.flitReceive n q true) s = .next { s with ports := put s.ports n { p with naks := p.naks + 1 } }) ∧
    exec (.flitReceive n q false) s = .next { s with ports := put s.ports n { p with naks := p.naks + 1 } } ∧
    (∀ us vs m, p.retrain = false → p.unacked = us ++ (q, m) :: vs → (p.unacked.map Prod.fst).Nodup →
      ((∀ u ∈ (q, m) :: vs, lookD p.replays u.1 0 < 16) → ∃ rs, exec (.linkNakReplay n q) s =
          .next { s with ports := put s.ports n { p with replays := rs } } ∧
        (∀ u ∈ (q, m) :: vs, lookD rs u.1 0 = lookD p.replays u.1 0 + 1) ∧ ∀ u ∈ us, lookD rs u.1 0 = lookD p.replays u.1 0) ∧
      ((∃ u ∈ (q, m) :: vs, 16 ≤ lookD p.replays u.1 0) → exec (.linkNakReplay n q) s =
        .next { s with ports := put s.ports n { p with retrain := true } })) ∧
    (∀ us vs m, p.unacked = us ++ (q, m) :: vs → (∀ u ∈ us, u.1 ≠ q) → (∀ e ∈ s.peers, e.2.owed = []) →
      ∃ t rs, exec (.flitAck n q) s = .next t ∧ t = { s with ports := t.ports } ∧
        lookD t.ports n Port.reset = { p with unacked := vs, replays := rs }) ∧
    (p.retrain = true → ((∀ e ∈ s.peers, e.2.owed = []) →
        exec (.portRetrain n true) s = .next { s with ports := put s.ports n { p with retrain := false, replays := [] } }) ∧
      ∃ t, exec (.portRetrain n false) s = .next t ∧ n ∉ t.ready.ports ∧ n ∉ t.readyNow.ports ∧
        (∀ m, m ≠ n → (m ∈ t.ready.ports ↔ m ∈ s.ready.ports)) ∧
        lookD t.ports n Port.reset = { p with retrain := false, replays := [], unacked := [] } ∧
        ∀ m k, (∀ e ∈ s.peers, e.2.owed = []) → p.unacked = [(q, m)] → t.readyNow.ports[m % t.readyNow.ports.length]? = some k →
          let y := lookD s.ports k Port.reset
          y.retrain = false → y.unacked.length < 256 →
            lookD t.ports k Port.reset = { y with unacked := y.unacked ++ [(y.nextSeq, m)], nextSeq := (y.nextSeq + 1) % 1024 })) ∧
  (∀ (s : State) (m : Nat) (o : PeerOut), let x := lookD s.peers m Peer.reset
    x.out = [o] → o.sentAt + s.retryNs * 21 ≤ s.now →
    (∀ u, o.resent < 8 → s.sendFlit m = some u → ∃ t, exec (.peerRetransmitTimeout m) s = .next t ∧ t.mem = s.mem ∧ t.ports = u.ports ∧
      lookD t.peers m Peer.reset = { x with out := [{ o with resent := o.resent + 1, sentAt := s.now }] }) ∧
    (8 ≤ o.resent → o.req.kind = .mem .load → o.req.wave < 147456 → ∃ t e, exec (.peerRetransmitTimeout m) s = .next t ∧ t.mem = s.mem ∧
      lookD t.peers m Peer.reset = { x with out := [] } ∧ t.resps = s.resps ++
        [⟨o.req.wave, o.req.cid, o.req.pcore, o.req.op, [], o.req.accs.map fun a => (a.lane, a.va), false, none, false, none,
          decide (4000 ≤ o.req.home), [], 0⟩] ∧
      logged s t (dieOf o.req.pcore) e ∧ e.cause = 0x14 ∧ e.src = 6 ∧ e.addr = m)) ∧
  ∀ (s : State) (m q : Nat) (op : PeerOp), m < 1000 → let x := lookD s.peers m Peer.reset
    (seqBefore q x.low = true → exec (.peerRequestArrival m q op) s = .next s) ∧
    (seqBefore q x.low = false → peerIsLoad op = false → look x.records q = none → x.waiting = [] →
      (512 ≤ x.records.length → exec (.peerRequestArrival m q op) s = .next s) ∧
      (x.records.length < 512 → q ≠ x.nextIn → exec (.peerRequestArrival m q op) s =
        .next { s with peers := put s.peers m { x with records := put x.records q none, waiting := [(q, op)] } }) ∧
      (x.records.length < 512 → q = x.nextIn → exec (.peerRequestArrival m q op) s = .next { s with
          peers := put s.peers m { x with records := put x.records q none, nextIn := (q + 1) % 2 ^ 32 }
          reqs := s.reqs ++ [{ peerOpReq m q op with id := s.nextId, born := s.now }]
          nextId := s.nextId + 1 })) ∧
    (seqBefore q x.low = false → peerIsLoad op = true → x.waiting = [] →
      (q ≠ x.nextIn → seqBefore q x.nextIn = false → exec (.peerRequestArrival m q op) s =
        .next { s with peers := put s.peers m { x with waiting := [(q, op)] } }) ∧
      (q = x.nextIn ∨ seqBefore q x.nextIn = true → ∃ t, exec (.peerRequestArrival m q op) s = .next t ∧
        t = { s with peers := t.peers, reqs := s.reqs ++ [{ peerOpReq m q op with id := s.nextId, born := s.now }], nextId := s.nextId + 1 } ∧
        lookD t.peers m Peer.reset = { x with nextIn := if q = x.nextIn then (q + 1) % 2 ^ 32 else x.nextIn })) ∧
    (∀ k r i key size, s.front k = some r → applies s k r i → size ≤ 8 → x.owed = [] →
      r = { peerOpReq m q (.load key size) with id := r.id, refusals := r.refusals, tickets := r.tickets, retryAt := r.retryAt, born := r.born } →
      ∃ t, exec i s = .next t ∧ t.mem = s.mem ∧ t.reqs = s.reqs.eraseIdx k ∧
        (lookD t.peers m Peer.reset).waiting = (x.waiting.filter fun e => e.1 != q) ∧
        responded t m x (List.replicate (1 + (x.waiting.filter fun e => e.1 == q).length) (q, [s.num size key]))) ∧
    (∀ vals, seqBefore q x.low = false → look x.records q = some (some vals) → peerIsLoad op = false → x.owed = [] →
      ∃ t, exec (.peerRequestArrival m q op) s = .next t ∧ t.mem = s.mem ∧ t.reqs = s.reqs ∧ responded t m x [(q, vals)]) ∧
    (seqBefore q x.low = false → exec (.peerAck m q) s = .next { s with peers := put s.peers m { x with
      low := (q + 1) % 2 ^ 32
      records := x.records.filter fun r => !seqBefore r.1 ((q + 1) % 2 ^ 32)
      waiting := x.waiting.filter fun r => !seqBefore r.1 ((q + 1) % 2 ^ 32)
      replies := x.replies.filter fun r => !seqBefore r.1 ((q + 1) % 2 ^ 32) } })

/-! ## Pre-emption, saved contexts, migration -/

/-- Nothing is in flight in a wave: no result, no open operation, no wait (R370). -/
def Sys2Proof.Machine.still (w : Wave) : Prop := w.pend = [] ∧ w.ops = [] ∧ w.park = .none ∧ w.under = .none ∧ w.oplog = []

/-- R21, R22, R369 to R374. A request names every wave of its consignments that can be stopped on the core; the debugger names DEBUG consignments only.
Each request has its own time. After 2 µs a named wave stops, a lead before those that follow it, and a trap that falls there is taken first: for the
debugger it stays halted with all its registers, for any other cause it is saved as a context, and its
rows are free; the context holds all its registers, or those marked live where it stopped at a safe point under the conditions of R22. An answer that comes later is kept with the context, and a restore gives the wave its registers, its PCs and its granules
back.
The model's own choice of log 38 bears on it. -/
def Obligations.Preemption : Prop :=
  (∀ (s : State) (p n : Nat) (cids : List Nat) (src : PreemptSource) (w : Wave), s.rails = .on → (n, w) ∈ s.waves → coreOfWave n = p →
    w.resident = true → w.cid ∈ cids → (src = .debugger → ∃ c, s.con w.cid = some c ∧ c.debug = true) →
    ∃ t x, exec (.preemptionRequest p cids src) s = .next t ∧ t.mem = s.mem ∧ t.waves = s.waves ∧ x ∈ (t.core p).preempt ∧ n ∈ x.waves ∧
      x.source = src ∧ ((∀ y ∈ (s.core p).preempt, y.source = src → n ∉ y.waves) → x.since = s.now) ∧
      ∀ y ∈ (s.core p).preempt, y ∈ (t.core p).preempt) ∧
  (∀ (s : State) (p n : Nat) (x : Preempt) (w : Wave), (s.core p).preempt = [x] → x.waves = [n] → x.since + 42000 ≤ s.now →
    coreOfWave n = p → s.wave n = some w → w.life = .running → still w → s.leadRuns n w = false →
    (∀ h g c, x.source = .debugger → s.con w.cid = some c → w.ctl.hmode = false → w.ctl.handler = some h → usable c h → w.ctl.held = [g] →
      g.code < 256 → toDebugger c g.code = false → w.convoy.width = none →
      (if g.lane then w.sched.holdL = .none else w.sched.holdS = .none) →
      ∃ t y, exec (.preemptStopDeadline p) s = .next t ∧ t.mem = s.mem ∧ t.wave n = some y ∧ y.life = .halted ∧ y.spc = h ∧
        y.ctl.hmode = true ∧ y.ctl.xcause.toNat % 256 = g.code ∧ y.ctl.held = []) ∧ (w.ctl.held = [] →
    (x.source = .debugger → ∃ t y, exec (.preemptStopDeadline p) s = .next t ∧ t.mem = s.mem ∧ t.wave n = some y ∧ y.life = .halted ∧
      y.regs = w.regs ∧ y.ctl = w.ctl ∧ y.spc = w.spc ∧ y.sched.active = false ∧ (t.core p).preempt = []) ∧
    ∀ c, x.source ≠ .debugger → x.source ≠ .migration → s.con w.cid = some c → (s.waves.map Prod.fst).Pairwise (· < ·) →
      (∀ r ∈ s.reqs, r.wave ≠ n) → (∀ r ∈ s.resps, r.wave ≠ n) → (s.core p).mx.pass = [] → (s.core p).cpRun = none → (s.core p).lvRun = none →
      ∃ t id y, exec (.preemptStopDeadline p) s = .next t ∧ t.mem = s.mem ∧ t.wave n = none ∧ look t.ctxs id = some y ∧ y.fromW = n ∧
        y.frozen = false ∧ y.wave.life = .halted ∧ y.wave.spc = w.spc ∧ y.wave.cid = w.cid ∧ ((s.settle n).safeNow n = none → y.whole = true ∧ y.wave.regs = w.regs) ∧
        (∀ m, (s.settle n).safeNow n = some m → y.whole = false ∧ y.wave.regs = w.regs.keep m) ∧
        (∀ l ∈ (t.core p).leases, l.wave ≠ n) ∧ (t.core p).preempt = [])) ∧
  (∀ (s : State) (k : Nat) (r : Resp) (x : Context), s.resps[k]? = some r → ctxBase ≤ r.wave → r.ack = none →
    look s.ctxs (r.wave - ctxBase) = some x → exec (.lateResponseToContext k) s = .next { s with
      resps := s.resps.eraseIdx k, ctxs := put s.ctxs (r.wave - ctxBase) { x with answers := x.answers ++ [r] } }) ∧
  ∀ (s : State) (id p m : Nat) (x : Context) (c : Cons) (ls : List Lease), s.memOk = true → s.ctxs = [(id, x)] → s.con x.wave.cid = some c →
    c.phys x.wave.lcore = some p → x.frozen = false → s.rails = .on → s.coreReady p = true → dieOf p = dieOf (coreOfWave x.fromW) →
    (∃ y ∈ (s.core p).slots, y.cid = x.wave.cid) → x.chan = none → s.pc.shed = [] → s.moves = [] → s.held = [] → x.cmds = [] → x.held = [] →
    x.answers = [] → still x.wave → x.wave.shedding = false → (x.bytes.map Prod.fst).Nodup →
    planBack (s.core p).leases p x.fromW x.wave x.granules = some (ls, m) →
    ∃ t y, exec (.contextRestore id p) s = .next t ∧ t.ctxs = [] ∧ t.wave m = some y ∧ y.life = .running ∧ y.regs = x.wave.regs ∧
      y.spc = x.wave.spc ∧ y.lpc = x.wave.lpc ∧ y.laneQ = x.wave.laneQ ∧ (t.core p).leases = ls ∧
      ∀ e ∈ x.bytes, Memory.get t.mem (spadKey p e.1) = e.2

/-- R375 to R380. A request leases the unit's rows on the target. A wave stops at its honour point, and after 1 ms those that have not are
pre-empted. The move maps the logical core to the target, leaves a stub at the old core; when the first of its waves goes on, a record with the time since the request is appended to the log. The stub
forwards requests resolved before it, oldest first; it goes when every core has acknowledged and no command of the unit still runs there.
The model's own choice of log 38 bears on it. -/
def Obligations.Migrations : Prop :=
  (∀ (s : State) (cid l b reason : Nat) (ls : List Lease) (ms : List (Nat × Nat)), let a := s.coreOf cid l
    s.unit cid l ≠ [] → s.rails = .on → a ≠ b → dieOf a = dieOf b → s.coreReady b = true → s.moves = [] → (s.core b).stubs = [] →
    ((∃ x ∈ (s.core b).slots, x.cid = cid) ∨ (s.core b).slots.length < 16) → routeRoom (s.core a) (s.core b) cid l = true →
    planUnit (s.core a) b (s.core b).leases (s.unit cid l) = some (ls, ms) →
    ∃ t, exec (.migrationRequest cid l b reason) s = .next t ∧ t.mem = s.mem ∧ t.waves = s.waves ∧ (t.core b).leases = ls ∧
      t.moves = [⟨cid, l, b, reason, s.now, [], ms, false⟩]) ∧
  (∀ (s : State) (n : Nat) (w : Wave) (m : Migration), s.wave n = some w → w.life = .running → w.edge = .arrive → still w → w.ctl.held = [] → m ∈ s.moves →
    m.cid = w.cid → m.lcore = w.lcore → ∃ t y, exec (.honourPointStop n) s = .next t ∧ t.mem = s.mem ∧ t.wave n = some y ∧
      y.life = .halted ∧ y.regs = w.regs ∧ y.spc = w.spc ∧ ∃ x ∈ t.moves, x.cid = m.cid ∧ x.lcore = m.lcore ∧ n ∈ x.stopped) ∧
  (∀ (s : State) (cid l : Nat) (m : Migration), s.moves = [m] → m.cid = cid → m.lcore = l → m.late = false → m.since + 21000000 ≤ s.now →
    s.unitStopped m = false → s.rails = .on → ∃ t, exec (.migrationDeadline cid l) s = .next t ∧ t.mem = s.mem ∧
      t.moves = [{ m with late := true }] ∧ ∀ e ∈ s.unit cid l, e.2.resident = true → e.1 ∉ m.stopped →
        ∃ x ∈ (t.core (coreOfWave e.1)).preempt, x.source = .migration ∧ e.1 ∈ x.waves) ∧
  (∀ (s : State) (cid l : Nat) (m : Migration), s.moves = [m] → m.cid = cid → m.lcore = l →
    (s.unit cid l = [] → ∃ t, exec (.migrationMove cid l) s = .next t ∧ t.moves = [] ∧ t.mem = s.mem ∧ t.waves = s.waves ∧ t.cons = s.cons) ∧
    ∀ c, let a := s.coreOf cid l
      s.con cid = some c → l < 1536 → s.unit cid l ≠ [] → s.mayMove m (s.unit cid l) = true →
      (∀ u ∈ s.unit cid l, ∃ e ∈ m.map, e.1 = u.1) →
      ∃ t y r, exec (.migrationMove cid l) s = .next t ∧ t.moves = [] ∧ t.con cid = some y ∧ y.phys l = some m.target ∧
        (∃ x ∈ (t.core a).stubs, x.cid = cid ∧ x.lcore = l ∧ x.target = m.target ∧
          ∀ u ∈ s.unit cid l, ∀ z ∈ (s.core a).leases, z.kind = 4 → z.wave = u.1 → z.row ∈ x.granules) ∧
        (⟨cid, m.since, { r with ns := 0 }⟩ ∈ t.moved ∨
          look t.migLog ((t.migHead + 2 ^ 32 - 1) % 2 ^ 32 % 1024) = some r) ∧ r.tag = c.man.tag ∧ r.lcore = l ∧ r.from_ = a ∧ r.dest = m.target ∧
        r.reason = m.reason ∧ r.late = m.late ∧ r.waves = (s.unit cid l).length ∧ r.ns = (s.now - m.since) / 21) ∧
  (∀ (s : State) (m : Moved), s.moved = [m] →
    (s.standsStill m = true → s.logMoved = s) ∧
    (s.standsStill m = false → s.logMoved = { s with
      moved := []
      migLog := put s.migLog (s.migHead % 1024) { m.entry with ns := (s.now - m.since) / 21 }
      migOvf := s.migOvf || decide (1024 ≤ (s.migHead + 2 ^ 32 - s.migRd) % 2 ^ 32)
      migHead := (s.migHead + 1) % 2 ^ 32 })) ∧
  (∀ (s : State) (k : Nat) (r : Req) (x : Stub), s.reqs[k]? = some r → homeIsSpad r.home = true →
    (s.core (homeCore r.home)).stubs = [x] → s.ofStub x r = true → r.id < x.since → (∀ q ∈ s.reqs.take k, q.home = r.home → s.ofStub x q = false) →
    exec (.stubForward k) s = .next { s with reqs := s.reqs.set k { r with
      home := 1000 + x.target, accs := r.accs.map fun y => { y with key := spadKey x.target (keyOff y.key) } } }) ∧
  (∀ (s : State) (p q : Nat), (∀ r ∈ s.reqs, r.pcore = q → r.home ≠ 1000 + p) → ∃ t, exec (.tableUpdateAck p q) s = .next t ∧
    t = { s with cores := t.cores } ∧ (t.core p).stubs = (s.core p).stubs.map fun x => { x with unacked := x.unacked.filter fun n => n != q }) ∧
  ∀ (s : State) (p : Nat), ∃ t, exec (.stubRetire p) s = .next t ∧ t = { s with cores := t.cores } ∧
    (t.core p).stubs.Sublist (s.core p).stubs ∧
    (∀ x ∈ (s.core p).stubs, x.unacked ≠ [] ∨ s.stillRunning p x.cid x.lcore ≠ 0 → x ∈ (t.core p).stubs) ∧
    ∀ x ∈ (t.core p).stubs, x.unacked ≠ [] ∨ s.stillRunning p x.cid x.lcore ≠ 0

/-! ## Power, heat and the module -/

/-- R384 to R391. A valid frame is recorded, and the allowance and the curve cadence follow from it; a class whose SHED is above the allowance is
shed. An invalid one is counted. After 500 µs without one the telemetry is stale, and the allowance is the lower of FAILSAFE and LIMIT, as a write
leaves them. A COMMIT with points out of order is refused. Each
millisecond the limit loop moves its cadence, and the greater of the two cadences is applied. A wave of a shed class that has not parked
after 500 µs is pre-empted; a class whose RESTORE has held for HOLD runs again.
The model's own choice of log 39 bears on it. -/
def Obligations.Telemetry : Prop :=
  (∀ (s : State) (f : List Byte), let p := s.pc.activate
    let num := fun i n => ofBytes ((f.drop i).take n)
    let a := p.allowance (num 2 4) (num 6 4) ((num 10 2).testBit 1)
    (frameValid f = false → exec (.telemetryFrame f) s = .next { s with pc := { p with crcErr := min 0xFFFF (p.crcErr + 1) } }) ∧
    (frameValid f = true → ∃ t, exec (.telemetryFrame f) s = .next t ∧ t.mem = s.mem ∧ t.pc.freq = num 2 4 ∧ t.pc.volt = num 6 4 ∧
      t.pc.state = num 10 2 ∧ t.pc.seq = num 1 1 ∧ t.pc.stale = false ∧ t.pc.lastAt = some s.now ∧ t.pc.allow = a ∧
      t.pc.cadc = (if (p.pmx : Int) ≤ a - p.pbase then 1 else if a ≤ p.pbase then 16
        else min 16 ((p.pmx + (a - p.pbase).toNat - 1) / (a - p.pbase).toNat)) ∧
      ∀ c k, 1 ≤ c → c ≤ 7 → look p.actC c = some k → k.shedAt ≠ 0 → c ∉ p.shed → a < k.shedAt → c ∈ t.pc.shed ∧
        ∀ n w, s.wave n = some w → w.pclass = c → ∃ x, t.wave n = some x ∧ x.shedding = true ∧ x.regs = w.regs)) ∧
  (∀ (s : State) (d : Nat), s.pc.lastAt = some d → s.pc.stale = false → d + 10500000 ≤ s.now →
    ∃ t, exec .telemetryStale s = .next t ∧ t.mem = s.mem ∧ t.pc.stale = true ∧ t.pc.allow = ((min s.pc.failsafe s.pc.limit : Nat) : Int)) ∧
  (∀ (s : State) (a v : Nat), s.pc.stale = true → 0x090004000000 ≤ a → a < 0x090004001000 → a ≠ 0x090004000030 →
    ∃ t, exec (.controlRegisterWrite true a 4 v) s = .next t ∧ t.mem = s.mem ∧ t.pc.stale = true ∧
      t.pc.allow = ((min t.pc.failsafe t.pc.limit : Nat) : Int)) ∧
  (∀ (s : State), let bad := ascending s.pc.curveX = false ∨ ∃ c ∈ s.pc.classes, c.2.shedAt ≠ 0 ∧ c.2.restore ≤ c.2.shedAt
    (bad → exec .pcCommit s = .next { s with pc := { s.pc with badCurve := true } }) ∧
    (¬ bad → exec .pcCommit s = .next { s with pc := { s.pc with commit := some ((s.pc.curveX, s.pc.curveP), s.pc.classes) } })) ∧
  (∀ (s : State), let p := s.pc
    let grown := (p.energy.getD 0 0 + 2 ^ 64 - p.lastE) % 2 ^ 64
    let under := if grown < 1000 * (p.limit - 200) then min 10 (p.under + 1) else 0
    p.limitAt + 21000000 ≤ s.now → ∃ t, exec .limitLoopPeriod s = .next t ∧ t = { s with pc := t.pc } ∧ t.pc.under = under ∧
      t.pc.cadl = (if 1000 * p.limit < grown then min 16 (p.cadl + 1) else if under = 10 then max 1 (p.cadl - 1) else p.cadl) ∧
      t.pc.limitAt = p.limitAt + 21000000 ∧ t.pc.lastE = p.energy.getD 0 0) ∧
  (∀ (s : State), exec .cadenceApply s = .next { s with pc := { s.pc with cad := max s.pc.cadc s.pc.cadl } }) ∧
  (∀ (s : State) (n d : Nat) (w : Wave), s.wave n = some w → s.rails = .on → look s.pc.shedAt w.pclass = some d → w.shedding = true →
    w.life = .running → d + 10500000 ≤ s.now → s.leadParked n w = false →
    ∃ t x, exec (.shedParkDeadline n) s = .next t ∧ t.mem = s.mem ∧ t.waves = s.waves ∧ x ∈ (t.core (coreOfWave n)).preempt ∧
      n ∈ x.waves ∧ x.source = .shedding) ∧
  ∀ (s : State) (c d : Nat), look s.pc.holdFrom c = some d → c ∈ s.pc.shed → s.pc.shed.Pairwise (· < ·) → s.rails = .on →
    d + 21000 * (lookD s.pc.actC c ⟨0, 0, 0⟩).hold ≤ s.now →
    ∃ t, exec (.classRestore c) s = .next t ∧ t.mem = s.mem ∧ c ∉ t.pc.shed ∧ (∀ k, k ≠ c → (k ∈ t.pc.shed ↔ k ∈ s.pc.shed)) ∧
      ∀ n w, s.wave n = some w → ∃ x, t.wave n = some x ∧ x.regs = w.regs ∧ (w.pclass ≠ c → w.life ≠ .restored → x = w) ∧
        (w.pclass = c → x.shedding = false ∧ (w.life = .parked → s.moves = [] → s.ctxs = [] → s.held = [] → x.life = .running))

/-- R8, R9, R385, R392 to R399, R402. A band's clock runs at the lowest ratio asked for, and its cycle count goes on. A `sleep` ends at its deadline,
under a handler too.
The accumulators grow modulo 2^64; a read of the low half latches the high half for its reader. A sample at WARN raises one event, one at
THROTTLE throttles the band, one at CRITICAL begins an emergency save; a throttle is released after 1 ms below its threshold. Only a service
core sets the thresholds, and none above its limit; a read of their register gives them with every reserved bit zero, and one of the
write-only command register gives zero.
The model's own choices of log 39, 40, 66 bear on it. -/
def Obligations.BandsAndHeat : Prop :=
  (∀ (s : State) (b : Nat), let x := { s.band b with near := (s.band b).nearNow s.now }
    let r := if x.near = true then 2 else if x.throttle = true then 1 else 0
    ∃ t, exec (.bandRatioChange b) s = .next t ∧ t = { s with bands := t.bands } ∧ (t.band b).ratio = r ∧ (t.band b).near = x.near ∧
      (∀ p, bandOf p = b → t.clk p = s.clk p) ∧ ∀ a, a ≠ b → t.band a = s.band a) ∧
  (∀ (s : State) (n d : Nat) (w : Wave), s.wave n = some w → w.park = .sleep d → w.under = .none →
    (d ≤ s.nsc → exec (.timedWaitDeadline n) s = .next (s.setWave n { w with park := .none })) ∧
    (s.nsc < d → ∃ t, exec (.timedWaitDeadline n) s = .next t ∧ t.wave n = some w)) ∧
  (∀ (s : State) (n d : Nat) (w : Wave), s.wave n = some w → w.park = .none → w.under = .sleep d → d ≤ s.nsc →
    exec (.timedWaitDeadline n) s = .next (s.setWave n { w with under := .none })) ∧
  (∀ (s : State) (incs : List Nat), incs.length = s.pc.energy.length → ∃ t, exec (.energyUpdate incs) s = .next t ∧
    (∀ (i e x : Nat), s.pc.energy[i]? = some e → incs[i]? = some x → t.pc.energy[i]? = some ((e + x) % 2 ^ 64)) ∧
    t = { s with pc := { s.pc with energy := t.pc.energy } }) ∧
  (∀ (s : State) (r n : Nat), n < 10 → let e := s.pc.energy.getD n 0
    (∃ t, exec (.energyLoRead r n) s = .next t ∧ look t.reads r = some (wordN (e % 2 ^ 32)) ∧ t.pc.snap r n = e / 2 ^ 32 ∧
      t.pc.energy = s.pc.energy ∧ (∀ q m, (q, m) ≠ (r, n) → t.pc.snap q m = s.pc.snap q m) ∧ t = { s with reads := t.reads, pc := t.pc }) ∧
    (∃ t, exec (.energyHiRead r n) s = .next t ∧ look t.reads r = some (wordN (s.pc.snap r n)) ∧ t = { s with reads := t.reads }) ∧
    ∃ t, exec (.energy64Read r n) s = .next t ∧ look t.reads r = some (wordN e) ∧ t.pc.snap r n = e / 2 ^ 32 ∧ t.pc.energy = s.pc.energy) ∧
  (∀ (s : State) (p : Nat) (c : Int), p < 1536 → ∃ t, exec (.tempSample p c) s = .next t ∧ t.mem = s.mem ∧ t.waves = s.waves ∧
    (t.core p).temp = c ∧ (s.pc.warn ≤ c → (t.core p).warned = true ∧
      t.events = if (s.core p).warned = true then s.events else s.events ++ [(1, p + 2 ^ 16 * c.toNat)]) ∧
    (c < s.pc.warn → t.events = s.events) ∧ (c < (s.pc.warn : Int) - 32 → (t.core p).warned = false) ∧
    (s.pc.throttle ≤ c → (t.band (bandOf p)).throttle = true) ∧
    (s.pc.critical ≤ c → s.pc.critAt = none → t.pc.critAt = some s.nsc) ∧ (c < s.pc.critical → t.pc = s.pc)) ∧
  (∀ (s : State) (b d : Nat), (s.band b).coolSince = some d → (s.band b).throttle = true → d + 21000000 ≤ s.now →
    exec (.throttleRelease b) s = .next { s with bands := put s.bands b { s.band b with throttle := false } }) ∧
  (∀ (s : State) (service : Bool), s.dwen.recovery = false → look (s.controlRead service 0x090004000300).reads 0x090004000300 =
      some (wordN (s.pc.warn % 65536 + s.pc.throttle % 65536 * 65536 + s.pc.critical % 65536 * 2 ^ 32)) ∧
    look (s.controlRead service 0x090004000030).reads 0x090004000030 = some 0) ∧
  ∀ (s : State) (v : Nat), exec (.controlRegisterWrite false 0x090004000300 8 v) s = .next s ∧ (s.pc.stale = false →
    ∃ t, exec (.controlRegisterWrite true 0x090004000300 8 v) s = .next t ∧ t = { s with pc := t.pc } ∧
      t.pc.throttle = (if v / 65536 % 65536 ≤ 0x0690 then v / 65536 % 65536 else s.pc.throttle) ∧
      t.pc.critical = (if v / 2 ^ 32 % 65536 ≤ 0x0730 then v / 2 ^ 32 % 65536 else s.pc.critical) ∧
      t.pc.warn = (if v % 65536 < t.pc.throttle then v % 65536 else s.pc.warn))

/-- R342, R399 to R402, R406, R409 to R414. A critical sample's save stops every wave and takes the next number; each step writes one context and marks its entry; when every context is written the
directory is marked and the power goes. A hard trip loses HBM, the scratchpads and the waves, and keeps what lies elsewhere. A module reset
brings every register to its reset value and keeps memory. A unit that passes its test is ready from the next cycle on, a core once its
router has passed too; a router that
fails is in bypass, without power gating, and its core is not ready. After a save the directory's reports are
posted, and on request a consignment of a tag is restored where its waves are all complete, and else recorded with status 1. Firmware runs when its image is good, and else the module is in
recovery; a nonce is answered with a report and its signature. A log takes the entries of one cycle in the order of core and slot, each under
its number, and an entry over an unread one sets OVF.
The model's own choices of log 7, 41, 42, 43, 54, 67 bear on it. -/
def Obligations.ModuleEvents : Prop :=
  (∀ (s : State) (d : Nat) (r : LogRec), let c := s.now / 12
    let old := (s.die d).entriesOf c
    let x := (s.log d r).die d
    s.log d r = { s with dies := (s.log d r).dies, events := s.events ++ [(0, d)] } ∧ x.head = ((s.die d).head + 1) % 2 ^ 32 ∧
    (64 ≤ ((s.die d).head + 2 ^ 32 - (s.die d).rd) % 2 ^ 32 → x.ovf = true) ∧
    (old.Pairwise (fun a b => b.before a = false) → (x.entriesOf c).Pairwise fun a b => b.before a = false) ∧
    ((x.entriesOf c).map fun e => { e with seq := 0 }).Perm (({ r with ns := s.nsc, seq := 0 }) :: old.map fun e => { e with seq := 0 }) ∧
    (old.length < 64 → ∀ i e, (x.entriesOf c)[i]? = some e →
      e.seq = ((s.die d).head + 2 ^ 32 - old.length + i) % 2 ^ 32 ∧ look x.log (e.seq % 64) = some e)) ∧
  (∀ (s : State) (ns : Nat), s.rails = .on → s.pc.critAt = some ns → (s.waves.map Prod.fst).Nodup →
    (∀ e ∈ s.waves, still e.2 ∧ e.2.ctl.held = []) →
    ∃ t l, exec .emergencySave s = .next t ∧ t.rails = .saving ((s.num 4 (s.pc.esKey 4) + 1) % 2 ^ 32) 0 l ∧ t.moves = [] ∧
      ((∀ e ∈ s.waves, e.1 < ctxBase) → s.ctxs = [] → ∀ e ∈ s.waves, e.2.resident = true → (e.1, Option.none) ∈ l) ∧
      ∀ n w, s.wave n = some w → ∃ x, t.wave n = some x ∧ x.regs = w.regs ∧ x.spc = w.spc ∧ x.life ≠ .running ∧ x.life ≠ .restored ∧
        x.life ≠ .parked ∧ x.shedding = false) ∧
  (∀ (s : State) (n i id m : Nat) (l : List (Nat × Option Nat)) (x : Context), s.rails = .saving n i l → l[i]? = some (m, some id) →
    look s.ctxs id = some x → s.memOk = true → n < 2 ^ 32 →
    ∃ t, exec .emergencySave s = .next t ∧ t.rails = .saving n (i + 1) l ∧ look t.ctxs id = some { x with frozen := true } ∧
      t.num 4 (s.pc.esKey (64 + 32 * i + 28)) = n ∧ t.waves = s.waves) ∧
  (∀ (s : State) (n i m : Nat) (l : List (Nat × Option Nat)), s.rails = .saving n i l → l[i]? = some (m, none) → s.wave m = none →
    exec .emergencySave s = .next { s with rails := .saving n (i + 1) l }) ∧
  (∀ (s : State) (n i : Nat) (l : List (Nat × Option Nat)), s.rails = .saving n i l → l.length ≤ i → ∃ t, exec .emergencySave s = .next t ∧ t.rails = .saved ∧
    t.waves = [] ∧ t.cons = s.cons ∧ t.ctxs = s.ctxs ∧ (keyIsHbm (s.pc.esKey 12) = false → keyIsSpad (s.pc.esKey 12) = false →
      s.memOk = true → n < 2 ^ 32 → (∀ k, k < 4 → keyIsHbm (s.pc.esKey 12 + k) = false ∧ keyIsSpad (s.pc.esKey 12 + k) = false) →
      t.num 4 (s.pc.esKey 12) = n)) ∧
  (∀ (s : State), s.rails ≠ .saved → ∃ t, exec .hardTrip s = .next t ∧ t.rails = .tripped ∧ t.waves = [] ∧ t.cores = [] ∧ t.reqs = [] ∧
    t.queues = s.queues ∧ (∀ k, keyIsHbm k = true ∨ keyIsSpad k = true → Memory.get t.mem k = 0) ∧
    ∀ k, keyIsHbm k = false → keyIsSpad k = false → Memory.get t.mem k = Memory.get s.mem k) ∧
  (∀ (s : State), ∃ t, exec .moduleReset s = .next t ∧ t.mem = s.mem ∧ t.waves = [] ∧ t.full = [] ∧ t.cores = [] ∧ t.queues = [] ∧
    t.pc = Power.reset ∧ t.rails = .on ∧ t.now = 0 ∧ t.ready = State.reset.ready ∧ t.dies = [] ∧ t.saved = s.saved ∧ (s.saved = [] → t.ctxs = [] ∧ t.cons = []) ∧
    ∀ e ∈ s.cons, s.atRest e.1 = true → e ∈ t.cons) ∧
  (∀ (s : State) (u : SelfTestUnit), unitExists u = true → u ∉ s.ready.tested → s.barred u = false →
    ∃ t, exec (.selfTestDone u true) s = .next t ∧ t.ready.tested = s.ready.tested ++ [u] ∧ t.mem = s.mem ∧ t.readyNow = s.readyNow ∧
      t.ready.done = (s.ready.done || decide (unitCount ≤ s.ready.tested.length + 1)) ∧
      let open_ := fun p => s.bypass.contains p = false ∧ (s.die (dieOf p)).noRoute.contains (p % 384) = false
      match u with
      | .core p => p ∈ t.ready.good ∧ (p ∈ t.ready.cores ↔ p ∈ s.ready.cores ∨ .router p ∈ s.ready.tested ∧ open_ p)
      | .engine p e => engineBit p e ∈ t.ready.engines
      | .stack n => n ∈ t.ready.hbm
      | .lpddr n => n ∈ t.ready.lpddr
      | .port n => n ∈ t.ready.ports
      | .service n => n ∈ t.ready.service
      | .router p => t.bypass = s.bypass ∧ (p ∈ t.ready.cores ↔ p ∈ s.ready.cores ∨ p ∈ s.ready.good ∧ open_ p)) ∧
  (∀ (s : State) (p : Nat), p < 1536 → .router p ∉ s.ready.tested → s.ready.cores.Pairwise (· < ·) →
    ∃ t, exec (.selfTestDone (.router p) false) s = .next t ∧ p ∈ t.bypass ∧ p ∉ t.ready.cores ∧ t.router p = .on s.now) ∧
  (∀ (s : State), s.rails = .on →
    (s.num 4 (s.pc.esKey 0) = 0x31445345 → exec .restartAfterSave s =
      .next { s with restarts := s.reportsOf (s.num 4 (s.pc.esKey 4)) (s.num 4 (s.pc.esKey 8)) }) ∧
    (s.num 4 (s.pc.esKey 0) ≠ 0x31445345 → exec .restartAfterSave s = .next s)) ∧
  (∀ (s : State) (tag : Nat) (r : Restart), s.restarts = [r] → r.tag = wordN tag →
    ((∀ cid ∈ s.savedCons (wordN tag), s.incompleteOf cid = 0) → ∃ t, exec (.restoreRequest tag) s = .next t ∧ t.restarts = [] ∧
      t.mem = s.mem ∧ t.cons = s.cons ∧ ∀ id x, look s.ctxs id = some x →
        ∃ y, look t.ctxs id = some y ∧ y.wave = x.wave ∧ (x.wave.cid ∈ s.savedCons (wordN tag) → y.frozen = false)) ∧
    ∀ cid c, s.savedCons (wordN tag) = [cid] → s.con cid = some c → s.incompleteOf cid ≠ 0 →
      let u := ({ s with restarts := [] }).record cid { c with status := 1, killed := s.incompleteOf cid }
      ∃ t, exec (.restoreRequest tag) s = .next t ∧ t = { u with ctxs := t.ctxs } ∧ ∀ e ∈ t.ctxs, e.2.wave.cid ≠ cid) ∧
  (∀ (s : State) (i : FirmwareImage), s.dwen.recovery = false →
    (imageGood i = false → exec (.firmwareVerify i) s = .next { s with dwen := { s.dwen with recovery := true } }) ∧
    (imageGood i = true → ∃ m, exec (.firmwareVerify i) s = .next { s with dwen := { s.dwen with
        chain := s.dwen.chain ++ [m], running := s.dwen.running ++ [i.version] } } ∧
      m = shake256 (s.dwen.chain.getLast?.getD (List.replicate 64 0) ++ i.digest))) ∧
  (∀ (s : State) (d p : Nat) (tag : Word), ((s.corrected d).die d).ce = min (2 ^ 32 - 1) ((s.die d).ce + 1) ∧
    look (s.tempRead p).reads (2 ^ 48 + p) = some (BitVec.ofInt 64 (s.core p).temp) ∧
    ∀ r, s.restarts.find? (fun r => r.tag == tag) = some r →
      look (s.restartRead tag).reads (2 ^ 64 + tag.toNat) = some (wordN (r.complete % 2 ^ 32 + r.incomplete % 2 ^ 32 * 2 ^ 32))) ∧
  ∀ (s : State) (nonce : List Byte),
    (nonce.length = 32 → ∃ r, exec (.attestationRequest nonce) s = .next { s with dwen := { s.dwen with
      report := some (r, identitySign r) } } ∧ r.take 32 = nonce ∧ r.drop (r.length - 1952) = identityKey ∧ (identitySign r).length = 3309) ∧
    (nonce.length ≠ 32 → exec (.attestationRequest nonce) s = .next s)
end

