-- ==== Sys2Proof/Laws/Arrays.lean ====
section
/-! SUPPORT. What the sparse arrays and the tag list do: reading after writing, and the orders they keep. -/

namespace Sys2Proof.Machine

/-- Reading the entry just written. -/
@[simp] theorem look_put_same {α : Type} (l : Arr α) (n : Nat) (v : α) : look (put l n v) n = some v := by
  induction l with
  | nil => simp [put, look]
  | cons x l ih =>
    unfold put
    split
    · simp [look]
    · split
      · simp [look]
      · rw [look, if_neg (by rintro rfl; contradiction)]; exact ih

/-- Writing one entry leaves the others. -/
theorem look_put_ne {α : Type} (l : Arr α) {n m : Nat} (v : α) (h : m ≠ n) : look (put l n v) m = look l m := by
  induction l with
  | nil => simp [put, look, h.symm]
  | cons x l ih =>
    unfold put
    split
    · simp [look, h.symm]
    · split
      · rename_i hk; subst hk; simp [look, h.symm]
      · simp only [look, ih]

/-- An entry read after a write, either way. -/
theorem look_put {α : Type} (l : Arr α) (n m : Nat) (v : α) : look (put l n v) m = if m = n then some v else look l m := by
  split
  · rename_i h; subst h; exact look_put_same l m v
  · rename_i h; exact look_put_ne l v h

@[simp] theorem lookD_put_same {α : Type} (l : Arr α) (n : Nat) (v d : α) : lookD (put l n v) n d = v := by simp [lookD]

theorem lookD_put_ne {α : Type} (l : Arr α) {n m : Nat} (v d : α) (h : m ≠ n) : lookD (put l n v) m d = lookD l m d := by
  simp [lookD, look_put_ne l v h]

/-- Removing an entry leaves the others. -/
theorem look_del_ne {α : Type} (l : Arr α) {n m : Nat} (h : m ≠ n) : look (del l n) m = look l m := by
  induction l with
  | nil => rfl
  | cons x l ih =>
    unfold del
    split
    · rename_i hk; subst hk; simp [look, h.symm]
    · simp only [look, ih]

/-- The numbers of an array. -/
abbrev keys {α : Type} (l : Arr α) : List Nat := l.map Prod.fst

/-- A number that is not listed reads as nothing. -/
theorem look_eq_none {α : Type} (l : Arr α) (n : Nat) (h : n ∉ keys l) : look l n = none := by
  induction l with
  | nil => rfl
  | cons x l ih =>
    simp only [keys, List.map_cons, List.mem_cons, not_or] at h
    rw [look, if_neg (Ne.symm h.1)]; exact ih h.2

/-- In an array without repeats a removed entry is gone. -/
theorem look_del_same {α : Type} (l : Arr α) (n : Nat) (h : (keys l).Nodup) : look (del l n) n = none := by
  induction l with
  | nil => rfl
  | cons x l ih =>
    simp only [keys, List.map_cons, List.nodup_cons] at h
    unfold del
    split
    · rename_i hk; subst hk; exact look_eq_none l _ h.1
    · rename_i hk; rw [look, if_neg (Ne.symm hk)]; exact ih h.2

/-- The numbers after a write. -/
theorem mem_keys_put {α : Type} (l : Arr α) (n m : Nat) (v : α) : m ∈ keys (put l n v) ↔ m = n ∨ m ∈ keys l := by
  induction l with
  | nil => simp [put, keys]
  | cons x l ih =>
    unfold put
    split
    · simp [keys]
    · split
      · rename_i hk; subst hk; simp [keys]
      · simp only [keys, List.map_cons, List.mem_cons] at ih ⊢
        rw [ih]; tauto

/-- A write keeps rising numbers rising. -/
theorem keys_put_sorted {α : Type} (l : Arr α) (n : Nat) (v : α) (h : (keys l).Pairwise (· < ·)) :
    (keys (put l n v)).Pairwise (· < ·) := by
  induction l with
  | nil => simp [put, keys]
  | cons x l ih =>
    simp only [keys, List.map_cons, List.pairwise_cons] at h
    unfold put
    split
    · rename_i hk
      simp only [keys, List.map_cons, List.pairwise_cons, List.mem_cons]
      exact ⟨by rintro m (rfl | hm); exacts [hk, hk.trans (h.1 m hm)], h⟩
    · split
      · rename_i hk; subst hk; simpa [keys] using h
      · simp only [keys, List.map_cons, List.pairwise_cons]
        refine ⟨fun m hm => ?_, ih h.2⟩
        rcases (mem_keys_put l n m v).1 hm with rfl | hm
        · omega
        · exact h.1 m hm

/-- A number inserted is there, and what was there stays. -/
@[simp] theorem mem_insertNat (l : List Nat) (n m : Nat) : m ∈ insertNat l n ↔ m = n ∨ m ∈ l := by
  induction l with
  | nil => simp [insertNat]
  | cons k l ih =>
    unfold insertNat
    split
    · simp
    · split
      · rename_i h; subst h; simp
      · simp only [List.mem_cons, ih]; tauto

/-- Insertion keeps a rising list rising. -/
theorem insertNat_sorted (l : List Nat) (n : Nat) (h : l.Pairwise (· < ·)) : (insertNat l n).Pairwise (· < ·) := by
  induction l with
  | nil => simp [insertNat]
  | cons k l ih =>
    unfold insertNat
    have hk := List.pairwise_cons.1 h
    split
    · exact List.pairwise_cons.2 ⟨by
        intro m hm
        rcases List.mem_cons.1 hm with rfl | hm
        · assumption
        · have := hk.1 m hm; omega, h⟩
    · split
      · exact h
      · refine List.pairwise_cons.2 ⟨fun m hm => ?_, ih hk.2⟩
        rcases (mem_insertNat l n m).1 hm with rfl | hm
        · omega
        · exact hk.1 m hm

/-- Erasing a number leaves a part of the list. -/
theorem eraseNat_sublist (l : List Nat) (n : Nat) : (eraseNat l n).Sublist l := by
  induction l with
  | nil => simp [eraseNat]
  | cons k l ih =>
    unfold eraseNat
    split
    · exact List.sublist_cons_self k l
    · exact ih.cons_cons k

/-- Erasing keeps a rising list rising. -/
theorem eraseNat_sorted (l : List Nat) (n : Nat) (h : l.Pairwise (· < ·)) : (eraseNat l n).Pairwise (· < ·) :=
  h.sublist (eraseNat_sublist l n)

/-- What is in a rising list after a number is erased. -/
theorem mem_eraseNat (l : List Nat) (n m : Nat) (h : l.Pairwise (· < ·)) : m ∈ eraseNat l n ↔ m ≠ n ∧ m ∈ l := by
  induction l with
  | nil => simp [eraseNat]
  | cons k l ih =>
    have hk := List.pairwise_cons.1 h
    unfold eraseNat
    split
    · rename_i h1; subst h1
      simp only [List.mem_cons]
      constructor
      · intro hm; have := hk.1 m hm; exact ⟨by omega, .inr hm⟩
      · rintro ⟨h1, h2⟩; tauto
    · simp only [List.mem_cons, ih hk.2]
      constructor
      · rintro (rfl | h1)
        · exact ⟨by tauto, .inl rfl⟩
        · tauto
      · tauto

/-- A tag set is read back; the tag of another word is as before. -/
theorem isFull_setTag (s : State) (k j : Nat) (t : Bool) (h : s.full.Pairwise (· < ·)) :
    (s.setTag k t).isFull j = if j / 8 = k / 8 then t else s.isFull j := by
  cases t
  · simp only [State.setTag, State.isFull, Bool.false_eq_true, if_false, List.contains_eq_mem, mem_eraseNat _ _ _ h]
    split <;> simp_all
  · simp only [State.setTag, State.isFull, if_true, List.contains_eq_mem, mem_insertNat]
    split <;> simp_all

/-- Setting a tag keeps the tags rising. -/
theorem setTag_sorted (s : State) (k : Nat) (t : Bool) (h : s.full.Pairwise (· < ·)) : (s.setTag k t).full.Pairwise (· < ·) := by
  cases t
  · exact eraseNat_sorted _ _ h
  · exact insertNat_sorted _ _ h

end Sys2Proof.Machine
end

