-- ==== Sys2Proof/Laws/Memory.lean ====
section
/-! SUPPORT. Memory: a byte read after a write, the canonical form that every operation keeps, and numbers in bytes. -/

namespace Sys2Proof.Machine

/-! ## One byte -/

/-- Below the first address a canonical memory lists nothing. -/
theorem Memory.get_below : ∀ (m : Memory) (lo k : Nat), Memory.wfFrom lo m = true → k < lo → m.get k = 0
  | [], _, _, _, _ => rfl
  | (a, b) :: m, lo, k, h, hk => by
    simp only [wfFrom, Bool.and_eq_true, decide_eq_true_eq] at h
    rw [Memory.get, if_neg (by omega)]
    exact Memory.get_below m (a + 1) k h.2 (by omega)

/-- A lower bound may be lowered. -/
theorem Memory.wfFrom_mono : ∀ (m : Memory) {lo lo' : Nat}, lo' ≤ lo → Memory.wfFrom lo m = true → Memory.wfFrom lo' m = true
  | [], _, _, _, _ => rfl
  | (a, b) :: m, lo, lo', hl, h => by
    simp only [wfFrom, Bool.and_eq_true, decide_eq_true_eq] at h ⊢
    exact ⟨⟨by omega, h.1.2⟩, h.2⟩

/-- A byte written in a canonical memory reads back, and every other byte is as before. -/
theorem Memory.get_set : ∀ (m : Memory) (lo : Nat) (k j : Nat) (v : Byte), Memory.wfFrom lo m = true →
    (m.set k v).get j = if j = k then v else m.get j
  | [], _, k, j, v, _ => by
    unfold Memory.set
    split
    · rename_i h; subst h; simp [Memory.get]
    · simp only [Memory.get]; split <;> split <;> simp_all
  | (a, b) :: m, lo, k, j, v, h => by
    have h' := h
    simp only [wfFrom, Bool.and_eq_true, decide_eq_true_eq] at h
    have hb := fun (x : Nat) (hx : x < a + 1) => Memory.get_below m (a + 1) x h.2 hx
    unfold Memory.set
    by_cases hk : k < a
    · rw [if_pos hk]
      by_cases hv : v = 0
      · rw [if_pos hv]
        split
        · rename_i hj; subst hj; subst hv
          rw [Memory.get, if_neg (by omega)]; exact hb j (by omega)
        · rfl
      · rw [if_neg hv]
        by_cases hj : j = k
        · subst hj; simp [Memory.get]
        · rw [if_neg hj, Memory.get, if_neg (Ne.symm hj)]
    · rw [if_neg hk]
      by_cases hka : k = a
      · rw [if_pos hka]; subst hka
        by_cases hj : j = k
        · subst hj
          rw [if_pos rfl]
          split
          · rename_i hv; rw [hb j (by omega), hv]
          · simp [Memory.get]
        · rw [if_neg hj]
          conv_rhs => rw [Memory.get, if_neg (Ne.symm hj)]
          split
          · rfl
          · rw [Memory.get, if_neg (Ne.symm hj)]
      · rw [if_neg hka]
        simp only [Memory.get]
        by_cases hj : a = j
        · rw [if_pos hj, if_neg (by omega), if_pos hj]
        · rw [if_neg hj, if_neg hj, Memory.get_set m (a + 1) k j v h.2]

/-- A byte written keeps the canonical form. -/
theorem Memory.wfFrom_set : ∀ (m : Memory) (lo k : Nat) (v : Byte), Memory.wfFrom lo m = true → lo ≤ k →
    Memory.wfFrom lo (m.set k v) = true
  | [], lo, k, v, _, hk => by
    unfold Memory.set
    split
    · rfl
    · simp_all [wfFrom]
  | (a, b) :: m, lo, k, v, h, hlo => by
    have h' := h
    simp only [wfFrom, Bool.and_eq_true, decide_eq_true_eq] at h
    unfold Memory.set
    split
    · split
      · exact h'
      · simp only [wfFrom, Bool.and_eq_true, decide_eq_true_eq, bne_iff_ne, ne_eq]
        exact ⟨⟨hlo, by assumption⟩, ⟨⟨by omega, by simpa using h.1.2⟩, h.2⟩⟩
    · split
      · rename_i hka; subst hka
        split
        · exact Memory.wfFrom_mono m (by omega) h.2
        · simp only [wfFrom, Bool.and_eq_true, decide_eq_true_eq, bne_iff_ne, ne_eq]
          exact ⟨⟨hlo, by assumption⟩, h.2⟩
      · simp only [wfFrom, Bool.and_eq_true, decide_eq_true_eq]
        exact ⟨h.1, Memory.wfFrom_set m (a + 1) k v h.2 (by omega)⟩

theorem Memory.wf_set (m : Memory) (k : Nat) (v : Byte) (h : m.wf = true) : (m.set k v).wf = true :=
  Memory.wfFrom_set m 0 k v h (Nat.zero_le k)

/-! ## Many bytes -/

theorem Memory.wf_setN (bs : List Byte) : ∀ (m : Memory) (k : Nat), m.wf = true → (m.setN k bs).wf = true := by
  induction bs with
  | nil => intro m k h; exact h
  | cons b bs ih => intro m k h; exact ih _ _ (Memory.wf_set m k b h)

theorem Memory.wf_setNum (m : Memory) (n k v : Nat) (h : m.wf = true) : (m.setNum n k v).wf = true :=
  Memory.wf_setN _ m k h

theorem Memory.wf_setCells (cs : List Host.Cell) : ∀ m : Memory, m.wf = true → (m.setCells cs).wf = true := by
  induction cs with
  | nil => intro m h; exact h
  | cons c cs ih => intro m h; exact ih _ (Memory.wf_set m c.1 c.2 h)

/-- The cells that a test picks are in canonical form too. -/
theorem Memory.wfFrom_filter (p : Host.Cell → Bool) : ∀ (m : Memory) (lo : Nat), Memory.wfFrom lo m = true →
    Memory.wfFrom lo (m.filter p) = true
  | [], _, _ => rfl
  | (a, b) :: m, lo, h => by
    simp only [wfFrom, Bool.and_eq_true, decide_eq_true_eq] at h
    rw [List.filter_cons]
    split
    · simp only [wfFrom, Bool.and_eq_true, decide_eq_true_eq]
      exact ⟨h.1, Memory.wfFrom_filter p m (a + 1) h.2⟩
    · exact Memory.wfFrom_filter p m lo (Memory.wfFrom_mono m (by omega) h.2)

theorem Memory.wf_filter (p : Host.Cell → Bool) (m : Memory) (h : m.wf = true) : Memory.wf (m.filter p) = true :=
  Memory.wfFrom_filter p m 0 h

/-- Canonical memories that read alike are equal. -/
theorem Memory.ext_from : ∀ (m n : Memory) (lo : Nat), Memory.wfFrom lo m = true → Memory.wfFrom lo n = true →
    (∀ k, m.get k = n.get k) → m = n
  | [], [], _, _, _, _ => rfl
  | [], (a, b) :: n, lo, _, h, e => by
    simp only [wfFrom, Bool.and_eq_true, decide_eq_true_eq, bne_iff_ne, ne_eq] at h
    have := e a
    simp [Memory.get] at this
    exact absurd this.symm h.1.2
  | (a, b) :: m, [], lo, h, _, e => by
    simp only [wfFrom, Bool.and_eq_true, decide_eq_true_eq, bne_iff_ne, ne_eq] at h
    have := e a
    simp [Memory.get] at this
    exact absurd this h.1.2
  | (a, b) :: m, (c, d) :: n, lo, hm, hn, e => by
    simp only [wfFrom, Bool.and_eq_true, decide_eq_true_eq, bne_iff_ne, ne_eq] at hm hn
    have hac : a = c := by
      rcases Nat.lt_trichotomy a c with h | h | h
      · have := e a
        simp only [Memory.get, if_pos, if_neg (show ¬ c = a by omega)] at this
        rw [Memory.get_below n (c + 1) a hn.2 (by omega)] at this
        exact absurd this hm.1.2
      · exact h
      · have := e c
        simp only [Memory.get, if_pos, if_neg (show ¬ a = c by omega)] at this
        rw [Memory.get_below m (a + 1) c hm.2 (by omega)] at this
        exact absurd this.symm hn.1.2
    subst hac
    have hbd : b = d := by simpa [Memory.get] using e a
    subst hbd
    congr 1
    refine Memory.ext_from m n (a + 1) hm.2 hn.2 fun k => ?_
    by_cases hk : a = k
    · subst hk
      rw [Memory.get_below m (a + 1) a hm.2 (by omega), Memory.get_below n (a + 1) a hn.2 (by omega)]
    · simpa [Memory.get, hk] using e k

/-- A byte read after bytes were written: the byte written last there, or the old one. -/
theorem Memory.get_setN (bs : List Byte) : ∀ (m : Memory) (k j : Nat), m.wf = true →
    (m.setN k bs).get j = if k ≤ j ∧ j < k + bs.length then bs.getD (j - k) 0 else m.get j := by
  induction bs with
  | nil => intro m k j _; rw [if_neg (by simp)]; rfl
  | cons b bs ih =>
    intro m k j h
    rw [Memory.setN, ih _ _ _ (Memory.wf_set m k b h), Memory.get_set m 0 k j b h]
    simp only [List.length_cons]
    by_cases hj : j = k
    · subst hj; simp
    · by_cases hr : k + 1 ≤ j ∧ j < k + 1 + bs.length
      · rw [if_pos hr, if_pos (by omega), show j - k = (j - (k + 1)) + 1 by omega]; simp
      · rw [if_neg hr, if_neg hj, if_neg (by omega)]

/-- Bytes read back where they were written. -/
theorem Memory.getN_eq (m m' : Memory) : ∀ (n k : Nat), (∀ j, k ≤ j → j < k + n → m.get j = m'.get j) → m.getN n k = m'.getN n k
  | 0, _, _ => rfl
  | n + 1, k, h => by
    rw [Memory.getN, Memory.getN, h k (by omega) (by omega), Memory.getN_eq m m' n (k + 1) fun j h1 h2 => h j (by omega) (by omega)]

theorem Memory.getN_length (m : Memory) : ∀ n k, (m.getN n k).length = n
  | 0, _ => rfl
  | n + 1, k => by rw [Memory.getN, List.length_cons, Memory.getN_length m n]

theorem Memory.getN_getD (m : Memory) : ∀ (n k j : Nat), j < n → (m.getN n k).getD j 0 = m.get (k + j)
  | 0, _, _, h => absurd h (Nat.not_lt_zero _)
  | n + 1, k, 0, _ => by simp [Memory.getN]
  | n + 1, k, j + 1, h => by
    have := Memory.getN_getD m n (k + 1) j (by omega)
    simp only [Memory.getN, List.getD_cons_succ, this]; congr 1; omega

/-- The state after reset is in canonical form. -/
theorem wf_reset : Memory.wf State.reset.mem = true := rfl

end Sys2Proof.Machine
end

