-- ==== Sys2Proof/Laws/State.lean ====
section
/-! SUPPORT. What each update of the state leaves in each field, and what is read back after it. -/

namespace Sys2Proof.Machine

variable (s : State)

/-! ## `setWave` -/

@[simp] theorem setWave_now (n : Nat) (w : Wave) : (s.setWave n w).now = s.now := rfl
@[simp] theorem setWave_fresh (n : Nat) (w : Wave) : (s.setWave n w).fresh = s.fresh := rfl
@[simp] theorem setWave_agenda (n : Nat) (w : Wave) : (s.setWave n w).agenda = s.agenda := rfl
@[simp] theorem setWave_cur (n : Nat) (w : Wave) : (s.setWave n w).cur = s.cur := rfl
@[simp] theorem setWave_nextId (n : Nat) (w : Wave) : (s.setWave n w).nextId = s.nextId := rfl
@[simp] theorem setWave_rails (n : Nat) (w : Wave) : (s.setWave n w).rails = s.rails := rfl
@[simp] theorem setWave_mem (n : Nat) (w : Wave) : (s.setWave n w).mem = s.mem := rfl
@[simp] theorem setWave_full (n : Nat) (w : Wave) : (s.setWave n w).full = s.full := rfl
@[simp] theorem setWave_reqs (n : Nat) (w : Wave) : (s.setWave n w).reqs = s.reqs := rfl
@[simp] theorem setWave_resps (n : Nat) (w : Wave) : (s.setWave n w).resps = s.resps := rfl
@[simp] theorem setWave_parked (n : Nat) (w : Wave) : (s.setWave n w).parked = s.parked := rfl
@[simp] theorem setWave_nodes (n : Nat) (w : Wave) : (s.setWave n w).nodes = s.nodes := rfl
@[simp] theorem setWave_wqs (n : Nat) (w : Wave) : (s.setWave n w).wqs = s.wqs := rfl
@[simp] theorem setWave_tickets (n : Nat) (w : Wave) : (s.setWave n w).tickets = s.tickets := rfl
@[simp] theorem setWave_faults (n : Nat) (w : Wave) : (s.setWave n w).faults = s.faults := rfl
@[simp] theorem setWave_roots (n : Nat) (w : Wave) : (s.setWave n w).roots = s.roots := rfl
@[simp] theorem setWave_hot (n : Nat) (w : Wave) : (s.setWave n w).hot = s.hot := rfl
@[simp] theorem setWave_looks (n : Nat) (w : Wave) : (s.setWave n w).looks = s.looks := rfl
@[simp] theorem setWave_homeLast (n : Nat) (w : Wave) : (s.setWave n w).homeLast = s.homeLast := rfl
@[simp] theorem setWave_badMem (n : Nat) (w : Wave) : (s.setWave n w).badMem = s.badMem := rfl
@[simp] theorem setWave_offers (n : Nat) (w : Wave) : (s.setWave n w).offers = s.offers := rfl
@[simp] theorem setWave_routeMsgs (n : Nat) (w : Wave) : (s.setWave n w).routeMsgs = s.routeMsgs := rfl
@[simp] theorem setWave_held (n : Nat) (w : Wave) : (s.setWave n w).held = s.held := rfl
@[simp] theorem setWave_waves (n : Nat) (w : Wave) : (s.setWave n w).waves = put s.waves n w := rfl
@[simp] theorem setWave_cores (n : Nat) (w : Wave) : (s.setWave n w).cores = s.cores := rfl
@[simp] theorem setWave_bands (n : Nat) (w : Wave) : (s.setWave n w).bands = s.bands := rfl
@[simp] theorem setWave_dies (n : Nat) (w : Wave) : (s.setWave n w).dies = s.dies := rfl
@[simp] theorem setWave_queues (n : Nat) (w : Wave) : (s.setWave n w).queues = s.queues := rfl
@[simp] theorem setWave_arbPtr (n : Nat) (w : Wave) : (s.setWave n w).arbPtr = s.arbPtr := rfl
@[simp] theorem setWave_grantAt (n : Nat) (w : Wave) : (s.setWave n w).grantAt = s.grantAt := rfl
@[simp] theorem setWave_cons (n : Nat) (w : Wave) : (s.setWave n w).cons = s.cons := rfl
@[simp] theorem setWave_bringup (n : Nat) (w : Wave) : (s.setWave n w).bringup = s.bringup := rfl
@[simp] theorem setWave_heap (n : Nat) (w : Wave) : (s.setWave n w).heap = s.heap := rfl
@[simp] theorem setWave_ready (n : Nat) (w : Wave) : (s.setWave n w).ready = s.ready := rfl
@[simp] theorem setWave_regions (n : Nat) (w : Wave) : (s.setWave n w).regions = s.regions := rfl
@[simp] theorem setWave_migLog (n : Nat) (w : Wave) : (s.setWave n w).migLog = s.migLog := rfl
@[simp] theorem setWave_migHead (n : Nat) (w : Wave) : (s.setWave n w).migHead = s.migHead := rfl
@[simp] theorem setWave_migRd (n : Nat) (w : Wave) : (s.setWave n w).migRd = s.migRd := rfl
@[simp] theorem setWave_migOvf (n : Nat) (w : Wave) : (s.setWave n w).migOvf = s.migOvf := rfl
@[simp] theorem setWave_moves (n : Nat) (w : Wave) : (s.setWave n w).moves = s.moves := rfl
@[simp] theorem setWave_moved (n : Nat) (w : Wave) : (s.setWave n w).moved = s.moved := rfl
@[simp] theorem setWave_ctxs (n : Nat) (w : Wave) : (s.setWave n w).ctxs = s.ctxs := rfl
@[simp] theorem setWave_pc (n : Nat) (w : Wave) : (s.setWave n w).pc = s.pc := rfl
@[simp] theorem setWave_routers (n : Nat) (w : Wave) : (s.setWave n w).routers = s.routers := rfl
@[simp] theorem setWave_bypass (n : Nat) (w : Wave) : (s.setWave n w).bypass = s.bypass := rfl
@[simp] theorem setWave_ports (n : Nat) (w : Wave) : (s.setWave n w).ports = s.ports := rfl
@[simp] theorem setWave_retryNs (n : Nat) (w : Wave) : (s.setWave n w).retryNs = s.retryNs := rfl
@[simp] theorem setWave_peers (n : Nat) (w : Wave) : (s.setWave n w).peers = s.peers := rfl
@[simp] theorem setWave_dwen (n : Nat) (w : Wave) : (s.setWave n w).dwen = s.dwen := rfl
@[simp] theorem setWave_restarts (n : Nat) (w : Wave) : (s.setWave n w).restarts = s.restarts := rfl
@[simp] theorem setWave_saved (n : Nat) (w : Wave) : (s.setWave n w).saved = s.saved := rfl
@[simp] theorem setWave_reads (n : Nat) (w : Wave) : (s.setWave n w).reads = s.reads := rfl
@[simp] theorem setWave_events (n : Nat) (w : Wave) : (s.setWave n w).events = s.events := rfl

/-! ## `setCore` -/

@[simp] theorem setCore_now (p : Nat) (c : Core) : (s.setCore p c).now = s.now := rfl
@[simp] theorem setCore_fresh (p : Nat) (c : Core) : (s.setCore p c).fresh = s.fresh := rfl
@[simp] theorem setCore_agenda (p : Nat) (c : Core) : (s.setCore p c).agenda = s.agenda := rfl
@[simp] theorem setCore_cur (p : Nat) (c : Core) : (s.setCore p c).cur = s.cur := rfl
@[simp] theorem setCore_nextId (p : Nat) (c : Core) : (s.setCore p c).nextId = s.nextId := rfl
@[simp] theorem setCore_rails (p : Nat) (c : Core) : (s.setCore p c).rails = s.rails := rfl
@[simp] theorem setCore_mem (p : Nat) (c : Core) : (s.setCore p c).mem = s.mem := rfl
@[simp] theorem setCore_full (p : Nat) (c : Core) : (s.setCore p c).full = s.full := rfl
@[simp] theorem setCore_reqs (p : Nat) (c : Core) : (s.setCore p c).reqs = s.reqs := rfl
@[simp] theorem setCore_resps (p : Nat) (c : Core) : (s.setCore p c).resps = s.resps := rfl
@[simp] theorem setCore_parked (p : Nat) (c : Core) : (s.setCore p c).parked = s.parked := rfl
@[simp] theorem setCore_nodes (p : Nat) (c : Core) : (s.setCore p c).nodes = s.nodes := rfl
@[simp] theorem setCore_wqs (p : Nat) (c : Core) : (s.setCore p c).wqs = s.wqs := rfl
@[simp] theorem setCore_tickets (p : Nat) (c : Core) : (s.setCore p c).tickets = s.tickets := rfl
@[simp] theorem setCore_faults (p : Nat) (c : Core) : (s.setCore p c).faults = s.faults := rfl
@[simp] theorem setCore_roots (p : Nat) (c : Core) : (s.setCore p c).roots = s.roots := rfl
@[simp] theorem setCore_hot (p : Nat) (c : Core) : (s.setCore p c).hot = s.hot := rfl
@[simp] theorem setCore_looks (p : Nat) (c : Core) : (s.setCore p c).looks = s.looks := rfl
@[simp] theorem setCore_homeLast (p : Nat) (c : Core) : (s.setCore p c).homeLast = s.homeLast := rfl
@[simp] theorem setCore_badMem (p : Nat) (c : Core) : (s.setCore p c).badMem = s.badMem := rfl
@[simp] theorem setCore_offers (p : Nat) (c : Core) : (s.setCore p c).offers = s.offers := rfl
@[simp] theorem setCore_routeMsgs (p : Nat) (c : Core) : (s.setCore p c).routeMsgs = s.routeMsgs := rfl
@[simp] theorem setCore_held (p : Nat) (c : Core) : (s.setCore p c).held = s.held := rfl
@[simp] theorem setCore_waves (p : Nat) (c : Core) : (s.setCore p c).waves = s.waves := rfl
@[simp] theorem setCore_cores (p : Nat) (c : Core) : (s.setCore p c).cores = put s.cores p c := rfl
@[simp] theorem setCore_bands (p : Nat) (c : Core) : (s.setCore p c).bands = s.bands := rfl
@[simp] theorem setCore_dies (p : Nat) (c : Core) : (s.setCore p c).dies = s.dies := rfl
@[simp] theorem setCore_queues (p : Nat) (c : Core) : (s.setCore p c).queues = s.queues := rfl
@[simp] theorem setCore_arbPtr (p : Nat) (c : Core) : (s.setCore p c).arbPtr = s.arbPtr := rfl
@[simp] theorem setCore_grantAt (p : Nat) (c : Core) : (s.setCore p c).grantAt = s.grantAt := rfl
@[simp] theorem setCore_cons (p : Nat) (c : Core) : (s.setCore p c).cons = s.cons := rfl
@[simp] theorem setCore_bringup (p : Nat) (c : Core) : (s.setCore p c).bringup = s.bringup := rfl
@[simp] theorem setCore_heap (p : Nat) (c : Core) : (s.setCore p c).heap = s.heap := rfl
@[simp] theorem setCore_ready (p : Nat) (c : Core) : (s.setCore p c).ready = s.ready := rfl
@[simp] theorem setCore_regions (p : Nat) (c : Core) : (s.setCore p c).regions = s.regions := rfl
@[simp] theorem setCore_migLog (p : Nat) (c : Core) : (s.setCore p c).migLog = s.migLog := rfl
@[simp] theorem setCore_migHead (p : Nat) (c : Core) : (s.setCore p c).migHead = s.migHead := rfl
@[simp] theorem setCore_migRd (p : Nat) (c : Core) : (s.setCore p c).migRd = s.migRd := rfl
@[simp] theorem setCore_migOvf (p : Nat) (c : Core) : (s.setCore p c).migOvf = s.migOvf := rfl
@[simp] theorem setCore_moves (p : Nat) (c : Core) : (s.setCore p c).moves = s.moves := rfl
@[simp] theorem setCore_moved (p : Nat) (c : Core) : (s.setCore p c).moved = s.moved := rfl
@[simp] theorem setCore_ctxs (p : Nat) (c : Core) : (s.setCore p c).ctxs = s.ctxs := rfl
@[simp] theorem setCore_pc (p : Nat) (c : Core) : (s.setCore p c).pc = s.pc := rfl
@[simp] theorem setCore_routers (p : Nat) (c : Core) : (s.setCore p c).routers = s.routers := rfl
@[simp] theorem setCore_bypass (p : Nat) (c : Core) : (s.setCore p c).bypass = s.bypass := rfl
@[simp] theorem setCore_ports (p : Nat) (c : Core) : (s.setCore p c).ports = s.ports := rfl
@[simp] theorem setCore_retryNs (p : Nat) (c : Core) : (s.setCore p c).retryNs = s.retryNs := rfl
@[simp] theorem setCore_peers (p : Nat) (c : Core) : (s.setCore p c).peers = s.peers := rfl
@[simp] theorem setCore_dwen (p : Nat) (c : Core) : (s.setCore p c).dwen = s.dwen := rfl
@[simp] theorem setCore_restarts (p : Nat) (c : Core) : (s.setCore p c).restarts = s.restarts := rfl
@[simp] theorem setCore_saved (p : Nat) (c : Core) : (s.setCore p c).saved = s.saved := rfl
@[simp] theorem setCore_reads (p : Nat) (c : Core) : (s.setCore p c).reads = s.reads := rfl
@[simp] theorem setCore_events (p : Nat) (c : Core) : (s.setCore p c).events = s.events := rfl

/-! ## `onCore` -/

@[simp] theorem onCore_now (p : Nat) (f : Core → Core) : (s.onCore p f).now = s.now := rfl
@[simp] theorem onCore_fresh (p : Nat) (f : Core → Core) : (s.onCore p f).fresh = s.fresh := rfl
@[simp] theorem onCore_agenda (p : Nat) (f : Core → Core) : (s.onCore p f).agenda = s.agenda := rfl
@[simp] theorem onCore_cur (p : Nat) (f : Core → Core) : (s.onCore p f).cur = s.cur := rfl
@[simp] theorem onCore_nextId (p : Nat) (f : Core → Core) : (s.onCore p f).nextId = s.nextId := rfl
@[simp] theorem onCore_rails (p : Nat) (f : Core → Core) : (s.onCore p f).rails = s.rails := rfl
@[simp] theorem onCore_mem (p : Nat) (f : Core → Core) : (s.onCore p f).mem = s.mem := rfl
@[simp] theorem onCore_full (p : Nat) (f : Core → Core) : (s.onCore p f).full = s.full := rfl
@[simp] theorem onCore_reqs (p : Nat) (f : Core → Core) : (s.onCore p f).reqs = s.reqs := rfl
@[simp] theorem onCore_resps (p : Nat) (f : Core → Core) : (s.onCore p f).resps = s.resps := rfl
@[simp] theorem onCore_parked (p : Nat) (f : Core → Core) : (s.onCore p f).parked = s.parked := rfl
@[simp] theorem onCore_nodes (p : Nat) (f : Core → Core) : (s.onCore p f).nodes = s.nodes := rfl
@[simp] theorem onCore_wqs (p : Nat) (f : Core → Core) : (s.onCore p f).wqs = s.wqs := rfl
@[simp] theorem onCore_tickets (p : Nat) (f : Core → Core) : (s.onCore p f).tickets = s.tickets := rfl
@[simp] theorem onCore_faults (p : Nat) (f : Core → Core) : (s.onCore p f).faults = s.faults := rfl
@[simp] theorem onCore_roots (p : Nat) (f : Core → Core) : (s.onCore p f).roots = s.roots := rfl
@[simp] theorem onCore_hot (p : Nat) (f : Core → Core) : (s.onCore p f).hot = s.hot := rfl
@[simp] theorem onCore_looks (p : Nat) (f : Core → Core) : (s.onCore p f).looks = s.looks := rfl
@[simp] theorem onCore_homeLast (p : Nat) (f : Core → Core) : (s.onCore p f).homeLast = s.homeLast := rfl
@[simp] theorem onCore_badMem (p : Nat) (f : Core → Core) : (s.onCore p f).badMem = s.badMem := rfl
@[simp] theorem onCore_offers (p : Nat) (f : Core → Core) : (s.onCore p f).offers = s.offers := rfl
@[simp] theorem onCore_routeMsgs (p : Nat) (f : Core → Core) : (s.onCore p f).routeMsgs = s.routeMsgs := rfl
@[simp] theorem onCore_held (p : Nat) (f : Core → Core) : (s.onCore p f).held = s.held := rfl
@[simp] theorem onCore_waves (p : Nat) (f : Core → Core) : (s.onCore p f).waves = s.waves := rfl
@[simp] theorem onCore_cores (p : Nat) (f : Core → Core) : (s.onCore p f).cores = put s.cores p (f (s.core p)) := rfl
@[simp] theorem onCore_bands (p : Nat) (f : Core → Core) : (s.onCore p f).bands = s.bands := rfl
@[simp] theorem onCore_dies (p : Nat) (f : Core → Core) : (s.onCore p f).dies = s.dies := rfl
@[simp] theorem onCore_queues (p : Nat) (f : Core → Core) : (s.onCore p f).queues = s.queues := rfl
@[simp] theorem onCore_arbPtr (p : Nat) (f : Core → Core) : (s.onCore p f).arbPtr = s.arbPtr := rfl
@[simp] theorem onCore_grantAt (p : Nat) (f : Core → Core) : (s.onCore p f).grantAt = s.grantAt := rfl
@[simp] theorem onCore_cons (p : Nat) (f : Core → Core) : (s.onCore p f).cons = s.cons := rfl
@[simp] theorem onCore_bringup (p : Nat) (f : Core → Core) : (s.onCore p f).bringup = s.bringup := rfl
@[simp] theorem onCore_heap (p : Nat) (f : Core → Core) : (s.onCore p f).heap = s.heap := rfl
@[simp] theorem onCore_ready (p : Nat) (f : Core → Core) : (s.onCore p f).ready = s.ready := rfl
@[simp] theorem onCore_regions (p : Nat) (f : Core → Core) : (s.onCore p f).regions = s.regions := rfl
@[simp] theorem onCore_migLog (p : Nat) (f : Core → Core) : (s.onCore p f).migLog = s.migLog := rfl
@[simp] theorem onCore_migHead (p : Nat) (f : Core → Core) : (s.onCore p f).migHead = s.migHead := rfl
@[simp] theorem onCore_migRd (p : Nat) (f : Core → Core) : (s.onCore p f).migRd = s.migRd := rfl
@[simp] theorem onCore_migOvf (p : Nat) (f : Core → Core) : (s.onCore p f).migOvf = s.migOvf := rfl
@[simp] theorem onCore_moves (p : Nat) (f : Core → Core) : (s.onCore p f).moves = s.moves := rfl
@[simp] theorem onCore_moved (p : Nat) (f : Core → Core) : (s.onCore p f).moved = s.moved := rfl
@[simp] theorem onCore_ctxs (p : Nat) (f : Core → Core) : (s.onCore p f).ctxs = s.ctxs := rfl
@[simp] theorem onCore_pc (p : Nat) (f : Core → Core) : (s.onCore p f).pc = s.pc := rfl
@[simp] theorem onCore_routers (p : Nat) (f : Core → Core) : (s.onCore p f).routers = s.routers := rfl
@[simp] theorem onCore_bypass (p : Nat) (f : Core → Core) : (s.onCore p f).bypass = s.bypass := rfl
@[simp] theorem onCore_ports (p : Nat) (f : Core → Core) : (s.onCore p f).ports = s.ports := rfl
@[simp] theorem onCore_retryNs (p : Nat) (f : Core → Core) : (s.onCore p f).retryNs = s.retryNs := rfl
@[simp] theorem onCore_peers (p : Nat) (f : Core → Core) : (s.onCore p f).peers = s.peers := rfl
@[simp] theorem onCore_dwen (p : Nat) (f : Core → Core) : (s.onCore p f).dwen = s.dwen := rfl
@[simp] theorem onCore_restarts (p : Nat) (f : Core → Core) : (s.onCore p f).restarts = s.restarts := rfl
@[simp] theorem onCore_saved (p : Nat) (f : Core → Core) : (s.onCore p f).saved = s.saved := rfl
@[simp] theorem onCore_reads (p : Nat) (f : Core → Core) : (s.onCore p f).reads = s.reads := rfl
@[simp] theorem onCore_events (p : Nat) (f : Core → Core) : (s.onCore p f).events = s.events := rfl

/-! ## `onDie` -/

@[simp] theorem onDie_now (d : Nat) (f : Die → Die) : (s.onDie d f).now = s.now := rfl
@[simp] theorem onDie_fresh (d : Nat) (f : Die → Die) : (s.onDie d f).fresh = s.fresh := rfl
@[simp] theorem onDie_agenda (d : Nat) (f : Die → Die) : (s.onDie d f).agenda = s.agenda := rfl
@[simp] theorem onDie_cur (d : Nat) (f : Die → Die) : (s.onDie d f).cur = s.cur := rfl
@[simp] theorem onDie_nextId (d : Nat) (f : Die → Die) : (s.onDie d f).nextId = s.nextId := rfl
@[simp] theorem onDie_rails (d : Nat) (f : Die → Die) : (s.onDie d f).rails = s.rails := rfl
@[simp] theorem onDie_mem (d : Nat) (f : Die → Die) : (s.onDie d f).mem = s.mem := rfl
@[simp] theorem onDie_full (d : Nat) (f : Die → Die) : (s.onDie d f).full = s.full := rfl
@[simp] theorem onDie_reqs (d : Nat) (f : Die → Die) : (s.onDie d f).reqs = s.reqs := rfl
@[simp] theorem onDie_resps (d : Nat) (f : Die → Die) : (s.onDie d f).resps = s.resps := rfl
@[simp] theorem onDie_parked (d : Nat) (f : Die → Die) : (s.onDie d f).parked = s.parked := rfl
@[simp] theorem onDie_nodes (d : Nat) (f : Die → Die) : (s.onDie d f).nodes = s.nodes := rfl
@[simp] theorem onDie_wqs (d : Nat) (f : Die → Die) : (s.onDie d f).wqs = s.wqs := rfl
@[simp] theorem onDie_tickets (d : Nat) (f : Die → Die) : (s.onDie d f).tickets = s.tickets := rfl
@[simp] theorem onDie_faults (d : Nat) (f : Die → Die) : (s.onDie d f).faults = s.faults := rfl
@[simp] theorem onDie_roots (d : Nat) (f : Die → Die) : (s.onDie d f).roots = s.roots := rfl
@[simp] theorem onDie_hot (d : Nat) (f : Die → Die) : (s.onDie d f).hot = s.hot := rfl
@[simp] theorem onDie_looks (d : Nat) (f : Die → Die) : (s.onDie d f).looks = s.looks := rfl
@[simp] theorem onDie_homeLast (d : Nat) (f : Die → Die) : (s.onDie d f).homeLast = s.homeLast := rfl
@[simp] theorem onDie_badMem (d : Nat) (f : Die → Die) : (s.onDie d f).badMem = s.badMem := rfl
@[simp] theorem onDie_offers (d : Nat) (f : Die → Die) : (s.onDie d f).offers = s.offers := rfl
@[simp] theorem onDie_routeMsgs (d : Nat) (f : Die → Die) : (s.onDie d f).routeMsgs = s.routeMsgs := rfl
@[simp] theorem onDie_held (d : Nat) (f : Die → Die) : (s.onDie d f).held = s.held := rfl
@[simp] theorem onDie_waves (d : Nat) (f : Die → Die) : (s.onDie d f).waves = s.waves := rfl
@[simp] theorem onDie_cores (d : Nat) (f : Die → Die) : (s.onDie d f).cores = s.cores := rfl
@[simp] theorem onDie_bands (d : Nat) (f : Die → Die) : (s.onDie d f).bands = s.bands := rfl
@[simp] theorem onDie_dies (d : Nat) (f : Die → Die) : (s.onDie d f).dies = put s.dies d (f (s.die d)) := rfl
@[simp] theorem onDie_queues (d : Nat) (f : Die → Die) : (s.onDie d f).queues = s.queues := rfl
@[simp] theorem onDie_arbPtr (d : Nat) (f : Die → Die) : (s.onDie d f).arbPtr = s.arbPtr := rfl
@[simp] theorem onDie_grantAt (d : Nat) (f : Die → Die) : (s.onDie d f).grantAt = s.grantAt := rfl
@[simp] theorem onDie_cons (d : Nat) (f : Die → Die) : (s.onDie d f).cons = s.cons := rfl
@[simp] theorem onDie_bringup (d : Nat) (f : Die → Die) : (s.onDie d f).bringup = s.bringup := rfl
@[simp] theorem onDie_heap (d : Nat) (f : Die → Die) : (s.onDie d f).heap = s.heap := rfl
@[simp] theorem onDie_ready (d : Nat) (f : Die → Die) : (s.onDie d f).ready = s.ready := rfl
@[simp] theorem onDie_regions (d : Nat) (f : Die → Die) : (s.onDie d f).regions = s.regions := rfl
@[simp] theorem onDie_migLog (d : Nat) (f : Die → Die) : (s.onDie d f).migLog = s.migLog := rfl
@[simp] theorem onDie_migHead (d : Nat) (f : Die → Die) : (s.onDie d f).migHead = s.migHead := rfl
@[simp] theorem onDie_migRd (d : Nat) (f : Die → Die) : (s.onDie d f).migRd = s.migRd := rfl
@[simp] theorem onDie_migOvf (d : Nat) (f : Die → Die) : (s.onDie d f).migOvf = s.migOvf := rfl
@[simp] theorem onDie_moves (d : Nat) (f : Die → Die) : (s.onDie d f).moves = s.moves := rfl
@[simp] theorem onDie_moved (d : Nat) (f : Die → Die) : (s.onDie d f).moved = s.moved := rfl
@[simp] theorem onDie_ctxs (d : Nat) (f : Die → Die) : (s.onDie d f).ctxs = s.ctxs := rfl
@[simp] theorem onDie_pc (d : Nat) (f : Die → Die) : (s.onDie d f).pc = s.pc := rfl
@[simp] theorem onDie_routers (d : Nat) (f : Die → Die) : (s.onDie d f).routers = s.routers := rfl
@[simp] theorem onDie_bypass (d : Nat) (f : Die → Die) : (s.onDie d f).bypass = s.bypass := rfl
@[simp] theorem onDie_ports (d : Nat) (f : Die → Die) : (s.onDie d f).ports = s.ports := rfl
@[simp] theorem onDie_retryNs (d : Nat) (f : Die → Die) : (s.onDie d f).retryNs = s.retryNs := rfl
@[simp] theorem onDie_peers (d : Nat) (f : Die → Die) : (s.onDie d f).peers = s.peers := rfl
@[simp] theorem onDie_dwen (d : Nat) (f : Die → Die) : (s.onDie d f).dwen = s.dwen := rfl
@[simp] theorem onDie_restarts (d : Nat) (f : Die → Die) : (s.onDie d f).restarts = s.restarts := rfl
@[simp] theorem onDie_saved (d : Nat) (f : Die → Die) : (s.onDie d f).saved = s.saved := rfl
@[simp] theorem onDie_reads (d : Nat) (f : Die → Die) : (s.onDie d f).reads = s.reads := rfl
@[simp] theorem onDie_events (d : Nat) (f : Die → Die) : (s.onDie d f).events = s.events := rfl

/-! ## `onQueue` -/

@[simp] theorem onQueue_now (q : Nat) (f : WQueue → WQueue) : (s.onQueue q f).now = s.now := rfl
@[simp] theorem onQueue_fresh (q : Nat) (f : WQueue → WQueue) : (s.onQueue q f).fresh = s.fresh := rfl
@[simp] theorem onQueue_agenda (q : Nat) (f : WQueue → WQueue) : (s.onQueue q f).agenda = s.agenda := rfl
@[simp] theorem onQueue_cur (q : Nat) (f : WQueue → WQueue) : (s.onQueue q f).cur = s.cur := rfl
@[simp] theorem onQueue_nextId (q : Nat) (f : WQueue → WQueue) : (s.onQueue q f).nextId = s.nextId := rfl
@[simp] theorem onQueue_rails (q : Nat) (f : WQueue → WQueue) : (s.onQueue q f).rails = s.rails := rfl
@[simp] theorem onQueue_mem (q : Nat) (f : WQueue → WQueue) : (s.onQueue q f).mem = s.mem := rfl
@[simp] theorem onQueue_full (q : Nat) (f : WQueue → WQueue) : (s.onQueue q f).full = s.full := rfl
@[simp] theorem onQueue_reqs (q : Nat) (f : WQueue → WQueue) : (s.onQueue q f).reqs = s.reqs := rfl
@[simp] theorem onQueue_resps (q : Nat) (f : WQueue → WQueue) : (s.onQueue q f).resps = s.resps := rfl
@[simp] theorem onQueue_parked (q : Nat) (f : WQueue → WQueue) : (s.onQueue q f).parked = s.parked := rfl
@[simp] theorem onQueue_nodes (q : Nat) (f : WQueue → WQueue) : (s.onQueue q f).nodes = s.nodes := rfl
@[simp] theorem onQueue_wqs (q : Nat) (f : WQueue → WQueue) : (s.onQueue q f).wqs = s.wqs := rfl
@[simp] theorem onQueue_tickets (q : Nat) (f : WQueue → WQueue) : (s.onQueue q f).tickets = s.tickets := rfl
@[simp] theorem onQueue_faults (q : Nat) (f : WQueue → WQueue) : (s.onQueue q f).faults = s.faults := rfl
@[simp] theorem onQueue_roots (q : Nat) (f : WQueue → WQueue) : (s.onQueue q f).roots = s.roots := rfl
@[simp] theorem onQueue_hot (q : Nat) (f : WQueue → WQueue) : (s.onQueue q f).hot = s.hot := rfl
@[simp] theorem onQueue_looks (q : Nat) (f : WQueue → WQueue) : (s.onQueue q f).looks = s.looks := rfl
@[simp] theorem onQueue_homeLast (q : Nat) (f : WQueue → WQueue) : (s.onQueue q f).homeLast = s.homeLast := rfl
@[simp] theorem onQueue_badMem (q : Nat) (f : WQueue → WQueue) : (s.onQueue q f).badMem = s.badMem := rfl
@[simp] theorem onQueue_offers (q : Nat) (f : WQueue → WQueue) : (s.onQueue q f).offers = s.offers := rfl
@[simp] theorem onQueue_routeMsgs (q : Nat) (f : WQueue → WQueue) : (s.onQueue q f).routeMsgs = s.routeMsgs := rfl
@[simp] theorem onQueue_held (q : Nat) (f : WQueue → WQueue) : (s.onQueue q f).held = s.held := rfl
@[simp] theorem onQueue_waves (q : Nat) (f : WQueue → WQueue) : (s.onQueue q f).waves = s.waves := rfl
@[simp] theorem onQueue_cores (q : Nat) (f : WQueue → WQueue) : (s.onQueue q f).cores = s.cores := rfl
@[simp] theorem onQueue_bands (q : Nat) (f : WQueue → WQueue) : (s.onQueue q f).bands = s.bands := rfl
@[simp] theorem onQueue_dies (q : Nat) (f : WQueue → WQueue) : (s.onQueue q f).dies = s.dies := rfl
@[simp] theorem onQueue_queues (q : Nat) (f : WQueue → WQueue) : (s.onQueue q f).queues = put s.queues q (f (s.queue q)) := rfl
@[simp] theorem onQueue_arbPtr (q : Nat) (f : WQueue → WQueue) : (s.onQueue q f).arbPtr = s.arbPtr := rfl
@[simp] theorem onQueue_grantAt (q : Nat) (f : WQueue → WQueue) : (s.onQueue q f).grantAt = s.grantAt := rfl
@[simp] theorem onQueue_cons (q : Nat) (f : WQueue → WQueue) : (s.onQueue q f).cons = s.cons := rfl
@[simp] theorem onQueue_bringup (q : Nat) (f : WQueue → WQueue) : (s.onQueue q f).bringup = s.bringup := rfl
@[simp] theorem onQueue_heap (q : Nat) (f : WQueue → WQueue) : (s.onQueue q f).heap = s.heap := rfl
@[simp] theorem onQueue_ready (q : Nat) (f : WQueue → WQueue) : (s.onQueue q f).ready = s.ready := rfl
@[simp] theorem onQueue_regions (q : Nat) (f : WQueue → WQueue) : (s.onQueue q f).regions = s.regions := rfl
@[simp] theorem onQueue_migLog (q : Nat) (f : WQueue → WQueue) : (s.onQueue q f).migLog = s.migLog := rfl
@[simp] theorem onQueue_migHead (q : Nat) (f : WQueue → WQueue) : (s.onQueue q f).migHead = s.migHead := rfl
@[simp] theorem onQueue_migRd (q : Nat) (f : WQueue → WQueue) : (s.onQueue q f).migRd = s.migRd := rfl
@[simp] theorem onQueue_migOvf (q : Nat) (f : WQueue → WQueue) : (s.onQueue q f).migOvf = s.migOvf := rfl
@[simp] theorem onQueue_moves (q : Nat) (f : WQueue → WQueue) : (s.onQueue q f).moves = s.moves := rfl
@[simp] theorem onQueue_moved (q : Nat) (f : WQueue → WQueue) : (s.onQueue q f).moved = s.moved := rfl
@[simp] theorem onQueue_ctxs (q : Nat) (f : WQueue → WQueue) : (s.onQueue q f).ctxs = s.ctxs := rfl
@[simp] theorem onQueue_pc (q : Nat) (f : WQueue → WQueue) : (s.onQueue q f).pc = s.pc := rfl
@[simp] theorem onQueue_routers (q : Nat) (f : WQueue → WQueue) : (s.onQueue q f).routers = s.routers := rfl
@[simp] theorem onQueue_bypass (q : Nat) (f : WQueue → WQueue) : (s.onQueue q f).bypass = s.bypass := rfl
@[simp] theorem onQueue_ports (q : Nat) (f : WQueue → WQueue) : (s.onQueue q f).ports = s.ports := rfl
@[simp] theorem onQueue_retryNs (q : Nat) (f : WQueue → WQueue) : (s.onQueue q f).retryNs = s.retryNs := rfl
@[simp] theorem onQueue_peers (q : Nat) (f : WQueue → WQueue) : (s.onQueue q f).peers = s.peers := rfl
@[simp] theorem onQueue_dwen (q : Nat) (f : WQueue → WQueue) : (s.onQueue q f).dwen = s.dwen := rfl
@[simp] theorem onQueue_restarts (q : Nat) (f : WQueue → WQueue) : (s.onQueue q f).restarts = s.restarts := rfl
@[simp] theorem onQueue_saved (q : Nat) (f : WQueue → WQueue) : (s.onQueue q f).saved = s.saved := rfl
@[simp] theorem onQueue_reads (q : Nat) (f : WQueue → WQueue) : (s.onQueue q f).reads = s.reads := rfl
@[simp] theorem onQueue_events (q : Nat) (f : WQueue → WQueue) : (s.onQueue q f).events = s.events := rfl

/-! ## `write` -/

@[simp] theorem write_now (k : Nat) (bs : List Byte) : (s.write k bs).now = s.now := rfl
@[simp] theorem write_fresh (k : Nat) (bs : List Byte) : (s.write k bs).fresh = s.fresh := rfl
@[simp] theorem write_agenda (k : Nat) (bs : List Byte) : (s.write k bs).agenda = s.agenda := rfl
@[simp] theorem write_cur (k : Nat) (bs : List Byte) : (s.write k bs).cur = s.cur := rfl
@[simp] theorem write_nextId (k : Nat) (bs : List Byte) : (s.write k bs).nextId = s.nextId := rfl
@[simp] theorem write_rails (k : Nat) (bs : List Byte) : (s.write k bs).rails = s.rails := rfl
@[simp] theorem write_mem (k : Nat) (bs : List Byte) : (s.write k bs).mem = Memory.setN s.mem k bs := rfl
@[simp] theorem write_full (k : Nat) (bs : List Byte) : (s.write k bs).full = s.full := rfl
@[simp] theorem write_reqs (k : Nat) (bs : List Byte) : (s.write k bs).reqs = s.reqs := rfl
@[simp] theorem write_resps (k : Nat) (bs : List Byte) : (s.write k bs).resps = s.resps := rfl
@[simp] theorem write_parked (k : Nat) (bs : List Byte) : (s.write k bs).parked = s.parked := rfl
@[simp] theorem write_nodes (k : Nat) (bs : List Byte) : (s.write k bs).nodes = s.nodes := rfl
@[simp] theorem write_wqs (k : Nat) (bs : List Byte) : (s.write k bs).wqs = s.wqs := rfl
@[simp] theorem write_tickets (k : Nat) (bs : List Byte) : (s.write k bs).tickets = s.tickets := rfl
@[simp] theorem write_faults (k : Nat) (bs : List Byte) : (s.write k bs).faults = s.faults := rfl
@[simp] theorem write_roots (k : Nat) (bs : List Byte) : (s.write k bs).roots = s.roots := rfl
@[simp] theorem write_hot (k : Nat) (bs : List Byte) : (s.write k bs).hot = s.hot := rfl
@[simp] theorem write_looks (k : Nat) (bs : List Byte) : (s.write k bs).looks = s.looks := rfl
@[simp] theorem write_homeLast (k : Nat) (bs : List Byte) : (s.write k bs).homeLast = s.homeLast := rfl
@[simp] theorem write_badMem (k : Nat) (bs : List Byte) : (s.write k bs).badMem = s.badMem := rfl
@[simp] theorem write_offers (k : Nat) (bs : List Byte) : (s.write k bs).offers = s.offers := rfl
@[simp] theorem write_routeMsgs (k : Nat) (bs : List Byte) : (s.write k bs).routeMsgs = s.routeMsgs := rfl
@[simp] theorem write_held (k : Nat) (bs : List Byte) : (s.write k bs).held = s.held := rfl
@[simp] theorem write_waves (k : Nat) (bs : List Byte) : (s.write k bs).waves = s.waves := rfl
@[simp] theorem write_cores (k : Nat) (bs : List Byte) : (s.write k bs).cores = s.cores := rfl
@[simp] theorem write_bands (k : Nat) (bs : List Byte) : (s.write k bs).bands = s.bands := rfl
@[simp] theorem write_dies (k : Nat) (bs : List Byte) : (s.write k bs).dies = s.dies := rfl
@[simp] theorem write_queues (k : Nat) (bs : List Byte) : (s.write k bs).queues = s.queues := rfl
@[simp] theorem write_arbPtr (k : Nat) (bs : List Byte) : (s.write k bs).arbPtr = s.arbPtr := rfl
@[simp] theorem write_grantAt (k : Nat) (bs : List Byte) : (s.write k bs).grantAt = s.grantAt := rfl
@[simp] theorem write_cons (k : Nat) (bs : List Byte) : (s.write k bs).cons = s.cons := rfl
@[simp] theorem write_bringup (k : Nat) (bs : List Byte) : (s.write k bs).bringup = s.bringup := rfl
@[simp] theorem write_heap (k : Nat) (bs : List Byte) : (s.write k bs).heap = s.heap := rfl
@[simp] theorem write_ready (k : Nat) (bs : List Byte) : (s.write k bs).ready = s.ready := rfl
@[simp] theorem write_regions (k : Nat) (bs : List Byte) : (s.write k bs).regions = s.regions := rfl
@[simp] theorem write_migLog (k : Nat) (bs : List Byte) : (s.write k bs).migLog = s.migLog := rfl
@[simp] theorem write_migHead (k : Nat) (bs : List Byte) : (s.write k bs).migHead = s.migHead := rfl
@[simp] theorem write_migRd (k : Nat) (bs : List Byte) : (s.write k bs).migRd = s.migRd := rfl
@[simp] theorem write_migOvf (k : Nat) (bs : List Byte) : (s.write k bs).migOvf = s.migOvf := rfl
@[simp] theorem write_moves (k : Nat) (bs : List Byte) : (s.write k bs).moves = s.moves := rfl
@[simp] theorem write_moved (k : Nat) (bs : List Byte) : (s.write k bs).moved = s.moved := rfl
@[simp] theorem write_ctxs (k : Nat) (bs : List Byte) : (s.write k bs).ctxs = s.ctxs := rfl
@[simp] theorem write_pc (k : Nat) (bs : List Byte) : (s.write k bs).pc = s.pc := rfl
@[simp] theorem write_routers (k : Nat) (bs : List Byte) : (s.write k bs).routers = s.routers := rfl
@[simp] theorem write_bypass (k : Nat) (bs : List Byte) : (s.write k bs).bypass = s.bypass := rfl
@[simp] theorem write_ports (k : Nat) (bs : List Byte) : (s.write k bs).ports = s.ports := rfl
@[simp] theorem write_retryNs (k : Nat) (bs : List Byte) : (s.write k bs).retryNs = s.retryNs := rfl
@[simp] theorem write_peers (k : Nat) (bs : List Byte) : (s.write k bs).peers = s.peers := rfl
@[simp] theorem write_dwen (k : Nat) (bs : List Byte) : (s.write k bs).dwen = s.dwen := rfl
@[simp] theorem write_restarts (k : Nat) (bs : List Byte) : (s.write k bs).restarts = s.restarts := rfl
@[simp] theorem write_saved (k : Nat) (bs : List Byte) : (s.write k bs).saved = s.saved := rfl
@[simp] theorem write_reads (k : Nat) (bs : List Byte) : (s.write k bs).reads = s.reads := rfl
@[simp] theorem write_events (k : Nat) (bs : List Byte) : (s.write k bs).events = s.events := rfl

/-! ## `writeNum` -/

@[simp] theorem writeNum_now (n k v : Nat) : (s.writeNum n k v).now = s.now := rfl
@[simp] theorem writeNum_fresh (n k v : Nat) : (s.writeNum n k v).fresh = s.fresh := rfl
@[simp] theorem writeNum_agenda (n k v : Nat) : (s.writeNum n k v).agenda = s.agenda := rfl
@[simp] theorem writeNum_cur (n k v : Nat) : (s.writeNum n k v).cur = s.cur := rfl
@[simp] theorem writeNum_nextId (n k v : Nat) : (s.writeNum n k v).nextId = s.nextId := rfl
@[simp] theorem writeNum_rails (n k v : Nat) : (s.writeNum n k v).rails = s.rails := rfl
@[simp] theorem writeNum_mem (n k v : Nat) : (s.writeNum n k v).mem = Memory.setNum s.mem n k v := rfl
@[simp] theorem writeNum_full (n k v : Nat) : (s.writeNum n k v).full = s.full := rfl
@[simp] theorem writeNum_reqs (n k v : Nat) : (s.writeNum n k v).reqs = s.reqs := rfl
@[simp] theorem writeNum_resps (n k v : Nat) : (s.writeNum n k v).resps = s.resps := rfl
@[simp] theorem writeNum_parked (n k v : Nat) : (s.writeNum n k v).parked = s.parked := rfl
@[simp] theorem writeNum_nodes (n k v : Nat) : (s.writeNum n k v).nodes = s.nodes := rfl
@[simp] theorem writeNum_wqs (n k v : Nat) : (s.writeNum n k v).wqs = s.wqs := rfl
@[simp] theorem writeNum_tickets (n k v : Nat) : (s.writeNum n k v).tickets = s.tickets := rfl
@[simp] theorem writeNum_faults (n k v : Nat) : (s.writeNum n k v).faults = s.faults := rfl
@[simp] theorem writeNum_roots (n k v : Nat) : (s.writeNum n k v).roots = s.roots := rfl
@[simp] theorem writeNum_hot (n k v : Nat) : (s.writeNum n k v).hot = s.hot := rfl
@[simp] theorem writeNum_looks (n k v : Nat) : (s.writeNum n k v).looks = s.looks := rfl
@[simp] theorem writeNum_homeLast (n k v : Nat) : (s.writeNum n k v).homeLast = s.homeLast := rfl
@[simp] theorem writeNum_badMem (n k v : Nat) : (s.writeNum n k v).badMem = s.badMem := rfl
@[simp] theorem writeNum_offers (n k v : Nat) : (s.writeNum n k v).offers = s.offers := rfl
@[simp] theorem writeNum_routeMsgs (n k v : Nat) : (s.writeNum n k v).routeMsgs = s.routeMsgs := rfl
@[simp] theorem writeNum_held (n k v : Nat) : (s.writeNum n k v).held = s.held := rfl
@[simp] theorem writeNum_waves (n k v : Nat) : (s.writeNum n k v).waves = s.waves := rfl
@[simp] theorem writeNum_cores (n k v : Nat) : (s.writeNum n k v).cores = s.cores := rfl
@[simp] theorem writeNum_bands (n k v : Nat) : (s.writeNum n k v).bands = s.bands := rfl
@[simp] theorem writeNum_dies (n k v : Nat) : (s.writeNum n k v).dies = s.dies := rfl
@[simp] theorem writeNum_queues (n k v : Nat) : (s.writeNum n k v).queues = s.queues := rfl
@[simp] theorem writeNum_arbPtr (n k v : Nat) : (s.writeNum n k v).arbPtr = s.arbPtr := rfl
@[simp] theorem writeNum_grantAt (n k v : Nat) : (s.writeNum n k v).grantAt = s.grantAt := rfl
@[simp] theorem writeNum_cons (n k v : Nat) : (s.writeNum n k v).cons = s.cons := rfl
@[simp] theorem writeNum_bringup (n k v : Nat) : (s.writeNum n k v).bringup = s.bringup := rfl
@[simp] theorem writeNum_heap (n k v : Nat) : (s.writeNum n k v).heap = s.heap := rfl
@[simp] theorem writeNum_ready (n k v : Nat) : (s.writeNum n k v).ready = s.ready := rfl
@[simp] theorem writeNum_regions (n k v : Nat) : (s.writeNum n k v).regions = s.regions := rfl
@[simp] theorem writeNum_migLog (n k v : Nat) : (s.writeNum n k v).migLog = s.migLog := rfl
@[simp] theorem writeNum_migHead (n k v : Nat) : (s.writeNum n k v).migHead = s.migHead := rfl
@[simp] theorem writeNum_migRd (n k v : Nat) : (s.writeNum n k v).migRd = s.migRd := rfl
@[simp] theorem writeNum_migOvf (n k v : Nat) : (s.writeNum n k v).migOvf = s.migOvf := rfl
@[simp] theorem writeNum_moves (n k v : Nat) : (s.writeNum n k v).moves = s.moves := rfl
@[simp] theorem writeNum_moved (n k v : Nat) : (s.writeNum n k v).moved = s.moved := rfl
@[simp] theorem writeNum_ctxs (n k v : Nat) : (s.writeNum n k v).ctxs = s.ctxs := rfl
@[simp] theorem writeNum_pc (n k v : Nat) : (s.writeNum n k v).pc = s.pc := rfl
@[simp] theorem writeNum_routers (n k v : Nat) : (s.writeNum n k v).routers = s.routers := rfl
@[simp] theorem writeNum_bypass (n k v : Nat) : (s.writeNum n k v).bypass = s.bypass := rfl
@[simp] theorem writeNum_ports (n k v : Nat) : (s.writeNum n k v).ports = s.ports := rfl
@[simp] theorem writeNum_retryNs (n k v : Nat) : (s.writeNum n k v).retryNs = s.retryNs := rfl
@[simp] theorem writeNum_peers (n k v : Nat) : (s.writeNum n k v).peers = s.peers := rfl
@[simp] theorem writeNum_dwen (n k v : Nat) : (s.writeNum n k v).dwen = s.dwen := rfl
@[simp] theorem writeNum_restarts (n k v : Nat) : (s.writeNum n k v).restarts = s.restarts := rfl
@[simp] theorem writeNum_saved (n k v : Nat) : (s.writeNum n k v).saved = s.saved := rfl
@[simp] theorem writeNum_reads (n k v : Nat) : (s.writeNum n k v).reads = s.reads := rfl
@[simp] theorem writeNum_events (n k v : Nat) : (s.writeNum n k v).events = s.events := rfl

/-! ## `writeCells` -/

@[simp] theorem writeCells_now (cs : List Host.Cell) : (s.writeCells cs).now = s.now := rfl
@[simp] theorem writeCells_fresh (cs : List Host.Cell) : (s.writeCells cs).fresh = s.fresh := rfl
@[simp] theorem writeCells_agenda (cs : List Host.Cell) : (s.writeCells cs).agenda = s.agenda := rfl
@[simp] theorem writeCells_cur (cs : List Host.Cell) : (s.writeCells cs).cur = s.cur := rfl
@[simp] theorem writeCells_nextId (cs : List Host.Cell) : (s.writeCells cs).nextId = s.nextId := rfl
@[simp] theorem writeCells_rails (cs : List Host.Cell) : (s.writeCells cs).rails = s.rails := rfl
@[simp] theorem writeCells_mem (cs : List Host.Cell) : (s.writeCells cs).mem = Memory.setCells s.mem cs := rfl
@[simp] theorem writeCells_full (cs : List Host.Cell) : (s.writeCells cs).full = s.full := rfl
@[simp] theorem writeCells_reqs (cs : List Host.Cell) : (s.writeCells cs).reqs = s.reqs := rfl
@[simp] theorem writeCells_resps (cs : List Host.Cell) : (s.writeCells cs).resps = s.resps := rfl
@[simp] theorem writeCells_parked (cs : List Host.Cell) : (s.writeCells cs).parked = s.parked := rfl
@[simp] theorem writeCells_nodes (cs : List Host.Cell) : (s.writeCells cs).nodes = s.nodes := rfl
@[simp] theorem writeCells_wqs (cs : List Host.Cell) : (s.writeCells cs).wqs = s.wqs := rfl
@[simp] theorem writeCells_tickets (cs : List Host.Cell) : (s.writeCells cs).tickets = s.tickets := rfl
@[simp] theorem writeCells_faults (cs : List Host.Cell) : (s.writeCells cs).faults = s.faults := rfl
@[simp] theorem writeCells_roots (cs : List Host.Cell) : (s.writeCells cs).roots = s.roots := rfl
@[simp] theorem writeCells_hot (cs : List Host.Cell) : (s.writeCells cs).hot = s.hot := rfl
@[simp] theorem writeCells_looks (cs : List Host.Cell) : (s.writeCells cs).looks = s.looks := rfl
@[simp] theorem writeCells_homeLast (cs : List Host.Cell) : (s.writeCells cs).homeLast = s.homeLast := rfl
@[simp] theorem writeCells_badMem (cs : List Host.Cell) : (s.writeCells cs).badMem = s.badMem := rfl
@[simp] theorem writeCells_offers (cs : List Host.Cell) : (s.writeCells cs).offers = s.offers := rfl
@[simp] theorem writeCells_routeMsgs (cs : List Host.Cell) : (s.writeCells cs).routeMsgs = s.routeMsgs := rfl
@[simp] theorem writeCells_held (cs : List Host.Cell) : (s.writeCells cs).held = s.held := rfl
@[simp] theorem writeCells_waves (cs : List Host.Cell) : (s.writeCells cs).waves = s.waves := rfl
@[simp] theorem writeCells_cores (cs : List Host.Cell) : (s.writeCells cs).cores = s.cores := rfl
@[simp] theorem writeCells_bands (cs : List Host.Cell) : (s.writeCells cs).bands = s.bands := rfl
@[simp] theorem writeCells_dies (cs : List Host.Cell) : (s.writeCells cs).dies = s.dies := rfl
@[simp] theorem writeCells_queues (cs : List Host.Cell) : (s.writeCells cs).queues = s.queues := rfl
@[simp] theorem writeCells_arbPtr (cs : List Host.Cell) : (s.writeCells cs).arbPtr = s.arbPtr := rfl
@[simp] theorem writeCells_grantAt (cs : List Host.Cell) : (s.writeCells cs).grantAt = s.grantAt := rfl
@[simp] theorem writeCells_cons (cs : List Host.Cell) : (s.writeCells cs).cons = s.cons := rfl
@[simp] theorem writeCells_bringup (cs : List Host.Cell) : (s.writeCells cs).bringup = s.bringup := rfl
@[simp] theorem writeCells_heap (cs : List Host.Cell) : (s.writeCells cs).heap = s.heap := rfl
@[simp] theorem writeCells_ready (cs : List Host.Cell) : (s.writeCells cs).ready = s.ready := rfl
@[simp] theorem writeCells_regions (cs : List Host.Cell) : (s.writeCells cs).regions = s.regions := rfl
@[simp] theorem writeCells_migLog (cs : List Host.Cell) : (s.writeCells cs).migLog = s.migLog := rfl
@[simp] theorem writeCells_migHead (cs : List Host.Cell) : (s.writeCells cs).migHead = s.migHead := rfl
@[simp] theorem writeCells_migRd (cs : List Host.Cell) : (s.writeCells cs).migRd = s.migRd := rfl
@[simp] theorem writeCells_migOvf (cs : List Host.Cell) : (s.writeCells cs).migOvf = s.migOvf := rfl
@[simp] theorem writeCells_moves (cs : List Host.Cell) : (s.writeCells cs).moves = s.moves := rfl
@[simp] theorem writeCells_moved (cs : List Host.Cell) : (s.writeCells cs).moved = s.moved := rfl
@[simp] theorem writeCells_ctxs (cs : List Host.Cell) : (s.writeCells cs).ctxs = s.ctxs := rfl
@[simp] theorem writeCells_pc (cs : List Host.Cell) : (s.writeCells cs).pc = s.pc := rfl
@[simp] theorem writeCells_routers (cs : List Host.Cell) : (s.writeCells cs).routers = s.routers := rfl
@[simp] theorem writeCells_bypass (cs : List Host.Cell) : (s.writeCells cs).bypass = s.bypass := rfl
@[simp] theorem writeCells_ports (cs : List Host.Cell) : (s.writeCells cs).ports = s.ports := rfl
@[simp] theorem writeCells_retryNs (cs : List Host.Cell) : (s.writeCells cs).retryNs = s.retryNs := rfl
@[simp] theorem writeCells_peers (cs : List Host.Cell) : (s.writeCells cs).peers = s.peers := rfl
@[simp] theorem writeCells_dwen (cs : List Host.Cell) : (s.writeCells cs).dwen = s.dwen := rfl
@[simp] theorem writeCells_restarts (cs : List Host.Cell) : (s.writeCells cs).restarts = s.restarts := rfl
@[simp] theorem writeCells_saved (cs : List Host.Cell) : (s.writeCells cs).saved = s.saved := rfl
@[simp] theorem writeCells_reads (cs : List Host.Cell) : (s.writeCells cs).reads = s.reads := rfl
@[simp] theorem writeCells_events (cs : List Host.Cell) : (s.writeCells cs).events = s.events := rfl

/-! ## `setTag` -/

@[simp] theorem setTag_now (k : Nat) (t : Bool) : (s.setTag k t).now = s.now := rfl
@[simp] theorem setTag_fresh (k : Nat) (t : Bool) : (s.setTag k t).fresh = s.fresh := rfl
@[simp] theorem setTag_agenda (k : Nat) (t : Bool) : (s.setTag k t).agenda = s.agenda := rfl
@[simp] theorem setTag_cur (k : Nat) (t : Bool) : (s.setTag k t).cur = s.cur := rfl
@[simp] theorem setTag_nextId (k : Nat) (t : Bool) : (s.setTag k t).nextId = s.nextId := rfl
@[simp] theorem setTag_rails (k : Nat) (t : Bool) : (s.setTag k t).rails = s.rails := rfl
@[simp] theorem setTag_mem (k : Nat) (t : Bool) : (s.setTag k t).mem = s.mem := rfl
@[simp] theorem setTag_full (k : Nat) (t : Bool) : (s.setTag k t).full = if t then insertNat s.full (k / 8) else eraseNat s.full (k / 8) := rfl
@[simp] theorem setTag_reqs (k : Nat) (t : Bool) : (s.setTag k t).reqs = s.reqs := rfl
@[simp] theorem setTag_resps (k : Nat) (t : Bool) : (s.setTag k t).resps = s.resps := rfl
@[simp] theorem setTag_parked (k : Nat) (t : Bool) : (s.setTag k t).parked = s.parked := rfl
@[simp] theorem setTag_nodes (k : Nat) (t : Bool) : (s.setTag k t).nodes = s.nodes := rfl
@[simp] theorem setTag_wqs (k : Nat) (t : Bool) : (s.setTag k t).wqs = s.wqs := rfl
@[simp] theorem setTag_tickets (k : Nat) (t : Bool) : (s.setTag k t).tickets = s.tickets := rfl
@[simp] theorem setTag_faults (k : Nat) (t : Bool) : (s.setTag k t).faults = s.faults := rfl
@[simp] theorem setTag_roots (k : Nat) (t : Bool) : (s.setTag k t).roots = s.roots := rfl
@[simp] theorem setTag_hot (k : Nat) (t : Bool) : (s.setTag k t).hot = s.hot := rfl
@[simp] theorem setTag_looks (k : Nat) (t : Bool) : (s.setTag k t).looks = s.looks := rfl
@[simp] theorem setTag_homeLast (k : Nat) (t : Bool) : (s.setTag k t).homeLast = s.homeLast := rfl
@[simp] theorem setTag_badMem (k : Nat) (t : Bool) : (s.setTag k t).badMem = s.badMem := rfl
@[simp] theorem setTag_offers (k : Nat) (t : Bool) : (s.setTag k t).offers = s.offers := rfl
@[simp] theorem setTag_routeMsgs (k : Nat) (t : Bool) : (s.setTag k t).routeMsgs = s.routeMsgs := rfl
@[simp] theorem setTag_held (k : Nat) (t : Bool) : (s.setTag k t).held = s.held := rfl
@[simp] theorem setTag_waves (k : Nat) (t : Bool) : (s.setTag k t).waves = s.waves := rfl
@[simp] theorem setTag_cores (k : Nat) (t : Bool) : (s.setTag k t).cores = s.cores := rfl
@[simp] theorem setTag_bands (k : Nat) (t : Bool) : (s.setTag k t).bands = s.bands := rfl
@[simp] theorem setTag_dies (k : Nat) (t : Bool) : (s.setTag k t).dies = s.dies := rfl
@[simp] theorem setTag_queues (k : Nat) (t : Bool) : (s.setTag k t).queues = s.queues := rfl
@[simp] theorem setTag_arbPtr (k : Nat) (t : Bool) : (s.setTag k t).arbPtr = s.arbPtr := rfl
@[simp] theorem setTag_grantAt (k : Nat) (t : Bool) : (s.setTag k t).grantAt = s.grantAt := rfl
@[simp] theorem setTag_cons (k : Nat) (t : Bool) : (s.setTag k t).cons = s.cons := rfl
@[simp] theorem setTag_bringup (k : Nat) (t : Bool) : (s.setTag k t).bringup = s.bringup := rfl
@[simp] theorem setTag_heap (k : Nat) (t : Bool) : (s.setTag k t).heap = s.heap := rfl
@[simp] theorem setTag_ready (k : Nat) (t : Bool) : (s.setTag k t).ready = s.ready := rfl
@[simp] theorem setTag_regions (k : Nat) (t : Bool) : (s.setTag k t).regions = s.regions := rfl
@[simp] theorem setTag_migLog (k : Nat) (t : Bool) : (s.setTag k t).migLog = s.migLog := rfl
@[simp] theorem setTag_migHead (k : Nat) (t : Bool) : (s.setTag k t).migHead = s.migHead := rfl
@[simp] theorem setTag_migRd (k : Nat) (t : Bool) : (s.setTag k t).migRd = s.migRd := rfl
@[simp] theorem setTag_migOvf (k : Nat) (t : Bool) : (s.setTag k t).migOvf = s.migOvf := rfl
@[simp] theorem setTag_moves (k : Nat) (t : Bool) : (s.setTag k t).moves = s.moves := rfl
@[simp] theorem setTag_moved (k : Nat) (t : Bool) : (s.setTag k t).moved = s.moved := rfl
@[simp] theorem setTag_ctxs (k : Nat) (t : Bool) : (s.setTag k t).ctxs = s.ctxs := rfl
@[simp] theorem setTag_pc (k : Nat) (t : Bool) : (s.setTag k t).pc = s.pc := rfl
@[simp] theorem setTag_routers (k : Nat) (t : Bool) : (s.setTag k t).routers = s.routers := rfl
@[simp] theorem setTag_bypass (k : Nat) (t : Bool) : (s.setTag k t).bypass = s.bypass := rfl
@[simp] theorem setTag_ports (k : Nat) (t : Bool) : (s.setTag k t).ports = s.ports := rfl
@[simp] theorem setTag_retryNs (k : Nat) (t : Bool) : (s.setTag k t).retryNs = s.retryNs := rfl
@[simp] theorem setTag_peers (k : Nat) (t : Bool) : (s.setTag k t).peers = s.peers := rfl
@[simp] theorem setTag_dwen (k : Nat) (t : Bool) : (s.setTag k t).dwen = s.dwen := rfl
@[simp] theorem setTag_restarts (k : Nat) (t : Bool) : (s.setTag k t).restarts = s.restarts := rfl
@[simp] theorem setTag_saved (k : Nat) (t : Bool) : (s.setTag k t).saved = s.saved := rfl
@[simp] theorem setTag_reads (k : Nat) (t : Bool) : (s.setTag k t).reads = s.reads := rfl
@[simp] theorem setTag_events (k : Nat) (t : Bool) : (s.setTag k t).events = s.events := rfl

/-! ## `bumpId` -/

@[simp] theorem bumpId_now : (s.bumpId).now = s.now := rfl
@[simp] theorem bumpId_fresh : (s.bumpId).fresh = s.fresh := rfl
@[simp] theorem bumpId_agenda : (s.bumpId).agenda = s.agenda := rfl
@[simp] theorem bumpId_cur : (s.bumpId).cur = s.cur := rfl
@[simp] theorem bumpId_nextId : (s.bumpId).nextId = s.nextId + 1 := rfl
@[simp] theorem bumpId_rails : (s.bumpId).rails = s.rails := rfl
@[simp] theorem bumpId_mem : (s.bumpId).mem = s.mem := rfl
@[simp] theorem bumpId_full : (s.bumpId).full = s.full := rfl
@[simp] theorem bumpId_reqs : (s.bumpId).reqs = s.reqs := rfl
@[simp] theorem bumpId_resps : (s.bumpId).resps = s.resps := rfl
@[simp] theorem bumpId_parked : (s.bumpId).parked = s.parked := rfl
@[simp] theorem bumpId_nodes : (s.bumpId).nodes = s.nodes := rfl
@[simp] theorem bumpId_wqs : (s.bumpId).wqs = s.wqs := rfl
@[simp] theorem bumpId_tickets : (s.bumpId).tickets = s.tickets := rfl
@[simp] theorem bumpId_faults : (s.bumpId).faults = s.faults := rfl
@[simp] theorem bumpId_roots : (s.bumpId).roots = s.roots := rfl
@[simp] theorem bumpId_hot : (s.bumpId).hot = s.hot := rfl
@[simp] theorem bumpId_looks : (s.bumpId).looks = s.looks := rfl
@[simp] theorem bumpId_homeLast : (s.bumpId).homeLast = s.homeLast := rfl
@[simp] theorem bumpId_badMem : (s.bumpId).badMem = s.badMem := rfl
@[simp] theorem bumpId_offers : (s.bumpId).offers = s.offers := rfl
@[simp] theorem bumpId_routeMsgs : (s.bumpId).routeMsgs = s.routeMsgs := rfl
@[simp] theorem bumpId_held : (s.bumpId).held = s.held := rfl
@[simp] theorem bumpId_waves : (s.bumpId).waves = s.waves := rfl
@[simp] theorem bumpId_cores : (s.bumpId).cores = s.cores := rfl
@[simp] theorem bumpId_bands : (s.bumpId).bands = s.bands := rfl
@[simp] theorem bumpId_dies : (s.bumpId).dies = s.dies := rfl
@[simp] theorem bumpId_queues : (s.bumpId).queues = s.queues := rfl
@[simp] theorem bumpId_arbPtr : (s.bumpId).arbPtr = s.arbPtr := rfl
@[simp] theorem bumpId_grantAt : (s.bumpId).grantAt = s.grantAt := rfl
@[simp] theorem bumpId_cons : (s.bumpId).cons = s.cons := rfl
@[simp] theorem bumpId_bringup : (s.bumpId).bringup = s.bringup := rfl
@[simp] theorem bumpId_heap : (s.bumpId).heap = s.heap := rfl
@[simp] theorem bumpId_ready : (s.bumpId).ready = s.ready := rfl
@[simp] theorem bumpId_regions : (s.bumpId).regions = s.regions := rfl
@[simp] theorem bumpId_migLog : (s.bumpId).migLog = s.migLog := rfl
@[simp] theorem bumpId_migHead : (s.bumpId).migHead = s.migHead := rfl
@[simp] theorem bumpId_migRd : (s.bumpId).migRd = s.migRd := rfl
@[simp] theorem bumpId_migOvf : (s.bumpId).migOvf = s.migOvf := rfl
@[simp] theorem bumpId_moves : (s.bumpId).moves = s.moves := rfl
@[simp] theorem bumpId_moved : (s.bumpId).moved = s.moved := rfl
@[simp] theorem bumpId_ctxs : (s.bumpId).ctxs = s.ctxs := rfl
@[simp] theorem bumpId_pc : (s.bumpId).pc = s.pc := rfl
@[simp] theorem bumpId_routers : (s.bumpId).routers = s.routers := rfl
@[simp] theorem bumpId_bypass : (s.bumpId).bypass = s.bypass := rfl
@[simp] theorem bumpId_ports : (s.bumpId).ports = s.ports := rfl
@[simp] theorem bumpId_retryNs : (s.bumpId).retryNs = s.retryNs := rfl
@[simp] theorem bumpId_peers : (s.bumpId).peers = s.peers := rfl
@[simp] theorem bumpId_dwen : (s.bumpId).dwen = s.dwen := rfl
@[simp] theorem bumpId_restarts : (s.bumpId).restarts = s.restarts := rfl
@[simp] theorem bumpId_saved : (s.bumpId).saved = s.saved := rfl
@[simp] theorem bumpId_reads : (s.bumpId).reads = s.reads := rfl
@[simp] theorem bumpId_events : (s.bumpId).events = s.events := rfl

/-! ## `bumpFresh` -/

@[simp] theorem bumpFresh_now : (s.bumpFresh).now = s.now := rfl
@[simp] theorem bumpFresh_fresh : (s.bumpFresh).fresh = s.fresh + 1 := rfl
@[simp] theorem bumpFresh_agenda : (s.bumpFresh).agenda = s.agenda := rfl
@[simp] theorem bumpFresh_cur : (s.bumpFresh).cur = s.cur := rfl
@[simp] theorem bumpFresh_nextId : (s.bumpFresh).nextId = s.nextId := rfl
@[simp] theorem bumpFresh_rails : (s.bumpFresh).rails = s.rails := rfl
@[simp] theorem bumpFresh_mem : (s.bumpFresh).mem = s.mem := rfl
@[simp] theorem bumpFresh_full : (s.bumpFresh).full = s.full := rfl
@[simp] theorem bumpFresh_reqs : (s.bumpFresh).reqs = s.reqs := rfl
@[simp] theorem bumpFresh_resps : (s.bumpFresh).resps = s.resps := rfl
@[simp] theorem bumpFresh_parked : (s.bumpFresh).parked = s.parked := rfl
@[simp] theorem bumpFresh_nodes : (s.bumpFresh).nodes = s.nodes := rfl
@[simp] theorem bumpFresh_wqs : (s.bumpFresh).wqs = s.wqs := rfl
@[simp] theorem bumpFresh_tickets : (s.bumpFresh).tickets = s.tickets := rfl
@[simp] theorem bumpFresh_faults : (s.bumpFresh).faults = s.faults := rfl
@[simp] theorem bumpFresh_roots : (s.bumpFresh).roots = s.roots := rfl
@[simp] theorem bumpFresh_hot : (s.bumpFresh).hot = s.hot := rfl
@[simp] theorem bumpFresh_looks : (s.bumpFresh).looks = s.looks := rfl
@[simp] theorem bumpFresh_homeLast : (s.bumpFresh).homeLast = s.homeLast := rfl
@[simp] theorem bumpFresh_badMem : (s.bumpFresh).badMem = s.badMem := rfl
@[simp] theorem bumpFresh_offers : (s.bumpFresh).offers = s.offers := rfl
@[simp] theorem bumpFresh_routeMsgs : (s.bumpFresh).routeMsgs = s.routeMsgs := rfl
@[simp] theorem bumpFresh_held : (s.bumpFresh).held = s.held := rfl
@[simp] theorem bumpFresh_waves : (s.bumpFresh).waves = s.waves := rfl
@[simp] theorem bumpFresh_cores : (s.bumpFresh).cores = s.cores := rfl
@[simp] theorem bumpFresh_bands : (s.bumpFresh).bands = s.bands := rfl
@[simp] theorem bumpFresh_dies : (s.bumpFresh).dies = s.dies := rfl
@[simp] theorem bumpFresh_queues : (s.bumpFresh).queues = s.queues := rfl
@[simp] theorem bumpFresh_arbPtr : (s.bumpFresh).arbPtr = s.arbPtr := rfl
@[simp] theorem bumpFresh_grantAt : (s.bumpFresh).grantAt = s.grantAt := rfl
@[simp] theorem bumpFresh_cons : (s.bumpFresh).cons = s.cons := rfl
@[simp] theorem bumpFresh_bringup : (s.bumpFresh).bringup = s.bringup := rfl
@[simp] theorem bumpFresh_heap : (s.bumpFresh).heap = s.heap := rfl
@[simp] theorem bumpFresh_ready : (s.bumpFresh).ready = s.ready := rfl
@[simp] theorem bumpFresh_regions : (s.bumpFresh).regions = s.regions := rfl
@[simp] theorem bumpFresh_migLog : (s.bumpFresh).migLog = s.migLog := rfl
@[simp] theorem bumpFresh_migHead : (s.bumpFresh).migHead = s.migHead := rfl
@[simp] theorem bumpFresh_migRd : (s.bumpFresh).migRd = s.migRd := rfl
@[simp] theorem bumpFresh_migOvf : (s.bumpFresh).migOvf = s.migOvf := rfl
@[simp] theorem bumpFresh_moves : (s.bumpFresh).moves = s.moves := rfl
@[simp] theorem bumpFresh_moved : (s.bumpFresh).moved = s.moved := rfl
@[simp] theorem bumpFresh_ctxs : (s.bumpFresh).ctxs = s.ctxs := rfl
@[simp] theorem bumpFresh_pc : (s.bumpFresh).pc = s.pc := rfl
@[simp] theorem bumpFresh_routers : (s.bumpFresh).routers = s.routers := rfl
@[simp] theorem bumpFresh_bypass : (s.bumpFresh).bypass = s.bypass := rfl
@[simp] theorem bumpFresh_ports : (s.bumpFresh).ports = s.ports := rfl
@[simp] theorem bumpFresh_retryNs : (s.bumpFresh).retryNs = s.retryNs := rfl
@[simp] theorem bumpFresh_peers : (s.bumpFresh).peers = s.peers := rfl
@[simp] theorem bumpFresh_dwen : (s.bumpFresh).dwen = s.dwen := rfl
@[simp] theorem bumpFresh_restarts : (s.bumpFresh).restarts = s.restarts := rfl
@[simp] theorem bumpFresh_saved : (s.bumpFresh).saved = s.saved := rfl
@[simp] theorem bumpFresh_reads : (s.bumpFresh).reads = s.reads := rfl
@[simp] theorem bumpFresh_events : (s.bumpFresh).events = s.events := rfl

/-! ## `send` -/

@[simp] theorem send_now (r : Req) : (s.send r).now = s.now := rfl
@[simp] theorem send_fresh (r : Req) : (s.send r).fresh = s.fresh := rfl
@[simp] theorem send_agenda (r : Req) : (s.send r).agenda = s.agenda := rfl
@[simp] theorem send_cur (r : Req) : (s.send r).cur = s.cur := rfl
@[simp] theorem send_nextId (r : Req) : (s.send r).nextId = s.nextId + 1 := rfl
@[simp] theorem send_rails (r : Req) : (s.send r).rails = s.rails := rfl
@[simp] theorem send_mem (r : Req) : (s.send r).mem = s.mem := rfl
@[simp] theorem send_full (r : Req) : (s.send r).full = s.full := rfl
@[simp] theorem send_reqs (r : Req) : (s.send r).reqs = s.reqs ++ [{ r with id := s.nextId, born := s.now }] := rfl
@[simp] theorem send_resps (r : Req) : (s.send r).resps = s.resps := rfl
@[simp] theorem send_parked (r : Req) : (s.send r).parked = s.parked := rfl
@[simp] theorem send_nodes (r : Req) : (s.send r).nodes = s.nodes := rfl
@[simp] theorem send_wqs (r : Req) : (s.send r).wqs = s.wqs := rfl
@[simp] theorem send_tickets (r : Req) : (s.send r).tickets = s.tickets := rfl
@[simp] theorem send_faults (r : Req) : (s.send r).faults = s.faults := rfl
@[simp] theorem send_roots (r : Req) : (s.send r).roots = s.roots := rfl
@[simp] theorem send_hot (r : Req) : (s.send r).hot = s.hot := rfl
@[simp] theorem send_looks (r : Req) : (s.send r).looks = s.looks := rfl
@[simp] theorem send_homeLast (r : Req) : (s.send r).homeLast = s.homeLast := rfl
@[simp] theorem send_badMem (r : Req) : (s.send r).badMem = s.badMem := rfl
@[simp] theorem send_offers (r : Req) : (s.send r).offers = s.offers := rfl
@[simp] theorem send_routeMsgs (r : Req) : (s.send r).routeMsgs = s.routeMsgs := rfl
@[simp] theorem send_held (r : Req) : (s.send r).held = s.held := rfl
@[simp] theorem send_waves (r : Req) : (s.send r).waves = s.waves := rfl
@[simp] theorem send_cores (r : Req) : (s.send r).cores = s.cores := rfl
@[simp] theorem send_bands (r : Req) : (s.send r).bands = s.bands := rfl
@[simp] theorem send_dies (r : Req) : (s.send r).dies = s.dies := rfl
@[simp] theorem send_queues (r : Req) : (s.send r).queues = s.queues := rfl
@[simp] theorem send_arbPtr (r : Req) : (s.send r).arbPtr = s.arbPtr := rfl
@[simp] theorem send_grantAt (r : Req) : (s.send r).grantAt = s.grantAt := rfl
@[simp] theorem send_cons (r : Req) : (s.send r).cons = s.cons := rfl
@[simp] theorem send_bringup (r : Req) : (s.send r).bringup = s.bringup := rfl
@[simp] theorem send_heap (r : Req) : (s.send r).heap = s.heap := rfl
@[simp] theorem send_ready (r : Req) : (s.send r).ready = s.ready := rfl
@[simp] theorem send_regions (r : Req) : (s.send r).regions = s.regions := rfl
@[simp] theorem send_migLog (r : Req) : (s.send r).migLog = s.migLog := rfl
@[simp] theorem send_migHead (r : Req) : (s.send r).migHead = s.migHead := rfl
@[simp] theorem send_migRd (r : Req) : (s.send r).migRd = s.migRd := rfl
@[simp] theorem send_migOvf (r : Req) : (s.send r).migOvf = s.migOvf := rfl
@[simp] theorem send_moves (r : Req) : (s.send r).moves = s.moves := rfl
@[simp] theorem send_moved (r : Req) : (s.send r).moved = s.moved := rfl
@[simp] theorem send_ctxs (r : Req) : (s.send r).ctxs = s.ctxs := rfl
@[simp] theorem send_pc (r : Req) : (s.send r).pc = s.pc := rfl
@[simp] theorem send_routers (r : Req) : (s.send r).routers = s.routers := rfl
@[simp] theorem send_bypass (r : Req) : (s.send r).bypass = s.bypass := rfl
@[simp] theorem send_ports (r : Req) : (s.send r).ports = s.ports := rfl
@[simp] theorem send_retryNs (r : Req) : (s.send r).retryNs = s.retryNs := rfl
@[simp] theorem send_peers (r : Req) : (s.send r).peers = s.peers := rfl
@[simp] theorem send_dwen (r : Req) : (s.send r).dwen = s.dwen := rfl
@[simp] theorem send_restarts (r : Req) : (s.send r).restarts = s.restarts := rfl
@[simp] theorem send_saved (r : Req) : (s.send r).saved = s.saved := rfl
@[simp] theorem send_reads (r : Req) : (s.send r).reads = s.reads := rfl
@[simp] theorem send_events (r : Req) : (s.send r).events = s.events := rfl

/-! ## `onWave` -/

@[simp] theorem onWave_now (n : Nat) (f : Wave → Wave) : (s.onWave n f).now = s.now := by unfold State.onWave; split <;> rfl
@[simp] theorem onWave_fresh (n : Nat) (f : Wave → Wave) : (s.onWave n f).fresh = s.fresh := by unfold State.onWave; split <;> rfl
@[simp] theorem onWave_agenda (n : Nat) (f : Wave → Wave) : (s.onWave n f).agenda = s.agenda := by unfold State.onWave; split <;> rfl
@[simp] theorem onWave_cur (n : Nat) (f : Wave → Wave) : (s.onWave n f).cur = s.cur := by unfold State.onWave; split <;> rfl
@[simp] theorem onWave_nextId (n : Nat) (f : Wave → Wave) : (s.onWave n f).nextId = s.nextId := by unfold State.onWave; split <;> rfl
@[simp] theorem onWave_rails (n : Nat) (f : Wave → Wave) : (s.onWave n f).rails = s.rails := by unfold State.onWave; split <;> rfl
@[simp] theorem onWave_mem (n : Nat) (f : Wave → Wave) : (s.onWave n f).mem = s.mem := by unfold State.onWave; split <;> rfl
@[simp] theorem onWave_full (n : Nat) (f : Wave → Wave) : (s.onWave n f).full = s.full := by unfold State.onWave; split <;> rfl
@[simp] theorem onWave_reqs (n : Nat) (f : Wave → Wave) : (s.onWave n f).reqs = s.reqs := by unfold State.onWave; split <;> rfl
@[simp] theorem onWave_resps (n : Nat) (f : Wave → Wave) : (s.onWave n f).resps = s.resps := by unfold State.onWave; split <;> rfl
@[simp] theorem onWave_parked (n : Nat) (f : Wave → Wave) : (s.onWave n f).parked = s.parked := by unfold State.onWave; split <;> rfl
@[simp] theorem onWave_nodes (n : Nat) (f : Wave → Wave) : (s.onWave n f).nodes = s.nodes := by unfold State.onWave; split <;> rfl
@[simp] theorem onWave_wqs (n : Nat) (f : Wave → Wave) : (s.onWave n f).wqs = s.wqs := by unfold State.onWave; split <;> rfl
@[simp] theorem onWave_tickets (n : Nat) (f : Wave → Wave) : (s.onWave n f).tickets = s.tickets := by unfold State.onWave; split <;> rfl
@[simp] theorem onWave_faults (n : Nat) (f : Wave → Wave) : (s.onWave n f).faults = s.faults := by unfold State.onWave; split <;> rfl
@[simp] theorem onWave_roots (n : Nat) (f : Wave → Wave) : (s.onWave n f).roots = s.roots := by unfold State.onWave; split <;> rfl
@[simp] theorem onWave_hot (n : Nat) (f : Wave → Wave) : (s.onWave n f).hot = s.hot := by unfold State.onWave; split <;> rfl
@[simp] theorem onWave_looks (n : Nat) (f : Wave → Wave) : (s.onWave n f).looks = s.looks := by unfold State.onWave; split <;> rfl
@[simp] theorem onWave_homeLast (n : Nat) (f : Wave → Wave) : (s.onWave n f).homeLast = s.homeLast := by unfold State.onWave; split <;> rfl
@[simp] theorem onWave_badMem (n : Nat) (f : Wave → Wave) : (s.onWave n f).badMem = s.badMem := by unfold State.onWave; split <;> rfl
@[simp] theorem onWave_offers (n : Nat) (f : Wave → Wave) : (s.onWave n f).offers = s.offers := by unfold State.onWave; split <;> rfl
@[simp] theorem onWave_routeMsgs (n : Nat) (f : Wave → Wave) : (s.onWave n f).routeMsgs = s.routeMsgs := by unfold State.onWave; split <;> rfl
@[simp] theorem onWave_held (n : Nat) (f : Wave → Wave) : (s.onWave n f).held = s.held := by unfold State.onWave; split <;> rfl
@[simp] theorem onWave_cores (n : Nat) (f : Wave → Wave) : (s.onWave n f).cores = s.cores := by unfold State.onWave; split <;> rfl
@[simp] theorem onWave_bands (n : Nat) (f : Wave → Wave) : (s.onWave n f).bands = s.bands := by unfold State.onWave; split <;> rfl
@[simp] theorem onWave_dies (n : Nat) (f : Wave → Wave) : (s.onWave n f).dies = s.dies := by unfold State.onWave; split <;> rfl
@[simp] theorem onWave_queues (n : Nat) (f : Wave → Wave) : (s.onWave n f).queues = s.queues := by unfold State.onWave; split <;> rfl
@[simp] theorem onWave_arbPtr (n : Nat) (f : Wave → Wave) : (s.onWave n f).arbPtr = s.arbPtr := by unfold State.onWave; split <;> rfl
@[simp] theorem onWave_grantAt (n : Nat) (f : Wave → Wave) : (s.onWave n f).grantAt = s.grantAt := by unfold State.onWave; split <;> rfl
@[simp] theorem onWave_cons (n : Nat) (f : Wave → Wave) : (s.onWave n f).cons = s.cons := by unfold State.onWave; split <;> rfl
@[simp] theorem onWave_bringup (n : Nat) (f : Wave → Wave) : (s.onWave n f).bringup = s.bringup := by unfold State.onWave; split <;> rfl
@[simp] theorem onWave_heap (n : Nat) (f : Wave → Wave) : (s.onWave n f).heap = s.heap := by unfold State.onWave; split <;> rfl
@[simp] theorem onWave_ready (n : Nat) (f : Wave → Wave) : (s.onWave n f).ready = s.ready := by unfold State.onWave; split <;> rfl
@[simp] theorem onWave_regions (n : Nat) (f : Wave → Wave) : (s.onWave n f).regions = s.regions := by unfold State.onWave; split <;> rfl
@[simp] theorem onWave_migLog (n : Nat) (f : Wave → Wave) : (s.onWave n f).migLog = s.migLog := by unfold State.onWave; split <;> rfl
@[simp] theorem onWave_migHead (n : Nat) (f : Wave → Wave) : (s.onWave n f).migHead = s.migHead := by unfold State.onWave; split <;> rfl
@[simp] theorem onWave_migRd (n : Nat) (f : Wave → Wave) : (s.onWave n f).migRd = s.migRd := by unfold State.onWave; split <;> rfl
@[simp] theorem onWave_migOvf (n : Nat) (f : Wave → Wave) : (s.onWave n f).migOvf = s.migOvf := by unfold State.onWave; split <;> rfl
@[simp] theorem onWave_moves (n : Nat) (f : Wave → Wave) : (s.onWave n f).moves = s.moves := by unfold State.onWave; split <;> rfl
@[simp] theorem onWave_moved (n : Nat) (f : Wave → Wave) : (s.onWave n f).moved = s.moved := by unfold State.onWave; split <;> rfl
@[simp] theorem onWave_ctxs (n : Nat) (f : Wave → Wave) : (s.onWave n f).ctxs = s.ctxs := by unfold State.onWave; split <;> rfl
@[simp] theorem onWave_pc (n : Nat) (f : Wave → Wave) : (s.onWave n f).pc = s.pc := by unfold State.onWave; split <;> rfl
@[simp] theorem onWave_routers (n : Nat) (f : Wave → Wave) : (s.onWave n f).routers = s.routers := by unfold State.onWave; split <;> rfl
@[simp] theorem onWave_bypass (n : Nat) (f : Wave → Wave) : (s.onWave n f).bypass = s.bypass := by unfold State.onWave; split <;> rfl
@[simp] theorem onWave_ports (n : Nat) (f : Wave → Wave) : (s.onWave n f).ports = s.ports := by unfold State.onWave; split <;> rfl
@[simp] theorem onWave_retryNs (n : Nat) (f : Wave → Wave) : (s.onWave n f).retryNs = s.retryNs := by unfold State.onWave; split <;> rfl
@[simp] theorem onWave_peers (n : Nat) (f : Wave → Wave) : (s.onWave n f).peers = s.peers := by unfold State.onWave; split <;> rfl
@[simp] theorem onWave_dwen (n : Nat) (f : Wave → Wave) : (s.onWave n f).dwen = s.dwen := by unfold State.onWave; split <;> rfl
@[simp] theorem onWave_restarts (n : Nat) (f : Wave → Wave) : (s.onWave n f).restarts = s.restarts := by unfold State.onWave; split <;> rfl
@[simp] theorem onWave_saved (n : Nat) (f : Wave → Wave) : (s.onWave n f).saved = s.saved := by unfold State.onWave; split <;> rfl
@[simp] theorem onWave_reads (n : Nat) (f : Wave → Wave) : (s.onWave n f).reads = s.reads := by unfold State.onWave; split <;> rfl
@[simp] theorem onWave_events (n : Nat) (f : Wave → Wave) : (s.onWave n f).events = s.events := by unfold State.onWave; split <;> rfl

/-! ## `onCon` -/

@[simp] theorem onCon_now (c : Nat) (f : Cons → Cons) : (s.onCon c f).now = s.now := by unfold State.onCon; split <;> rfl
@[simp] theorem onCon_fresh (c : Nat) (f : Cons → Cons) : (s.onCon c f).fresh = s.fresh := by unfold State.onCon; split <;> rfl
@[simp] theorem onCon_agenda (c : Nat) (f : Cons → Cons) : (s.onCon c f).agenda = s.agenda := by unfold State.onCon; split <;> rfl
@[simp] theorem onCon_cur (c : Nat) (f : Cons → Cons) : (s.onCon c f).cur = s.cur := by unfold State.onCon; split <;> rfl
@[simp] theorem onCon_nextId (c : Nat) (f : Cons → Cons) : (s.onCon c f).nextId = s.nextId := by unfold State.onCon; split <;> rfl
@[simp] theorem onCon_rails (c : Nat) (f : Cons → Cons) : (s.onCon c f).rails = s.rails := by unfold State.onCon; split <;> rfl
@[simp] theorem onCon_mem (c : Nat) (f : Cons → Cons) : (s.onCon c f).mem = s.mem := by unfold State.onCon; split <;> rfl
@[simp] theorem onCon_full (c : Nat) (f : Cons → Cons) : (s.onCon c f).full = s.full := by unfold State.onCon; split <;> rfl
@[simp] theorem onCon_reqs (c : Nat) (f : Cons → Cons) : (s.onCon c f).reqs = s.reqs := by unfold State.onCon; split <;> rfl
@[simp] theorem onCon_resps (c : Nat) (f : Cons → Cons) : (s.onCon c f).resps = s.resps := by unfold State.onCon; split <;> rfl
@[simp] theorem onCon_parked (c : Nat) (f : Cons → Cons) : (s.onCon c f).parked = s.parked := by unfold State.onCon; split <;> rfl
@[simp] theorem onCon_nodes (c : Nat) (f : Cons → Cons) : (s.onCon c f).nodes = s.nodes := by unfold State.onCon; split <;> rfl
@[simp] theorem onCon_wqs (c : Nat) (f : Cons → Cons) : (s.onCon c f).wqs = s.wqs := by unfold State.onCon; split <;> rfl
@[simp] theorem onCon_tickets (c : Nat) (f : Cons → Cons) : (s.onCon c f).tickets = s.tickets := by unfold State.onCon; split <;> rfl
@[simp] theorem onCon_faults (c : Nat) (f : Cons → Cons) : (s.onCon c f).faults = s.faults := by unfold State.onCon; split <;> rfl
@[simp] theorem onCon_roots (c : Nat) (f : Cons → Cons) : (s.onCon c f).roots = s.roots := by unfold State.onCon; split <;> rfl
@[simp] theorem onCon_hot (c : Nat) (f : Cons → Cons) : (s.onCon c f).hot = s.hot := by unfold State.onCon; split <;> rfl
@[simp] theorem onCon_looks (c : Nat) (f : Cons → Cons) : (s.onCon c f).looks = s.looks := by unfold State.onCon; split <;> rfl
@[simp] theorem onCon_homeLast (c : Nat) (f : Cons → Cons) : (s.onCon c f).homeLast = s.homeLast := by unfold State.onCon; split <;> rfl
@[simp] theorem onCon_badMem (c : Nat) (f : Cons → Cons) : (s.onCon c f).badMem = s.badMem := by unfold State.onCon; split <;> rfl
@[simp] theorem onCon_offers (c : Nat) (f : Cons → Cons) : (s.onCon c f).offers = s.offers := by unfold State.onCon; split <;> rfl
@[simp] theorem onCon_routeMsgs (c : Nat) (f : Cons → Cons) : (s.onCon c f).routeMsgs = s.routeMsgs := by unfold State.onCon; split <;> rfl
@[simp] theorem onCon_held (c : Nat) (f : Cons → Cons) : (s.onCon c f).held = s.held := by unfold State.onCon; split <;> rfl
@[simp] theorem onCon_waves (c : Nat) (f : Cons → Cons) : (s.onCon c f).waves = s.waves := by unfold State.onCon; split <;> rfl
@[simp] theorem onCon_cores (c : Nat) (f : Cons → Cons) : (s.onCon c f).cores = s.cores := by unfold State.onCon; split <;> rfl
@[simp] theorem onCon_bands (c : Nat) (f : Cons → Cons) : (s.onCon c f).bands = s.bands := by unfold State.onCon; split <;> rfl
@[simp] theorem onCon_dies (c : Nat) (f : Cons → Cons) : (s.onCon c f).dies = s.dies := by unfold State.onCon; split <;> rfl
@[simp] theorem onCon_queues (c : Nat) (f : Cons → Cons) : (s.onCon c f).queues = s.queues := by unfold State.onCon; split <;> rfl
@[simp] theorem onCon_arbPtr (c : Nat) (f : Cons → Cons) : (s.onCon c f).arbPtr = s.arbPtr := by unfold State.onCon; split <;> rfl
@[simp] theorem onCon_grantAt (c : Nat) (f : Cons → Cons) : (s.onCon c f).grantAt = s.grantAt := by unfold State.onCon; split <;> rfl
@[simp] theorem onCon_bringup (c : Nat) (f : Cons → Cons) : (s.onCon c f).bringup = s.bringup := by unfold State.onCon; split <;> rfl
@[simp] theorem onCon_heap (c : Nat) (f : Cons → Cons) : (s.onCon c f).heap = s.heap := by unfold State.onCon; split <;> rfl
@[simp] theorem onCon_ready (c : Nat) (f : Cons → Cons) : (s.onCon c f).ready = s.ready := by unfold State.onCon; split <;> rfl
@[simp] theorem onCon_regions (c : Nat) (f : Cons → Cons) : (s.onCon c f).regions = s.regions := by unfold State.onCon; split <;> rfl
@[simp] theorem onCon_migLog (c : Nat) (f : Cons → Cons) : (s.onCon c f).migLog = s.migLog := by unfold State.onCon; split <;> rfl
@[simp] theorem onCon_migHead (c : Nat) (f : Cons → Cons) : (s.onCon c f).migHead = s.migHead := by unfold State.onCon; split <;> rfl
@[simp] theorem onCon_migRd (c : Nat) (f : Cons → Cons) : (s.onCon c f).migRd = s.migRd := by unfold State.onCon; split <;> rfl
@[simp] theorem onCon_migOvf (c : Nat) (f : Cons → Cons) : (s.onCon c f).migOvf = s.migOvf := by unfold State.onCon; split <;> rfl
@[simp] theorem onCon_moves (c : Nat) (f : Cons → Cons) : (s.onCon c f).moves = s.moves := by unfold State.onCon; split <;> rfl
@[simp] theorem onCon_moved (c : Nat) (f : Cons → Cons) : (s.onCon c f).moved = s.moved := by unfold State.onCon; split <;> rfl
@[simp] theorem onCon_ctxs (c : Nat) (f : Cons → Cons) : (s.onCon c f).ctxs = s.ctxs := by unfold State.onCon; split <;> rfl
@[simp] theorem onCon_pc (c : Nat) (f : Cons → Cons) : (s.onCon c f).pc = s.pc := by unfold State.onCon; split <;> rfl
@[simp] theorem onCon_routers (c : Nat) (f : Cons → Cons) : (s.onCon c f).routers = s.routers := by unfold State.onCon; split <;> rfl
@[simp] theorem onCon_bypass (c : Nat) (f : Cons → Cons) : (s.onCon c f).bypass = s.bypass := by unfold State.onCon; split <;> rfl
@[simp] theorem onCon_ports (c : Nat) (f : Cons → Cons) : (s.onCon c f).ports = s.ports := by unfold State.onCon; split <;> rfl
@[simp] theorem onCon_retryNs (c : Nat) (f : Cons → Cons) : (s.onCon c f).retryNs = s.retryNs := by unfold State.onCon; split <;> rfl
@[simp] theorem onCon_peers (c : Nat) (f : Cons → Cons) : (s.onCon c f).peers = s.peers := by unfold State.onCon; split <;> rfl
@[simp] theorem onCon_dwen (c : Nat) (f : Cons → Cons) : (s.onCon c f).dwen = s.dwen := by unfold State.onCon; split <;> rfl
@[simp] theorem onCon_restarts (c : Nat) (f : Cons → Cons) : (s.onCon c f).restarts = s.restarts := by unfold State.onCon; split <;> rfl
@[simp] theorem onCon_saved (c : Nat) (f : Cons → Cons) : (s.onCon c f).saved = s.saved := by unfold State.onCon; split <;> rfl
@[simp] theorem onCon_reads (c : Nat) (f : Cons → Cons) : (s.onCon c f).reads = s.reads := by unfold State.onCon; split <;> rfl
@[simp] theorem onCon_events (c : Nat) (f : Cons → Cons) : (s.onCon c f).events = s.events := by unfold State.onCon; split <;> rfl

/-! ## Issue -/

@[simp] theorem issuedS_now (n : Nat) (w : Wave) : (s.issuedS n w).now = s.now := rfl
@[simp] theorem issuedS_fresh (n : Nat) (w : Wave) : (s.issuedS n w).fresh = s.fresh + 1 := rfl
@[simp] theorem issuedS_agenda (n : Nat) (w : Wave) : (s.issuedS n w).agenda = s.agenda := rfl
@[simp] theorem issuedS_cur (n : Nat) (w : Wave) : (s.issuedS n w).cur = s.cur := rfl
@[simp] theorem issuedS_nextId (n : Nat) (w : Wave) : (s.issuedS n w).nextId = s.nextId + 1 := rfl
@[simp] theorem issuedS_rails (n : Nat) (w : Wave) : (s.issuedS n w).rails = s.rails := rfl
@[simp] theorem issuedS_mem (n : Nat) (w : Wave) : (s.issuedS n w).mem = s.mem := rfl
@[simp] theorem issuedS_full (n : Nat) (w : Wave) : (s.issuedS n w).full = s.full := rfl
@[simp] theorem issuedS_reqs (n : Nat) (w : Wave) : (s.issuedS n w).reqs = s.reqs := rfl
@[simp] theorem issuedS_resps (n : Nat) (w : Wave) : (s.issuedS n w).resps = s.resps := rfl
@[simp] theorem issuedS_parked (n : Nat) (w : Wave) : (s.issuedS n w).parked = s.parked := rfl
@[simp] theorem issuedS_nodes (n : Nat) (w : Wave) : (s.issuedS n w).nodes = s.nodes := rfl
@[simp] theorem issuedS_wqs (n : Nat) (w : Wave) : (s.issuedS n w).wqs = s.wqs := rfl
@[simp] theorem issuedS_tickets (n : Nat) (w : Wave) : (s.issuedS n w).tickets = s.tickets := rfl
@[simp] theorem issuedS_faults (n : Nat) (w : Wave) : (s.issuedS n w).faults = s.faults := rfl
@[simp] theorem issuedS_roots (n : Nat) (w : Wave) : (s.issuedS n w).roots = s.roots := rfl
@[simp] theorem issuedS_hot (n : Nat) (w : Wave) : (s.issuedS n w).hot = s.hot := rfl
@[simp] theorem issuedS_looks (n : Nat) (w : Wave) : (s.issuedS n w).looks = s.looks := rfl
@[simp] theorem issuedS_homeLast (n : Nat) (w : Wave) : (s.issuedS n w).homeLast = s.homeLast := rfl
@[simp] theorem issuedS_badMem (n : Nat) (w : Wave) : (s.issuedS n w).badMem = s.badMem := rfl
@[simp] theorem issuedS_offers (n : Nat) (w : Wave) : (s.issuedS n w).offers = s.offers := rfl
@[simp] theorem issuedS_routeMsgs (n : Nat) (w : Wave) : (s.issuedS n w).routeMsgs = s.routeMsgs := rfl
@[simp] theorem issuedS_held (n : Nat) (w : Wave) : (s.issuedS n w).held = s.held := rfl
@[simp] theorem issuedS_bands (n : Nat) (w : Wave) : (s.issuedS n w).bands = s.bands := rfl
@[simp] theorem issuedS_dies (n : Nat) (w : Wave) : (s.issuedS n w).dies = s.dies := rfl
@[simp] theorem issuedS_queues (n : Nat) (w : Wave) : (s.issuedS n w).queues = s.queues := rfl
@[simp] theorem issuedS_arbPtr (n : Nat) (w : Wave) : (s.issuedS n w).arbPtr = s.arbPtr := rfl
@[simp] theorem issuedS_grantAt (n : Nat) (w : Wave) : (s.issuedS n w).grantAt = s.grantAt := rfl
@[simp] theorem issuedS_cons (n : Nat) (w : Wave) : (s.issuedS n w).cons = s.cons := rfl
@[simp] theorem issuedS_bringup (n : Nat) (w : Wave) : (s.issuedS n w).bringup = s.bringup := rfl
@[simp] theorem issuedS_heap (n : Nat) (w : Wave) : (s.issuedS n w).heap = s.heap := rfl
@[simp] theorem issuedS_ready (n : Nat) (w : Wave) : (s.issuedS n w).ready = s.ready := rfl
@[simp] theorem issuedS_regions (n : Nat) (w : Wave) : (s.issuedS n w).regions = s.regions := rfl
@[simp] theorem issuedS_migLog (n : Nat) (w : Wave) : (s.issuedS n w).migLog = s.migLog := rfl
@[simp] theorem issuedS_migHead (n : Nat) (w : Wave) : (s.issuedS n w).migHead = s.migHead := rfl
@[simp] theorem issuedS_migRd (n : Nat) (w : Wave) : (s.issuedS n w).migRd = s.migRd := rfl
@[simp] theorem issuedS_migOvf (n : Nat) (w : Wave) : (s.issuedS n w).migOvf = s.migOvf := rfl
@[simp] theorem issuedS_moves (n : Nat) (w : Wave) : (s.issuedS n w).moves = s.moves := rfl
@[simp] theorem issuedS_moved (n : Nat) (w : Wave) : (s.issuedS n w).moved = s.moved := rfl
@[simp] theorem issuedS_ctxs (n : Nat) (w : Wave) : (s.issuedS n w).ctxs = s.ctxs := rfl
@[simp] theorem issuedS_pc (n : Nat) (w : Wave) : (s.issuedS n w).pc = s.pc := rfl
@[simp] theorem issuedS_routers (n : Nat) (w : Wave) : (s.issuedS n w).routers = s.routers := rfl
@[simp] theorem issuedS_bypass (n : Nat) (w : Wave) : (s.issuedS n w).bypass = s.bypass := rfl
@[simp] theorem issuedS_ports (n : Nat) (w : Wave) : (s.issuedS n w).ports = s.ports := rfl
@[simp] theorem issuedS_retryNs (n : Nat) (w : Wave) : (s.issuedS n w).retryNs = s.retryNs := rfl
@[simp] theorem issuedS_peers (n : Nat) (w : Wave) : (s.issuedS n w).peers = s.peers := rfl
@[simp] theorem issuedS_dwen (n : Nat) (w : Wave) : (s.issuedS n w).dwen = s.dwen := rfl
@[simp] theorem issuedS_restarts (n : Nat) (w : Wave) : (s.issuedS n w).restarts = s.restarts := rfl
@[simp] theorem issuedS_saved (n : Nat) (w : Wave) : (s.issuedS n w).saved = s.saved := rfl
@[simp] theorem issuedS_reads (n : Nat) (w : Wave) : (s.issuedS n w).reads = s.reads := rfl
@[simp] theorem issuedS_events (n : Nat) (w : Wave) : (s.issuedS n w).events = s.events := rfl

@[simp] theorem step4_now (n : Nat) (w : Wave) (f : Wave → Wave) : (s.step4 n w f).now = s.now := rfl
@[simp] theorem step4_fresh (n : Nat) (w : Wave) (f : Wave → Wave) : (s.step4 n w f).fresh = s.fresh + 1 := rfl
@[simp] theorem step4_agenda (n : Nat) (w : Wave) (f : Wave → Wave) : (s.step4 n w f).agenda = s.agenda := rfl
@[simp] theorem step4_cur (n : Nat) (w : Wave) (f : Wave → Wave) : (s.step4 n w f).cur = s.cur := rfl
@[simp] theorem step4_nextId (n : Nat) (w : Wave) (f : Wave → Wave) : (s.step4 n w f).nextId = s.nextId + 1 := rfl
@[simp] theorem step4_rails (n : Nat) (w : Wave) (f : Wave → Wave) : (s.step4 n w f).rails = s.rails := rfl
@[simp] theorem step4_mem (n : Nat) (w : Wave) (f : Wave → Wave) : (s.step4 n w f).mem = s.mem := rfl
@[simp] theorem step4_full (n : Nat) (w : Wave) (f : Wave → Wave) : (s.step4 n w f).full = s.full := rfl
@[simp] theorem step4_reqs (n : Nat) (w : Wave) (f : Wave → Wave) : (s.step4 n w f).reqs = s.reqs := rfl
@[simp] theorem step4_resps (n : Nat) (w : Wave) (f : Wave → Wave) : (s.step4 n w f).resps = s.resps := rfl
@[simp] theorem step4_parked (n : Nat) (w : Wave) (f : Wave → Wave) : (s.step4 n w f).parked = s.parked := rfl
@[simp] theorem step4_nodes (n : Nat) (w : Wave) (f : Wave → Wave) : (s.step4 n w f).nodes = s.nodes := rfl
@[simp] theorem step4_wqs (n : Nat) (w : Wave) (f : Wave → Wave) : (s.step4 n w f).wqs = s.wqs := rfl
@[simp] theorem step4_tickets (n : Nat) (w : Wave) (f : Wave → Wave) : (s.step4 n w f).tickets = s.tickets := rfl
@[simp] theorem step4_faults (n : Nat) (w : Wave) (f : Wave → Wave) : (s.step4 n w f).faults = s.faults := rfl
@[simp] theorem step4_roots (n : Nat) (w : Wave) (f : Wave → Wave) : (s.step4 n w f).roots = s.roots := rfl
@[simp] theorem step4_hot (n : Nat) (w : Wave) (f : Wave → Wave) : (s.step4 n w f).hot = s.hot := rfl
@[simp] theorem step4_looks (n : Nat) (w : Wave) (f : Wave → Wave) : (s.step4 n w f).looks = s.looks := rfl
@[simp] theorem step4_homeLast (n : Nat) (w : Wave) (f : Wave → Wave) : (s.step4 n w f).homeLast = s.homeLast := rfl
@[simp] theorem step4_badMem (n : Nat) (w : Wave) (f : Wave → Wave) : (s.step4 n w f).badMem = s.badMem := rfl
@[simp] theorem step4_offers (n : Nat) (w : Wave) (f : Wave → Wave) : (s.step4 n w f).offers = s.offers := rfl
@[simp] theorem step4_routeMsgs (n : Nat) (w : Wave) (f : Wave → Wave) : (s.step4 n w f).routeMsgs = s.routeMsgs := rfl
@[simp] theorem step4_held (n : Nat) (w : Wave) (f : Wave → Wave) : (s.step4 n w f).held = s.held := rfl
@[simp] theorem step4_bands (n : Nat) (w : Wave) (f : Wave → Wave) : (s.step4 n w f).bands = s.bands := rfl
@[simp] theorem step4_dies (n : Nat) (w : Wave) (f : Wave → Wave) : (s.step4 n w f).dies = s.dies := rfl
@[simp] theorem step4_queues (n : Nat) (w : Wave) (f : Wave → Wave) : (s.step4 n w f).queues = s.queues := rfl
@[simp] theorem step4_arbPtr (n : Nat) (w : Wave) (f : Wave → Wave) : (s.step4 n w f).arbPtr = s.arbPtr := rfl
@[simp] theorem step4_grantAt (n : Nat) (w : Wave) (f : Wave → Wave) : (s.step4 n w f).grantAt = s.grantAt := rfl
@[simp] theorem step4_cons (n : Nat) (w : Wave) (f : Wave → Wave) : (s.step4 n w f).cons = s.cons := rfl
@[simp] theorem step4_bringup (n : Nat) (w : Wave) (f : Wave → Wave) : (s.step4 n w f).bringup = s.bringup := rfl
@[simp] theorem step4_heap (n : Nat) (w : Wave) (f : Wave → Wave) : (s.step4 n w f).heap = s.heap := rfl
@[simp] theorem step4_ready (n : Nat) (w : Wave) (f : Wave → Wave) : (s.step4 n w f).ready = s.ready := rfl
@[simp] theorem step4_regions (n : Nat) (w : Wave) (f : Wave → Wave) : (s.step4 n w f).regions = s.regions := rfl
@[simp] theorem step4_migLog (n : Nat) (w : Wave) (f : Wave → Wave) : (s.step4 n w f).migLog = s.migLog := rfl
@[simp] theorem step4_migHead (n : Nat) (w : Wave) (f : Wave → Wave) : (s.step4 n w f).migHead = s.migHead := rfl
@[simp] theorem step4_migRd (n : Nat) (w : Wave) (f : Wave → Wave) : (s.step4 n w f).migRd = s.migRd := rfl
@[simp] theorem step4_migOvf (n : Nat) (w : Wave) (f : Wave → Wave) : (s.step4 n w f).migOvf = s.migOvf := rfl
@[simp] theorem step4_moves (n : Nat) (w : Wave) (f : Wave → Wave) : (s.step4 n w f).moves = s.moves := rfl
@[simp] theorem step4_moved (n : Nat) (w : Wave) (f : Wave → Wave) : (s.step4 n w f).moved = s.moved := rfl
@[simp] theorem step4_ctxs (n : Nat) (w : Wave) (f : Wave → Wave) : (s.step4 n w f).ctxs = s.ctxs := rfl
@[simp] theorem step4_pc (n : Nat) (w : Wave) (f : Wave → Wave) : (s.step4 n w f).pc = s.pc := rfl
@[simp] theorem step4_routers (n : Nat) (w : Wave) (f : Wave → Wave) : (s.step4 n w f).routers = s.routers := rfl
@[simp] theorem step4_bypass (n : Nat) (w : Wave) (f : Wave → Wave) : (s.step4 n w f).bypass = s.bypass := rfl
@[simp] theorem step4_ports (n : Nat) (w : Wave) (f : Wave → Wave) : (s.step4 n w f).ports = s.ports := rfl
@[simp] theorem step4_retryNs (n : Nat) (w : Wave) (f : Wave → Wave) : (s.step4 n w f).retryNs = s.retryNs := rfl
@[simp] theorem step4_peers (n : Nat) (w : Wave) (f : Wave → Wave) : (s.step4 n w f).peers = s.peers := rfl
@[simp] theorem step4_dwen (n : Nat) (w : Wave) (f : Wave → Wave) : (s.step4 n w f).dwen = s.dwen := rfl
@[simp] theorem step4_restarts (n : Nat) (w : Wave) (f : Wave → Wave) : (s.step4 n w f).restarts = s.restarts := rfl
@[simp] theorem step4_saved (n : Nat) (w : Wave) (f : Wave → Wave) : (s.step4 n w f).saved = s.saved := rfl
@[simp] theorem step4_reads (n : Nat) (w : Wave) (f : Wave → Wave) : (s.step4 n w f).reads = s.reads := rfl
@[simp] theorem step4_events (n : Nat) (w : Wave) (f : Wave → Wave) : (s.step4 n w f).events = s.events := rfl

@[simp] theorem holdS_now (n : Nat) (w : Wave) (h : Hold) : (s.holdS n w h).now = s.now := rfl
@[simp] theorem holdS_fresh (n : Nat) (w : Wave) (h : Hold) : (s.holdS n w h).fresh = s.fresh := rfl
@[simp] theorem holdS_agenda (n : Nat) (w : Wave) (h : Hold) : (s.holdS n w h).agenda = s.agenda := rfl
@[simp] theorem holdS_cur (n : Nat) (w : Wave) (h : Hold) : (s.holdS n w h).cur = s.cur := rfl
@[simp] theorem holdS_nextId (n : Nat) (w : Wave) (h : Hold) : (s.holdS n w h).nextId = s.nextId := rfl
@[simp] theorem holdS_rails (n : Nat) (w : Wave) (h : Hold) : (s.holdS n w h).rails = s.rails := rfl
@[simp] theorem holdS_mem (n : Nat) (w : Wave) (h : Hold) : (s.holdS n w h).mem = s.mem := rfl
@[simp] theorem holdS_full (n : Nat) (w : Wave) (h : Hold) : (s.holdS n w h).full = s.full := rfl
@[simp] theorem holdS_reqs (n : Nat) (w : Wave) (h : Hold) : (s.holdS n w h).reqs = s.reqs := rfl
@[simp] theorem holdS_resps (n : Nat) (w : Wave) (h : Hold) : (s.holdS n w h).resps = s.resps := rfl
@[simp] theorem holdS_parked (n : Nat) (w : Wave) (h : Hold) : (s.holdS n w h).parked = s.parked := rfl
@[simp] theorem holdS_nodes (n : Nat) (w : Wave) (h : Hold) : (s.holdS n w h).nodes = s.nodes := rfl
@[simp] theorem holdS_wqs (n : Nat) (w : Wave) (h : Hold) : (s.holdS n w h).wqs = s.wqs := rfl
@[simp] theorem holdS_tickets (n : Nat) (w : Wave) (h : Hold) : (s.holdS n w h).tickets = s.tickets := rfl
@[simp] theorem holdS_faults (n : Nat) (w : Wave) (h : Hold) : (s.holdS n w h).faults = s.faults := rfl
@[simp] theorem holdS_roots (n : Nat) (w : Wave) (h : Hold) : (s.holdS n w h).roots = s.roots := rfl
@[simp] theorem holdS_hot (n : Nat) (w : Wave) (h : Hold) : (s.holdS n w h).hot = s.hot := rfl
@[simp] theorem holdS_looks (n : Nat) (w : Wave) (h : Hold) : (s.holdS n w h).looks = s.looks := rfl
@[simp] theorem holdS_homeLast (n : Nat) (w : Wave) (h : Hold) : (s.holdS n w h).homeLast = s.homeLast := rfl
@[simp] theorem holdS_badMem (n : Nat) (w : Wave) (h : Hold) : (s.holdS n w h).badMem = s.badMem := rfl
@[simp] theorem holdS_offers (n : Nat) (w : Wave) (h : Hold) : (s.holdS n w h).offers = s.offers := rfl
@[simp] theorem holdS_routeMsgs (n : Nat) (w : Wave) (h : Hold) : (s.holdS n w h).routeMsgs = s.routeMsgs := rfl
@[simp] theorem holdS_held (n : Nat) (w : Wave) (h : Hold) : (s.holdS n w h).held = s.held := rfl
@[simp] theorem holdS_cores (n : Nat) (w : Wave) (h : Hold) : (s.holdS n w h).cores = s.cores := rfl
@[simp] theorem holdS_bands (n : Nat) (w : Wave) (h : Hold) : (s.holdS n w h).bands = s.bands := rfl
@[simp] theorem holdS_dies (n : Nat) (w : Wave) (h : Hold) : (s.holdS n w h).dies = s.dies := rfl
@[simp] theorem holdS_queues (n : Nat) (w : Wave) (h : Hold) : (s.holdS n w h).queues = s.queues := rfl
@[simp] theorem holdS_arbPtr (n : Nat) (w : Wave) (h : Hold) : (s.holdS n w h).arbPtr = s.arbPtr := rfl
@[simp] theorem holdS_grantAt (n : Nat) (w : Wave) (h : Hold) : (s.holdS n w h).grantAt = s.grantAt := rfl
@[simp] theorem holdS_cons (n : Nat) (w : Wave) (h : Hold) : (s.holdS n w h).cons = s.cons := rfl
@[simp] theorem holdS_bringup (n : Nat) (w : Wave) (h : Hold) : (s.holdS n w h).bringup = s.bringup := rfl
@[simp] theorem holdS_heap (n : Nat) (w : Wave) (h : Hold) : (s.holdS n w h).heap = s.heap := rfl
@[simp] theorem holdS_ready (n : Nat) (w : Wave) (h : Hold) : (s.holdS n w h).ready = s.ready := rfl
@[simp] theorem holdS_regions (n : Nat) (w : Wave) (h : Hold) : (s.holdS n w h).regions = s.regions := rfl
@[simp] theorem holdS_migLog (n : Nat) (w : Wave) (h : Hold) : (s.holdS n w h).migLog = s.migLog := rfl
@[simp] theorem holdS_migHead (n : Nat) (w : Wave) (h : Hold) : (s.holdS n w h).migHead = s.migHead := rfl
@[simp] theorem holdS_migRd (n : Nat) (w : Wave) (h : Hold) : (s.holdS n w h).migRd = s.migRd := rfl
@[simp] theorem holdS_migOvf (n : Nat) (w : Wave) (h : Hold) : (s.holdS n w h).migOvf = s.migOvf := rfl
@[simp] theorem holdS_moves (n : Nat) (w : Wave) (h : Hold) : (s.holdS n w h).moves = s.moves := rfl
@[simp] theorem holdS_moved (n : Nat) (w : Wave) (h : Hold) : (s.holdS n w h).moved = s.moved := rfl
@[simp] theorem holdS_ctxs (n : Nat) (w : Wave) (h : Hold) : (s.holdS n w h).ctxs = s.ctxs := rfl
@[simp] theorem holdS_pc (n : Nat) (w : Wave) (h : Hold) : (s.holdS n w h).pc = s.pc := rfl
@[simp] theorem holdS_routers (n : Nat) (w : Wave) (h : Hold) : (s.holdS n w h).routers = s.routers := rfl
@[simp] theorem holdS_bypass (n : Nat) (w : Wave) (h : Hold) : (s.holdS n w h).bypass = s.bypass := rfl
@[simp] theorem holdS_ports (n : Nat) (w : Wave) (h : Hold) : (s.holdS n w h).ports = s.ports := rfl
@[simp] theorem holdS_retryNs (n : Nat) (w : Wave) (h : Hold) : (s.holdS n w h).retryNs = s.retryNs := rfl
@[simp] theorem holdS_peers (n : Nat) (w : Wave) (h : Hold) : (s.holdS n w h).peers = s.peers := rfl
@[simp] theorem holdS_dwen (n : Nat) (w : Wave) (h : Hold) : (s.holdS n w h).dwen = s.dwen := rfl
@[simp] theorem holdS_restarts (n : Nat) (w : Wave) (h : Hold) : (s.holdS n w h).restarts = s.restarts := rfl
@[simp] theorem holdS_saved (n : Nat) (w : Wave) (h : Hold) : (s.holdS n w h).saved = s.saved := rfl
@[simp] theorem holdS_reads (n : Nat) (w : Wave) (h : Hold) : (s.holdS n w h).reads = s.reads := rfl
@[simp] theorem holdS_events (n : Nat) (w : Wave) (h : Hold) : (s.holdS n w h).events = s.events := rfl

@[simp] theorem holdL_now (n : Nat) (w : Wave) (h : Hold) : (s.holdL n w h).now = s.now := rfl
@[simp] theorem holdL_fresh (n : Nat) (w : Wave) (h : Hold) : (s.holdL n w h).fresh = s.fresh := rfl
@[simp] theorem holdL_agenda (n : Nat) (w : Wave) (h : Hold) : (s.holdL n w h).agenda = s.agenda := rfl
@[simp] theorem holdL_cur (n : Nat) (w : Wave) (h : Hold) : (s.holdL n w h).cur = s.cur := rfl
@[simp] theorem holdL_nextId (n : Nat) (w : Wave) (h : Hold) : (s.holdL n w h).nextId = s.nextId := rfl
@[simp] theorem holdL_rails (n : Nat) (w : Wave) (h : Hold) : (s.holdL n w h).rails = s.rails := rfl
@[simp] theorem holdL_mem (n : Nat) (w : Wave) (h : Hold) : (s.holdL n w h).mem = s.mem := rfl
@[simp] theorem holdL_full (n : Nat) (w : Wave) (h : Hold) : (s.holdL n w h).full = s.full := rfl
@[simp] theorem holdL_reqs (n : Nat) (w : Wave) (h : Hold) : (s.holdL n w h).reqs = s.reqs := rfl
@[simp] theorem holdL_resps (n : Nat) (w : Wave) (h : Hold) : (s.holdL n w h).resps = s.resps := rfl
@[simp] theorem holdL_parked (n : Nat) (w : Wave) (h : Hold) : (s.holdL n w h).parked = s.parked := rfl
@[simp] theorem holdL_nodes (n : Nat) (w : Wave) (h : Hold) : (s.holdL n w h).nodes = s.nodes := rfl
@[simp] theorem holdL_wqs (n : Nat) (w : Wave) (h : Hold) : (s.holdL n w h).wqs = s.wqs := rfl
@[simp] theorem holdL_tickets (n : Nat) (w : Wave) (h : Hold) : (s.holdL n w h).tickets = s.tickets := rfl
@[simp] theorem holdL_faults (n : Nat) (w : Wave) (h : Hold) : (s.holdL n w h).faults = s.faults := rfl
@[simp] theorem holdL_roots (n : Nat) (w : Wave) (h : Hold) : (s.holdL n w h).roots = s.roots := rfl
@[simp] theorem holdL_hot (n : Nat) (w : Wave) (h : Hold) : (s.holdL n w h).hot = s.hot := rfl
@[simp] theorem holdL_looks (n : Nat) (w : Wave) (h : Hold) : (s.holdL n w h).looks = s.looks := rfl
@[simp] theorem holdL_homeLast (n : Nat) (w : Wave) (h : Hold) : (s.holdL n w h).homeLast = s.homeLast := rfl
@[simp] theorem holdL_badMem (n : Nat) (w : Wave) (h : Hold) : (s.holdL n w h).badMem = s.badMem := rfl
@[simp] theorem holdL_offers (n : Nat) (w : Wave) (h : Hold) : (s.holdL n w h).offers = s.offers := rfl
@[simp] theorem holdL_routeMsgs (n : Nat) (w : Wave) (h : Hold) : (s.holdL n w h).routeMsgs = s.routeMsgs := rfl
@[simp] theorem holdL_held (n : Nat) (w : Wave) (h : Hold) : (s.holdL n w h).held = s.held := rfl
@[simp] theorem holdL_cores (n : Nat) (w : Wave) (h : Hold) : (s.holdL n w h).cores = s.cores := rfl
@[simp] theorem holdL_bands (n : Nat) (w : Wave) (h : Hold) : (s.holdL n w h).bands = s.bands := rfl
@[simp] theorem holdL_dies (n : Nat) (w : Wave) (h : Hold) : (s.holdL n w h).dies = s.dies := rfl
@[simp] theorem holdL_queues (n : Nat) (w : Wave) (h : Hold) : (s.holdL n w h).queues = s.queues := rfl
@[simp] theorem holdL_arbPtr (n : Nat) (w : Wave) (h : Hold) : (s.holdL n w h).arbPtr = s.arbPtr := rfl
@[simp] theorem holdL_grantAt (n : Nat) (w : Wave) (h : Hold) : (s.holdL n w h).grantAt = s.grantAt := rfl
@[simp] theorem holdL_cons (n : Nat) (w : Wave) (h : Hold) : (s.holdL n w h).cons = s.cons := rfl
@[simp] theorem holdL_bringup (n : Nat) (w : Wave) (h : Hold) : (s.holdL n w h).bringup = s.bringup := rfl
@[simp] theorem holdL_heap (n : Nat) (w : Wave) (h : Hold) : (s.holdL n w h).heap = s.heap := rfl
@[simp] theorem holdL_ready (n : Nat) (w : Wave) (h : Hold) : (s.holdL n w h).ready = s.ready := rfl
@[simp] theorem holdL_regions (n : Nat) (w : Wave) (h : Hold) : (s.holdL n w h).regions = s.regions := rfl
@[simp] theorem holdL_migLog (n : Nat) (w : Wave) (h : Hold) : (s.holdL n w h).migLog = s.migLog := rfl
@[simp] theorem holdL_migHead (n : Nat) (w : Wave) (h : Hold) : (s.holdL n w h).migHead = s.migHead := rfl
@[simp] theorem holdL_migRd (n : Nat) (w : Wave) (h : Hold) : (s.holdL n w h).migRd = s.migRd := rfl
@[simp] theorem holdL_migOvf (n : Nat) (w : Wave) (h : Hold) : (s.holdL n w h).migOvf = s.migOvf := rfl
@[simp] theorem holdL_moves (n : Nat) (w : Wave) (h : Hold) : (s.holdL n w h).moves = s.moves := rfl
@[simp] theorem holdL_moved (n : Nat) (w : Wave) (h : Hold) : (s.holdL n w h).moved = s.moved := rfl
@[simp] theorem holdL_ctxs (n : Nat) (w : Wave) (h : Hold) : (s.holdL n w h).ctxs = s.ctxs := rfl
@[simp] theorem holdL_pc (n : Nat) (w : Wave) (h : Hold) : (s.holdL n w h).pc = s.pc := rfl
@[simp] theorem holdL_routers (n : Nat) (w : Wave) (h : Hold) : (s.holdL n w h).routers = s.routers := rfl
@[simp] theorem holdL_bypass (n : Nat) (w : Wave) (h : Hold) : (s.holdL n w h).bypass = s.bypass := rfl
@[simp] theorem holdL_ports (n : Nat) (w : Wave) (h : Hold) : (s.holdL n w h).ports = s.ports := rfl
@[simp] theorem holdL_retryNs (n : Nat) (w : Wave) (h : Hold) : (s.holdL n w h).retryNs = s.retryNs := rfl
@[simp] theorem holdL_peers (n : Nat) (w : Wave) (h : Hold) : (s.holdL n w h).peers = s.peers := rfl
@[simp] theorem holdL_dwen (n : Nat) (w : Wave) (h : Hold) : (s.holdL n w h).dwen = s.dwen := rfl
@[simp] theorem holdL_restarts (n : Nat) (w : Wave) (h : Hold) : (s.holdL n w h).restarts = s.restarts := rfl
@[simp] theorem holdL_saved (n : Nat) (w : Wave) (h : Hold) : (s.holdL n w h).saved = s.saved := rfl
@[simp] theorem holdL_reads (n : Nat) (w : Wave) (h : Hold) : (s.holdL n w h).reads = s.reads := rfl
@[simp] theorem holdL_events (n : Nat) (w : Wave) (h : Hold) : (s.holdL n w h).events = s.events := rfl

/-! ## Reading back -/

@[simp] theorem wave_setWave_same (n : Nat) (w : Wave) : (s.setWave n w).wave n = some w := look_put_same _ _ _

theorem wave_setWave_ne {n m : Nat} (w : Wave) (h : m ≠ n) : (s.setWave n w).wave m = s.wave m := look_put_ne _ _ h

@[simp] theorem core_setCore_same (p : Nat) (c : Core) : (s.setCore p c).core p = c := lookD_put_same _ _ _ _

theorem core_setCore_ne {p q : Nat} (c : Core) (h : q ≠ p) : (s.setCore p c).core q = s.core q := lookD_put_ne _ _ _ h

@[simp] theorem core_onCore_same (p : Nat) (f : Core → Core) : (s.onCore p f).core p = f (s.core p) := lookD_put_same _ _ _ _

theorem core_onCore_ne {p q : Nat} (f : Core → Core) (h : q ≠ p) : (s.onCore p f).core q = s.core q := lookD_put_ne _ _ _ h

@[simp] theorem die_onDie_same (d : Nat) (f : Die → Die) : (s.onDie d f).die d = f (s.die d) := lookD_put_same _ _ _ _

theorem die_onDie_ne {d e : Nat} (f : Die → Die) (h : e ≠ d) : (s.onDie d f).die e = s.die e := lookD_put_ne _ _ _ h

@[simp] theorem queue_onQueue_same (q : Nat) (f : WQueue → WQueue) : (s.onQueue q f).queue q = f (s.queue q) := lookD_put_same _ _ _ _

theorem queue_onQueue_ne {q r : Nat} (f : WQueue → WQueue) (h : r ≠ q) : (s.onQueue q f).queue r = s.queue r := lookD_put_ne _ _ _ h

/-- A wave that is there is changed; where there is none, nothing changes. -/
theorem wave_onWave (n m : Nat) (f : Wave → Wave) : (s.onWave n f).wave m = if m = n then (s.wave n).map f else s.wave m := by
  unfold State.onWave
  split
  · rename_i w h
    by_cases hm : m = n
    · subst hm; simp [h]
    · rw [if_neg hm]; exact wave_setWave_ne s _ hm
  · rename_i h; split
    · rename_i hm; subst hm; simp [h]
    · rfl

/-- A consignment that is there is changed; where there is none, nothing changes. -/
theorem con_onCon (c e : Nat) (f : Cons → Cons) : (s.onCon c f).con e = if e = c then (s.con c).map f else s.con e := by
  unfold State.onCon
  split
  · rename_i x h
    by_cases he : e = c
    · subst he; rw [if_pos rfl, h]; exact look_put_same _ _ _
    · rw [if_neg he]; exact look_put_ne _ _ he
  · rename_i h; split
    · rename_i he; subst he; simp [h]
    · rfl

/-- After a scalar word has issued its wave is the one written, and no other wave has changed. -/
@[simp] theorem wave_issuedS_same (n : Nat) (w : Wave) : (s.issuedS n w).wave n = some w := look_put_same _ _ _

theorem wave_issuedS_ne {n m : Nat} (w : Wave) (h : m ≠ n) : (s.issuedS n w).wave m = s.wave m := look_put_ne _ _ h

/-- A scalar word that goes on: the change, the next word's address, and the next issue one cycle later (R79, R108). -/
@[simp] theorem wave_step4_same (n : Nat) (w : Wave) (f : Wave → Wave) :
    (s.step4 n w f).wave n = some ((f w).advance (s.clk (coreOfWave n)) (w.spc + 4) 1) := look_put_same _ _ _

theorem wave_step4_ne {n m : Nat} (w : Wave) (f : Wave → Wave) (h : m ≠ n) : (s.step4 n w f).wave m = s.wave m := look_put_ne _ _ h

/-- A word that is held changes no wave but its own. -/
theorem wave_holdS_ne {n m : Nat} (w : Wave) (k : Hold) (h : m ≠ n) : (s.holdS n w k).wave m = s.wave m := look_put_ne _ _ h

theorem wave_holdL_ne {n m : Nat} (w : Wave) (k : Hold) (h : m ≠ n) : (s.holdL n w k).wave m = s.wave m := look_put_ne _ _ h

/-- No issue moves a clock. -/
@[simp] theorem clk_issuedS (n p : Nat) (w : Wave) : (s.issuedS n w).clk p = s.clk p := rfl

@[simp] theorem clk_step4 (n p : Nat) (w : Wave) (f : Wave → Wave) : (s.step4 n w f).clk p = s.clk p := rfl

/-- What an issue changes of a core: its slot of this cycle. -/
theorem core_issuedS_ne {n q : Nat} (w : Wave) (h : q ≠ coreOfWave n) : (s.issuedS n w).core q = s.core q :=
  lookD_put_ne _ _ _ h

theorem core_issuedS_same (n : Nat) (w : Wave) : ∃ ps, (s.issuedS n w).core (coreOfWave n) = { s.core (coreOfWave n) with parts := ps } :=
  ⟨_, lookD_put_same _ _ _ _⟩

end Sys2Proof.Machine
end

