-- ==== Sys2Proof/Laws/Kept.lean ====
section
/-! SUPPORT. Which operations keep memory and tags in canonical form: one lemma for each shared operation. -/

namespace Sys2Proof.Machine

/-- Memory and tags that are in canonical form in `s` are so in `t`. -/
def Kept (s t : State) : Prop := (s.memOk = true → t.memOk = true) ∧ (s.tagsOk = true → t.tagsOk = true)

theorem Kept.rfl {s : State} : Kept s s := ⟨id, id⟩

theorem Kept.trans {s t u : State} (h : Kept s t) (k : Kept t u) : Kept s u := ⟨k.1 ∘ h.1, k.2 ∘ h.2⟩

/-- An update that touches neither memory nor tags. -/
theorem Kept.same {s t : State} (hm : t.mem = s.mem) (hf : t.full = s.full) : Kept s t := by
  simp [Kept, State.memOk, State.tagsOk, hm, hf]

theorem kept_write (s : State) (k : Nat) (bs : List Byte) : Kept s (s.write k bs) :=
  ⟨fun h => Memory.wf_setN bs _ k h, id⟩

theorem kept_writeNum (s : State) (n k v : Nat) : Kept s (s.writeNum n k v) := ⟨fun h => Memory.wf_setNum _ n k v h, id⟩

theorem kept_writeCells (s : State) (cs : List Host.Cell) : Kept s (s.writeCells cs) :=
  ⟨fun h => Memory.wf_setCells cs _ h, id⟩

theorem kept_setTag (s : State) (k : Nat) (t : Bool) : Kept s (s.setTag k t) :=
  ⟨id, fun h => decide_eq_true (setTag_sorted s k t (of_decide_eq_true h))⟩

theorem kept_setWave (s : State) (n : Nat) (w : Wave) : Kept s (s.setWave n w) := .same rfl rfl
theorem kept_onWave (s : State) (n : Nat) (f : Wave → Wave) : Kept s (s.onWave n f) := .same (by simp) (by simp)
theorem kept_onCore (s : State) (p : Nat) (f : Core → Core) : Kept s (s.onCore p f) := .same rfl rfl
theorem kept_onCon (s : State) (c : Nat) (f : Cons → Cons) : Kept s (s.onCon c f) := .same (by simp) (by simp)
theorem kept_onDie (s : State) (d : Nat) (f : Die → Die) : Kept s (s.onDie d f) := .same rfl rfl
theorem kept_onQueue (s : State) (q : Nat) (f : WQueue → WQueue) : Kept s (s.onQueue q f) := .same rfl rfl
theorem kept_send (s : State) (r : Req) : Kept s (s.send r) := .same rfl rfl
theorem kept_issuedS (s : State) (n : Nat) (w : Wave) : Kept s (s.issuedS n w) := .same rfl rfl
theorem kept_step4 (s : State) (n : Nat) (w : Wave) (f : Wave → Wave) : Kept s (s.step4 n w f) := .same rfl rfl
theorem kept_holdS (s : State) (n : Nat) (w : Wave) (h : Hold) : Kept s (s.holdS n w h) := .same rfl rfl
theorem kept_holdL (s : State) (n : Nat) (w : Wave) (h : Hold) : Kept s (s.holdL n w h) := .same rfl rfl
theorem kept_slotCount (s : State) (p cid : Nat) (k : SlotCtr) (up : Bool) : Kept s (s.slotCount p cid k up) := .same rfl rfl
theorem kept_engineWrote (s : State) (p q : Nat) (cs : List Host.Cell) : Kept s (s.engineWrote p q cs) := .same rfl rfl
theorem kept_acquire (s : State) (p : Nat) (sc : Scope) : Kept s (s.acquire p sc) := by
  unfold State.acquire; split
  · exact .same rfl rfl
  · exact .rfl

/-- A choice of two updates. -/
theorem kept_ite {s a b : State} (c : Prop) [Decidable c] (h : Kept s a) (k : Kept s b) : Kept s (if c then a else b) := by
  split
  · exact h
  · exact k

/-- A fold of operations that each keep the form. -/
theorem kept_foldl {α : Type} (f : State → α → State) (h : ∀ s x, Kept s (f s x)) (l : List α) : ∀ s : State, Kept s (l.foldl f s) := by
  induction l with
  | nil => exact fun _ => .rfl
  | cons x l ih => exact fun s => (h s x).trans (ih _)

/-! ## Landings and the error log -/

theorem kept_writeSlot (key : Nat) (fld : W32) (vs : List (Nat × W32)) : ∀ s : State, Kept s (s.writeSlot key fld vs) := by
  induction vs with
  | nil => exact fun _ => .rfl
  | cons v vs ih => exact fun s => (kept_writeNum s _ _ _).trans (ih _)

theorem kept_landDest (s : State) (n : Nat) (d : Dest) : Kept s (s.landDest n d) := by
  unfold State.landDest
  dsimp only
  split
  · exact (kept_onWave s n _).trans (kept_writeSlot _ _ _ _)
  · exact kept_onWave s n _

theorem kept_landOne (s : State) (n : Nat) (l : Landing) : Kept s (s.landOne n l) := (kept_landDest s n _).trans (kept_onWave _ n _)

theorem kept_log (s : State) (d : Nat) (r : LogRec) : Kept s (s.log d r) := .same rfl rfl
theorem kept_logWave (s : State) (n : Nat) (w : Wave) (a c : Nat) (x y z : Bool) : Kept s (s.logWave n w a c x y z) := kept_log _ _ _
theorem kept_logUnit (s : State) (d a b c e f g i : Nat) (v : Bool) : Kept s (s.logUnit d a b c e f g i v) := kept_log _ _ _
theorem kept_flagError (s : State) (cid : Nat) : Kept s (s.flagError cid) := kept_onCon _ _ _
theorem kept_logError (s : State) (n cid : Nat) (o : Option OutOp) (fs : List (Nat × Nat)) (ue v : Bool) :
    Kept s (s.logError n cid o fs ue v) := kept_log _ _ _

theorem kept_logOps (n cid : Nat) (os : List OutOp) : ∀ s : State, Kept s (s.logOps n cid os) := by
  induction os with
  | nil => exact fun _ => .rfl
  | cons o os ih =>
    intro s
    have one : ∀ (s : State) (ue : Bool), Kept s
        (if ((o.failed.filter fun e => e.2.2 == ue).map fun e => (e.1, e.2.1)).isEmpty then s
          else s.logError n cid (some o) ((o.failed.filter fun e => e.2.2 == ue).map fun e => (e.1, e.2.1)) ue true) := by
      intro s ue; split
      · exact .rfl
      · exact kept_logError _ _ _ _ _ _ _
    exact ((one s false).trans (one _ true)).trans (ih _)

/-! ## Stopping a wave -/

theorem kept_sendLeaves (n : Nat) (w : Wave) (c : Cons) (ms : List Member) : ∀ s : State, Kept s (sendLeaves s n w c ms) := by
  induction ms with
  | nil => exact fun _ => .rfl
  | cons m ms ih =>
    intro s
    unfold sendLeaves
    dsimp only
    split
    · exact ((kept_send s _).trans (kept_slotCount _ _ _ _ _)).trans (ih _)
    · exact ((kept_logWave s _ _ _ _ _ _ _).trans (kept_flagError _ _)).trans (ih _)

theorem kept_closeTables (s : State) (p cid : Nat) : Kept s (closeTables s p cid) := by
  unfold closeTables; split
  · exact .rfl
  · exact .same rfl rfl

theorem kept_putQueue (s : State) (key : Nat) (old new : List Node) : Kept s (s.putQueue key old new) :=
  (kept_writeNum s _ _ _).trans (.same rfl rfl)

theorem kept_unlink (s : State) (n key : Nat) : Kept s (s.unlink n key) := by
  unfold State.unlink
  dsimp only
  split
  · exact kept_ite _ (kept_putQueue _ _ _ _) (.same rfl rfl)
  · exact .same rfl rfl

theorem kept_unlinkAll (n : Nat) (ns : List Node) : ∀ s : State, Kept s (s.unlinkAll n ns) := by
  induction ns with
  | nil => exact fun _ => .rfl
  | cons x ns ih => exact fun s => (kept_ite _ (kept_unlink s _ _) .rfl).trans (ih _)

theorem kept_dropSplits (s : State) (n : Nat) : Kept s (dropSplits s n) := .same rfl rfl

theorem kept_dropWaits (s : State) (n : Nat) : Kept s (s.dropWaits n) := .same rfl rfl

theorem kept_dropLaunch (s : State) (n : Nat) : Kept s (s.dropLaunch n) := by
  unfold State.dropLaunch
  split
  · exact .rfl
  · split
    · exact .rfl
    · exact (kept_setWave _ _ _).trans (kept_slotCount _ _ _ _ _)

theorem kept_stopWave (s : State) (n : Nat) (w : Wave) (killed : Bool) : Kept s (s.stopWave n w killed) := by
  unfold State.stopWave
  split
  · exact kept_setWave _ _ _
  · rename_i c _
    dsimp only
    refine Kept.trans ?_ ((kept_dropSplits _ n).trans (kept_closeTables _ _ _))
    refine Kept.trans ?_ (kept_onCon _ _ _)
    refine Kept.trans ?_ (kept_foldl _ ?_ _ _)
    · refine Kept.trans ?_ (kept_unlinkAll n _ _)
      refine Kept.trans (kept_ite (killed = true) (kept_dropWaits s n) .rfl) (Kept.trans (kept_sendLeaves n w c w.members _) (Kept.trans (kept_logOps n w.cid w.ops _) ?_))
      exact .same rfl rfl
    · intro s q; split
      · exact kept_slotCount _ _ _ _ _
      · exact .rfl

theorem kept_finishExit (s : State) (n : Nat) (w : Wave) (killed : Bool) : Kept s (s.finishExit n w killed) := by
  unfold State.finishExit
  dsimp only
  split
  · exact kept_stopWave _ _ _ _
  · split
    · exact kept_setWave _ _ _
    · split
      · exact kept_ite _ (kept_setWave _ _ _) (.same rfl rfl)
      · exact kept_stopWave _ _ _ _

theorem kept_abortChannel (s : State) (n cid l : Nat) : Kept s (s.abortChannel n cid l) := by
  unfold State.abortChannel
  dsimp only
  split
  · exact .rfl
  · exact .same rfl rfl

theorem kept_abortWidth (s : State) (n : Nat) : Kept s (s.abortWidth n) := .same rfl rfl

theorem kept_kill (s : State) (n cause addr : Nat) (nest : Bool) : Kept s (s.kill n cause addr nest) := by
  unfold State.kill
  split
  · exact .rfl
  · dsimp only
    have h := (((kept_logWave s n ‹Wave› addr cause (decide (3 ≤ cause) && decide (cause ≤ 5))
      (‹Wave›.ctl.xcause.getLsbD 10) nest).trans (kept_flagError _ ‹Wave›.cid)).trans
      (kept_abortChannel _ n ‹Wave›.cid ‹Wave›.lcore)).trans ((kept_abortWidth _ n).trans (kept_dropLaunch _ n))
    split
    · exact h
    · exact h.trans (kept_finishExit _ _ _ _)

/-! ## Traps -/

theorem kept_drain (s : State) (n : Nat) : Kept s (s.drain n) := by
  unfold State.drain
  split
  · exact .rfl
  · exact ((kept_setWave _ _ _).trans (kept_foldl _ (fun s l => kept_landOne s n l) _ _)).trans (kept_onWave _ _ _)

/-- Taking a trap keeps the form, whether the handler is entered or the wave is killed. -/
theorem kept_takeTrap (s : State) (n : Nat) (t : TrapInfo) : Kept s (s.takeTrap n t) := by
  unfold State.takeTrap
  split
  · exact .rfl
  · split
    · exact .rfl
    · dsimp only
      exact kept_ite _ (kept_setWave _ _ _) (kept_ite _ ((kept_setWave _ _ _).trans (kept_kill _ _ _ _ _))
        (((kept_setWave _ _ _).trans (kept_drain _ _)).trans (kept_onWave _ _ _)))

theorem kept_trapS (s : State) (n code : Nat) (a m : Word) (arg : Nat) : Kept s (s.trapS n code a m arg) := kept_takeTrap _ _ _
theorem kept_trapL (s : State) (n code : Nat) (a m : Word) : Kept s (s.trapL n code a m) := kept_takeTrap _ _ _
theorem kept_holdTrap (s : State) (n : Nat) (h : HeldTrap) : Kept s (s.holdTrap n h) := kept_onWave _ _ _

theorem kept_abortKill (s : State) (n addr : Nat) : Kept s (s.abortKill n addr) := (kept_onWave _ _ _).trans (kept_kill _ _ _ _ _)

theorem kept_takeHeld (s : State) (n : Nat) : Kept s (s.takeHeld n) := by
  unfold State.takeHeld
  split
  · exact .rfl
  · split
    · exact .rfl
    · split
      · exact .rfl
      · dsimp only
        split
        · exact (kept_setWave _ _ _).trans (kept_abortKill _ _ _)
        · exact (kept_setWave _ _ _).trans (kept_takeTrap _ _ _)

theorem kept_leaveHandler (s : State) (n : Nat) (w : Wave) (c : Cons) (skip : Bool) : Kept s (s.leaveHandler n w c skip) := by
  unfold State.leaveHandler
  dsimp only
  exact kept_ite _ (kept_issuedS _ _ _) ((kept_setWave _ _ _).trans (kept_kill _ _ _ _ _))

theorem kept_lateRdv (s : State) (n tag : Nat) : Kept s (s.lateRdv n tag) := (kept_onWave _ _ _).trans (kept_trapS _ _ _ _ _ _)

theorem kept_loseSplits (ms : List Nat) : ∀ s : State, Kept s (s.loseSplits ms) := by
  induction ms with
  | nil => exact fun _ => .rfl
  | cons m ms ih =>
    intro s
    unfold State.loseSplits
    split
    · split
      · exact (kept_lateRdv _ _ _).trans (ih _)
      · exact (kept_setWave _ _ _).trans (ih _)
    · exact ih _

theorem kept_endLead (s : State) (n : Nat) : Kept s (s.endLead n) := by
  unfold State.endLead
  dsimp only
  split
  · exact .rfl
  · split
    · exact .rfl
    · exact (kept_onCore _ _ _).trans (kept_loseSplits _ _)

/-! ## Landing in time -/

theorem kept_settleList (n clk : Nat) (ls : List Landing) : ∀ s : State, Kept s (s.settleList n clk ls) := by
  induction ls with
  | nil => exact fun _ => kept_onWave _ _ _
  | cons l ls ih =>
    intro s
    unfold State.settleList
    dsimp only
    split
    · split
      · exact (kept_landOne _ _ _).trans ((kept_onWave _ _ _).trans (kept_takeTrap _ _ _))
      · exact (kept_landOne _ _ _).trans (ih _)
    · exact kept_onWave _ _ _

theorem kept_settle (s : State) (n : Nat) : Kept s (s.settle n) := by
  unfold State.settle
  split
  · exact .rfl
  · exact (kept_settleList n _ _ _).trans (kept_onWave _ _ _)

/-- A wave with nothing in flight only has its finished blocks pruned. -/
theorem settle_of_no_pend (s : State) (n : Nat) (w : Wave) (h : s.wave n = some w) (hp : w.pend = []) :
    s.settle n = (s.setWave n { w with pend := [] }).onWave n Wave.prune := by
  simp [State.settle, h, hp, State.settleList, State.onWave]

end Sys2Proof.Machine
end

