-- ==== Sys2Proof/Laws/Frame.lean ====
section
/-! SUPPORT. What the frame of a scalar word and the frame of a lane word can do: stop at a check, wait, or run the word. -/

namespace Sys2Proof.Machine

/-! ## Scalar words -/

/-- A scalar word that passes its checks has its effect. -/
theorem scalarWord_ready {s : State} {fs rs : List Nat} {d : Option (Nat × Nat)} {w : Wave} {c : Cons}
    (h : scalarReady s fs rs d = some (w, c)) (body : Wave → Cons → State) : scalarWord s fs rs d body = .next (body w c) := by
  unfold scalarReady at h
  split at h
  · cases h
  · rename_i w' hw
    split at h
    · cases h
    · rename_i c' hc
      split at h
      · rename_i hk
        obtain ⟨rfl, rfl⟩ := Prod.mk.inj (Option.some.inj h)
        simp only [Bool.and_eq_true, Bool.or_eq_true, Bool.not_eq_true'] at hk
        have hb : w'.badS fs = none := by
          rw [Wave.badS, List.find?_eq_none]
          intro x hx
          simp [List.all_eq_true.1 hk.1 x hx]
        have hz : (if c'.debug then w'.hazardS (s.clk (coreOfWave s.cur)) rs d else none) = none := by
          rcases hk.2 with h | h
          · simp [h]
          · rw [Option.isNone_iff_eq_none] at h; exact ite_eq_right_iff.2 fun _ => h
        simp only [scalarWord, hw, hc, hb, hz]
      · cases h

/-- What it says of the state that a scalar word is ready. -/
theorem scalarReady_wave {s : State} {fs rs : List Nat} {d : Option (Nat × Nat)} {w : Wave} {c : Cons}
    (h : scalarReady s fs rs d = some (w, c)) : s.wave s.cur = some w ∧ s.con w.cid = some c := by
  unfold scalarReady at h
  split at h
  · cases h
  · split at h
    · cases h
    · split at h
      · obtain ⟨rfl, rfl⟩ := Prod.mk.inj (Option.some.inj h); exact ⟨by assumption, by assumption⟩
      · cases h

/-- All that a scalar word's frame can do: nothing where no wave issues, an illegal-operand or a hazard trap, or the word's effect. -/
theorem scalarWord_cases (s : State) (fs rs : List Nat) (d : Option (Nat × Nat)) (body : Wave → Cons → State) :
    scalarWord s fs rs d body = .next s ∨
    (∃ f, scalarWord s fs rs d body = .next (s.trapS s.cur 2 (BitVec.ofNat 64 f) 0 0)) ∨
    (∃ f, scalarWord s fs rs d body = .next (s.trapS s.cur 7 (BitVec.ofNat 64 f) 0 0)) ∨
    ∃ w c, s.wave s.cur = some w ∧ s.con w.cid = some c ∧ scalarWord s fs rs d body = .next (body w c) := by
  unfold scalarWord
  split
  · exact .inl rfl
  · split
    · exact .inl rfl
    · split
      · exact .inr (.inl ⟨_, rfl⟩)
      · split
        · exact .inr (.inr (.inl ⟨_, rfl⟩))
        · exact .inr (.inr (.inr ⟨_, _, ‹_›, ‹_›, rfl⟩))

/-- A scalar word keeps what its effect keeps. -/
theorem scalarWord_kept {s t : State} {fs rs : List Nat} {d : Option (Nat × Nat)} {body : Wave → Cons → State}
    (hb : ∀ w c, s.wave s.cur = some w → s.con w.cid = some c → Kept s (body w c)) (h : scalarWord s fs rs d body = .next t) : Kept s t := by
  rcases scalarWord_cases s fs rs d body with h' | ⟨f, h'⟩ | ⟨f, h'⟩ | ⟨w, c, hw, hc, h'⟩ <;> rw [h'] at h <;> cases h
  · exact .rfl
  · exact kept_trapS _ _ _ _ _ _
  · exact kept_trapS _ _ _ _ _ _
  · exact hb w c hw hc

/-! ## Lane words -/

/-- All that a lane word's frame can do: nothing where no lane word stands, an illegal-operand or a hazard trap, a wait, or the word's
effect. -/
theorem laneFrame_cases (s : State) (l : LaneA) (ud ua ub uc : FUse) (idx imB : Bool) (rd : Word → Word) (lat : Nat)
    (body : LaneCtx → State) (fld rfld : W32) :
    laneFrame s l ud ua ub uc idx imB rd lat body fld rfld = .next s ∨
    (∃ f m, laneFrame s l ud ua ub uc idx imB rd lat body fld rfld = .next (s.trapL s.cur 2 f m)) ∨
    (∃ f m, laneFrame s l ud ua ub uc idx imB rd lat body fld rfld = .next (s.trapL s.cur 7 f m)) ∨
    (∃ w, s.wave s.cur = some w ∧ laneFrame s l ud ua ub uc idx imB rd lat body fld rfld = .next (s.holdL s.cur w .long)) ∨
    ∃ k : LaneCtx, s.wave s.cur = some k.w ∧ s.con k.w.cid = some k.c ∧ nextBlock k.w.queue = some k.blk ∧ k.n = s.cur ∧
      laneFrame s l ud ua ub uc idx imB rd lat body fld rfld = .next (body k) := by
  unfold laneFrame
  dsimp only
  generalize (if idx = true then l.imm % 256 else 0) = ia
  generalize (if idx = true then l.imm / 256 % 256 else 0) = ib
  generalize (if idx = true then l.imm / 65536 % 256 else 0) = ic
  generalize (if idx = true then l.imm / 16777216 else 0) = id
  generalize (if imB = true then FUse.none else ub) = ub'
  split
  · exact .inl rfl
  · split
    · rename_i w hw _ _ c blk hc hb
      generalize (if imB = true then Src.imm (BitVec.ofNat 32 l.imm) else (w.seen s.clkCur).srcOf s.cur blk ub' l.b ib) = sb
      split
      · exact .inr (.inl ⟨_, _, rfl⟩)
      · split
        · exact .inr (.inr (.inr (.inl ⟨_, hw, rfl⟩)))
        · generalize hk : LaneCtx.mk _ _ _ _ _ _ _ _ _ _ _ _ = k
          have e : k.w = w ∧ k.c = c ∧ k.blk = blk ∧ k.n = s.cur := by subst hk; exact ⟨rfl, rfl, rfl, rfl⟩
          split
          · exact .inr (.inr (.inr (.inl ⟨_, hw, rfl⟩)))
          · split
            · exact .inr (.inr (.inl ⟨_, _, rfl⟩))
            · exact .inr (.inr (.inr (.inr ⟨k, by rw [e.1, hw], by rw [e.1, e.2.1, hc], by rw [e.1, e.2.2.1, hb], e.2.2.2, rfl⟩)))
    · exact .inl rfl

/-- A lane word that passes its checks and that nothing holds has its effect. -/
theorem laneFrame_ready {s : State} {l : LaneA} {u : LaneUse} {k : LaneCtx} {fld rfld : W32} (h : laneReady s l u fld rfld = some k)
    (body : LaneCtx → State) : laneFrame s l u.d u.a u.b u.c u.idx u.imB u.rd u.lat body fld rfld = .next (body k) := by
  have h0 : u.slot l 0 = if u.idx then l.imm % 256 else 0 := by simp [LaneUse.slot]
  have h1 : u.slot l 1 = if u.idx then l.imm / 256 % 256 else 0 := by simp [LaneUse.slot]
  have h2 : u.slot l 2 = if u.idx then l.imm / 65536 % 256 else 0 := by simp [LaneUse.slot]
  unfold laneReady at h
  dsimp only at h
  rw [show (256 : Nat) ^ 3 = 16777216 by norm_num, h0, h1, h2] at h
  unfold laneFrame
  dsimp only
  generalize (if u.idx = true then l.imm % 256 else 0) = ia at h ⊢
  generalize (if u.idx = true then l.imm / 256 % 256 else 0) = ib at h ⊢
  generalize (if u.idx = true then l.imm / 65536 % 256 else 0) = ic at h ⊢
  generalize (if u.idx = true then l.imm / 16777216 else 0) = id at h ⊢
  generalize (if u.imB = true then FUse.none else u.b) = ub at h ⊢
  split at h
  · cases h
  · rename_i w hw
    split at h
    · rename_i c blk hc hb
      generalize hsb : (if u.imB = true then Src.imm (BitVec.ofNat 32 l.imm) else (w.seen s.clkCur).srcOf s.cur blk ub l.b ib) = sb at h
      split at h
      · rename_i hk
        cases Option.some.inj h
        simp only [List.all_cons, List.all_nil, Bool.and_eq_true, Bool.and_true, Bool.not_eq_true', Option.isNone_iff_eq_none,
          Bool.or_eq_true] at hk
        obtain ⟨⟨⟨⟨⟨hd, wd⟩, ⟨ha, wa⟩, ⟨hB, wb⟩, hc', wc⟩, hp⟩, hacc⟩, hz⟩ := hk
        simp only [hsb, hw, hc, hb, hd, ha, hB, hc', firstSome, wd, wa, wb, wc, hp, Bool.or_self, Bool.false_eq_true, if_false, hacc]
        rcases hz with hz | hz
        · simp [hz]
        · simp only [hz, ite_self]
      · cases h
    · cases h

/-- A lane word keeps what its effect keeps. -/
theorem laneFrame_kept {s t : State} {l : LaneA} {ud ua ub uc : FUse} {idx imB : Bool} {rd : Word → Word} {lat : Nat}
    {body : LaneCtx → State} {fld rfld : W32} (hb : ∀ k : LaneCtx, s.wave s.cur = some k.w → Kept s (body k))
    (h : laneFrame s l ud ua ub uc idx imB rd lat body fld rfld = .next t) : Kept s t := by
  rcases laneFrame_cases s l ud ua ub uc idx imB rd lat body fld rfld with h' | ⟨f, m, h'⟩ | ⟨f, m, h'⟩ | ⟨w, _, h'⟩ | ⟨k, hw, _, _, _, h'⟩ <;>
    rw [h'] at h <;> cases h
  · exact .rfl
  · exact kept_trapL _ _ _ _ _
  · exact kept_trapL _ _ _ _ _
  · exact kept_holdL _ _ _ _
  · exact hb k hw

/-! ## Results of lane words -/

@[simp] theorem wave_issuedL_same (s : State) (n : Nat) (w : Wave) : (s.issuedL n w).wave n = some w := look_put_same _ _ _

theorem wave_issuedL_ne (s : State) {n m : Nat} (w : Wave) (h : m ≠ n) : (s.issuedL n w).wave m = s.wave m := look_put_ne _ _ h

@[simp] theorem issuedL_mem (s : State) (n : Nat) (w : Wave) : (s.issuedL n w).mem = s.mem := rfl

@[simp] theorem issuedL_full (s : State) (n : Nat) (w : Wave) : (s.issuedL n w).full = s.full := rfl

@[simp] theorem issuedL_reqs (s : State) (n : Nat) (w : Wave) : (s.issuedL n w).reqs = s.reqs := rfl

theorem kept_issuedL (s : State) (n : Nat) (w : Wave) : Kept s (s.issuedL n w) := .same rfl rfl

/-- A lane result on its way touches neither memory nor tags. -/
theorem sendLane_mem (s : State) (k : LaneCtx) (lat gap : Nat) (fld : W32) (vals : List (Nat × W32)) (fl : Flags) (r : Word) (tr can : Flags) :
    (s.sendLane k lat gap fld vals fl r tr can).mem = s.mem ∧ (s.sendLane k lat gap fld vals fl r tr can).full = s.full := by
  unfold State.sendLane
  dsimp only
  split
  · exact ⟨rfl, rfl⟩
  · exact ⟨rfl, rfl⟩
  · split <;> exact ⟨rfl, rfl⟩
  · exact ⟨rfl, rfl⟩

theorem kept_sendLane (s : State) (k : LaneCtx) (lat gap : Nat) (fld : W32) (vals : List (Nat × W32)) (fl : Flags) (r : Word) (tr can : Flags) :
    Kept s (s.sendLane k lat gap fld vals fl r tr can) := .same (sendLane_mem ..).1 (sendLane_mem ..).2

theorem kept_sendDest (s : State) (k : LaneCtx) (lat gap : Nat) (d : Dest) (fl : Flags) (r : Word) (tr can : Flags) :
    Kept s (s.sendDest k lat gap d fl r tr can) := .same rfl rfl

theorem kept_laneResult (s : State) (k : LaneCtx) (lat : Nat) (can : Flags) (f : Nat → W32 × Flags) : Kept s (s.laneResult k lat can f) :=
  kept_sendLane _ _ _ _ _ _ _ _ _ _

/-- A result for a register: the wave afterwards. -/
theorem sendLane_reg (s : State) (k : LaneCtx) (lat gap : Nat) (fld : W32) (vals : List (Nat × W32)) (fl : Flags) (r : Word)
    (tr can : Flags) {q : Nat} (h : k.d = .reg q) :
    ∃ y, y.dest = .vreg q fld vals ∧ y.due = k.clk + lat ∧ y.flags = fl ∧
      (s.sendLane k lat gap fld vals fl r tr can).wave k.n =
        some { k.w.advanceL k.blk k.clk (if (can &&& k.w.ctl.fpctl) != 0 then max gap lat else gap) with
          pend := insertLanding y (k.w.advanceL k.blk k.clk (if (can &&& k.w.ctl.fpctl) != 0 then max gap lat else gap)).pend } := by
  refine ⟨⟨k.clk + lat, true, s.nextId, some k.blk.id, .vreg q fld vals, fl, r, tr, k.blk.start + k.blk.pos⟩, rfl, rfl, rfl, ?_⟩
  unfold State.sendLane
  simp only [h]
  exact wave_issuedL_same _ _ _

end Sys2Proof.Machine
end

