-- ==== Sys2Proof/Tests/Slice0.lean ====
section
/-! SUPPORT. Small tests of the model: ill-formed words that the checks refuse, words written out from the encodings of the spec, results
worked out by hand from the rules, and for each statement a state and operands that meet its hypotheses. -/

set_option Elab.async false

namespace Sys2Proof.Tests

open Sys2Proof Sys2Proof.Machine

/-! ## Ill-formed words: one for each check of WellFormed -/

/-- A lane word of layout A with register operands, for tests. -/
def la (d a b : Nat) (ty : Ty) : LaneA := ⟨0, false, d, a, b, 0, ty, .rne, false, false, false, 0⟩

/-- A lane word of layout M, for tests. -/
def lm (d a b c : Nat) (ty : Ty) : LaneM := ⟨0, false, d, a, b, c, ty, .wv, .none, 0⟩

theorem test_wf_scalar_fields : Instr.wf (.add 512 0 0) = false ∧ Instr.wf (.add 0 0 64) = false ∧ Instr.wf (.trap 32768) = false ∧
    Instr.wf (.j (2 ^ 23)) = false ∧ Instr.wf (.bz 0 (-16385)) = false ∧ Instr.wf (.addi 0 16384) = false ∧
    Instr.wf (.fence 64 0) = false ∧ Instr.wf (.lds64 0 0 64) = false ∧ Instr.wf (.sleep 0 32768) = false ∧ Instr.wf (.callv 512) = false := by
  decide

theorem test_wf_scalar_legal : Instr.wf (.wait 5 0) = false ∧ Instr.wf (.wait 0 256) = false ∧ Instr.wf (.mts 1 .wid) = false ∧
    Instr.wf (.shli 1 64) = false ∧ Instr.wf (.lwait 9) = false ∧ Instr.wf (.chsub 256 0 0) = false ∧ Instr.wf (.tagset 2 0 0) = false ∧
    Instr.wf (.xlat 8 0) = false ∧ Instr.wf (.phase .none .pk) = false ∧ Instr.wf (.qinit 16 0 0) = false ∧
    Instr.wf (.redAdd 1 2 .acq .pk) = false := by
  decide

theorem test_wf_lane_fields : Instr.wf (.vadd { la 1 2 3 .i32 with pred := 64 }) = false ∧ Instr.wf (.vadd (la 512 2 3 .i32)) = false ∧
    Instr.wf (.vadd (la 1 512 3 .i32)) = false ∧ Instr.wf (.vadd (la 1 2 512 .i32)) = false ∧
    Instr.wf (.vadd { la 1 2 3 .i32 with im := true, b := 0, imm := 2 ^ 32 }) = false ∧ Instr.wf (.vld { lm 1 2 0 0 .raw with imm := 2 ^ 32 }) = false ∧
    Instr.wf (.vld (lm 1 2 0 512 .raw)) = false := by
  decide

theorem test_wf_lane_legal : Instr.wf (.vadd { la 1 2 3 .i32 with c := 1 }) = false ∧ Instr.wf (.vadd (la 1 2 3 .e4m3)) = false ∧
    Instr.wf (.vmulh (la 1 2 3 .f32)) = false ∧ Instr.wf (.vfma (la 1 2 3 .i32)) = false ∧ Instr.wf (.vmin { la 1 2 3 .f32 with sat := true }) = false ∧
    Instr.wf (.vabs { la 1 2 0 .i32 with ftz := true }) = false ∧ Instr.wf (.vand (la 1 2 3 .i32)) = false ∧
    Instr.wf (.vclz (la 1 2 0 .i32)) = false ∧ Instr.wf (.vcmpUn (la 1 2 3 .i32)) = false ∧ Instr.wf (.vcmpEq (la 1 2 3 .f16)) = false ∧
    Instr.wf (.vrcp (la 1 2 0 .i32)) = false ∧ Instr.wf (.vperm (la 1 2 3 .i32)) = false ∧ Instr.wf (.vscanAdd (la 1 2 0 .f16)) = false := by
  decide

theorem test_wf_lane_legal_more : Instr.wf (.pnot { la 1 2 3 .raw with b := 1 }) = false ∧ Instr.wf (.pand { la 1 2 3 .raw with sat := true }) = false ∧
    Instr.wf (.vmov { la 1 2 0 .raw with b := 1 }) = false ∧ Instr.wf (.mvs { la 1 2 0 .raw with c := 64 }) = false ∧
    Instr.wf (.vcvt { la 1 2 0 .f32 with c := 9 }) = false ∧ Instr.wf (.vballot { la 1 2 0 .raw with b := 1 }) = false ∧
    Instr.wf (.vexit { la 1 0 0 .raw with c := 1 }) = false ∧ Instr.wf (.xch { la 1 2 0 .raw with b := 1 }) = false ∧
    Instr.wf (.vredAdd { la 1 2 0 .f16 with b := 1 }) = false ∧ Instr.wf (.vscacc { la 1 2 3 .i32 with b := 4 }) = false := by
  decide

theorem test_wf_lane_memory : Instr.wf (.vst (lm 1 2 3 0 .raw)) = false ∧ Instr.wf (.vld (lm 1 2 0 8 .raw)) = false ∧
    Instr.wf (.vlds (lm 1 2 0 1 .raw)) = false ∧ Instr.wf (.laneAmoAdd (lm 1 2 3 0 .f32)) = false ∧
    Instr.wf (.laneAmoMin (lm 1 2 3 0 .raw)) = false ∧ Instr.wf (.laneRedAdd (lm 1 2 3 0 .raw)) = false ∧
    Instr.wf (.laneAmoFadd (lm 1 2 3 0 .i32)) = false := by
  decide

/-! ## Words written out from the encodings of R32, R36, R46 and R48 -/

/-- SR `add s1, s2, s3`: 0x10 | d=1 | a=2 | b=3. -/
theorem test_word_add : decodeScalar 0b00010000_000000001_000000010_000011 = some (.add 1 2 3) := by decide

/-- SI `addi s5, #-2` (0x30). -/
theorem test_word_addi : decodeScalar 0b00110000_000000101_111111111111110 = some (.addi 5 (-2)) := by decide

/-- SB `bnz s4, +3` is 0x4602_0003 (R86). -/
theorem test_word_bnz : decodeScalar 0x46020003 = some (.bnz 4 3) := by decide

/-- SJ `j -3` is 0x40FF_FFFD (R86). -/
theorem test_word_j : decodeScalar 0x40FFFFFD = some (.j (-3)) := by decide

/-- SB `jr s9, #0` is 0x4304_8000 (R86). -/
theorem test_word_jr : decodeScalar 0x43048000 = some (.jr 9 0) := by decide

/-- A nonzero `imm[14:6]` in a shift is refused (R155), as is an opcode without a row. -/
theorem test_word_refused : decodeScalar (0x35018000 + 64) = none ∧ decodeScalar 0x3F000000 = none := by decide

/-- `scadd.8 s12, s13, s14` is 0x2D06_034E (R154). -/
theorem test_word_scadd : decodeScalar 0x2D06034E = some (.scadd8 12 13 14) := by decide

/-- SB `callv v7` (0x4B). -/
theorem test_word_control : decodeScalar 0b01001011_000000111_000000000000000 = some (.callv 7) := by decide

/-- SX `lrun s3, s4` (0x50). -/
theorem test_word_lanes : decodeScalar 0b01010000_000000011_000000100_000000 = some (.lrun 3 4) := by decide

/-- SR `rdv #9, s2` (0x57). -/
theorem test_word_convoy : decodeScalar 0b01010111_000001001_000000010_000000 = some (.rdv 9 2) := by decide

/-- SM `lds.n16 s1, [s2 + 5]` (0x63). -/
theorem test_word_load : decodeScalar 0b01100011_000000001_000000010_000101 = some (.ldsN16 1 2 5) := by decide

/-- SI `fence W, R` (0x71). -/
theorem test_word_fence : decodeScalar 0b01110001_000000000_000_000010_000001 = some (.fence 2 1) := by decide

/-- SR `wake [s1], s2` (0x78). -/
theorem test_word_wake : decodeScalar 0b01111000_000000000_000000001_000010 = some (.wake 1 2) := by decide

/-- SR `amo.cas.rel.pk s3, [s4]` (0x89): order 10, scope 100. -/
theorem test_word_atomic : decodeScalar 0b10001001_000000011_000000100_010100 = some (.amoCas 3 4 .rel .pk) := by decide

/-- SI `qpop q15, #3` (0xA2). -/
theorem test_word_ring : decodeScalar 0b10100010_000001111_000000000000011 = some (.qpop 15 3) := by decide

/-- SR `launch [s6], s7` (0xB0). -/
theorem test_word_launch : decodeScalar 0b10110000_000000000_000000110_000111 = some (.launch 6 7) := by decide

/-- SX `mx.mips s1, s2` (0xC0, x = 3). -/
theorem test_word_matrix : decodeScalar 0b11000000_000000001_000000010_000011 = some (.mxMips 1 2) := by decide

/-- SX `cp.fill s1, s2` (0xC1, x = 4). -/
theorem test_word_copy : decodeScalar 0b11000001_000000001_000000010_000100 = some (.cpFill 1 2) := by decide

/-- SX `lv.max s1, s2` (0xC2, x = 0). -/
theorem test_word_vector : decodeScalar 0b11000010_000000001_000000010_000000 = some (.lvMax 1 2) := by decide

/-- SX `rt.route s1, s2` (0xC3, x = 1). -/
theorem test_word_route : decodeScalar 0b11000011_000000001_000000010_000001 = some (.rtRoute 1 2) := by decide

/-- `vadd.i32 v1, v2, v3` (0x001). -/
theorem test_word_vadd : decodeLane 0b0000000001_000000_0_000000001_000000010_000000011_000000000_00100_000000_00000000000000000000000000000000 = some (.vadd (la 1 2 3 .i32)) := by decide

/-- `vmin.f32.ftz v1, v2, v3` under not p5 (0x006). -/
theorem test_word_vmin : decodeLane 0b0000000110_000101_1_000000001_000000010_000000011_000000000_01001_010000_00000000000000000000000000000000 = some (.vmin ⟨5, true, 1, 2, 3, 0, .f32, .rne, false, true, false, 0⟩) := by decide

/-- `vmov v319, #0xFFFFFFFF` (0x040, IMM). -/
theorem test_word_vmov_imm : decodeLane 0b0001000000_000000_0_100111111_000000000_000000000_000000000_00000_100000_11111111111111111111111111111111 = some (.vmov ⟨0, false, 319, 0, 0, 0, .raw, .rne, false, false, true, 0xFFFFFFFF⟩) := by decide

/-- `vsel v1, v2, v3, p7` (0x041). -/
theorem test_word_vsel : decodeLane 0b0001000001_000000_0_000000001_000000010_000000011_000000111_00000_000000_00000000000000000000000000000000 = some (.vsel ⟨0, false, 1, 2, 3, 7, .raw, .rne, false, false, false, 0⟩) := by decide

/-- `pand p1, p2, p3` (0x030). -/
theorem test_word_pand : decodeLane 0b0000110000_000000_0_000000001_000000010_000000011_000000000_00000_000000_00000000000000000000000000000000 = some (.pand (la 1 2 3 .raw)) := by decide

/-- `vtanh.bf16 v1, v2` (0x087). -/
theorem test_word_vtanh : decodeLane 0b0010000111_000000_0_000000001_000000010_000000000_000000000_01011_000000_00000000000000000000000000000000 = some (.vtanh (la 1 2 0 .bf16)) := by decide

/-- `vscan.max.n32 v1, v2` (0x0C9). -/
theorem test_word_vscan : decodeLane 0b0011001001_000000_0_000000001_000000010_000000000_000000000_01000_000000_00000000000000000000000000000000 = some (.vscanMax (la 1 2 0 .n32)) := by decide

/-- `vrng v1, v2, v3` (0x0D0). -/
theorem test_word_vrng : decodeLane 0b0011010000_000000_0_000000001_000000010_000000011_000000000_00000_000000_00000000000000000000000000000000 = some (.vrng (la 1 2 3 .raw)) := by decide

/-- `vst` through tb1 (0x105). -/
theorem test_word_vst : decodeLane 0b0100000101_000000_0_000000000_000000010_000000011_000000001_00000_000000_00000000000000000000000000000100 = some (.vst ⟨0, false, 0, 2, 3, 1, .raw, .wv, .none, 4⟩) := by decide

/-- `vexit` (0x181). -/
theorem test_word_vexit : decodeLane 0b0110000001_000000_0_000000000_000000000_000000000_000000000_00000_000000_00000000000000000000000000000000 = some (.vexit (la 0 0 0 .raw)) := by decide

/-- The worked lane encoding of R36, byte by byte in memory order. -/
theorem test_word_vfma_bytes : decodeLaneBytes [0x00, 0x00, 0x00, 0x00, 0x40, 0x6A, 0xC0, 0x60, 0x81, 0x02, 0x40, 0x01] =
    .ok (.vfma ⟨0, false, 10, 11, 12, 13, .f32, .rne, false, false, false, 0⟩, []) := by decide

/-- An all-zero word of either kind traps (R46, R48), as does a reserved rounding code (R40) and a type that the opcode refuses (R39). -/
theorem test_word_lane_refused : decodeLane 0 = none ∧ decodeScalar 0 = none ∧ decodeLane (0b0000000001_000000_0_000000001_000000010_000000011_000000000_01001_000101_00000000000000000000000000000000) = none ∧
    decodeLane (0b0000000001_000000_0_000000001_000000010_000000011_000000000_10100_000000_00000000000000000000000000000000) = none := by decide

/-- A byte too few is no word. -/
theorem test_word_short : (match decodeScalarBytes [0x01, 0, 0] with
    | .ok _ => false
    | .error _ => true) = true := by decide

/-! ## States for the tests -/

/-- A module about to run the word `x` in wave 0 of core 0. -/
def boot (x : Nat) : State := State.reset.withFetchWord 32 x

/-- That wave. -/
def w0 : Wave := fetchWave State.reset false

/-- The wave with these scalar registers. -/
def wR (rs : Arr Word) : Wave := { w0 with regs := { w0.regs with s := rs } }

/-- The module with wave 0 as given; the wave is the one that issues. -/
def st (w : Wave) : State := (boot 0).setWave 0 w

/-- The wave that a step leaves, with `g` looked at. -/
def after {α : Type} (o : Out) (g : State → Wave → α) : Option α := match o with
  | .next t => (t.wave 0).map (g t)
  | _ => none

/-! ## Steps, reset and memory -/

/-- The meaning of `t.wave n` for the wave of a booted module. -/
theorem test_boot_wave : (boot 0x10000083).wave 0 = some w0 := by decide +kernel

/-- StepRunsScalar: a booted module meets every hypothesis for `add s0, s2, s3`. -/
theorem test_StepRunsScalar :
    let s := boot 0x10000083
    let q := (State.pollUnder { s with agenda := [] } 0).timeS 0 w0
    let p := ((q.settle 0).takeHeld 0).boundary 0
    s.agenda = [.scalar 0] ∧ s.wave 0 = some w0 ∧ w0.life = .running ∧ w0.park = .none ∧
    ∃ v ka kb, q.rowDue (coreOfWave 0) = false ∧ p.hasS 0 = true ∧ trapOf p 0 (laneNow p 0) = none ∧
      codeLost p fetchCons (coreOfWave 0) v.spc 4 = none ∧ p.wave 0 = some v ∧ v.life = .running ∧ v.park = .none ∧ v.sched.active = true ∧ v.sched.readyS ≤ p.clk (coreOfWave 0) ∧
      p.con v.cid = some fetchCons ∧ v.followsFifo = false ∧ p.isLead 0 v = false ∧ codePlace p fetchCons (coreOfWave 0) v.spc = .at ka ∧
      codePlace p fetchCons (coreOfWave 0) (v.spc + 3) = .at kb ∧ v.breakAt fetchCons (.scalar v.spc) = none ∧
      decodeScalar (ofBytes (codeBytes p fetchCons (coreOfWave 0) v.spc 4)) = some (.add 0 2 3) := by
  refine ⟨by decide +kernel, by decide +kernel, by decide +kernel, by decide +kernel, w0,
    storageKey 0x11000 0 0 0, storageKey 0x11003 0 0 0, ?_⟩
  decide +kernel

/-- StepRunsLane: a module booted with `vmov v1, #7` meets every hypothesis. -/
theorem test_StepRunsLane :
    let x := 0x1000_0040_0000_0020_0000_0007
    let s := State.reset.withFetchWord 96 x
    let w := fetchWave State.reset true
    let q := State.timeL { s with agenda := [] } 0 w
    let p := (q.settle 0).takeHeld 0
    s.agenda = [.lane 0] ∧ s.wave 0 = some w ∧ w.life = .running ∧ (nextBlock w.queue).isSome = true ∧
    ∃ v b ka kb, q.rowDue (coreOfWave 0) = false ∧ p.hasL 0 = true ∧ trapOf p 0 (scalarNow p 0) = none ∧ p.heapKeys v fetchCons 0 = none ∧
      codeLost p fetchCons (coreOfWave 0) (fetchCons.obj.laneAt 0) 12 = none ∧ b.start + b.pos = 0 ∧ p.wave 0 = some v ∧ v.life = .running ∧ v.sched.active = true ∧
      p.con v.cid = some fetchCons ∧ nextBlock v.queue = some b ∧ v.sched.readyL ≤ p.clk (coreOfWave 0) ∧ v.laneAcqOpen = false ∧
      v.followsFifo = false ∧ p.isLead 0 v = false ∧ codePlace p fetchCons (coreOfWave 0) (fetchCons.obj.laneAt (b.start + b.pos)) = .at ka ∧
      codePlace p fetchCons (coreOfWave 0) (fetchCons.obj.laneAt (b.start + b.pos) + 11) = .at kb ∧
      v.breakAt fetchCons (.lane (b.start + b.pos)) = none ∧
      decodeLane (ofBytes (codeBytes p fetchCons (coreOfWave 0) (fetchCons.obj.laneAt (b.start + b.pos)) 12)) =
        some (.vmov ⟨0, false, 1, 0, 0, 0, .raw, .rne, false, false, true, 7⟩) := by
  refine ⟨by decide +kernel, by decide +kernel, by decide +kernel, by decide +kernel, fetchWave State.reset true,
    ⟨0, 0, 1, 0, 0, 0, BitVec.allOnes 64, 0⟩, storageKey 0x12000 0 0 0, storageKey 0x1200B 0 0 0, ?_⟩
  decide +kernel

/-- StepRunsLane, events: an event of the agenda has no word; the firmware's events wait for verified firmware, and in recovery a host's
doorbell does nothing (R412). -/
theorem test_StepRunsEvents : encodeWord (.wqTailDoorbell 0 0) = none ∧ (boot 0).shuts (.wqTailDoorbell 0 0) = false ∧
    State.shuts { boot 0 with dwen := { (boot 0).dwen with recovery := true } } (.wqTailDoorbell 0 0) = true ∧
    byService (.preemptionRequest 0 [] .debugger) = true ∧
    State.shuts { boot 0 with dwen := { (boot 0).dwen with running := [] } } (.preemptionRequest 0 [] .debugger) = true := by decide +kernel

/-- DecodeEncode: words of both streams that are well-formed and have a word. -/
theorem test_DecodeEncode : Instr.wf (.addi 383 (-16384)) = true ∧ (encodeWord (.addi 383 (-16384))).isSome = true ∧
    Instr.wf (.rtctlFlush 511 511) = true ∧ (encodeWord (.rtctlFlush 511 511)).isSome = true ∧
    Instr.wf (.vadd (la 319 340 0 .i32)) = true ∧ (encodeWord (.vadd (la 319 340 0 .i32))).isSome = true := by decide

/-- LittleEndian: a memory in canonical form with a byte at either end of a range. -/
theorem test_LittleEndian : Memory.wf [(3, 0x12), (7, 0xFF)] = true ∧
    (State.writeNum { State.reset with mem := [(3, 0x12), (7, 0xFF)] } 4 4 0x0100_0002).mem = [(3, 0x12), (4, 0x02), (7, 0x01)] := by decide

/-- A byte of zero leaves no entry. -/
theorem test_write_zero : Memory.set [(3, 0x12), (7, 0xFF)] 3 0 = [(7, 0xFF)] := by decide

/-- StepKeepsMemory: a state that meets the invariant and steps. -/
theorem test_StepKeepsMemory : (boot 0x01000000).memOk = true ∧ (boot 0x01000000).tagsOk = true ∧
    after (step (boot 0x01000000)) (fun _ w => w.spc) = some 0x11004 := by decide +kernel

/-! ## Scalar words -/

/-- ScalarRegisterWords, RegisterFrames: `add s1, s2, s3` is ready. -/
theorem test_ScalarRegisterWords : regForm (.add 1 2 3) ≠ none ∧
    scalarReady (st (wR [(2, 5), (3, 7)])) [1, 2, 3] [2, 3] (some (1, 2)) = some (wR [(2, 5), (3, 7)], fetchCons) := by
  exact ⟨by simp [regForm], by decide +kernel⟩

/-- The value that a scalar word of one destination sends to it. -/
def sent (i : Instr) (rs : Arr Word) : Option Dest :=
  (after (exec i (st (wR rs))) fun _ w => w.pend.head?.map Landing.dest).join

/-- Quotients and remainders truncate toward zero, and the two fixed cases (R154). -/
theorem test_div : sent (.divI64 1 2 3) [(2, -7), (3, 2)] = some (.sreg 1 (-3)) ∧ sent (.remI64 1 2 3) [(2, -7), (3, 2)] = some (.sreg 1 (-1)) ∧
    sent (.divI64 1 2 3) [(2, 5), (3, 0)] = some (.sreg 1 (-1)) ∧ sent (.remI64 1 2 3) [(2, 5), (3, 0)] = some (.sreg 1 5) ∧
    sent (.divI64 1 2 3) [(2, 2 ^ 63), (3, -1)] = some (.sreg 1 (2 ^ 63)) ∧ sent (.remI64 1 2 3) [(2, 2 ^ 63), (3, -1)] = some (.sreg 1 0) ∧
    sent (.divN64 1 2 3) [(2, -1), (3, 2)] = some (.sreg 1 (2 ^ 63 - 1)) := by decide +kernel

/-- The high half of −1 × −1 is 0 signed and 2^64 − 2 natural (R153). -/
theorem test_mulh : sent (.mulhI64 1 2 3) [(2, -1), (3, -1)] = some (.sreg 1 0) ∧
    sent (.mulhN64 1 2 3) [(2, -1), (3, -1)] = some (.sreg 1 (-2)) := by decide +kernel

/-- Shifts use B[5:0]; `shr.i64` copies bit 63 in (R153). -/
theorem test_shift : sent (.shl 1 2 3) [(2, 1), (3, 64)] = some (.sreg 1 1) ∧ sent (.shrI64 1 2 3) [(2, -8), (3, 65)] = some (.sreg 1 (-4)) ∧
    sent (.shrN64 1 2 3) [(2, -1), (3, 63)] = some (.sreg 1 1) := by decide +kernel

/-- Leading zeros of 0 are 64; one bits; signed and natural orders differ (R153). -/
theorem test_counts : sent (.clz 1 2) [] = some (.sreg 1 64) ∧ sent (.popc 1 2) [(2, -1)] = some (.sreg 1 64) ∧
    sent (.sltI64 1 2 3) [(2, -1)] = some (.sreg 1 1) ∧ sent (.sltN64 1 2 3) [(2, -1)] = some (.sreg 1 0) ∧
    sent (.scadd8 1 2 3) [(2, 100), (3, 3)] = some (.sreg 1 124) := by decide +kernel

/-- Immediates (R155, R156, R157): `lim` shifts 15 bits in, `andi` extends the sign, `adr` counts words from its own address. -/
theorem test_immediates : sent (.lim 4 0x1234) [(4, 1)] = some (.sreg 4 0x9234) ∧ sent (.andi 4 (-2)) [(4, 0xFF)] = some (.sreg 4 0xFE) ∧
    sent (.adr 1 (-1)) [] = some (.sreg 1 0x10FFC) ∧ sent (.movi 1 (-1)) [(1, 5)] = some (.sreg 1 (-1)) ∧
    sent (.sltiN64 1 (-1)) [(1, 5)] = some (.sreg 1 1) ∧ sent (.shriI64 1 63) [(1, -5)] = some (.sreg 1 (-1)) := by decide +kernel

/-- A result aimed at s0 is dropped: s0 reads as zero (R33). -/
theorem test_s0 : after (exec (.add 0 2 3) (st (wR [(2, 5)]))) (fun t w => (w.spc, t.rS w 0)) = some (0x11004, 0) := by decide +kernel

/-- Transfers: taken and not taken, each from a state that is ready; the program counter and the next issue. -/
theorem test_Transfers : jumpForm (st (wR [(4, -1)])) (wR [(4, -1)]) (.bltz 4 (-2)) = some ([4], true, 0x10FF8) ∧
    jumpForm (st (wR [(4, 0)])) (wR [(4, 0)]) (.bltz 4 (-2)) = some ([4], false, 0x10FF8) ∧
    jumpForm (st (wR [(4, 8)])) (wR [(4, 8)]) (.jr 4 1) = some ([4], true, 12) ∧
    scalarReady (st (wR [(4, -1)])) [4] [4] none = some (wR [(4, -1)], fetchCons) ∧
    after (exec (.bltz 4 (-2)) (st (wR [(4, -1)]))) (fun _ w => (w.spc, w.sched.readyS)) = some (0x10FF8, 3) ∧
    after (exec (.bltz 4 (-2)) (st (wR [(4, 0)]))) (fun _ w => (w.spc, w.sched.readyS)) = some (0x11004, 1) ∧
    after (exec (.blez 4 2) (st (wR [(4, 0)]))) (fun _ w => w.spc) = some 0x11008 ∧
    after (exec (.bgtz 4 2) (st (wR [(4, 0)]))) (fun _ w => w.spc) = some 0x11004 := by decide +kernel

/-- A wave with `k` entries on its return stack. -/
def wStack (k : Nat) : Wave := { wR [(2, 0x11100)] with lmask := 5, stack := List.replicate k ⟨.call, 0x11040, 3⟩ }

/-- CallsReturns: a call with room, one that spills, and one that finds the spill area full (its chunks are counted); a pop that refills. -/
theorem test_CallsReturns : callForm (st (wStack 0)) (wStack 0) (.callr 2 1) = some ([2], 0x11104) ∧
    scalarReady (st (wStack 0)) [2] [2] none = some (wStack 0, fetchCons) ∧
    (pushRet (st (wStack 15)) 0 (wStack 15) ⟨.call, 8, 1⟩).map (fun x => x.2.2) = some false ∧
    (pushRet (st (wStack 16)) 0 (wStack 16) ⟨.call, 8, 1⟩).map (fun x => (x.2.1.stack.length, x.2.1.spilled, x.2.2)) = some (13, 1, true) ∧
    (pushRet (st { wStack 16 with spilled := 64 }) 0 { wStack 16 with spilled := 64 } ⟨.call, 8, 1⟩).isNone = true ∧
    (popRet (st (wStack 1)) 0 (wStack 1)).map (fun x => (x.1, x.2.2)) = some (⟨.call, 0x11040, 3⟩, false) ∧
    (popRet (st { wStack 0 with spilled := 1 }) 0 { wStack 0 with spilled := 1 }).map (fun x => x.2.2) = some true := by decide +kernel

/-- A call pushes the next word's address and `lmask`; `ret` goes back with them (R89). -/
theorem test_call_ret : after (exec (.callr 2 1) (st (wStack 0))) (fun _ w => (w.spc, w.stack)) = some (0x11104, [⟨.call, 0x11004, 5⟩]) ∧
    after (exec .ret (st (wStack 1))) (fun _ w => (w.spc, w.lmask, w.stack.length)) = some (0x11040, 3, 0) := by decide +kernel

/-- A wave of two lanes whose targets in v1 are 8 and 4. -/
def wCallv : Wave := { wR [] with lmask := 3, regs := { w0.regs with v := [(64, 8), (65, 4)] } }

/-- VectorCalls: no live lane, and two with different targets. -/
theorem test_VectorCalls : scalarReady (st wCallv) [] [] none = some (wCallv, fetchCons) ∧ wCallv.vOk 1 = true ∧ fetchCons.debug = false ∧
    wCallv.live wCallv.lmask ≠ 0 ∧ callvFails (wCallv.targets 0 0 1 (wCallv.live wCallv.lmask)) fetchCons.obj.scalarSize = none ∧
    wCallv.stack.length + 2 ≤ 16 ∧ Wave.live { wCallv with lmask := 0 } 0 = 0 ∧
    after (exec (.callv 1) (st wCallv)) (fun _ w => (w.spc, w.lmask, w.stack)) =
      some (0x11004, 2, [⟨.round, 1, 1⟩, ⟨.frame, 0x11000, 3⟩]) := by decide +kernel

/-- StreamWords: each form ready. -/
theorem test_StreamWords : (waveForm (st w0) w0 fetchCons .nop).isSome = true ∧ (waveForm (st w0) w0 fetchCons (.wait 3 0)).isSome = true ∧
    (waveForm (st w0) w0 fetchCons (.lwait 0)).isSome = true ∧ (waveForm (st w0) w0 fetchCons (.mts 1 .fpctl)).isSome = true ∧
    (waveForm (st w0) w0 fetchCons (.settv 0)).isSome = true ∧ (waveForm (st w0) w0 fetchCons (.sleep 1 0)).isSome = true ∧
    (waveForm (st w0) w0 fetchCons (.sleep 1 9)).isSome = true ∧
    (waveForm (st (wR [(1, 0x0100_0000)])) (wR [(1, 0x0100_0000)]) fetchCons (.lrun 1 2)).isSome = true ∧
    (waveForm (st w0) w0 { fetchCons with obj := { fetchCons.obj with sects := [(5, (0x2000, 8))] } } (.lblk 1 0)).isSome = true ∧
    scalarReady (st w0) [1] [1] none = some (w0, fetchCons) := by decide +kernel

/-- `lrun` of 256 words is written with a length of 0 (R81); `sleep` parks until its deadline (R394). -/
theorem test_stream : after (exec (.lrun 1 2) (st (wR [(2, 9)]))) (fun _ w => w.laneQ.map fun b => (b.start, b.count)) = some [(0, 256)] ∧
    after (exec (.sleep 1 9) (st (wR [(1, 1)]))) (fun _ w => w.park) = some (.sleep 10) ∧
    after (exec (.settv 4) (st w0)) (fun _ w => w.ctl.handler) = some (some 0x11010) := by decide +kernel

/-- A wave with a lane block of two words, of which none has issued. -/
def wBlk : Wave := { w0 with laneQ := [⟨9, 0, 2, 0, 0, 0, BitVec.allOnes 64, 0⟩] }

/-- A wave with a load outstanding. -/
def wLoad : Wave := { w0 with ops := [⟨5, .ld, 1, none, .sreg 1 8 false, none, 0, false, 0, 0, [], 0, none, 0⟩] }

/-- StreamHolds: `yield` with and without a pending wave, `wait` on one load, `lwait` on one block. -/
theorem test_StreamHolds : scalarReady (st w0) [] [] none = some (w0, fetchCons) ∧ (st w0).longestPending 0 0 = none ∧
    (((st w0).setWave 1 { w0 with sched := { w0.sched with active := false } }).longestPending 0 0).isSome = true ∧
    0 < wLoad.count (Ctr.ofCode 0) ∧ 0 < wBlk.lbusy ∧
    after (exec (.wait 0 0) (st wLoad)) (fun _ w => (w.spc, w.sched.holdS)) = some (0x11000, .long) ∧
    after (exec (.lwait 0) (st wBlk)) (fun _ w => (w.spc, w.sched.holdS)) = some (0x11000, .stall) := by decide +kernel

/-- Exit: a wave that may end. -/
theorem test_Exit : scalarReady (st w0) [] [] none = some (w0, fetchCons) ∧ w0.lbusy = 0 ∧ w0.members = [] ∧ w0.acks = [] ∧
    ((st w0).core 0).chan.lead ≠ some (st w0).cur ∧
    after (exec .exit (st w0)) (fun t w => (w.life, (t.con 0).map fun c => (c.exited, c.live))) = some (.draining false, some (1, 0)) := by
  decide +kernel

/-! ## Traps -/

/-- A wave with a handler at 0x11020. -/
def wH : Wave := { w0 with ctl := { w0.ctl with handler := some 0x11020 } }

/-- TrapEntry: a usable handler; a lane trap of cause 6 with ARG. -/
theorem test_TrapEntry : (st wH).wave 0 = some wH ∧ (st wH).con 0 = some fetchCons ∧ wH.ctl.hmode = false ∧
    usable fetchCons 0x11020 ∧ wH.pend = [] ∧ wH.ops.all (fun o => o.ctr != .sf) = true := by
  refine ⟨by decide +kernel, by decide +kernel, rfl, ⟨rfl, by decide, by decide⟩, rfl, rfl⟩

/-- TrapKills: in handler mode, without a handler, and with one outside `.scalar`. -/
theorem test_TrapKills : (st w0).wave 0 = some w0 ∧ (st w0).con 0 = some fetchCons ∧ w0.ctl.handler = none ∧ w0.members = [] ∧
    w0.ops.all (fun o => o.failed.isEmpty) = true ∧ ¬ usable fetchCons 0x10FFC ∧ ¬ usable fetchCons 0x11021 := by
  refine ⟨by decide +kernel, by decide +kernel, rfl, rfl, rfl, ?_, ?_⟩ <;> intro h
  · exact absurd h.2.1 (by decide)
  · exact absurd h.1 (by decide)

/-- `trap #0x7EFF` with a handler: cause 0x0B with ARG, the scalar PC saved at the word (R28, R359). -/
theorem test_trap : after (exec (.trap 0x7EFF) (st wH)) (fun _ w => (w.spc, w.ctl.hmode, w.ctl.xcause, w.ctl.xspc, w.ctl.xaddr)) =
    some (0x11020, true, 0x7EFF000B, 0x11000, 0x7EFF) ∧
    after (exec (.trap 0x7F00) (st wH)) (fun _ w => (w.ctl.xcause, w.ctl.xaddr)) = some (1, 0x04007F00) := by decide +kernel

/-- Without a handler a trap kills, and its die's log records it (R366, R368). -/
theorem test_kill : after (exec (.trap 1) (st w0)) (fun t w => (w.life, (t.con 0).map Cons.error, (t.die 0).log.map fun e => (e.2.cause, e.2.spc))) =
    some (.draining true, some true, [(0x0B, 0x11000)]) := by decide +kernel

/-- A wave in handler mode with its resume points. -/
def wX (cause : Word) (sp : Nat) : Wave := { w0 with ctl := { w0.ctl with
  hmode := true, xcause := cause, xspc := BitVec.ofNat 64 sp, xlpc := 3, trapBlk := some (none, 3, 3) } }

/-- HandlerEntryReturn: ready in and outside the handler, busy, with a good and with a bad resume point. -/
theorem test_HandlerEntryReturn : scalarReady (st w0) [] [] none = some (w0, fetchCons) ∧ w0.ctl.hmode = false ∧
    scalarReady (st (wX 2 0x11008)) [] [] none = some (wX 2 0x11008, fetchCons) ∧ (wX 2 0x11008).lbusy = 0 ∧
    0 < Wave.lbusy { wX 2 0x11008 with handQ := [⟨9, 0, 2, 0, 0, 0, 0, 0⟩] } ∧ 0x11000 + 0x1000 ≤ (wX 2 0x12000).ctl.xspc.toNat := by decide +kernel

/-- A redo goes to `xspc`; a skip goes a word further, but not past an asynchronous trap; a bad resume point kills (R367). -/
theorem test_xret : after (exec .xretRedo (st (wX 2 0x11008))) (fun _ w => (w.spc, w.ctl.hmode, w.lpc)) = some (0x11008, false, 3) ∧
    after (exec .xretSkip (st (wX 2 0x11008))) (fun _ w => w.spc) = some 0x1100C ∧
    after (exec .xretSkip (st (wX 0x202 0x11008))) (fun _ w => w.spc) = some 0x11008 ∧
    after (exec .xretRedo (st (wX 2 0x12000))) (fun _ w => w.life) = some (.draining true) ∧
    after (exec .xretRedo (st wH)) (fun _ w => w.ctl.xcause) = some 1 := by decide +kernel

/-! ## Scalar memory -/

/-- A wave with s2 = 0x20000, s3 = 5 and s4 = 0x20010, pointing into mapped memory. -/
def wM : Wave := wR [(2, 0x20000), (3, 5), (4, 0x20010), (5, 0x40000000), (6, 0x0100000000000000), (7, 0x20004), (8, 0xFE00000000000000)]

/-- ScalarMemoryWords: a load, a store and an atomic with acquire meet the hypotheses; one load's sector is in the snapshot. -/
theorem test_ScalarMemoryWords : wM.spc < 2 ^ 57 ∧ (∃ u, memUse (st wM) wM (.lds64 1 2 1) = some u ∧ u.addr = 0x20008 ∧
      scalarReady (st wM) u.fields u.reads none = some (wM, fetchCons) ∧ u.free (st wM) wM fetchCons ∧
      place (st wM) fetchCons 0 u.addr.toNat u.kind.need = .at (storageKey 0x20008 0 0 0) ∧ wM.pageLogged u.addr.toNat = false) ∧
    (∃ u, memUse (st wM) wM (.amoAdd 3 2 .acq .pk) = some u ∧
      scalarReady (st wM) u.fields u.reads none = some (wM, fetchCons) ∧ u.free (st wM) wM fetchCons ∧
      place (st wM) fetchCons 0 u.addr.toNat u.kind.need = .at (storageKey 0x20000 0 0 0) ∧ keyIsHost (storageKey 0x20000 0 0 0) = false) ∧
    (Core.held { Core.reset with snap := [(storageKey 0x20000 0 0 0 / 32, List.replicate 32 7)] } (storageKey 0x20008 0 0 0)).isSome = true := by
  refine ⟨by decide +kernel, ⟨loadUse (st wM) wM 1 2 1 8 false, rfl, by decide +kernel, by decide +kernel, ⟨by decide +kernel, ?_⟩,
    by decide +kernel, by decide +kernel⟩, ⟨amoUse (st wM) wM .add 3 2 .acq .pk, rfl, by decide +kernel, ⟨by decide +kernel, ?_⟩, by decide +kernel,
    by decide +kernel⟩, by decide +kernel⟩ <;> intro h <;> exact absurd h (by decide)

/-- A load's and a store's request: home operation, width, address and data; the counter; a byte store sends the low byte (R258). -/
theorem test_load_store : after (exec (.ldsI16 1 2 3) (st wM)) (fun t w => (w.count .ld, t.reqs.map fun r => (r.kind, r.size))) =
      some (1, [(.mem .load, 2)]) ∧
    after (exec (.ldsI16 1 2 3) (st wM)) (fun t _ => t.reqs.map fun r => r.accs.map Acc.va) = some [[0x20006]] ∧
    after (exec (.sts8 4 2 1) (st wM)) (fun t w => (w.count .st, t.reqs.map fun r => (r.kind, r.size))) = some (1, [(.mem .store, 1)]) ∧
    after (exec (.sts8 4 2 1) (st wM)) (fun t _ => t.reqs.map fun r => r.accs.map fun a => (a.va, a.data)) = some [[(0x20001, 0x10)]] := by
  decide +kernel

/-- Atomics, reductions and tag words: what they ask of the home, and the wait of an acquire (R273, R286, R296). -/
theorem test_atomic_words : after (exec (.amoSwap 3 2 .acq .pk) (st wM)) (fun t w => (w.park, t.reqs.map Req.kind)) =
      some (.atomic 1 .pk, [.mem (.amo .swap)]) ∧
    after (exec (.redAdd 3 2 .none .wv) (st wM)) (fun t w => (w.park, t.reqs.map Req.kind)) = some (.none, [.mem (.red .add)]) ∧
    after (exec (.tagset 1 8 1) (st wM)) (fun t _ => t.reqs.map Req.kind) = some [.mem (.tagset true)] ∧
    after (exec (.ldfe 1 2 0) (st wM)) (fun t w => (t.reqs.length, t.resps.length, w.count .ld)) = some (0, 1, 1) := by decide +kernel

/-- ScalarMemoryFaults: an absent page, and an address outside the mapped space. -/
theorem test_ScalarMemoryFaults : place (st wM) fetchCons 0 0x40000000 .read = .fault ∧ place (st wM) fetchCons 0 0x0100000000000000 .read = .violation ∧
    scalarReady (st wM) [1, 5] [5] none = some (wM, fetchCons) ∧ hasAcq Order.none = false ∧
    (loadUse (st wM) wM 1 5 0 8 false).free (st wM) wM fetchCons ∧ (loadUse (st wM) wM 1 6 0 8 false).free (st wM) wM fetchCons := by
  refine ⟨by decide +kernel, by decide +kernel, by decide +kernel, by decide, ⟨by decide +kernel, ?_⟩, ⟨by decide +kernel, ?_⟩⟩ <;>
    intro h <;> exact absurd h (by decide)

/-- `xlat` of a mapped and of an unmapped pointer (R238). -/
theorem test_xlat : scalarReady (st wM) [2] [2] none = some (wM, fetchCons) ∧ canonical 0x20000 = true ∧ fetchCons.dataAt 0x20000 = none ∧
    after (exec (.xlat 7 2) (st wM)) (fun _ w => (look w.tbs 7).map fun r => (r.base, decide (r.limit = 0))) = some (some (0x20000, false)) ∧
    after (exec (.xlat 7 5) (st wM)) (fun _ w => (look w.tbs 7).map fun r => (r.base, r.limit)) = some (some (0x40000000, 0)) := by decide +kernel

/-! ## Ordering, barriers, waits on addresses, rings -/

/-- Ordering: `phase` with nothing and with a load outstanding; fences with and without empty sets. -/
theorem test_Ordering : scalarReady (st w0) [] [] none = some (w0, fetchCons) ∧ (st w0).releasedS 0 w0 .sy = true ∧ readsLanded .sy w0.beforeScalar = true ∧
    hasRel .rel = true ∧ (st wLoad).releasedS 0 wLoad .bd = false ∧ hasAcq .acq = true ∧ readsLanded .bd wLoad.beforeScalar = false ∧
    after (exec (.phase .ar .bd) (st wLoad)) (fun _ w => w.spc) = some 0x11000 ∧ after (exec (.phase .ar .bd) (st w0)) (fun _ w => w.spc) = some 0x11004 ∧
    after (exec (.fence 1 2) (st wLoad)) (fun t w => (w.fenced (t.clk 0) .w none, w.fenced (t.clk 0) .r none)) = some (true, false) ∧
    after (exec (.fence 0 2) (st wLoad)) (fun _ w => w.fences.length) = some 0 := by decide +kernel

/-- A wave with a barrier at 0x20000 joined, s2 its address, s3 = 5. -/
def wB : Wave := { wM with members := [⟨0x20000, 5, false, false⟩] }

/-- SyncWords: every word of `syncUse` has operands that are legal, at an address it may write. -/
theorem test_SyncWords : (syncUse (st wM) wM (.arrive .bd 2 3)).isSome = true ∧ (syncUse (st wM) wM (.await .bd 2 3)).isSome = true ∧
    (syncUse (st wM) wM (.arriveWait .bd 2 3)).isSome = true ∧ (syncUse (st wM) wM (.bjoin 2 3)).isSome = true ∧
    (syncUse (st wB) wB (.bleave 2)).isSome = true ∧ (syncUse (st wM) wM (.waitaddr 1 2 3)).isSome = true ∧
    (syncUse (st wM) wM (.wake 2 3)).isSome = true ∧ place (st wM) fetchCons 0 0x20000 .write = .at (storageKey 0x20000 0 0 0) ∧
    keyIsHost (storageKey 0x20000 0 0 0) = false ∧ keyIsSpad (storageKey 0x20000 0 0 0) = false ∧
    scalarReady (st wM) [1, 2, 3] [1, 2, 3] none = some (wM, fetchCons) := by decide +kernel

/-- An arrive's count of 0 means 1 (R278); a `waitaddr` with a timeout of 5 ns parks until then (R282). -/
theorem test_sync_requests : after (exec (.arrive .bd 2 1) (st wM)) (fun t w => (w.acks, t.reqs.map fun r => r.kind)) =
      some ([0x20000], [.arrive 1 false]) ∧
    after (exec (.waitaddr 1 2 3) (st wM)) (fun _ w => w.park) = some (.address 1 (storageKey 0x20000 0 0 0) 0 1 (some 5)) ∧
    after (exec (.bleave 2) (st wB)) (fun t w => (w.members, t.reqs.map fun r => r.kind)) = some ([], [.leave 5 false false]) := by decide +kernel

/-- A wave with ring q0 of 4 slots, of which k are filled. -/
def wQ (k : Nat) : Wave := { wR [(1, 8), (2, 4)] with rings := [(0, ⟨false, 8, 4, 0, k, k, 0, .none, 0, 0, 0, false⟩)] }

/-- Rings: a register run, a scratchpad run, and pushes and pops at the ends of their ranges. -/
theorem test_Rings : scalarReady (st (wQ 0)) [1, 2] [1, 2] none = some (wQ 0, fetchCons) ∧ (wQ 0).runOk 8 4 = true ∧
    (wQ 0).sbase + 256 * 4 ≤ (wQ 0).sbase + (wQ 0).fp.spad ∧
    (look (wQ 4).rings 0).map Ring.filled = some 4 ∧ (wQ 0).slotsOpen 0 ⟨false, 8, 4, 0, 0, 0, 0, .none, 0, 0, 0, false⟩ = false ∧
    after (exec (.qpush 0 4) (st (wQ 0))) (fun _ w => (look w.rings 0).map Ring.filled) = some (some 4) ∧
    after (exec (.qpush 0 1) (st (wQ 4))) (fun _ w => w.spc) = some 0x11000 ∧
    after (exec (.qpop 0 4) (st (wQ 4))) (fun _ w => (look w.rings 0).map Ring.filled) = some (some 0) ∧
    after (exec (.qpop 0 1) (st (wQ 0))) (fun _ w => w.spc) = some 0x11000 ∧
    after (exec (.qinit 3 1 2) (st (wQ 0))) (fun _ w => (look w.rings 3).map fun r => (r.base, r.slots)) = some (some (8, 4)) := by decide +kernel

/-! ## Convoys, launch, spawn, engine commands -/

/-- A wave with a role in a channel. -/
def wC (r : Role) : Wave := { wR [(1, 7), (2, 100)] with convoy := { w0.convoy with role := r } }

/-- ConvoyWords: each form ready. -/
theorem test_ConvoyWords : w0.convoy.width = none ∧ ((st w0).core 0).chan.lead = none ∧ w0.lbusy = 0 ∧ w0.convoy.role = .none ∧
    scalarReady (st (wC (.member 3))) [] [] none = some (wC (.member 3), fetchCons) ∧
    scalarReady (st (wC (.departed 3))) [2] [2] none = some (wC (.departed 3), fetchCons) ∧
    after (exec .chpub (st w0)) (fun t w => (w.convoy.role, (t.core 0).chan.lead)) = some (.lead, some 0) ∧
    after (exec (.chsub 9 1 2) (st (wC .none))) (fun _ w => (w.spc, w.convoy.role)) = some (0x11000, .pending 7 9 100) ∧
    after (exec (.chleave 9 4) (st (wC (.member 3)))) (fun _ w => (w.spc, w.convoy.role)) = some (0x11010, .departed 3) ∧
    after (exec (.rdv 9 2) (st (wC (.departed 3)))) (fun _ w => (w.spc, w.park)) = some (0x11000, .rdvMember 9 (some 100)) := by decide +kernel

/-- A module whose queue 0 is enabled, takes device submissions, and has `k` of its 2 slots in use. -/
def sQ (k : Nat) (w : Wave) : State :=
  (st w).onQueue 0 fun q => { q with base := 0x30000, cqBase := 0x31000, log2size := 1, devsub := true, en := true, tail := k }

/-- LaunchSpawn: with and without a free slot; at depth 0 and 4. -/
theorem test_LaunchSpawn : (sQ 0 w0).wave 0 = some w0 ∧ spadLeased (sQ 0 w0) 0 0 128 0 = true ∧ ((sQ 0 w0).queue 0).slots = 2 ∧
    ((sQ 2 w0).queue 0).used = 2 ∧ descHeld (sQ 0 w0) 0 w0 (some 0) = false ∧
    after (exec (.launch 1 2) (sQ 0 w0)) (fun t w => (w.spc, (t.queue 0).tail)) = some (0x11004, 1) ∧
    after (exec (.launch 1 2) (sQ 2 w0)) (fun t w => (w.spc, (t.queue 0).tail)) = some (0x11004, 2) ∧
    after (exec (.spawn 1 2 3) (st (wR [(2, 0x0000_0002_0000_0010), (3, 9)]))) (fun _ w => w.park) = some (.spawn 1 2 0x10 9) ∧
    after (exec (.spawn 1 2 3) (st { wR [(2, 0x0000_0FFF_0000_0FFC)] with depth := 4 })) (fun _ w => look w.regs.s 1) = some (some (-2)) := by
  decide +kernel

/-! ## Lane words -/

/-- A wave whose next lane word stands in a block of two, with lanes 0 and 3 active, and v1 and v2 as given in those lanes. -/
def wL (a0 b0 a3 b3 : W32) : Wave := { w0 with
  laneQ := [⟨9, 0, 2, 0, 0, 0, 9, 0⟩], regs := { w0.regs with v := [(64, a0), (67, a3), (128, b0), (131, b3)] } }

/-- The lane values that a lane word sends to a vector register, and its flags. -/
def sentV (i : Instr) (w : Wave) : Option (Option (Dest × Flags)) := after (exec i (st w)) fun _ v => v.pend.head?.map fun y => (y.dest, y.flags)

/-- The values for v3 in lanes 0 and 3, of a word without exceptions. -/
def v3 (x y : W32) : Option (Option (Dest × Flags)) := some (some (.vreg 3 (BitVec.allOnes 32) [(0, x), (3, y)], 0))

/-- LaneValues, RegisterFrames: `vadd.i32 v3, v1, v2` is ready and has a value. -/
theorem test_LaneValues : (laneReady (st (wL 1 2 3 4)) (la 3 1 2 .i32) (use2 (la 3 1 2 .i32) 4)).map
    (fun k => (valueOf (st (wL 1 2 3 4)) k (.vadd (la 3 1 2 .i32))).isSome && decide (k.d = .reg 3)) = some true ∧
    Ty.bits .i8 ∈ [4, 8, 16, 32] := by decide +kernel

/-- Integers wrap, or clamp with `.sat`, element by element (R163). -/
theorem test_vadd : sentV (.vadd (la 3 1 2 .i8)) (wL 0x7F01807F 0x01020301 0xFFFFFFFF 1) = v3 0x80038380 0xFFFFFF00 ∧
    sentV (.vadd { la 3 1 2 .i8 with sat := true }) (wL 0x7F01807F 0x01020301 0x80000000 0xFF000000) = v3 0x7F03837F 0x80000000 ∧
    sentV (.vsub { la 3 1 2 .n16 with sat := true }) (wL 0x00010005 0x00020003 0 0) = v3 0x00000002 0 := by decide +kernel

/-- The high half of a product, and −1 shifted right (R163). -/
theorem test_vmulh : sentV (.vmulh (la 3 1 2 .i32)) (wL (-1) (-1) 0x80000000 2) = v3 0 0xFFFFFFFF ∧
    sentV (.vmulh (la 3 1 2 .n32)) (wL (-1) (-1) 0x80000000 2) = v3 0xFFFFFFFE 1 ∧
    sentV (.vshr (la 3 1 2 .i32)) (wL 0x80000000 33 8 3) = v3 0xC0000000 1 ∧
    sentV (.vshl (la 3 1 2 .n8)) (wL 0x01010101 0x00010207 0 0) = v3 0x01020480 0 := by decide +kernel

/-- 1.0 + 2^-24 rounds to even, and up under `.rup`; inexact is raised (R139, R149, R164). -/
theorem test_vadd_round : sentV (.vadd (la 3 1 2 .f32)) (wL 0x3F800000 0x33800000 0x3F800000 0x3F800000) =
      some (some (.vreg 3 (BitVec.allOnes 32) [(0, 0x3F800000), (3, 0x40000000)], 16)) ∧
    sentV (.vadd { la 3 1 2 .f32 with rnd := .rup }) (wL 0x3F800000 0x33800000 0x3F800000 0x3F800000) =
      some (some (.vreg 3 (BitVec.allOnes 32) [(0, 0x3F800001), (3, 0x40000000)], 16)) := by decide +kernel

/-- Infinity minus infinity is the canonical NaN and raises NV; −0 + 0 is +0 (R133, R164). -/
theorem test_vadd_special : sentV (.vadd (la 3 1 2 .f32)) (wL 0x7F800000 0xFF800000 0x80000000 0) =
      some (some (.vreg 3 (BitVec.allOnes 32) [(0, 0x7FC00000), (3, 0)], 1)) := by decide +kernel

/-- `vmov` of an immediate, and pack and unpack with narrowing (R168, R172, R173). -/
theorem test_moves : sentV (.vmov { la 3 0 0 .raw with im := true, imm := 7 }) (wL 1 2 3 4) = v3 7 7 ∧
    sentV (.vpack { la 3 1 2 .i8 with sat := true }) (wL 0x0100FF00 0x00050006 0 0) = v3 0x05067F80 0 ∧
    sentV (.vunpack { la 3 1 0 .i8 with c := 1 }) (wL 0x80017F00 0 0 0) = v3 0xFF800001 0 := by decide +kernel

/-- A lane with no lane present at its index takes the fill; a masked lane still supplies its value (R177). -/
theorem test_vperm : sentV (.vperm { la 3 1 2 .raw with c := 340 }) { wL 5 3 6 1 with regs := { w0.regs with v := [(64, 5), (65, 8), (67, 6), (128, 3), (131, 1)] } } =
      v3 6 8 ∧
    sentV (.vperm { la 3 1 2 .raw with c := 336 }) { wL 5 3 6 1 with exited := 2, laneQ := [⟨9, 0, 2, 77, 0, 0, 9, 0⟩] } = v3 6 77 := by decide +kernel

/-- ResultRead: no result in flight is aimed at the register. -/
theorem test_ResultRead : w0.pend.all (fun l => (l.toS 5).isNone) = true ∧ w0.ops = [] ∧
    (w0.sendS 1 7 5 9).readS 0 7 5 = 9 := by decide +kernel

/-- PredicateLogic: a compare and a logic word are ready. -/
theorem test_PredicateLogic : (laneReady (st (wL 1 2 3 4)) (la 3 1 2 .i32) ⟨.pdst, .src, .src, .none, true, false, id, 4⟩).isSome = true ∧
    (laneReady (st (wL 1 2 3 4)) (la 3 1 2 .raw) ⟨.pdst, .psrc, .psrc, .none, false, false, id, 2⟩).isSome = true ∧
    w0.pend.all (fun x => (x.toP 3 5).isNone) = true := by decide +kernel

/-- Ordered compares raise NV on a quiet NaN, equality does not (R165). -/
theorem test_vcmp : sentV (.vcmpLt (la 3 1 2 .f32)) (wL 0x7FC00000 0 0xBF800000 0) = some (some (.pred 3 9 8, 1)) ∧
    sentV (.vcmpEq (la 3 1 2 .f32)) (wL 0x7FC00000 0 0x80000000 0) = some (some (.pred 3 9 8, 0)) ∧
    sentV (.vcmpGe (la 3 1 2 .i32)) (wL (-1) 0 4 4) = some (some (.pred 3 9 8, 0)) ∧
    sentV (.pandn (la 3 0 0 .raw)) (wL 0 0 0 0) = some (some (.pred 3 9 0, 0)) := by decide +kernel

/-- CrossLane: every form is ready, and an empty set of lanes too. -/
theorem test_CrossLane : (laneReady (st (wL 1 2 3 4)) { la 3 1 0 .raw with c := 3 } ⟨.sdst, .src, .none, .none, true, false, fun _ => 8, 10⟩).isSome = true ∧
    (laneReady (st (wL 1 2 3 4)) (la 3 0 0 .raw) ⟨.sdst, .psrc, .none, .none, false, false, id, 8⟩).isSome = true ∧
    (laneReady (st (wL 1 2 3 4)) (la 3 1 0 .raw) ⟨.none, .src, .none, .none, true, false, fun _ => 0xFF, 4⟩).isSome = true ∧
    (laneReady (st (wL 1 2 3 4)) { la 3 1 0 .f32 with c := 28 } ⟨.dst, .src, .none, .none, true, false, id, 8⟩).isSome = true ∧
    28 / 4 % 8 * (32 / Ty.bits .f32) < 8 ∧
    (laneReady (st (wL 1 2 3 4)) (la 3 1 0 .i32) ⟨.sdst, .src, .none, .none, true, false, id, 12⟩).isSome = true ∧
    (laneReady (st (wL 1 2 3 4)) { la 3 1 0 .f32 with neg := true } ⟨.sdst, .src, .none, .none, true, false, id, 16⟩).map (fun k => decide (k.act = 0)) = some true ∧
    (laneReady (st (wL 1 2 3 4)) (la 3 1 0 .n32) ⟨.dst, .src, .none, .none, true, false, id, 12⟩).isSome = true := by decide +kernel

/-- Sums of the active lanes are exact in 64 bits; with none, a minimum is the greatest value (R180); a scan runs in lane order (R181). -/
theorem test_reductions : sentV (.vredAdd (la 3 1 0 .n32)) (wL 0xFFFFFFFF 0 2 0) = some (some (.sreg 3 0x100000001, 0)) ∧
    sentV (.vredAdd (la 3 1 0 .i32)) (wL 0xFFFFFFFF 0 2 0) = some (some (.sreg 3 1, 0)) ∧
    sentV (.vredMin { la 3 1 0 .i32 with neg := true }) (wL 1 0 2 0) = some (some (.sreg 3 0x7FFFFFFF, 0)) ∧
    sentV (.vscanAdd (la 3 1 0 .n32)) (wL 0xFFFFFFFF 0 2 0) = v3 0xFFFFFFFF 1 := by decide +kernel

/-- `mvs` reads an inactive lane; `vballot` of p0 gives the active lanes (R169, R182). -/
theorem test_to_scalar : sentV (.mvs { la 5 1 0 .raw with c := 3 }) { wL 1 2 0x80000000 4 with laneQ := [⟨9, 0, 2, 0, 0, 0, 1, 0⟩] } =
      some (some (.sreg 5 0x80000000, 0)) ∧
    sentV (.vballot (la 5 0 0 .raw)) (wL 1 2 3 4) = some (some (.sreg 5 9, 0)) := by decide +kernel

/-- Conversions: from a type of fewer, of as many and of more elements. -/
theorem test_Conversions : (laneReady (st (wL 1 2 3 4)) { la 3 1 0 .i8 with c := 4, imm := 3 } ⟨.dst, .src, .none, .none, false, false, id, 6⟩).isSome = true ∧
    Ty.ofCode 4 = some .i32 ∧ Ty.ofCode 0x0A = some .f16 ∧ Ty.bits .i32 ∈ [2, 4, 8, 16, 32] ∧ Ty.bits .f16 ∈ [2, 4, 8, 16, 32] ∧
    sentV (.vcvt { la 3 1 0 .f32 with c := 4 }) (wL (-2) 0 3 0) = v3 0xC0000000 0x40400000 ∧
    sentV (.vcvt { la 3 1 0 .f16 with c := 9, imm := 1 }) (wL 0x3F800000 0 0xC0000000 0) =
      some (some (.vreg 3 0xFFFF0000 [(0, 0x3C000000), (3, 0xC0000000)], 0)) := by decide +kernel

/-- SpecialFunctions: the unit is free and the counter has room. -/
theorem test_SpecialFunctions : (laneReady (st (wL 1 2 3 4)) (la 3 1 0 .f32) ⟨.dst, .src, .none, .none, true, false, id, 1⟩).map
      (fun k => decide (k.d ≠ .none) && decide (k.w.count .sf < 255)) = some true ∧
    ((st (wL 1 2 3 4)).part 0 0).sfuAt ≤ (st (wL 1 2 3 4)).clkCur := by decide +kernel

/-- `vsqrt` of 4 and of −0: `sf` counts it, and the results wait (R183, R185). -/
theorem test_vsqrt : after (exec (.vsqrt (la 3 1 0 .f32)) (st (wL 0x40800000 0 0x80000000 0))) (fun _ w => w.ops.map fun o => (o.ctr, o.flags)) =
      some [(.sf, 0)] ∧ special .sqrt .f32 false 0x40800000 = (0x40000000, 0) ∧ special .sqrt .f32 false 0x80000000 = (0x80000000, 0) := by decide +kernel

/-- WidePermute: a wave of no width convoy, and the only member of one. -/
theorem test_WidePermute : (laneReady (st (wL 1 2 3 4)) { la 3 1 2 .raw with c := 340 } ⟨.dst, .src, .src, .src, true, false, fun _ => BitVec.allOnes 64, 14⟩).map
      (fun k => decide (k.w.convoy.width = none)) = some true ∧ ((st (wL 1 2 3 4)).part 0 0).netAt ≤ (st (wL 1 2 3 4)).clkCur ∧
    (laneReady (st { wL 1 2 3 4 with convoy := { w0.convoy with width := some (0, 0, 1) } }) { la 3 1 2 .raw with c := 340 }
      ⟨.dst, .src, .src, .src, true, false, fun _ => BitVec.allOnes 64, 14⟩).isSome = true := by decide +kernel

/-- The consignment of two logical cores, the second in another band. -/
def consTwo : Cons := { fetchCons with lct := [(0, some 0), (4, some 4)] }

/-- LaneControl: a ring to pop, `vexit`, and an exchange with core 4. -/
theorem test_LaneControl : (laneReady (st { wL 1 2 3 4 with rings := [(2, ⟨false, 8, 4, 0, 1, 1, 0, .none, 0, 0, 0, false⟩)] }) (la 3 322 0 .raw)
      ⟨.dst, .src, .none, .none, false, false, id, 4⟩).isSome = true ∧
    (laneReady (st (wL 1 2 3 4)) (la 0 0 0 .raw) ⟨.none, .none, .none, .none, false, false, id, 1⟩).isSome = true ∧
    (laneReady { st (wL 1 2 3 4) with cons := [(0, consTwo)] } { la 3 1 0 .raw with imm := 4, c := 9 } ⟨.dst, .src, .none, .none, false, false, id, lateLat⟩).map
      (fun k => decide (4 / 4 ≠ k.w.lcore / 4) && (k.c.phys 4).isSome && decide (k.w.count .xc < 255)) = some true ∧
    after (exec (.vexit (la 0 0 0 .raw)) (st (wL 1 2 3 4))) (fun _ w => (w.exited, w.lpc)) = some (9, 1) ∧
    after (exec (.vpop (la 3 322 0 .raw)) (st { wL 1 2 3 4 with rings := [(2, ⟨false, 8, 4, 0, 1, 1, 0, .none, 0, 0, 0, false⟩)] }))
      (fun _ w => (look w.rings 2).map Ring.filled) = some (some 0) := by decide +kernel

/-- LaneMemoryWords: a local load of two lanes. -/
theorem test_LaneMemoryWords : (laneReady (st (wL 0x100 2 0x200 4)) (asA (lm 3 1 0 0 .raw)) ⟨.dst, .src, .none, .none, false, false, id, 1000⟩).map
      (fun k => !badTb k.w .loc && (lanesOf k.act).all (fun j =>
          let a := laneAt (st (wL 0x100 2 0x200 4)) k (lm 3 1 0 0 .raw) .loc .load j
          decide (a.acc.va % 4 = 0) && decide (a.pl ≠ .violation) && !a.faults k.w)
        && !memHeld (st (wL 0x100 2 0x200 4)) 0 k.w .load 4 (some k.blk.id)
          ((lanesOf k.act).map (laneAt (st (wL 0x100 2 0x200 4)) k (lm 3 1 0 0 .raw) .loc .load))) = some true := by decide +kernel

/-- Two lanes in different banks of the own scratchpad take one pass, and lanes in one bank two (R255). -/
theorem test_vlds : after (exec (.vlds (lm 3 1 0 0 .raw)) (st (wL 0x100 2 0x11C 4))) (fun t _ => t.reqs.map fun r => r.accs.map Acc.lane) = some [[0, 3]] ∧
    after (exec (.vlds (lm 3 1 0 0 .raw)) (st (wL 0x100 2 0x200 4))) (fun t _ => t.reqs.map fun r => r.accs.map Acc.lane) = some [[0], [3]] ∧
    after (exec (.vsts (lm 0 1 2 0 .raw)) (st (wL 0x100 2 0x11C 4))) (fun t w => (w.count .st, t.reqs.map fun r => r.accs.map Acc.data)) =
      some (1, [[2, 4]]) := by decide +kernel

/-- OperandTraps: an illegal register, a hazard, messages that fail, misaligned jumps and accesses, an illegal lane operand. -/
theorem test_OperandTraps : (st wH).con 0 = some fetchCons ∧ ([1, 384, 3].find? fun r => !wH.sOk r) = some 384 ∧
    Cons.debug { fetchCons with man := { fetchCons.man with flags := 1 } } = true ∧ (w0.sendS 1 7 2 9).lateS 0 2 = true ∧
    engineUse (.cpFill 1 2) ≠ none ∧ 4096 % 2 ^ 12 < 1536 ∧ Cons.phys { fetchCons with lct := [(5, none)] } 5 = none ∧
    firstSome [w0.badField 0 ⟨9, 0, 2, 0, 0, 0, 9, 0⟩ .dst 341 0] = some 341 := by
  refine ⟨by decide +kernel, by decide +kernel, rfl, by decide +kernel, by simp [engineUse], by decide, by decide +kernel, by decide +kernel⟩

/-- The cause and `xaddr` of a trap that a word takes, in a wave with a handler. -/
def traps (i : Instr) (w : Wave) : Option (Word × Word) :=
  after (exec i (st { w with ctl := { w.ctl with handler := some 0x11020 } })) fun _ v => (v.ctl.xcause, v.ctl.xaddr)

/-- Illegal operands, misaligned jumps and accesses, and message words (R35, R37, R45, R51, R258). -/
theorem test_traps : traps (.add 1 384 3) w0 = some (2, 384) ∧ traps (.jr 1 0) (wR [(1, 0x11002)]) = some (3, 0x11002) ∧
    traps (.lds64 1 2 0) (wR [(2, 0x20004)]) = some (3, 0x20004) ∧ traps (.cpFill 1 2) (wR [(1, 1536)]) = some (2, 1) ∧
    traps (.cpFill 1 2) (wR [(1, 4095 + 3 * 2 ^ 12 + 4 * 2 ^ 18)]) = some (3, 4) ∧
    after (exec (.cpFill 1 2) { st { wR [(1, 5)] with ctl := wH.ctl } with cons := [(0, { fetchCons with lct := [(5, none)] })] }) (fun _ w => (w.ctl.xcause, w.ctl.xaddr)) =
      some (4, 5) := by decide +kernel

/-- Illegal and misaligned lane words, with the lanes that failed (R37, R252). -/
theorem test_lane_traps : traps (.vadd (la 3 1 341 .i32)) (wL 1 2 3 4) = some (0x102, 341) ∧
    traps (.vlds (lm 3 1 0 0 .raw)) (wL 0x102 2 0x101 4) = some (0x103, 0x101) := by decide +kernel

/-- PrivateStore: two lanes' words inside the private bytes. -/
theorem test_PrivateStore : (laneReady (st (wL 0 2 60 4)) (asA (lm 0 1 2 0 .raw)) ⟨.none, .src, .src, .none, false, false, id, 4⟩).map
      (fun k => decide (k.w.fp.priv ≤ 512) && Memory.wf k.w.regs.priv && (lanesOf k.act).all fun j =>
        decide (((k.val (st (wL 0 2 60 4)) k.a j).toNat + 0) % 4 = 0) && decide ((k.val (st (wL 0 2 60 4)) k.a j).toNat + 0 + 4 ≤ k.w.fp.priv)) = some true ∧
    after (exec (.vstp (lm 0 1 2 0 .raw)) (st (wL 0 2 60 4))) (fun _ w => w.regs.priv) = some [(0, 2), (1596, 4)] := by decide +kernel

/-! ## Requests at their homes -/

/-- A storage key in HBM stack 0, and one in the scratchpad of core 0 that wave 0 leases. -/
def kH : Nat := storageKey 0x20000 0 0 0
def kS : Nat := spadKey 0 0x100

/-- A request of wave 0 for operation 7 at one place. -/
def rq (k : ReqKind) (key : Nat) (x y : Word) : Req := mkReq 0 0 7 k 8 [⟨0, key, 0x20000, x, y⟩]

/-- The module with one request on its way, and wave 0 as given. -/
def sR (w : Wave) (r : Req) : State := { st w with reqs := [r] }

/-- What an event leaves. -/
def left {α : Type} (o : Out) (g : State → α) : Option α := match o with
  | .next t => some (g t)
  | _ => none

/-- RequestsApply: a load, a store and an atomic at a ready stack and at a leased granule; a full write queue; a stack that is not ready; a
granule that is not leased. -/
theorem test_RequestsApply : (sR w0 (rq (.mem .load) kH 0 0)).front 0 = some (rq (.mem .load) kH 0 0) ∧
    homeIsSpad (homeOf kH) = false ∧ homeOf kH < 5000 ∧ (sR w0 (rq (.mem .load) kH 0 0)).homeUp (rq (.mem .load) kH 0 0) = true ∧
    homeIsSpad (homeOf kS) = true ∧ (rq (.mem .load) kS 0 0).accs.all (leaseOk (st w0) (rq (.mem .load) kS 0 0)) = true ∧
    leaves (.amo .cas) 64 5 ⟨0, kH, 0x20000, 5, 9⟩ = some 9 ∧ homeQueued (homeOf kH) = true ∧ homeQueued 4000 = false ∧
    (st w0).grants (resQueue (homeOf kH)) 0 (queueCap (homeOf kH)) none = true ∧
    (st w0).grants (resQueue (homeOf kH)) (queueCap (homeOf kH)) (queueCap (homeOf kH)) none = false ∧
    State.homeUp { st w0 with ready := { (st w0).ready with hbm := [] } } (rq (.mem .load) kH 0 0) = false ∧
    leaseOk (st w0) (rq (.mem .load) kS 0 0) ⟨0, spadKey 0 0xF0000, 0, 0, 0⟩ = false := by decide +kernel

/-- The bytes that a request leaves, and the answers. -/
def applied (i : Instr) (k : MemKind) (x y : Word) (m : Nat) : Option (Nat × List Word) :=
  left (exec i ((sR w0 (rq (.mem k) kS x y)).writeNum 8 kS m)) fun t => (t.num 8 kS, (t.resps.flatMap Resp.vals).map Prod.snd)

/-- A load is answered, a store leaves its bytes, an atomic does both (R252, R273, R274). -/
theorem test_requests : applied (.scratchpadRequestArrival 0) .load 0 0 42 = some (42, [42]) ∧ applied (.scratchpadRequestArrival 0) .store 9 0 42 = some (9, []) ∧
    applied (.scratchpadRequestArrival 0) (.red .xor) 2 0 42 = some (40, []) := by decide +kernel

/-- Atomics on a word: the sum wraps, signed and natural orders differ, and a swap whose compare fails leaves the word (R273, R274). -/
theorem test_atomics : applied (.scratchpadRequestArrival 0) (.amo .add) (-1) 0 42 = some (41, [42]) ∧ applied (.scratchpadRequestArrival 0) (.amo .minS) (-1) 0 42 = some (2 ^ 64 - 1, [42]) ∧
    applied (.scratchpadRequestArrival 0) (.amo .minU) (-1) 0 42 = some (42, [42]) ∧ applied (.scratchpadRequestArrival 0) (.amo .cas) 41 9 42 = some (42, [42]) ∧
    applied (.scratchpadRequestArrival 0) (.amo .cas) 42 9 42 = some (9, [42]) := by decide +kernel

/-- HomeUpkeep: an old entry, a refused request whose cycles have passed, a ticket not presented, and tag operations that may and may not
proceed. -/
theorem test_HomeUpkeep : ([((homeOf kH, 5, 0) : Nat × Nat × Nat)].find? fun e => e.1 == homeOf kH && e.2.1 == 5) = some (homeOf kH, 5, 0) ∧
    0 + 64 ≤ State.homeClk { st w0 with now := 768 } (homeOf kH) ∧
    { rq (.mem .load) kH 0 0 with retryAt := 9 }.retryAt ≤ State.clk { st w0 with now := 108 } 0 ∧
    (State.ticketsOf { st w0 with tickets := [(3, ⟨2, [1], 0⟩)], now := 3072 } 3).out = [1] ∧
    0 + 256 ≤ State.resClk { st w0 with now := 3072 } 3 ∧
    tagForm .ldfe = some (some true, some false) ∧ (sR w0 (rq (.mem .ldfe) kS 0 0)).front 0 = some (rq (.mem .ldfe) kS 0 0) ∧
    (rq (.mem .ldfe) kS 0 0).home < 2536 ∧ leaseOk (st w0) (rq (.mem .ldfe) kS 0 0) ⟨0, kS, 0x20000, 0, 0⟩ = true ∧
    (st w0).homeUp (rq (.mem .ldfe) kS 0 0) = true ∧ ((st w0).setTag kS true).isFull kS = true ∧ (st w0).isFull kS = false ∧
    (sR w0 (rq (.mem .ldfe) kS 0 0)).fromKilled (rq (.mem .ldfe) kS 0 0) = false ∧
    (st w0).grants (resPark (homeOf kS)) ((st w0).parkUsed (homeOf kS)) 128 none = true ∧
    (State.reset.hot.length = 0 ∧ (0 : Nat) < 16) := by decide +kernel

/-- `ldfe` of a full word empties it, and of an empty word it waits; `stfe` of an empty word fills it (R286). -/
theorem test_tags : left (exec (.tagRequestApply 0) ((sR w0 (rq (.mem .ldfe) kS 0 0)).setTag kS true)) (fun t => (t.isFull kS, t.parked.length, t.resps.length)) =
      some (false, 0, 1) ∧
    left (exec (.tagRequestApply 0) (sR w0 (rq (.mem .ldfe) kS 0 0))) (fun t => (t.isFull kS, t.parked.length, t.resps.length)) = some (false, 1, 0) ∧
    left (exec (.tagRequestApply 0) (sR w0 (rq (.mem .stfe) kS 7 0))) (fun t => (t.isFull kS, t.num 8 kS)) = some (true, 7) := by decide +kernel

/-- Wave 0 with one operation, waiting for its answer. -/
def wO (c : Ctr) (d : OpDest) : Wave := { w0 with ops := [⟨7, c, 1, none, d, none, 1, false, 0x11000, 0, [], 0, none, 0⟩] }

/-- AnswersLand: answers for a register and for lanes, an error, results in flight, and a special function. -/
theorem test_AnswersLand : (st (wO .ld (.sreg 5 4 true))).wave 0 = some (wO .ld (.sreg 5 4 true)) ∧ w0.wasKilled = false ∧ w0.life = .running ∧
    (0 : Nat) < ctxBase ∧ (wO .ld (.sreg 5 4 true)).ctl.held = [] ∧
    left (exec (.loadResponse 0) { st (wO .ld (.sreg 5 4 true)) with resps := [⟨0, 0, 0, 7, [(0, 0xFFFFFFFF)], [], false, none, false, none, false, [], 0⟩] })
      (fun t => (t.wave 0).map fun w => (look w.regs.s 5, w.ops.length)) = some (some (some (-1), 0)) ∧
    left (exec (.loadResponse 0) { st (wO .ld (.vreg 2)) with resps := [⟨0, 0, 0, 7, [(1, 3), (63, 4)], [], false, none, false, none, false, [], 0⟩] })
      (fun t => (t.wave 0).map fun w => (lookD w.regs.v (128 + 63) 0, w.ops.length)) = some (some (4, 0)) ∧
    left (exec (.accessErrorResponse 0) { st (wO .ld (.sreg 5 8 false)) with resps := [⟨0, 0, 0, 7, [], [(0, 0x20000)], false, none, false, none, false, [], 0⟩] })
      (fun t => ((t.wave 0).map fun w => w.ctl.held.map HeldTrap.code, (t.die 0).log.map fun e => (e.2.cause, e.2.addr))) =
      some (some [4], [(4, 0x20000)]) := by decide +kernel

/-- A result lands at its cycle and no earlier; an operation that is not complete stays; a special function's lanes land with its flags. -/
theorem test_landing : left (exec (.resultLanding 0) (st (w0.sendS 1 0 5 9))) (fun t => (t.wave 0).map fun w => (w.pend.length, look w.regs.s 5)) =
      some (some (0, some 9)) ∧
    left (exec (.resultLanding 0) (st (w0.sendS 1 1 5 9))) (fun t => (t.wave 0).map fun w => w.pend.length) = some (some 1) ∧
    left (exec (.operationRetire 0 0) (st (wO .ld .none))) (fun t => (t.wave 0).map fun w => w.ops.length) = some (some 1) ∧
    left (exec (.specialFunctionComplete 0) (st (wO .sf (.vals (.vreg 2 (BitVec.allOnes 32) [(0, 7)])))))
      (fun t => (t.wave 0).map fun w => (lookD w.regs.v 128 0, w.ctl.fpflags, w.ops.length)) = some (some (7, 1, 0)) := by decide +kernel

/-! ## Barriers and wait pairs at their homes -/

/-- A barrier word of two expected arrivals, of which k have arrived. -/
def bar (k : Nat) : Nat := barWord k 2 0 false false

/-- BarrierRequests: arrivals, a wait, a full barrier with a parked wave, an acknowledgement. -/
theorem test_BarrierRequests : (sR w0 (rq (.arrive 1 false) kS 0 0)).front 0 = some (rq (.arrive 1 false) kS 0 0) ∧
    leaseOk (st w0) (rq (.arrive 1 false) kS 0 0) ⟨0, kS, 0x20000, 0, 0⟩ = true ∧
    barGives (bar 1) (.arrive 1 false) = barWord 0 2 0 false true ∧ (decide (2 ^ 63 ≤ barGives (bar 1) (.arrive 1 false)) ≠ decide (2 ^ 63 ≤ bar 1)) ∧
    bar 0 / 2 ^ 61 % 2 = 0 ∧ decide (2 ^ 63 ≤ bar 0) = false ∧
    Parked.atBarrier kS ⟨rq (.await false) kS 0 0, false⟩ = true := by decide +kernel

/-- The first of two arrivals is counted; the second flips the phase and lets the parked wave go on; an `await` of the phase shown parks. -/
theorem test_barrier : left (exec (.barrierArriveApply 0) ((sR w0 (rq (.arrive 1 false) kS 0 0)).writeNum 8 kS (bar 0))) (fun t => t.num 8 kS) = some (bar 1) ∧
    left (exec (.barrierArriveApply 0) { (sR { w0 with park := .barrier .bd 5 kS 7 (some false) } (rq (.arrive 1 false) kS 0 0)).writeNum 8 kS (bar 1) with
        parked := [⟨rq (.await false) kS 0 0, false⟩] })
      (fun t => (t.num 8 kS, (t.wave 0).map fun w => (w.park, look w.regs.s 5))) =
      some (2 ^ 63 + 2 * 2 ^ 30, some (.acquire .bd, some (2 ^ 63 + 2 * 2 ^ 30))) ∧
    left (exec (.barrierArriveApply 0) ((sR w0 (rq (.await false) kS 0 0)).writeNum 8 kS (bar 0))) (fun t => t.parked.length) = some 1 := by decide +kernel

/-- More arrivals than expected raise ERROR; a leave lowers EXPECTED and may end the phase (R277, R281). -/
theorem test_barrier_words : barGives (bar 1) (.arrive 2 false) = barWord 0 2 0 true true ∧ barGives (bar 1) (.leave 1 false false) = barWord 0 1 0 false true ∧
    barGives (bar 0) (.join 1) = barWord 0 3 0 false false ∧ barGives (barWord 0 2 2 false false) (.arrive 1 false) = barWord 0 2 2 true false := by decide

/-- The acknowledgement of an arrive (R278, R280). -/
theorem test_arriveAck : left (exec (.arriveAck 0) { st { w0 with acks := [0x20000], members := [⟨0x20000, 1, false, false⟩] } with
      resps := [⟨0, 0, 0, 7, [], [], false, some 0x20000, true, none, false, [], 0⟩] }) (fun t => (t.wave 0).map fun w => (w.acks, w.members)) =
      some (some ([], [⟨0x20000, 1, true, true⟩])) := by decide +kernel

/-- AddressWaits: a wave that waits, another value, an empty queue, a link word that is not well-formed, a deadline, and a wake. -/
theorem test_AddressWaits : (st w0).grants (resNodes 0) 0 96 none = true ∧ (5 : Nat) ≤ State.nsc { st w0 with now := 105 } ∧
    linked ((st w0).writeNum 8 (kS + 8) 0xFFFFFFFFFF) kS = some [] ∧ linked (st w0) kS = none := by decide +kernel

/-- Wave 0 parked in a `waitaddr` into s5. -/
def wW (dl : Option Nat) : Wave := { w0 with park := .address 5 kS 0 7 dl }

/-- A different value answers 1; the same one links the wave, and a wake of it answers 0; a bad link word answers 3; a deadline 2. -/
theorem test_waitaddr : left (exec (.waitaddrRequest 0) ((sR (wW none) (rq (.waitaddr 4) kS 0 0)).writeNum 8 kS 3)) (fun t => (t.wave 0).map fun w => (w.park, look w.regs.s 5)) =
      some (some (.none, some 1)) ∧
    left (exec (.waitaddrRequest 0) ((sR (wW none) (rq (.waitaddr 0) kS 0 0)).writeNum 8 (kS + 8) 0xFFFFFFFFFF)) (fun t => (t.nodes.length, t.num 8 (kS + 8))) =
      some (1, 2 ^ 40) ∧
    left (exec (.waitaddrRequest 0) (sR (wW none) (rq (.waitaddr 0) kS 0 0))) (fun t => (t.wave 0).map fun w => look w.regs.s 5) = some (some (some 3)) ∧
    left (exec (.waitaddrTimeout 0) { st (wW (some 5)) with now := 105 }) (fun t => (t.wave 0).map fun w => look w.regs.s 5) = some (some (some 2)) := by decide +kernel

/-- A wake of the one linked wave. -/
theorem test_wake : left (exec (.wakeRequest 0) { (sR (wW none) (rq (.wake 1) kS 0 0)).writeNum 8 (kS + 8) (2 ^ 40) with nodes := [⟨0, 0, 0, kS, 0, none⟩] })
      (fun t => (t.num 8 (kS + 8), (t.wave 0).map fun w => (w.park, look w.regs.s 5))) = some (0xFFFFFFFFFF, some (.none, some 0)) := by decide +kernel

/-! ## Engine commands, queues, dispatch -/

/-- Numbers written into memory: key, size and value. -/
def fill (s : State) (ds : List (Nat × Nat × Nat)) : State := ds.foldl (fun s d => s.writeNum d.2.1 d.1 d.2.2) s

/-- Wave 0 with s1 and s2 as the words of a message, and a descriptor at the start of its scratchpad. -/
def wE (a b : Nat) : Wave := wR [(1, wordN a), (2, wordN b)]
def sE (w : Wave) (ds : List (Nat × Nat × Nat)) : State := fill (st w) (ds.map fun d => (spadKey 0 d.1, d.2))

/-- The hypotheses of EngineWords that are about its fields and its hold. -/
def legal (i : Instr) (a b : Nat) (ds : List (Nat × Nat × Nat)) : Bool := match engineUse i with
  | none => false
  | some u => match u.check (sE (wE a b) ds) (wE a b) fetchCons (0, 0) a b with
    | .ok _ => scalarReady (sE (wE a b) ds) [1, 2] [1, 2] none == some (wE a b, fetchCons) && !cmdHeld (sE (wE a b) ds) 0 (wE a b) u.cls (u.desc b)
    | .error _ => false

/-- A message to core 0 that asks for a counter reply, with the upper fields in `x`, keeps the rules of word 0. -/
theorem test_message : messageOk w0 fetchCons 0x1000 38 0 0 ∧ messageOk w0 fetchCons (0x1000 + 5 * 2 ^ 38) 57 0 0 ∧
    messageOk w0 fetchCons 4095 38 0 0 ∧ messageOk w0 fetchCons (0x3000 + 8 * 2 ^ 18) 38 0 0 := by
  simp only [messageOk]
  decide +kernel

/-- EngineWords: a message and a descriptor that every engine word accepts. -/
theorem test_EngineWords : legal (.cpCopy 1 2) 0x1000 0 [(0, 8, 0x20000), (8, 8, 0x30000), (16, 8, 64)] = true ∧
    legal (.cpFill 1 2) 0x1000 0 [(0, 8, 7), (8, 8, 0x30000), (16, 8, 64)] = true ∧
    legal (.lvMax 1 2) (0x1000 + 5 * 2 ^ 38) (0x100 * 2 ^ 20) [] = true ∧ legal (.lvTopk 1 2) (0x1000 + 5 * 2 ^ 38) (0x100 * 2 ^ 20 + 2 ^ 48) [] = true ∧
    legal (.mxLoad 1 2) 0x1000 (0x20000 + 256 * 2 ^ 48) [] = true ∧ legal (.mxStream 1 2) 0x1000 0 [] = true ∧
    legal (.mxDist 1 2) 0x1000 0 [] = true ∧ legal (.rtRoute 1 2) 0x1000 0 [] = true ∧ legal (.rtReturn 1 2) 0x1000 0 [] = true := by decide +kernel

/-- The same for the words that read a descriptor of the route engine. -/
theorem test_EngineWords_route : legal (.rtOpen 1 2) 0x1000 0 [(0, 8, 0x20000), (8, 8, 0x21000), (16, 8, 0x22000), (24, 8, 0x23000), (0x24, 2, 1),
      (0x26, 2, 32), (0x28, 2, 32), (0x2A, 1, 1)] = true ∧
    legal (.rtctlBind 1 2) 0x1000 0 [(0, 2, 5), (2, 2, 0xFFFF), (4, 2, 0xFFFF), (6, 2, 0xFFFF), (8, 1, 1), (0xA, 2, 1), (0xC, 1, 1)] = true ∧
    legal (.rtctlUnbind 1 2) (0x1000 + 1 * 2 ^ 46) 0 [] = true ∧ legal (.rtctlHoldSet 1 2) (0x1000 + 2 * 2 ^ 46) 0 [] = true ∧
    legal (.rtctlConsume 1 2) (0x1000 + 6 * 2 ^ 46) 256 [] = true ∧ legal (.rtctlFlush 1 2) (0x1000 + 7 * 2 ^ 46) 0 [] = true := by decide +kernel

/-- A long-vector command of wave 0. -/
def cX : Cmd := ⟨9, 0, 0, 0, 0, 0, .longVector, .none, .lv 1 1 0 0 0, 0, 0, 0, 0, false, 0, 0, false, 0⟩

/-- What a command counts, and the wait for a full inbox (R43, R187). -/
theorem test_engine_word : after (exec (.lvMax 1 2) (st (wE (0x1000 + 5 * 2 ^ 38) (0x100 * 2 ^ 20)))) (fun t x => (t.held.map Cmd.body, x.count .en, x.spc, x.park)) =
      some ([.lv 0 5 0 0x100 0], 1, 0x11004, .none) ∧
    after (exec (.lvMax 1 2) ((st (wE (5 * 2 ^ 38) (0x100 * 2 ^ 20))).onCore 0 fun c =>
      { c with lvIn := List.replicate (inboxCap .longVector) cX })) (fun t x => (x.count .en, x.spc, x.park)) =
      some (0, 0x11004, .inbox 1) := by decide +kernel

/-- QueuesAndDispatch: a doorbell that fits, one past the end of the ring, and one that is refused; a queue that may be granted. -/
theorem test_QueuesAndDispatch : ((sQ 0 w0).queue 1).devsub = false ∧
    ((sQ 1 w0).queue 0).devsub = true ∧ (sQ 1 w0).eligible 0 ((sQ 1 w0).queue 0) = true ∧ ((sQ 1 w0).queue 0).blocked = false ∧
    (sQ 1 w0).headBroken ((sQ 1 w0).queue 0) = false ∧ (sQ 1 w0).grantAt = none ∧ (sQ 1 w0).rails = .on ∧ (((sQ 1 w0).die 3).queue.length < 64) ∧
    (sQ 1 w0).queues.map Prod.fst = [0] ∧
    left (exec (.wqTailDoorbell 0 1) (sQ 0 w0)) (fun t => ((t.queue 0).tail, (t.queue 0).refused)) = some (0, true) ∧
    left (exec .arbiterGrant (sQ 1 w0)) (fun t => ((t.queue 0).head, (t.queue 0).inFlight, (t.con 1).map Cons.stage, lookD t.arbPtr 0 0)) =
      some (1, 1, some .granted, 1) := by decide +kernel

/-- The module with queue 0 enabled for the host, of 2 slots. -/
def sQh : State := (st w0).onQueue 0 fun q => { q with base := 0x30000, log2size := 1, en := true }

/-- The doorbell at the ring's size and one past it (R54). -/
theorem test_doorbell : left (exec (.wqTailDoorbell 0 2) sQh) (fun t => ((t.queue 0).tail, (t.queue 0).ovf)) = some (2, false) ∧
    left (exec (.wqTailDoorbell 0 3) sQh) (fun t => ((t.queue 0).tail, (t.queue 0).ovf)) = some (0, true) ∧
    left (exec (.controlRegisterWrite false 0x090001000008 8 0) sQh) (fun t => (t.queue 0).en) = some false := by decide +kernel

/-- A blocked head that may now go (R57). -/
theorem test_reread : left (exec (.dependenceReread 0) ((sQ 1 w0).onQueue 0 fun q => { q with blocked := true, depHeld := true, reread := 0 })) (fun t => (t.queue 0).blocked) =
      some true ∧
    left (exec (.dependenceReread 0) { (sQ 1 w0).onQueue 0 (fun q => { q with blocked := true, depHeld := true, reread := 0 }) with now := 3072 }) (fun t => (t.queue 0).blocked) =
      some false := by decide +kernel

/-! ## Dispatch -/

/-- A consignment just granted, with its code at `a`. -/
def cG (a : Nat) : Cons := { fetchCons with stage := .granted, placedG := [], live := 0, man := { fetchCons.man with code := a } }

/-- The smallest code object, at 0x10000 (R11 to R17). -/
def object : List (Nat × Nat × Nat) := [(0, 4, 0x59444C50), (4, 2, 1), (8, 2, 64), (10, 2, 3), (0x14, 2, 32),
  (0x40, 2, 1), (0x44, 4, 0x80), (0x48, 4, 4), (0x50, 2, 2), (0x54, 4, 0xC0), (0x58, 4, 12), (0x60, 2, 5), (0x64, 4, 0x100), (0x68, 4, 8), (0x104, 2, 1)]

/-- The module that dispatches consignment 5. -/
def sD (c : Cons) : State :=
  { (fill (st w0) (object.map fun d => (storageKey (0x10000 + d.1) 0 0 0, d.2))).onQueue 0 (fun q => { q with en := true }) with
    cons := [(0, fetchCons), (5, c)] }

/-- QueuesAndDispatch, dispatch: a page fault, an unreadable object, a malformed one, a manifest that is refused, a footprint that fits nowhere,
and a consignment that passes. -/
theorem test_dispatch : (sD (cG 0x40000000)).con 5 = some (cG 0x40000000) ∧ (sD (cG 0)).faults = [] ∧ (cG 0).man.gang = 0 ∧
    loadObject (sD (cG 0x40000000)) 0 0x40000000 = (.fault 0x40000000, none) ∧
    (loadObject (sD (cG 0x0100000000000000)) 0 0x0100000000000000).1 = .bad 0x0100000000000000 false ∧
    loadObject (sD (cG 0x20000)) 0 0x20000 = (.ok, none) ∧
    ((sD (cG 0)).queue (cG 0).queue).en = true ∧ (sD (cG 0)).dies.length = 0 ∧
    (match checkOne (sD (cG 0x10000)) 5 (cG 0x10000) with
      | .ok r => some (r.cid, r.status, r.obj.map fun o => (o.flags % 2, (o.sect 4).2))
      | _ => none) = some (5, 0, some (0, 0)) ∧
    unfit ((sD (cG 0x10000)).passHead (cG 0x10000) [(5, cG 0x10000)]) [(5, cG 0x10000)] = false := by decide +kernel

/-- What dispatch leaves of the consignment (R58, R60, R65). -/
def dispatched (c : Cons) : List Nat := match exec (.dispatch 5) (sD c) with
  | .next t => match t.con 5 with
    | some x => [if x.stage = .granted then 0 else if x.stage = .placing then 1 else 2, x.status, t.faults.length] ++ (t.die 3).queue
    | none => []
  | _ => []

theorem test_dispatched : dispatched (cG 0x40000000) = [0, 0, 1] ∧ dispatched (cG 0x0100000000000000) = [2, 9, 0] ∧
    dispatched (cG 0x20000) = [2, 2, 0] := by decide +kernel

/-- What makes status 4, a manifest with a reserved flag, and status 5, no core of the target set that is ready (R60). -/
theorem test_dispatched_status :
    manifestGood (cG 0x10000).man fetchCons.obj = true ∧
    manifestGood { (cG 0x10000).man with flags := 4 } fetchCons.obj = false ∧
    unfit (sD (cG 0x10000)) [(5, { cG 0x10000 with man := { (cG 0x10000).man with mode := 3, base := 400 } })] = true := by decide +kernel

/-! ## Placement, the end of waves and consignments -/

/-- What an event leaves, as numbers. -/
def seen (o : Out) (f : State → List Nat) : List Nat := match o with
  | .next t => f t
  | _ => [99]

/-- A footprint of one row of each kind. -/
def fp1 : Footprint := ⟨16, 16, 32, 16, 4096, 0⟩

/-- Consignment 5 in placement, with `g` groups placed; die 0's engine holds it. -/
def cP (gs : List Nat) : Cons := { cG 0x10000 with stage := .placing, placedG := gs, man := { (cG 0x10000).man with fp := fp1 } }
def sP (gs : List Nat) : State := { sD (cP gs) with dies := [(0, { (st w0).die 0 with queue := [5] })] }

/-- PlacementAndEnd: a group that has a place, and a die with no group left. -/
theorem test_placement : ((sP []).die 0).queue = [5] ∧ (sP []).con 5 = some (cP []) ∧
    ((sP []).headPlan 0).map (fun x => (x.1, x.2.1, x.2.2.1, x.2.2.2.1)) = some (5, 0, 0, 0) ∧
    ((sP []).headPlan 0).map (fun x => x.2.2.2.2.2.map Prod.fst) = some [1] ∧ (sP []).asksSpawn 0 = false ∧
    (List.range (cP [0]).man.waves).all (fun i => (cP [0]).placedG.contains i) = true := by decide +kernel

theorem test_placed : seen (exec (.wavePlacement 0) (sP [])) (fun t => match t.wave 1 with
      | some w => [w.cid, w.wid, w.spc, w.sbase, (t.core 0).slots.length]
      | none => []) = [5, 0, 0x11000, 0x10000, 2] ∧
    seen (exec (.wavePlacement 0) ((sP []).writeNum 8 (spadKey 0 0x10000) 7)) (fun t => [t.num 8 (spadKey 0 0x10000)]) = [0] ∧
    seen (exec (.wavePlacement 0) (sP [0])) (fun t => (t.die 0).queue ++ (((t.con 5).map Cons.handled).getD [])) = [0] := by decide +kernel

/-- A wave whose rows are being cleared starts (R70). -/
theorem test_start : ((st { w0 with life := .clearing }).waves.map Prod.fst).Nodup ∧ w0.convoy.width = none ∧ fetchCons.man.whole = false ∧
    (st { w0 with life := .clearing }).con 0 = some fetchCons ∧
    seen (exec (.waveStart 0) ((st { w0 with life := .clearing }).writeNum 8 kS 5)) (fun t => [t.num 8 kS] ++
      ((t.wave 0).map fun w => if w.life = .running ∧ w.sched.active = true then 1 else 0).toList) = [5, 1] := by decide +kernel

/-- Wave 0 of consignment 0, whose footprint is small, asking for two children. -/
def sS (n : Nat) : State :=
  { st { w0 with park := .spawn 5 n 0 7 } with cons := [(0, { fetchCons with man := { fetchCons.man with fp := fp1 }, lct := [(0, some 0)] })] }

/-- A spawn that has a place (R72). -/
theorem test_spawn : w0.pend = [] ∧ (sS 1).asksHead (coreOfWave 0) = false ∧
    (((sS 1).spawnIn { w0 with park := .spawn 5 1 0 7 } 1 0 7).bind fun u => u.wave 1).isSome = true := by decide +kernel

theorem test_spawned : seen (exec (.spawnAnswer 0) (sS 1)) (fun t => ((t.wave 0).bind fun w => (look w.regs.s 5).map BitVec.toNat).toList ++
    [t.waves.length]) = [1, 2] := by decide +kernel

/-- The same with every wave slot of the core leased. -/
def sSf : State := (sS 1).onCore 0 fun c => { c with leases := (List.range 96).map fun i => ⟨0, i, i, 0, false⟩ }

/-- One that has none. -/
theorem test_spawn_none : (sSf.spawnIn { w0 with park := .spawn 5 1 0 7 } 1 0 7).isNone = true := by decide +kernel

theorem test_spawn_fails : seen (exec (.spawnAnswer 0) sSf) (fun t => ((t.wave 0).bind fun w => (look w.regs.s 5).map BitVec.toNat).toList ++
    [t.waves.length]) = [2 ^ 64 - 1, 1] := by decide +kernel

/-- A drained wave's rows, and a consignment's slot that nothing uses (R75, R76). -/
theorem test_release : w0.ops = [] ∧ w0.rings = [] ∧ w0.oplog = [] ∧
    seen (exec (.rowRelease 0) (st { w0 with life := .draining false })) (fun t => [t.waves.length, (t.core 0).leases.length]) = [0, 0] ∧
    seen (exec (.consignmentSlotFree 0 0) { st w0 with waves := [] }) (fun t => [(t.core 0).slots.length]) = [0] ∧
    ((st w0).core 0).slots.find? (fun x => x.cid == 0) = some ⟨0, 0, 0, 0, 0⟩ ∧ ((st w0).core 0).stubs = [] := by decide +kernel

/-- Consignment 0 with every wave ended. -/
def sO (g : Stage) : State := { (st w0).onQueue 0 (fun q => { q with cqBase := 0x31000, log2size := 1, inFlight := 1 }) with
  waves := [], cores := [], cons := [(0, { fetchCons with live := 0, stage := g, exited := 1, man := { fetchCons.man with tag := 0x77 } })] }

/-- The record of a consignment that has ended (R77). -/
theorem test_completion : (sO .placed).memOk = true ∧ (sO .placed).faults = [] ∧
    seen (exec (.consignmentCompletion 0) (sO .placed)) (fun t => ((t.con 0).map fun c => if c.stage = .completed then 1 else 0).toList) = [1] ∧
    seen (exec (.consignmentCompletion 0) (sO .completed)) (fun t => let k := storageKey 0x31000 0 0 0
      [t.cons.length, (t.queue 0).cqTail, (t.queue 0).inFlight, t.num 8 k, t.num 4 (k + 8), t.num 2 (k + 14), t.num 4 (k + 16)]) =
      [0, 1, 0, 0x77, 0, 2, 1] := by decide +kernel

/-- A wave that waits for a function that is in the code heap (R29). -/
theorem test_translate : seen (exec (.translateOnCall 0) { st { w0 with park := .translate 3 } with heap := ⟨0x100000, 0x10000, [(0, 3, 0x100000, 64)], []⟩ })
      (fun t => ((t.wave 0).map fun w => if w.park = .none then 1 else 0).toList) = [1] := by decide +kernel

/-- A function that is not in the heap, with its stub and room for it, whatever its size (R29). -/
theorem test_heap_room : (st w0).stubOf 0 3 = none ∧ State.stubOf { st w0 with heap := ⟨0x100000, 64, [], [(0, 3, 0x200000)]⟩ } 0 3 = some 0x200000 ∧
    CodeHeap.room ⟨0x100000, Config.nativeSize 0 3, [], []⟩ (Config.nativeSize 0 3) (jumpReaches 0x200000) = some 0x100000 := by
  refine ⟨by decide +kernel, by decide +kernel, ?_⟩
  simp [CodeHeap.room, CodeHeap.taken, jumpReaches]

/-! ## Swaps, pipes, convoys -/

/-- Wave 0 in the active set or not, waiting for a long-latency operation or not. -/
def wA (a : Bool) (p : Park) : Wave := { w0 with park := p, sched := { w0.sched with active := a } }

/-- The module whose first partition holds `n` active waves, the first parked by `p`, and wave 9 ready and pending. -/
def sW (n : Nat) (p : Park) : State :=
  { st w0 with waves := ((List.range n).map fun i => (i, wA true (if i = 0 then p else .none))) ++ [(9, wA false .none)] }

/-- SwapsAndPipes: a free place, a blocked active wave, and a window with a wave that has waited. -/
theorem test_SwapsAndPipes : ((sW 8 .channel).waves.map Prod.fst).Nodup ∧ (sW 8 .channel).swapped 0 0 = false ∧ (wA false .none).isReady ((sW 8 .channel).clk 0) = true ∧
    (sW 7 .none).activeCount 0 0 = 7 ∧ (sW 8 .none).activeCount 0 0 = 8 ∧ (wA true .channel).blocked ((sW 8 .channel).clk 0) = true ∧
    State.clk { sW 8 .none with now := 3072 } 0 % 256 = 0 ∧ (wA false .none).sched.waiting + 256 ≤ State.clk { sW 8 .none with now := 3072 } 0 ∧
    (wA false .none).isReady (State.clk { sW 8 .none with now := 3072 } 0) = true ∧ ((sW 8 .none).part 0 0).lastSwap = none := by decide +kernel

/-- Which of two waves are active after an event. -/
def actives (o : Out) : List Nat := seen o fun t => [0, 9].map fun n => ((t.wave n).map fun w => if w.sched.active then 1 else 0).getD 9

theorem test_swaps : actives (exec (.partitionSwap 0 0) (sW 7 .none)) = [1, 1] ∧ actives (exec (.partitionSwap 0 0) (sW 8 .channel)) = [0, 1] ∧
    actives (exec (.partitionSwap 0 0) (sW 8 .none)) = [1, 0] ∧ actives (exec (.forcedSwap 0 0) { sW 8 .none with now := 3072 }) = [0, 1] := by decide +kernel

/-- Waves 0 and 1 at the ends of a pipe: wave 0 has pushed 3 slots, and wave 1 has popped 2. -/
def sZ : State := (st { w0 with rings := [(2, ⟨false, 8, 4, 0, 3, 3, 0, .producer 1 5, 3, 0, 0, false⟩)] }).setWave 1
  { w0 with rings := [(5, ⟨false, 8, 4, 2, 2, 0, 0, .consumer 0 2, 0, 2, 0, false⟩)] }

/-- A pipe's reports (R129). -/
theorem test_pipes : seen (exec (.pipePushReport 0 2) sZ) (fun t => ((t.wave 1).bind fun w => (look w.rings 5).map fun r => [r.tail, r.filled]).getD []) = [5, 3] ∧
    seen (exec (.pipePushReport 0 2) sZ) (fun t => ((t.wave 0).bind fun w => (look w.rings 2).map fun r => [r.pushes]).getD []) = [0] ∧
    seen (exec (.pipePopReport 1 5) sZ) (fun t => ((t.wave 0).bind fun w => (look w.rings 2).map fun r => [r.head, r.filled]).getD []) = [2, 1] := by
  decide +kernel

/-- Wave `n` with these convoy fields. -/
def wV (f : Convoy → Convoy) : Wave := { w0 with convoy := f w0.convoy }

/-- ConvoyEvents: a published instruction whose skew has passed; a report; a departure and an arrival at the lead's core; time limits. -/
theorem test_published : seen (exec (.publishedArrival 0) (st (wV fun c => { c with hops := [⟨false, 0, 0x11000, 0, none, none, 0, 0, false⟩] })))
      (fun t => ((t.wave 0).map fun w => [w.convoy.hops.length, w.convoy.fifo.length]).getD []) = [0, 1] ∧
    seen (exec (.memberReport 0) (st (wV fun c => { c with role := .member 3, issued := 6, lastPub := some (0, 0) })))
      (fun t => ((t.wave 0).map fun w => [w.convoy.reported]).getD []) = [6] := by decide +kernel

/-- The lead in wave 1, and wave 0 that leaves its channel, or arrives at its rendezvous; `k` entries in the split table. -/
def sLd (w : Wave) (lead : Wave) (es : List Split) : State :=
  ((st w).setWave 1 lead).onCore 0 fun c => { c with chan := { c.chan with lead := some 1, splits := es } }
def wDep : Wave := wV fun c => { c with role := .departed 0, leaving := some (0x11000, 7, 0) }
def wArr : Wave := wV fun c => { c with role := .departed 0, arriving := some (0x11000, 7, 0) }
def wLead (p : Park) : Wave := { wV (fun c => { c with role := .lead }) with park := p }

/-- A departure with room and with none (R99); an arrival, the arrival that a lead waits for, and one that was missed (R101, R102). -/
theorem test_split : (sLd wDep (wLead .none) []).chanCore 0 0 = some 0 ∧ w0.lcore = 0 ∧
    seen (exec (.splitEntryWrite 0) (sLd wDep (wLead .none) [])) (fun t => (t.core 0).chan.splits.map Split.wave) = [0] ∧
    seen (exec (.splitEntryWrite 0) (sLd wDep (wLead .none) ((List.range 64).map fun i => ⟨i + 10, 0, 0, 0, false, false⟩)))
      (fun t => ((t.wave 0).map fun w => if w.convoy.role = .lost then 1 else 0).toList) = [1] := by decide +kernel

def wGone : Wave := wV fun c => { c with role := .departed 0 }

def eSp (missed : Bool) : Split := ⟨0, 0, 0x11000, 7, false, missed⟩

theorem test_rdv : seen (exec (.rdvArrival 0) (sLd wArr (wLead .none) [eSp false])) (fun t => (t.core 0).chan.splits.map fun e => if e.arrived then 1 else 0) = [1] ∧
    (sLd wArr (wLead (.rdvLead 7 none [0])) [eSp false]).allReported 1 (wLead (.rdvLead 7 none [0])) = true ∧
    seen (exec (.rdvArrival 0) (sLd wArr (wLead (.rdvLead 7 none [])) [eSp false])) (fun t => [(t.core 0).chan.recAt, t.clk 0] ++
      ((t.wave 1).map fun w => if w.park = .rdvLead 7 none [0] then w.spc else 0).toList) = [1, 0, 0x11000] ∧
    (fun t : State => ((t.wave 0).map fun w => if w.convoy.role = .member 0 then w.spc else 0).toList ++ ((t.wave 1).map Wave.spc).toList)
      ((sLd wGone (wLead (.rdvLead 7 none [0])) [{ eSp false with arrived := true }]).pollRdv 1 (wLead (.rdvLead 7 none [0])) 7 [0]) =
      [0x11004, 0x11004] := by
  decide +kernel

/-- A wave with its handler at 0x11008. -/
def wHd (f : Convoy → Convoy) (p : Park) : Wave := { wV f with ctl := { w0.ctl with handler := some 0x11008 }, park := p }

/-- Whether a late-rendezvous trap for tag 7 was taken (R102, R358). -/
def lateSeen (o : Out) : List Nat := seen o fun t => ((t.wave 0).map fun w => [w.spc, w.ctl.xcause.toNat % 256, w.ctl.xaddr.toNat]).getD []

theorem test_late : usable fetchCons 0x11008 ∧ lateSeen (exec (.rdvArrival 0) (sLd (wHd (fun _ => wArr.convoy) .none) (wLead .none) [eSp true])) = [0x11008, 9, 7] ∧
    lateSeen (exec (.rdvTimeout 0) { st (wHd (fun c => { c with role := .departed 0 }) (.rdvMember 7 (some 5))) with now := 105 }) = [0x11008, 9, 7] ∧
    seen (exec (.rdvTimeout 1) { sLd wDep (wLead (.rdvLead 7 (some 5) [0])) [eSp false] with now := 105 }) (fun t =>
      ((t.wave 1).map Wave.spc).toList ++ (t.core 0).chan.splits.map fun e => if e.missed then 1 else 0) = [0x11004, 1] := by
  simp only [usable]
  decide +kernel

/-! ## Faults, traps, kills -/

/-- The module with a page fault of wave 0 at `va` open, on which its word waits. -/
def sF (va : Nat) : State := { st { w0 with park := .pageFault false va, ctl := { w0.ctl with handler := some 0x11008 } } with faults := [.wave 0 0 va] }

/-- FaultsAndTraps: a walk; a page made present, and one declared lost (R239, R241, R242). -/
theorem test_walks : tlbHit ((st w0).core 0).tlb 0 0x20000 = none ∧ canonical 0x20000 = true ∧ pageThere (sF 0x20000) 0 0x20000 = true ∧
    seen (exec (.tableWalk 0 0 0x20000) (st w0)) (fun t => (t.core 0).tlb.map TlbEntry.va) = [0] ∧
    seen (exec (.pageFaultService 0 true) (sF 0x20000)) (fun t => [t.faults.length] ++ ((t.wave 0).map fun w => if w.park = .none then 1 else 0).toList) = [0, 1] ∧
    seen (exec (.pageFaultService 0 false) (sF 0x40000000)) (fun t => [t.faults.length] ++
      ((t.wave 0).map fun w => [w.spc, w.ctl.xcause.toNat % 256, w.ctl.xaddr.toNat]).getD []) = [0, 0x11008, 4, 0x40000000] := by decide +kernel

/-- A running copy, suspended on a page. -/
def rCp (o : CopyOp) : CopyRun := ⟨⟨9, 0, 0, 0, 0, 0, .copy, .none, .copy o, 0, 0, 0, 0, false, 0, 0, false, 0⟩, 0, [], 0, true, none, [], 0, 0⟩

/-- The service of an engine's fault (R241). -/
theorem test_engine_fault : seen (exec (.pageFaultService 0 true) { (st w0).onCore 0 (fun c => { c with cpRun := some (rCp (.fill 0 0x20000 8)) }) with
      faults := [.engine 0 .copy 0 0x20000] }) (fun t => ((t.core 0).cpRun.map fun r => if r.suspended then 1 else 0).toList) = [0] ∧
    seen (exec (.pageFaultService 0 false) { (st w0).onCore 0 (fun c => { c with cpRun := some (rCp (.fill 0 0x40000000 8)) }) with
      faults := [.engine 0 .copy 0 0x40000000] }) (fun t => ((t.core 0).cpRun.bind CopyRun.failedAt).toList.map Prod.snd) = [0x40000000] := by decide +kernel

/-- Wave 0 with one lane in its operand log, of a load at `va`. -/
def wLg (va : Nat) : Wave :=
  { w0 with oplog := [⟨7, true, 0x11000, 0, .load, 4, false, [⟨3, 0, va, 0, 0⟩]⟩], ops := [⟨7, .ld, 1, none, .vreg 2, none, 0, false, 0x11000, 0, [], 0, none, 0⟩] }

/-- The operand log's oldest entry (R243). -/
theorem test_oplog : faultOpen (st (wLg 0x20000)).faults 0 ⟨7, true, 0x11000, 0, .load, 4, false, [⟨3, 0, 0x20000, 0, 0⟩]⟩ = false ∧
    ((st w0).core 0).snap = [] ∧ barHost .load (placeVirtual (st (wLg 0x20000)) 0 fetchCons 0x20000 (MemKind.load).need) = .at (storageKey 0x20000 0 0 0) ∧
    seen (exec (.operandLogReplay 0) (st (wLg 0x20000))) (fun t => [t.reqs.length] ++ ((t.wave 0).map fun w => w.oplog.length).toList) = [1, 0] ∧
    seen (exec (.operandLogReplay 0) (st (wLg 0x40000000))) (fun t => [t.reqs.length, t.faults.length] ++ ((t.wave 0).map fun w => w.oplog.length).toList) =
      [0, 1, 1] := by decide +kernel

/-- A shootdown (R245). -/
theorem test_shootdown : seen (exec (.shootdown 0 0x20000 0x20FFF) ((st { w0 with tbs := [(3, ⟨0x20000, 0x20000, 0x1000, ⟨true, true, true, 0, false, 0, 0, 0, false⟩⟩)] }).onCore 0
      fun c => { c with tlb := [⟨0, 0x20000, 0x1000, 0x20000, ⟨true, true, true, 0, false, 0, 0, 0, false⟩⟩] })) (fun t => [(t.core 0).tlb.length] ++
      ((t.wave 0).bind fun w => (look w.tbs 3).map TReg.limit).toList) = [0, 0] := by decide +kernel

/-- A held trap at its boundary (R361), a kill (R368), a breakpoint (R364). -/
theorem test_trap_boundary : w0.pend = [] ∧ w0.life = .running ∧ w0.sched.holdS = .none ∧ w0.members = [] ∧ w0.acks = [] ∧
    seen (exec (.trapEntry 0) (st { w0 with ctl := { w0.ctl with handler := some 0x11008, held := [⟨6, false, 5, 1, 0, none⟩, ⟨4, false, 9, 2, 0, none⟩] } }))
      (fun t => ((t.wave 0).map fun w => [w.spc, w.ctl.xcause.toNat % 256, w.ctl.xaddr.toNat, w.ctl.held.length]).getD []) = [0x11008, 4, 9, 1] ∧
    seen (exec (.waveKill 0 2) (st w0)) (fun t => ((t.wave 0).map fun w => if w.life = .draining true then 1 else 0).toList ++
      ((t.con 0).map fun c => [c.killed, c.live]).getD []) = [1, 1, 0] := by
  decide +kernel

/-- The debugger's breakpoint in a DEBUG consignment (R364). -/
theorem test_breakpoint : Cons.debug { fetchCons with man := { fetchCons.man with flags := 1 } } = true ∧
    seen (exec (.breakpointSet 0 2 (some (.scalar 0x11000))) { st w0 with cons := [(0, { fetchCons with man := { fetchCons.man with flags := 1 } })] })
      (fun t => ((t.wave 0).map fun w => w.ctl.bps.map Prod.fst).getD []) = [2] := by decide +kernel

/-! ## Copy, long-vector and matrix engines -/

/-- A command with a counter reply, that the one open operation of wave 0 waits for. -/
def cmd (e : Engine) (r : Reply) (b : CmdBody) : Cmd := ⟨9, 0, 0, 0, 0, 0, e, r, b, 0x11000, 0, 0, 0, false, 0, 0, false, 0⟩
def wQu : Wave := { w0 with ops := [⟨9, .en, 1, none, .none, none, 0, false, 0x11000, 0, [], 0, none, 0⟩] }
def sC (f : Core → Core) : State := (st wQu).onCore 0 f

/-- Core 0's long-vector inbox, and what is open in wave 0. -/
def opsOf (t : State) : Nat := ((t.wave 0).map fun w => w.ops.length).getD 99

theorem test_quietly : quietly (st wQu) (cmd .copy .counter (.copy (.fill 7 0x20000 8))) := by
  refine ⟨fun w h => ?_, .inr ⟨rfl, by decide, wQu, ⟨9, .en, 1, none, .none, none, 0, false, 0x11000, 0, [], 0, none, 0⟩, by decide +kernel, ?_⟩⟩
  · have := h.symm.trans (show (st wQu).wave 0 = some wQu by decide +kernel)
    cases this; rfl
  · decide +kernel

/-- CopyAndLongVector: a held command enters its inbox; the head of each inbox starts (R187, R264). -/
theorem test_inbox : ((sC fun c => c).core 0).stubs = [] ∧ (sC fun c => c).spansFit (quarterSpan (cmd .copy .counter (.copy (.fill 7 0x20000 8)))) = true ∧
    seen (exec (.engineInboxEntry 0) { sC (fun c => c) with held := [cmd .copy .counter (.copy (.fill 7 0x20000 8))] }) (fun t => [t.held.length, (t.core 0).cpIn.length]) =
      [0, 1] ∧
    seen (exec (.copyCommandStart 0 .copy) (sC fun c => { c with cpIn := [cmd .copy .counter (.copy (.fill 7 0x20000 8))] }))
      (fun t => [(t.core 0).cpIn.length] ++ ((t.core 0).cpRun.map CopyRun.next).toList) = [0, 0] ∧
    seen (exec (.copyCommandStart 0 .longVector) ((sC fun c => { c with lvIn := [cmd .longVector .counter (.lv 0 2 0 0x100 0)] }).writeNum 4 (spadKey 0 0x108) 5))
      (fun t => [(t.core 0).lvIn.length] ++ ((t.core 0).lvRun.map fun r => r.fields.sum).toList) = [0, 5] := by decide +kernel

/-- The module with a copy at its first chunk: of 3 bytes, or a fill of 10. -/
def sCp (o : CopyOp) (ks : List Chunk) : State := sC fun c => { c with cpRun := some ⟨cmd .copy .counter (.copy o), 0, ks, 0, false, none, [], 0, 0⟩ }

/-- What the fetched chunk holds. -/
def chunkOf (t : State) : List Nat := ((t.core 0).cpRun.map fun r => r.fetched.flatMap fun k => k.bytes.map fun x => x.2.toNat).getD [99]

/-- A chunk of a copy and of a fill (R262, R264). -/
theorem test_chunk : engPlace (st wQu) 0 0 fetchCons 0x20000 2 .read = .at (storageKey 0x20002 0 0 0) ∧ (st wQu).deadKey (storageKey 0x20002 0 0 0) = false ∧
    engPlace (st wQu) 0 0 fetchCons 0x30000 2 .write = .at (storageKey 0x30002 0 0 0) ∧ keyIsPeer (storageKey 0x20002 0 0 0) = false ∧
    seen (exec (.chunkFetch 0) ((sCp (.copy 0x20000 0x30000 3) []).writeNum 4 kH 0x030201)) chunkOf = [1, 2, 3] ∧
    seen (exec (.chunkFetch 0) (sCp (.fill 0x0807060504030201 0x20000 10) [])) chunkOf = [1, 2, 3, 4, 5, 6, 7, 8, 1, 2] := by decide +kernel

/-- A chunk for granule 0 of wave 0's scratchpad, and one for a granule that is not leased. -/
def kOk : Chunk := ⟨0, [(kS, 5), (kS + 1, 6)], [0x20000, 0x20001]⟩
def kBad : Chunk := ⟨0, [(kS, 5), (spadKey 0 0xF0000, 6)], [0x20000, 0x20001]⟩

/-- The last chunk ends the command; one that a home refuses ends it with an error (R265, R266). -/
theorem test_commit : (sCp (.fill 0 0 2) [kOk]).memOk = true ∧ kOk.bytes.all (fun x => !(sCp (.fill 0 0 2) [kOk]).deadDst 0 x.1) = true ∧
    kBad.bytes.findIdx? (fun x => (sCp (.fill 0 0 2) [kBad]).deadDst 0 x.1) = some 1 ∧
    seen (exec (.chunkCommit 0) (sCp (.fill 0 0 2) [kOk])) (fun t => [t.num 2 kS, if (t.core 0).cpRun = none then 1 else 0, opsOf t]) = [0x605, 1, 0] ∧
    seen (exec (.chunkCommit 0) (sCp (.fill 0 0 4097) [kOk])) (fun t => ((t.core 0).cpRun.map CopyRun.committed).toList ++ [opsOf t]) = [1, 1] ∧
    seen (exec (.commitErrorResponse 0 [0]) (sCp (.fill 0 0 2) [kBad])) (fun t => [t.num 2 kS, if (t.core 0).cpRun = none then 1 else 0, opsOf t] ++
      (t.die 0).log.map fun e => e.2.cause) = [5, 1, 0, 0x12] := by decide +kernel

/-- `lv.max` of three elements at `src` to `dst`, of which `got` have been read (R195, R197). -/
def sLv (src dst : Nat) (got : List Nat) : State := (fill (sC fun c => { c with lvRun := some ⟨cmd .longVector .counter (.lv 0 3 src dst 0), ⟨9, 0, 0, 0⟩, got, 0⟩ })
  [(spadKey 0 0, 4, 0x3F800000), (spadKey 0 4, 4, 0x40000000), (spadKey 0 8, 4, 0xC0000000)])

/-- Its three elements. -/
def lv3 : List Nat := [0x3F800000, 0x40000000, 0xC0000000]

theorem test_lv_read : lvRead .max 0 3 ⟨9, 0, 0, 0⟩ [] = false ∧ lvRead .max 0 3 ⟨9, 0, 0, 0⟩ lv3 = true ∧
    granuleOf (sLv 0 0x100 []) 0 0 0 = true ∧ (sLv 0 0x100 []).memBad (spadKey 0 0) 4 = false ∧ granuleOf (sLv 0xF0000 0x100 []) 0 0xF0 0 = false ∧
    (((sLv 0 0x100 []).readLv 0).core 0).lvRun.map (fun r => (r.got, r.nextAt)) = some (lv3, 1) ∧
    (fun t : State => opsOf t :: (t.die 0).log.map fun e => e.2.addr) ((sLv 0xF0000 0x100 []).readLv 0) = [0, 0xFE000000000F0000] ∧
    (fun t : State => opsOf t :: (t.die 0).log.map fun e => e.2.cause)
      (State.readLv { sLv 0 0x100 [] with badMem := [spadKey 0 4 / 32] } 0) = [0, 0x12] := by decide +kernel

theorem test_lv : granulesOf (sLv 0 0x100 lv3) 0 0 0x100 0x11F = true ∧ granulesOf (sLv 0 0xF0000 lv3) 0 0 0xF0000 0xF001F = false ∧
    (sLv 0 0x100 lv3).memOk = true ∧ f32nan 0x40000000 = false ∧ LvFn.ofCode 0 = .max ∧ ((sLv 0 0x100 lv3).core 0).stubs = [] ∧
    seen (exec (.lvCommandFinish 0) (sLv 0 0x100 lv3)) (fun t => [t.num 4 (spadKey 0 0x100), t.num 4 (spadKey 0 0x104), opsOf t]) = [0x40000000, 1, 0] ∧
    seen (exec (.lvCommandFinish 0) (sLv 0 0xF0000 lv3)) (fun t => [opsOf t] ++ (t.die 0).log.map fun e => e.2.addr) = [0, 0xFE000000000F0000] := by decide +kernel

/-- Scoreboard entries of a command that has ended, and of one that runs (R267). -/
theorem test_scoreboard : seen (exec (.scoreboardEntryRemove 0) ((sCp (.fill 0 0 2) [kOk]).onCore 0 fun c => { c with spans := [⟨9, 0, 1, true, 0⟩, ⟨8, 0, 1, true, 0⟩] }))
      (fun t => (t.core 0).spans.map Span.cmd) = [9] := by decide +kernel

/-! ## The matrix engine -/

/-- An INT8 plane of two rows, with tag 7 and weights k + 1 in column 0; a quarter operation of one row that uses it. -/
def plane8 : Plane := ⟨7, 0, 3, 2, false, 0x20000, [(0, (1, 0)), (64, (5, 0))], [], List.replicate 64 0, [], 0, 0⟩
def qr (r : Reply) : Cmd := { cmd .matrix r (.mxQuarter 1 7 0 1 false 0 2 0 0 0 0) with seq := 5 }
def mx0 : MxEngine := ((st w0).core 0).mx
def sM (m : MxEngine) : State := sC fun c => { c with mx := m }

/-- MatrixEngine: a load with free slots and its page in the TLB, and one that met an error (R203, R207). -/
theorem test_load : seen (exec (.mxLoadExecute 0) (((sM { mx0 with inbox := [cmd .matrix .counter (.mxLoad 7 3 false 0x20000 1)] }).onCore 0 fun c =>
      { c with tlb := [⟨0, 0, 2 ^ 30, 0, attrOf 31⟩] }).writeNum 4 kH 0xFF02))
      (fun t => ((t.core 0).mx.slot0.map fun p => [p.tag, (p.weight 0).toNat, (-(p.weight 1)).toNat]).getD [] ++ [opsOf t]) = [7, 2, 1, 0] ∧
    seen (exec (.mxLoadEndError 0) (sM { mx0 with load := some ⟨cmd .matrix .counter (.mxLoad 7 3 false 0x20000 1), true, true, [], 0, false, some 0x20000⟩ }))
      (fun t => [opsOf t] ++ (t.die 0).log.map fun e => e.2.cause) = [0, 0x12] := by decide +kernel

/-- A pass takes its head's row when the window has closed; the row enters, and is written 24 cycles later (R216 to R218). -/
def rw0 (e : Option Nat) (r : Reply) (wr : Bool) : PassRow := ⟨qr r, 0, e, List.replicate 64 3, ⟨0, 0, 0, false⟩, 0, wr⟩

theorem test_pass : (match MxEngine.uses { mx0 with inbox := [qr .counter], slot0 := some plane8 } (qr .counter) with
      | .plane p => p == plane8
      | _ => false) = true ∧
    seen (exec (.passStart 0) { sM { mx0 with inbox := [qr .counter], slot0 := some plane8 } with now := 192 }) (fun t => [(t.core 0).mx.pass.length]) = [1] ∧
    seen (exec (.rowEntersAligner 0) ((sM { mx0 with pass := [rw0 none .counter false], slot0 := some plane8 }).writeNum 2 (spadKey 0 0) 0x0403))
      (fun t => (t.core 0).mx.pass.map fun r => (r.vals.getD 0 0).toNat) = [11] := by decide +kernel

theorem test_row : seen (exec (.accRowWrite 0) { sM { mx0 with pass := [rw0 (some 0) .counter false] } with now := 288 })
      (fun t => (t.core 0).mx.pass.map (fun r => if r.written then 1 else 0) ++ ((t.wave 0).map fun w => (lookD w.regs.v (64 * 192) 0).toNat).toList) = [1, 3] ∧
    seen (exec (.accRowWrite 0) { sM { mx0 with pass := [rw0 (some 0) (.ring 2) false] } with now := 288 })
      (fun t => [(t.core 0).mx.pass.length, (t.core 0).mx.held.length]) = [0, 1] ∧
    seen (exec (.accRowWrite 0) { sM { mx0 with pass := [rw0 (some 0) .counter true] } with now := 300 }) (fun t => [(t.core 0).mx.pass.length, opsOf t]) =
      [0, 0] := by decide +kernel

/-- A held row with a free slot in ring q2 (R221). -/
theorem test_ring_row : seen (exec (.engineRingWrite 0 0) ((sM { mx0 with held := [⟨qr (.ring 2), 0, List.replicate 64 3, ⟨0, 0, 0, false⟩, 0, true⟩] }).setWave 0
      { w0 with rings := [(2, ⟨false, 200, 4, 0, 0, 0, 1, .none, 0, 0, 0, false⟩)] })) (fun t => ((t.wave 0).bind fun w => (look w.rings 2).map fun r =>
      [r.tail, r.e, (lookD w.regs.v (64 * 200) 0).toNat]).getD []) = [1, 0, 3] := by decide +kernel

/-! ## Routed rows and reassembly tables -/

/-- A receive half at offset 0x1000 of the scratchpad, of 4 slots of 64 bytes; one or two rows make a batch. -/
def bd (res : Bool) (flush : Nat) : BindDesc :=
  ⟨[1, 2, 3, 4], 2, 0, 3, true, true, false, true, false, res, 0x1000, 4, 64, 1, 2, flush, 0x20, 0x2000, 7, fp1⟩
def rh (t h n : Nat) (d : BindDesc) : RecvHalf := ⟨0, d, t, h, n, List.replicate (t - n) 0, false, none, 0⟩

/-- The module with a table, channel 5 and the messages given. -/
def sR5 (x : Option RecvHalf) (m : List RouteMsg) (f : RtEngine → RtEngine) : State :=
  { sC (fun c => { c with rt := f { c.rt with chans := [(5, ⟨some ⟨0, bd true 0, 0⟩, x, true, false, none, none⟩)] } }) with routeMsgs := m }

/-- Row 0 of table 2, generation 4, rank 1, 32 bytes out; and a row for channel 5. -/
def tag1 : Word := wordN (2 * 2 ^ 11 + 1 * 2 ^ 22 + 4 * 2 ^ 32)
def row (back : Bool) : RouteMsg := ⟨back, 0, 0, 0, 5, tag1, 9, [1, 2, 3, 4], 1, 0, none, 0, 0⟩

/-- Table 2 with one row of two ranks. -/
def od : OpenDesc := ⟨0x20000, 0x20020, 0x20040, 0x20060, 0x3000, 1, 32, 32, 2, 0, false, false, 0⟩
def tbl (g : TableState) (rs : List Rank) : RTable :=
  { RTable.empty with state := g, gen := 4, desc := od, ranks := rs, deadline := some 5, cmd := 77, filled := true }
def rt2 (t : RTable) (u : Option RouteRun) (r : RtEngine) : RtEngine := { r with tables := [(2, t)], run := u }
def ranks (t : State) : List Nat := (t.table 0 2).ranks.map fun r => match r with
  | .absent => 0 | .sent => 1 | .arrived => 2 | .dropped => 3 | .timedOut => 4

/-- RouteRows: a row that has a slot, one that has none, and one for a channel without a receive half (R323, R333). -/
theorem test_RouteRows : (sR5 (some (rh 1 0 0 (bd true 0))) [row false] id).memOk = true ∧ State.msgCore (st w0) (row false) = 0 ∧
    ((st w0).ticketsOf (resInbox 0 5)).out = [] ∧ (row false).bytes.length + 32 ≤ (bd true 0).sb ∧
    seen (exec (.routedRowArrival 0) (sR5 (some (rh 1 0 0 (bd true 0))) [row false] id)) (fun t => ((t.chan 0 5).recv.map RecvHalf.tail).toList ++
      [t.num 4 (spadKey 0 0x1060), t.num 2 (spadKey 0 0x1048), t.routeMsgs.length]) = [2, 0x04030201, 9, 0] ∧
    seen (exec (.routedRowArrival 0) (sR5 (some (rh 4 0 0 (bd true 0))) [row false] (rt2 (tbl .routing [.sent, .absent]) none))) (fun t =>
      ((t.chan 0 5).recv.map RecvHalf.tail).toList ++ t.routeMsgs.map RouteMsg.retryAt) = [4, 32] ∧
    seen (exec (.routedRowArrival 0) (sR5 (some (rh 4 0 0 (bd true 0))) [{ row false with refusals := 2 }] id)) (fun t =>
      t.routeMsgs.flatMap (fun m => m.ticket.toList) ++ (t.ticketsOf (resInbox 0 5)).out) = [0, 0] ∧
    seen (exec (.routedRowArrival 0) (sR5 none [row false] (rt2 (tbl .routing [.sent, .absent]) none))) (fun t => ranks t ++ (t.die 0).log.map fun e => e.2.cause) =
      [1, 3, 0x10] := by decide +kernel

/-- A flush time, an UNBIND, and a batch for a resident waiter (R324, R325). -/
theorem test_batch : seen (exec (.routeFlushExpiry 0 5) { sR5 (some (rh 1 0 0 (bd true 1))) [] id with now := 21 }) (fun t =>
      ((t.chan 0 5).recv.map fun r => if r.flushed then 1 else 0).toList) = [1] ∧
    seen (exec (.unbindComplete 0 5) (sC fun c => { c with rt := { c.rt with chans := [(5, ⟨none, some (rh 3 3 3 (bd true 0)), true, false, some (cmd .route .none (.rtctl 5 1 0 none)), none⟩)] } }))
      (fun t => [(t.core 0).rt.chans.length]) = [0] ∧
    seen (exec (.batchDispatch 0 5) (sR5 (some (rh 1 0 0 (bd true 0))) [] id)) (fun t => [t.reqs.length] ++ ((t.chan 0 5).recv.map RecvHalf.next).toList) =
      [2, 1] := by decide +kernel

/-- A batch for a task wave (R324). -/
theorem test_task : seen (exec (.batchDispatch 0 5) (sR5 (some (rh 1 0 0 (bd false 0))) [] id)) (fun t => match t.wave 1 with
      | some w => [w.spc, w.wid] ++ w.regs.s.map fun e => e.2.toNat
      | none => []) = [0x11020, 1, 7, 0, 1] ∧
    (planOn ((sR5 (some (rh 1 0 0 (bd false 0))) [] id).core 0) 0 0 { fetchCons.man with fp := fp1, pipes := [] }).isSome = true := by decide +kernel

/-- RouteTables: an open, a route, its ranks, a returned row, the timer and the close (R327 to R336). -/
theorem test_open : (match engCells (st w0) 0 0 fetchCons od.ctr.toNat 0 (List.replicate 16 0) with
      | .ok cs => cs.map Prod.fst == (List.range 16).map fun i => storageKey (0x20040 + i) 0 0 0
      | _ => false) = true ∧
    seen (exec (.rtOpenExecute 0) (sR5 none [] fun r => { r with inbox := [cmd .route .counter (.rtOpen 2 od)] })) (fun t => ranks t ++
      [(t.table 0 2).gen, if (t.table 0 2).state = .opened then 1 else 0, opsOf t]) = [0, 0, 1, 1, 0] ∧
    seen (exec (.rtRouteExecute 0) (sR5 none [] fun r => { rt2 (tbl .opened [.absent, .absent]) none r with inbox := [cmd .route .counter (.rtRoute 2 0x4000 0x5000)] }))
      (fun t => [if (t.table 0 2).state = .routing then 1 else 0, if (t.core 0).rt.run.isSome then 1 else 0, opsOf t]) = [1, 1, 1] := by decide +kernel

/-- A run of `rt.route`, at rank `n`. -/
def run2 (n : Nat) : Option RouteRun := some ⟨cmd .route .counter (.rtRoute 2 0x4000 0x5000), n, []⟩

theorem test_route : seen (exec (.rtRouteExecute 0) ((sR5 none [] (rt2 (tbl .routing [.absent, .absent]) (run2 0))).writeNum 4 (spadKey 0 0x5000) 0x00050007)) (fun t =>
      ranks t ++ t.routeMsgs.map (fun m => m.weight) ++ ((t.core 0).rt.run.map RouteRun.next).toList) = [0, 0, 7, 1] ∧
    seen (exec (.rtRouteExecute 0) ((sR5 none [] (rt2 (tbl .routing [.absent, .absent]) (run2 0))).writeNum 4 (spadKey 0 0x5000) 0x80050007)) (fun t =>
      ranks t ++ ((t.core 0).rt.run.map RouteRun.next).toList) = [0, 0, 1] ∧
    seen (exec (.rtRouteExecute 0) (sR5 none [] (rt2 (tbl .routing [.sent, .sent]) (run2 2)))) (fun t =>
      [if (t.core 0).rt.run.isSome then 1 else 0, opsOf t]) = [0, 0] := by decide +kernel

theorem test_return : State.tagRank (sR5 none [] (rt2 (tbl .routing [.sent, .sent]) none)) 0 tag1 = some (2, 1) ∧ (tagFields tag1).2.2.2.1 = 32 ∧
    seen (exec (.returnAccept 0) (sR5 none [row true] (rt2 (tbl .routing [.sent, .sent]) none))) (fun t => ranks t ++ [t.num 4 (spadKey 0 0x3020)]) = [1, 2, 0x04030201] ∧
    seen (exec (.returnAccept 0) (sR5 none [row true] (rt2 (tbl .closed [.sent, .sent]) none))) (fun t => ranks t ++ [t.reqs.length, t.routeMsgs.length]) = [1, 1, 1, 0] := by
  decide +kernel

theorem test_timer : seen (exec (.tableTimeout 0 2) { sR5 none [] (rt2 (tbl .routing [.sent, .arrived]) none) with now := 5 }) ranks = [4, 2] ∧
    seen (exec (.tableTimeout 0 2) { sR5 none [] (rt2 (tbl .opened [.absent, .absent]) none) with now := 5 }) (fun t =>
      [if (t.table 0 2).state = .routing then 1 else 0]) = [1] := by decide +kernel

theorem test_close : State.settled (sR5 none [] (rt2 (tbl .routing [.arrived, .dropped]) none)) 0 2 = true ∧
    (match State.closeRows (sR5 none [] (rt2 (tbl .routing [.arrived, .dropped]) none)) 0 2 fetchCons ((tbl .routing []).asCmd 0) 1 with
      | (_, .ok _) => true
      | _ => false) = true ∧
    seen (exec (.tableClose 0 2) (sR5 none [] (rt2 (tbl .routing [.arrived, .dropped]) none))) (fun t => [if (t.table 0 2).state = .closed then 1 else 0, t.reqs.length]) =
      [1, 1] ∧
    seen (exec (.tableClose 0 2) (sR5 none [] (rt2 { tbl .routing [.arrived, .dropped] with failed := some 0x20000 } none))) (fun t =>
      [if (t.table 0 2).state = .closed then 1 else 0, t.reqs.length] ++ (t.die 0).log.map fun e => e.2.cause) = [1, 1, 0x12] := by decide +kernel

/-! ## The mesh, the exchange and the links -/

/-- An offer of core `c` to core `p`, with 7 for lane 0. -/
def off (op n c p : Nat) (arr : Bool) (pr : Option Nat) : Offer := ⟨n, 0, op, c, p, 3, 2, 1, [(0, 7)], arr, pr, 0, none, 0⟩
def wXc (op : Nat) : Wave := { w0 with ops := [⟨op, .xc, 1, none, .none, none, 0, false, 0, 0, [], 0, none, 0⟩] }

/-- MeshAndExchange: an offer that meets another, one that waits, one that is refused; values that land (R350). -/
theorem test_exchange : [off 2 96 1 0 true none].find? (off 1 0 0 1 false none).meets = some (off 2 96 1 0 true none) ∧ [].find? (off 1 0 0 1 false none).meets = none ∧
    (st w0).grants (resPairs 0) 0 16 none = true ∧ (st w0).grants (resPairs 0) 16 16 none = false ∧
    seen (exec (.xchOfferArrival 1) { st w0 with offers := [off 2 96 1 0 true none, off 1 0 0 1 false none] }) (fun t => t.offers.map fun o => o.pair.getD 0) = [1, 2] ∧
    seen (exec (.xchOfferArrival 0) { st w0 with offers := [off 1 0 0 1 false none] }) (fun t => t.offers.map fun o => if o.arrived then 1 else 0) = [1] ∧
    seen (exec (.xchOfferArrival 0) { st w0 with offers := off 1 0 0 1 false none :: (List.range 16).map fun i => off (i + 9) 5 2 3 true none }) (fun t =>
      (t.offers.map Offer.retryAt).take 1) = [32] := by decide +kernel

theorem test_exchanged : seen (exec (.xchValuesLand 0) { (st (wXc 1)).setWave 96 (wXc 2) with offers := [off 1 0 0 1 true (some 2), off 2 96 1 0 true (some 1)] }) (fun t =>
    [t.offers.length, opsOf t] ++ ((t.wave 96).map fun w => (lookD w.regs.v 128 0).toNat).toList) = [0, 0, 7] := by decide +kernel

/-- Router power, a stitch, a region (R341, R343, R347). -/
theorem test_mesh : seen (exec (.routerIdleGate 3) { st w0 with now := 21000, routers := [(3, .on 0)] }) (fun t => match t.router 3 with
      | .goingDown n => [n]
      | _ => []) = [1754] ∧
    seen (exec (.routerWake 3) { st w0 with routers := [(3, .off)] }) (fun t => match t.router 3 with
      | .goingUp n _ => [n]
      | _ => []) = [6] ∧
    seen (exec (.regionDescriptorWrite 255 0x00110105) { st w0 with waves := [] }) (fun t => t.regions.map Prod.fst) = [255] ∧
    seen (exec (.regionDescriptorWrite 1 0x00070101) { st w0 with waves := [] }) (fun t => t.regions.map Prod.fst) = [] := by decide +kernel

theorem test_stitch : seen (exec (.routeStitch 1) { st w0 with bypass := [400, 401, 800] }) (fun t => (t.die 1).stitched) = [16, 17] := by decide +kernel

/-- Links: flits in and out of sequence, a replay, the seventeenth, an acknowledgement, a retraining (R353, R354). -/
def sPt (p : Port) : State := { st w0 with ports := [(23, p)], ready := { (st w0).ready with ports := [4, 23] } }
def port (t : State) : List Nat := let p := lookD t.ports 23 Port.reset
  [p.expected, p.naks, p.unacked.length, if p.retrain then 1 else 0] ++ p.replays.map Prod.snd

theorem test_links : seen (exec (.flitReceive 23 1023 true) (sPt { Port.reset with expected := 1023 })) port = [0, 0, 0, 0] ∧
    seen (exec (.flitReceive 23 7 true) (sPt Port.reset)) port = [0, 1, 0, 0] ∧ seen (exec (.flitReceive 23 0 false) (sPt Port.reset)) port = [0, 1, 0, 0] ∧
    seen (exec (.linkNakReplay 23 5) (sPt { Port.reset with unacked := [(4, 7), (5, 8)], replays := [(5, 15)] })) port = [0, 0, 2, 0, 16] ∧
    seen (exec (.linkNakReplay 23 5) (sPt { Port.reset with unacked := [(4, 7), (5, 8)], replays := [(5, 16)] })) port = [0, 0, 2, 1, 16] ∧
    seen (exec (.flitAck 23 4) (sPt { Port.reset with unacked := [(4, 7), (5, 8)] })) port = [0, 0, 1, 0] ∧
    seen (exec (.portRetrain 23 false) (sPt { Port.reset with retrain := true })) (fun t => t.ready.ports) = [4] := by decide +kernel

/-- A request to peer 5 that has no response. -/
def po (n : Nat) : PeerOut := ⟨0, true, rq (.mem .load) kH 0 0, n, 0⟩
def sPo (n : Nat) : State := { sPt Port.reset with peers := [(5, { Peer.reset with out := [po n] })], now := 42 * 10 ^ 6 }

theorem test_peers : (sPo 0).retryNs * 21 ≤ 42 * 10 ^ 6 ∧ ((sPo 0).sendFlit 5).isSome = true ∧
    seen (exec (.peerRetransmitTimeout 5) (sPo 0)) (fun t => (lookD t.peers 5 Peer.reset).out.map PeerOut.resent) = [1] ∧
    seen (exec (.peerRetransmitTimeout 5) (sPo 8)) (fun t => [t.resps.length] ++ (t.die 0).log.map fun e => e.2.cause) = [1, 0x14] := by decide +kernel

/-- What peer 5 sees after its request `q`. -/
def asked (p : Peer) (q : Nat) (op : PeerOp) : List Nat := seen (execPeerRequestArrival 5 q op ({ st w0 with peers := [(5, p)] }.writeNum 4 kS 6)) fun t =>
  let x := lookD t.peers 5 Peer.reset
  [x.nextIn, x.waiting.length, t.reqs.length, t.num 4 kS] ++ x.replies.flatMap Prod.snd

theorem test_peer_requests : seqBefore 3 4 = true ∧ seqBefore 4 4 = false ∧ asked { Peer.reset with low := 4, nextIn := 4 } 3 (.load kS 4) = [4, 0, 0, 6] ∧
    asked Peer.reset 0 (.load kS 4) = [1, 0, 1, 6] ∧ asked Peer.reset 1 (.load kS 4) = [0, 1, 0, 6] ∧ asked Peer.reset 0 (.store kS 4 8) = [1, 0, 1, 6] ∧
    asked { Peer.reset with nextIn := 1, records := [(0, some [])] } 0 (.store kS 4 8) = [1, 0, 0, 6] ∧
    seen (exec (.homeRequestApply 0) { (sPt Port.reset).writeNum 4 kH 6 with
      peers := [(5, { Peer.reset with nextIn := 1, records := [(0, none)], waiting := [(0, .load kH 4)] })], reqs := [peerOpReq 5 0 (.load kH 4)] })
      (fun t => t.reqs.length :: (lookD t.peers 5 Peer.reset).waiting.length :: (lookD t.peers 5 Peer.reset).replies.flatMap Prod.snd) = [0, 0, 6, 6] ∧
    seen (exec (.peerAck 5 0) { st w0 with peers := [(5, { Peer.reset with nextIn := 1, records := [(0, some [])] })] }) (fun t =>
      [(lookD t.peers 5 Peer.reset).low, (lookD t.peers 5 Peer.reset).records.length]) = [1, 0] := by decide +kernel

/-! ## Pre-emption, migration -/

/-- A module with two ready cores, where consignment 0 has a debug flag or not, and wave 0 as given. -/
def s2 (w : Wave) : State :=
  { st w with
    ready := { (st w).ready with cores := [0, 1], engines := [0, 1, 2, 3, 4, 5, 6, 7] }
    cons := [(0, { fetchCons with man := { fetchCons.man with fp := fp1, flags := 1, tag := 5 } })] }
def wP : Wave := { w0 with fp := fp1 }

/-- What an event leaves of wave 0: how it is, whether it is there, and how many contexts there are. -/
def lifeOf (t : State) : Nat := ((t.wave 0).map fun w => match w.life with
  | .running => 1 | .halted => 2 | .parked => 3 | .restored => 4 | _ => 5).getD 0

/-- Preemption: a request, the stop for the debugger and for the host (R369 to R373). -/
theorem test_preempt : still wP ∧ (s2 wP).rails = .on ∧ wP.resident = true ∧ ((s2 wP).con 0).map Cons.debug = some true ∧
    seen (exec (.preemptionRequest 0 [0] .debugger) (s2 wP)) (fun t => (t.core 0).preempt.flatMap Preempt.waves) = [0] ∧
    seen (exec (.preemptStopDeadline 0) { (s2 wP).onCore 0 (fun c => { c with preempt := [⟨[0], [0], .debugger, 0⟩] }) with now := 42000 }) (fun t =>
      [lifeOf t, t.ctxs.length]) = [2, 0] ∧
    seen (exec (.preemptStopDeadline 0) { (s2 wP).onCore 0 (fun c => { c with preempt := [⟨[0], [0], .hostPriority, 0⟩] }) with now := 42000 }) (fun t =>
      [lifeOf t, t.ctxs.length, (t.core 0).leases.length]) = [0, 1, 0] := by
  simp only [still]
  decide +kernel

/-- A saved context of wave 0, with one granule (R373, R374). -/
def ctx0 : Context := ⟨{ wP with life := .halted }, 0, true, [0], [(0, 7)], [], [], [], [], none, false⟩
def sX : State := { (s2 wP).onCore 0 (fun c => { c with leases := [] }) with waves := [], ctxs := [(3, ctx0)] }

theorem test_restore : sX.memOk = true ∧ (sX.con 0).bind (fun c => c.phys 0) = some 0 ∧ sX.coreReady 0 = true ∧
    ((planBack (sX.core 0).leases 0 0 ctx0.wave ctx0.granules).map Prod.snd) = some 0 ∧
    seen (exec (.contextRestore 3 0) sX) (fun t => [lifeOf t, t.ctxs.length, t.num 1 (spadKey 0 0)]) = [1, 0, 7] ∧
    seen (exec (.lateResponseToContext 0) { sX with resps := [⟨ctxBase + 3, 0, 0, 7, [], [], false, none, false, none, false, [], 0⟩] }) (fun t =>
      [t.resps.length] ++ t.ctxs.map fun x => x.2.answers.length) = [0, 1] := by decide +kernel

/-- Migrations: a request, an honour point, the deadline (R375, R376). -/
def mv (stopped : List Nat) : Migration := ⟨0, 0, 1, 2, 0, stopped, [(0, 96)], false⟩

theorem test_migration : ((s2 wP).unit 0 0).map Prod.fst = [0] ∧ (s2 wP).coreReady 1 = true ∧ routeRoom ((s2 wP).core 0) ((s2 wP).core 1) 0 0 = true ∧
    ((planUnit ((s2 wP).core 0) 1 ((s2 wP).core 1).leases ((s2 wP).unit 0 0)).map Prod.snd) = some [(0, 96)] ∧
    seen (exec (.migrationRequest 0 0 1 2) (s2 wP)) (fun t => t.moves.map Migration.target) = [1] ∧
    seen (exec (.honourPointStop 0) { s2 { wP with edge := .arrive } with moves := [mv []] }) (fun t => [lifeOf t] ++ t.moves.flatMap Migration.stopped) = [2, 0] ∧
    State.unitStopped { s2 wP with moves := [mv []] } (mv []) = false ∧
    seen (exec (.migrationDeadline 0 0) { s2 wP with moves := [mv []], now := 21000000 }) (fun t => (t.core 0).preempt.flatMap Preempt.waves ++
      t.moves.map fun m => if m.late then 1 else 0) = [0, 1] := by decide +kernel

/-- The move, once every wave has stopped; and a unit with no wave (R377 to R380). -/
def sMv : State := { s2 { wP with life := .halted } with moves := [mv [0]] }

theorem test_may_move : sMv.mayMove (mv [0]) (sMv.unit 0 0) = true ∧ sMv.coreOf 0 0 = 0 := by decide +kernel

theorem test_move : seen (exec (.migrationMove 0 0) sMv) (fun t => [t.moves.length, ((t.con 0).bind fun c => c.phys 0).getD 9, (t.core 0).stubs.length,
      t.migHead, if (t.wave 96).isSome then 1 else 0]) = [0, 1, 1, 1, 1] ∧
    seen (exec (.migrationMove 0 0) { sMv with waves := [] }) (fun t => [t.moves.length, t.migHead]) = [0, 0] := by decide +kernel

/-- A stub forwards, is acknowledged and goes (R378). -/
def sSt (un : List Nat) : State := { (s2 wP).onCore 0 (fun c => { c with stubs := [⟨0, 0, 1, un, 9, [0]⟩] }) with reqs := [rq (.mem .load) kS 0 0] }

theorem test_stub : (rq (.mem .load) kS 0 0).id < 9 ∧ homeIsSpad (rq (.mem .load) kS 0 0).home = true ∧ homeCore (rq (.mem .load) kS 0 0).home = 0 ∧
    seen (exec (.stubForward 0) (sSt [3])) (fun t => t.reqs.map Req.home) = [1001] ∧
    seen (exec (.tableUpdateAck 0 3) (sSt [3, 4])) (fun t => (t.core 0).stubs.flatMap Stub.unacked) = [4] ∧
    seen (exec (.stubRetire 0) (sSt [])) (fun t => [(t.core 0).stubs.length]) = [0] ∧
    seen (exec (.stubRetire 0) (sSt [3])) (fun t => [(t.core 0).stubs.length]) = [1] := by decide +kernel

/-! ## Power, heat and the module -/

/-- A telemetry frame (R384). -/
def frame (seq freq volt st : Nat) : List Byte :=
  let f := [0xD3, BitVec.ofNat 8 seq] ++ toBytes 4 freq ++ toBytes 4 volt ++ toBytes 2 st
  f ++ toBytes 4 (crc32 f)

/-- The booted module with this power controller. -/
def sPw (f : Power → Power) : State := { st w0 with pc := f Power.reset }

/-- Telemetry: a good frame, one with a wrong CRC, and a class that is shed (R384, R387, R389). -/
theorem test_frame : crc32 [0x31, 0x32, 0x33, 0x34, 0x35, 0x36, 0x37, 0x38, 0x39] = 0xCBF43926 ∧ frameValid (frame 5 50000 50000 0) = true ∧
    frameValid (frame 5 50000 50000 0 ++ [0]) = false ∧
    seen (exec (.telemetryFrame (frame 5 50000 50000 0)) (sPw id)) (fun t => [t.pc.seq, t.pc.freq, t.pc.allow.toNat, t.pc.cadc]) = [5, 50000, 4200, 1] ∧
    seen (exec (.telemetryFrame (frame 5 50000 50000 0 ++ [0])) (sPw id)) (fun t => [t.pc.crcErr]) = [1] ∧
    seen (exec (.telemetryFrame (frame 5 50000 50000 2)) { sPw (fun p => { p with actC := [(1, ⟨3500, 3600, 1⟩)] }) with waves := [(0, { w0 with pclass := 1 })] })
      (fun t => t.pc.shed ++ [t.pc.allow.toNat] ++ ((t.wave 0).map fun w => if w.shedding then 1 else 0).toList) = [1, 3000, 1] := by decide +kernel

/-- No frame for 500 µs; a COMMIT; a period of the limit loop; the applied cadence (R386 to R388, R391). -/
theorem test_power : seen (exec .telemetryStale { sPw (fun p => { p with stale := false, lastAt := some 0 }) with now := 10500000 }) (fun t =>
      [if t.pc.stale then 1 else 0, t.pc.allow.toNat]) = [1, 2500] ∧
    seen (exec .pcCommit (sPw fun p => { p with curveX := [0, 0] })) (fun t => [if t.pc.badCurve then 1 else 0]) = [1] ∧
    seen (exec .pcCommit (sPw id)) (fun t => [if t.pc.badCurve then 1 else 0, if t.pc.commit.isSome then 1 else 0]) = [0, 1] ∧
    seen (exec .limitLoopPeriod { sPw (fun p => { p with energy := 4200001 :: List.replicate 9 0 }) with now := 21000000 }) (fun t => [t.pc.cadl, t.pc.under]) = [2, 0] ∧
    seen (exec .limitLoopPeriod { sPw (fun p => { p with under := 9, cadl := 3 }) with now := 21000000 }) (fun t => [t.pc.cadl, t.pc.under]) = [2, 10] ∧
    seen (exec .cadenceApply (sPw fun p => { p with cadc := 3, cadl := 5 })) (fun t => [t.pc.cad]) = [5] := by decide +kernel

/-- A shed wave that has not parked, and a class restored (R390). -/
def sSh : State := { sPw (fun p => { p with shed := [1], shedAt := [(1, 0)], holdFrom := [(1, 0)], actC := [(1, ⟨3500, 3600, 500⟩)] }) with
  now := 10500000, waves := [(0, { wP with pclass := 1, shedding := true })] }

theorem test_shed : sSh.leadParked 0 { wP with pclass := 1, shedding := true } = false ∧
    seen (exec (.shedParkDeadline 0) sSh) (fun t => (t.core 0).preempt.flatMap Preempt.waves) = [0] ∧
    seen (exec (.classRestore 1) sSh) (fun t => [t.pc.shed.length] ++ ((t.wave 0).map fun w => if w.shedding then 1 else 0).toList) = [0, 0] := by decide +kernel

/-- BandsAndHeat: a throttled band, a sleep, an accumulator that wraps, its two halves (R392 to R396). -/
theorem test_bands : seen (exec (.bandRatioChange 0) { st w0 with bands := [(0, { (st w0).band 0 with throttle := true })] }) (fun t => [(t.band 0).ratio, t.clk 0]) = [1, 0] ∧
    seen (exec (.timedWaitDeadline 0) { st { w0 with park := .sleep 5 } with now := 105 }) (fun t => ((t.wave 0).map fun w => if w.park = .none then 1 else 0).toList) = [1] ∧
    seen (exec (.timedWaitDeadline 0) { st { w0 with park := .sleep 5 } with now := 104 }) (fun t => ((t.wave 0).map fun w => if w.park = .none then 1 else 0).toList) = [0] ∧
    seen (exec (.energyUpdate [2, 0, 0, 0, 0, 0, 0, 0, 0, 1]) (sPw fun p => { p with energy := (2 ^ 64 - 1) :: List.replicate 9 0 })) (fun t =>
      [t.pc.energy.getD 0 9, t.pc.energy.getD 9 9]) = [1, 1] ∧
    seen (exec (.energyLoRead 3 9) (sPw fun p => { p with energy := List.replicate 9 0 ++ [7 * 2 ^ 32 + 5] })) (fun t =>
      [((look t.reads 3).map BitVec.toNat).getD 0, t.pc.snap 3 9]) = [5, 7] := by decide +kernel

/-- Samples below, at and above the thresholds; a release; the thresholds' write (R397, R399, R400). -/
def hot (c : Int) : List Nat := seen (execTempSample 1535 c (st w0)) fun t =>
  [if (t.core 1535).warned then 1 else 0, if (t.band (bandOf 1535)).throttle then 1 else 0, if t.pc.critAt.isSome then 1 else 0, t.events.length]

theorem test_heat : hot 0x5EF = [0, 0, 0, 0] ∧ hot 0x5F0 = [1, 0, 0, 1] ∧ hot 0x690 = [1, 1, 0, 1] ∧ hot 0x730 = [1, 1, 1, 1] ∧
    seen (exec (.throttleRelease 2) { st w0 with bands := [(2, { (st w0).band 2 with throttle := true, coolSince := some 0 })], now := 21000000 }) (fun t =>
      [if (t.band 2).throttle then 1 else 0]) = [0] ∧
    seen (exec (.controlRegisterWrite true 0x090004000300 8 (0x0500 + 0x600 * 65536 + 0x731 * 2 ^ 32)) (st w0)) (fun t => [t.pc.warn, t.pc.throttle, t.pc.critical]) =
      [0x500, 0x600, 0x730] := by decide +kernel

/-- ModuleEvents: an emergency save from its start to its end, a trip, a module reset (R399 to R402). -/
theorem test_save : still w0 ∧ seen (exec .emergencySave (sPw fun p => { p with critAt := some 0 })) (fun t => (match t.rails with
      | .saving n i l => [n, i, l.length]
      | _ => []) ++ [lifeOf t]) = [1, 0, 1, 2] ∧
    State.saveOrder { sPw id with waves := [] } = [] ∧ keyIsHbm ((sPw id).pc.esKey 12) = false ∧ keyIsSpad ((sPw id).pc.esKey 15) = false ∧
    seen (exec .emergencySave { sPw id with rails := .saving 3 0 [], waves := [] }) (fun t => [if t.rails = .saved then 1 else 0, t.num 4 (t.pc.esKey 12)]) = [1, 3] := by
  simp only [still]
  decide +kernel

theorem test_power_loss : keyIsHbm kH = true ∧ keyIsSpad kS = true ∧
    seen (exec .hardTrip ((st w0).writeNum 8 kH 5)) (fun t => [if t.rails = .tripped then 1 else 0, t.num 8 kH, t.waves.length]) = [1, 0, 0] ∧
    seen (exec .moduleReset ((st w0).writeNum 8 kH 5)) (fun t => [if t.rails = .on then 1 else 0, t.num 8 kH, t.waves.length, t.pc.limit]) = [1, 5, 0, 4200] := by
  decide +kernel

/-- A unit that passes its test, a router that fails, a directory with one report, a restore (R409 to R411). -/
def sU : State := { st w0 with ready := { (st w0).ready with tested := [], hbm := [], ports := [], lpddr := [], service := [] } }

theorem test_self_test : unitExists (.stack 15) = true ∧ sU.barred (.stack 15) = false ∧ seen (exec (.selfTestDone (.stack 15) true) sU) (fun t => t.ready.hbm) = [15] ∧
    seen (exec (.selfTestDone (.engine 5 .route) true) sU) (fun t => t.ready.engines.filter fun n => n == engineBit 5 .route) = [23] ∧
    seen (exec (.selfTestDone (.router 0) false) sU) (fun t => t.bypass ++ t.ready.cores) = [0] ∧
    seen (exec .restartAfterSave (fill (sPw id) [((sPw id).pc.esKey 0, 4, 0x31445345), ((sPw id).pc.esKey 4, 4, 3), ((sPw id).pc.esKey 8, 4, 1),
      ((sPw id).pc.esKey 64, 8, 0x77), ((sPw id).pc.esKey 92, 4, 3)])) (fun t => t.restarts.flatMap fun r => [r.tag.toNat, r.complete, r.incomplete]) = [0x77, 1, 0] ∧
    seen (exec (.restoreRequest 5) { sX with restarts := [⟨5, 1, 0⟩], saved := [0], ctxs := [(3, { ctx0 with frozen := true })] }) (fun t =>
      [t.restarts.length] ++ t.ctxs.map fun x => if x.2.frozen then 1 else 0) = [0, 0] := by decide +kernel

/-- A bad firmware image, and nonces of 32 bytes and of 31 (R412, R413). -/
theorem test_dwenath : (st w0).dwen.recovery = false ∧ imageGood ⟨false, 0, 0, [], [], [], []⟩ = false ∧
    seen (exec (.firmwareVerify ⟨false, 0, 0, [], [], [], []⟩) (st w0)) (fun t => [if t.dwen.recovery then 1 else 0]) = [1] ∧
    seen (exec (.attestationRequest (List.replicate 32 0)) (st w0)) (fun t => [if t.dwen.report.isSome then 1 else 0]) = [1] ∧
    seen (exec (.attestationRequest (List.replicate 31 0)) (st w0)) (fun t => [if t.dwen.report.isSome then 1 else 0]) = [0] := by decide +kernel

/-! ## Witnesses for how a cycle began, and for what holds a word back -/

/-- StepRunsScalar, StepRunsLane: the wave has its slot, no row is due, and no placed function owns the lane word. -/
theorem test_slots :
    State.rowDue (State.timeS { boot 0x10000083 with agenda := [] } 0 w0) 0 = false ∧
    State.hasS ((((State.timeS { boot 0x10000083 with agenda := [] } 0 w0).settle 0).takeHeld 0).boundary 0) 0 = true ∧
    State.rowDue (State.timeL { State.reset.withFetchWord 96 0x100000400000002000000007 with agenda := [] } 0 (fetchWave State.reset true)) 0 = false ∧
    State.hasL (((State.timeL { State.reset.withFetchWord 96 0x100000400000002000000007 with agenda := [] } 0 (fetchWave State.reset true)).settle 0).takeHeld 0) 0
      = true ∧
    (State.reset.withFetchWord 96 0x100000400000002000000007).laneHeap 0 fetchCons 0 = none := by decide +kernel

/-- Consignment 0 with one function of one lane block of one word, and the function in the heap. -/
def cFn : Cons := { fetchCons with obj := { fetchCons.obj with flags := 1, sects := fetchCons.obj.sects ++ [(5, (0x5000, 8)), (11, (0x4000, 16))] } }
def sFn : State := { (st w0).writeNum 4 (storageKey 0x1400C 0 0 0) 1 with cons := [(0, cFn)], heap := ⟨0x100000, 0x10000, [(0, 0, 0x100000, 64)], []⟩ }

/-- StepRunsLane: a placed function owns lane word 0 (R29). -/
theorem test_lane_heap : fnLane (sFn.writeNum 2 (storageKey 0x15004 0 0 0) 1) 0 cFn.obj 0 = [0] ∧
    ((sFn.writeNum 2 (storageKey 0x15004 0 0 0) 1).laneHeap 0 cFn 0).isSome = true := by decide +kernel

/-- Two waves of which one waits for a place, in a partition that has swapped in this cycle. -/
def sYl : State := ((st w0).setWave 1 { w0 with sched := { w0.sched with active := false } }).setPart 0 0 { (st w0).part 0 0 with lastSwap := some 0 }

/-- StreamHolds: a partition that has already swapped in this cycle holds a `yield` (R110, R113). -/
theorem test_yield_twice : sYl.swapped 0 0 = true ∧ (sYl.longestPending 0 0).isSome = true ∧
    after (exec .yield sYl) (fun _ w => (w.spc, w.sched.active)) = some (0x11000, true) := by decide +kernel

/-- A wave whose operand log names the page at 0x20000. -/
def wPg : Wave := { wM with oplog := [⟨7, false, 0x11000, 0, .store, 8, false, [⟨0, 0, 0x20008, 0, 0⟩]⟩] }

/-- ScalarMemoryWords, ScalarMemoryFaults, SyncWords: a page that the log names or not (R243, R305). -/
theorem test_logged_page : scalarReady (st wM) (loadUse (st wM) wM 1 2 1 8 false).fields (loadUse (st wM) wM 1 2 1 8 false).reads (loadUse (st wM) wM 1 2 1 8 false).dst =
      some (wM, fetchCons) ∧
    isSpad 0x20000 = false ∧ wM.pageLogged 0x20000 = false ∧ wPg.pageLogged 0x20000 = true ∧ place (st wPg) fetchCons 0 0x20000 .read ≠ .fault ∧
    scalarReady (st wPg) [1, 2] [2] (some (1, lateLat)) = some (wPg, fetchCons) ∧
    after (exec (.lds64 1 2 0) (st wPg)) (fun t w => (w.oplog.length, t.reqs.length, t.faults.length)) = some (2, 0, 0) := by decide +kernel

/-- `xlat` of a pointer that is not canonical, and of one into a copy of `.data` (R15, R238). -/
theorem test_xlat_data : canonical 0xFE00000000000000 = false ∧ canonical 0x0100000000000000 = false ∧
    after (exec (.xlat 7 6) (st wM)) (fun _ w => ((look w.tbs 7).map TReg.limit, w.park)) = some (some 0, .xlat) ∧
    Cons.dataAt { fetchCons with dataBase := some 0x700000, obj := { fetchCons.obj with sects := fetchCons.obj.sects ++ [(4, (0x10000, 0x100))] } } 0x20004 =
      some 0x700004 := by decide +kernel

/-- Ordering: a posted request, an access far away, and a command that reads (R230, R294, R299). -/
theorem test_releases : (sR w0 (rq (.wake 1) kH 0 0)).releasedS 0 w0 .bd = false ∧ (rq (.wake 1) kH 0 0).kind.posted = true ∧ (rq (.wake 1) kH 0 0).home < 4000 ∧
    (st w0).releasedS 0 { wLoad with ops := wLoad.ops.map fun o => { o with far := 1 } } .pk = true ∧
    (st w0).releasedS 0 { wLoad with ops := wLoad.ops.map fun o => { o with far := 1 } } .sy = false := by decide +kernel

/-- Rings: a handle that another word of the cycle has changed is seen as the cycle began (R130). -/
theorem test_ring_cycle : (Wave.ringsSeen { wQ 0 with rings0 := (wQ 4).rings, ringsAt := some 0 } 0) = (wQ 4).rings ∧
    after (exec (.qpop 0 1) (st { wQ 3 with rings0 := (wQ 4).rings, ringsAt := some 0 })) (fun _ w => (look w.rings 0).map Ring.filled) = some (some 2) ∧
    after (exec (.qpop 0 1) (st { wQ 3 with rings0 := (wQ 0).rings, ringsAt := some 0 })) (fun _ w => w.spc) = some 0x11000 := by decide +kernel

/-- LaunchSpawn: an earlier `launch` waits for the queue's next slot (R71). -/
theorem test_launch_order : (sQ 0 w0).launchAhead 0 9 = false ∧
    ((sQ 0 w0).setWave 5 { w0 with park := .launch 0 0 [] }).launchAhead 0 ((sQ 0 w0).setWave 5 { w0 with park := .launch 0 0 [] }).nextId = true ∧
    (sQ 0 w0).releasedS 0 w0 .pk = true ∧
    after (exec (.launch 1 2) ((sQ 0 w0).setWave 5 { w0 with park := .launch 0 0 [] })) (fun t _ => (t.queue 0).tail) = some 0 := by decide +kernel

/-- EngineWords: room in the inbox and in the scoreboard, and a quarter operation that finds none there (R222). -/
theorem test_quarter_room : (st w0).spansFit (quarterSpan cX) = true ∧
    ((st w0).onCore 0 fun c => { c with spans := List.replicate 16 ⟨1, 0, 1, true, 0⟩ }).spansFit (quarterSpan (qr .counter)) = false ∧
    after (exec (.mxStream 1 2) ((st (wE 0x1000 0)).onCore 0 fun c => { c with spans := List.replicate 16 ⟨1, 0, 1, true, 0⟩ }))
      (fun t w => (t.held.length, w.park)) = some (1, .inbox 1) := by decide +kernel

/-- CrossLane, Conversions: words that write one part of their destination are ready (R171). -/
theorem test_part_ready : (laneReady (st (wL 1 2 3 4)) { la 3 1 0 .f16 with c := 4 } ⟨.dst, .src, .none, .none, true, false, id, 8⟩ (fieldMask 4 (1 * 2) 2)).isSome = true ∧
    (laneReady (st (wL 1 2 3 4)) { la 3 1 0 .f16 with c := 9 } ⟨.dst, .src, .none, .none, false, false, id, 6⟩ (BitVec.allOnes 32)).isSome = true ∧
    (laneReady (st (wL 1 2 3 4)) { la 3 1 0 .i8 with c := 4 } ⟨.dst, .src, .none, .none, false, false, id, 6⟩ (fieldMask 8 0 1)).isSome = true := by decide +kernel

/-- LaneMemoryWords: a load whose destination is a pipe's slot counts as a load and a store (R129). -/
def wPi : Wave := { wL 0x100 2 0x200 4 with rings := [(2, ⟨true, 0x4000, 4, 0, 0, 0, 0, .producer 1 5, 0, 0, 0, false⟩)] }

theorem test_pipe_load : after (exec (.vlds (lm 322 1 0 0 .raw)) ((st wPi).setWave 1 w0)) (fun _ w => w.ops.map OutOp.ctr) = some [.st, .ld] := by decide +kernel

/-- RequestsApply: bytes without and with an uncorrectable error; a third refusal draws a ticket of the queue (R253, R288). -/
def sWq (r : Req) : State :=
  { sR w0 r with wqs := (List.range (queueCap (homeOf kH))).map fun i => (homeOf kH, i + 5, 0) }

theorem test_refused : (∀ a ∈ (rq (.mem .load) kS 0 0).accs, (st w0).memBad a.key (rq (.mem .load) kS 0 0).size = false) ∧
    State.memBad { st w0 with badMem := [kS / 32] } kS 8 = true ∧ (rq (.mem .load) kS 0 0).fromPeer = false ∧
    left (exec (.scratchpadRequestArrival 0) { sR w0 (rq (.mem .load) kS 0 0) with badMem := [kS / 32] }) (fun t =>
      t.resps.map fun r => (r.vals.length, r.failed.length)) = some [(0, 1)] ∧
    left (exec (.homeRequestApply 0) (sWq (rq (.mem .store) kH 9 0))) (fun t => t.reqs.map fun r => (r.retryAt, look r.refusals (resQueue (homeOf kH)), r.tickets.length)) =
      some [(32, some 1, 0)] ∧
    left (exec (.homeRequestApply 0) (sWq { rq (.mem .store) kH 9 0 with refusals := [(resQueue (homeOf kH), 2)] })) (fun t =>
      t.reqs.map fun r => look r.tickets (resQueue (homeOf kH))) = some [some 0] := by decide +kernel

/-- HomeUpkeep: an entry with three misses, two of them before this cycle (R248). -/
theorem test_hotness : (State.hotness { st w0 with hot := [(5, ⟨[3, 3, 0, 0, 0], [2, 2, 0, 0, 0], [1, 1, 0, 0, 0], 0⟩)] } 5).counts.length = 5 ∧ (st w0).hotClk 5 = 0 ∧
    left (exec (.hotnessClear 0 5) { st w0 with hot := [(5, ⟨[3, 3, 0, 0, 0], [2, 2, 0, 0, 0], [1, 1, 0, 0, 0], 0⟩)] }) (fun t => (t.hotness 5).counts) = some [1, 1, 0, 0, 0] := by
  decide +kernel

/-- BarrierRequests, AddressWaits: a request of this module at the front, an engine's additions, a late acknowledgement of an arrive whose
wait was given up (R276, R279). -/
theorem test_sync_at : (rq (.await false) kS 0 0).fromPeer = false ∧ (sR w0 (rq (.await false) kS 0 0)).fromKilled (rq (.await false) kS 0 0) = false ∧
    (st w0).parkUsed (homeOf kS) + 1 + 2 ≤ 128 ∧ barGives (barWord 0 5000 1 false false) (.engineAdd 4096 false false) = barWord 4096 5000 1 false false ∧
    barGives (bar 0) (.engineAdd 4096 false false) = bar 0 ∧ barGives (bar 0) (.engineAdd 4096 true false) = bar 1 ∧
    left (exec (.arriveAck 0) { st { w0 with acks := [0x20000], park := .barrier .bd 5 0x20000 7 none } with
      resps := [⟨0, 0, 0, 7, [], [], false, some 0x20000, true, none, false, [], 0⟩] }) (fun t => (t.reqs.map fun r => r.kind, (t.wave 0).map Wave.park)) =
      some ([.await true], some (.barrier .bd 5 0x20000 7 (some true))) := by decide +kernel

/-- Two members of a gang, of which the second's code is malformed. -/
def cGg (a r : Nat) : Cons := { cG a with man := { (cG a).man with gang := 1, gsize := 2, role := r }, gangCids := [5, 6] }
def sGg : State := { sD (cGg 0x10000 0) with cons := [(0, fetchCons), (5, cGg 0x10000 0), (6, cGg 0x20000 1)] }

/-- QueuesAndDispatch: the members of a gang fail with their own status, or with 6 (R60). -/
theorem test_gang : (sGg.gangOf 5 (cGg 0x10000 0)).map Prod.fst = [5, 6] ∧ (cGg 0x10000 0).gangCids.Nodup ∧ (sGg.queue 0).en = true ∧
    (match checkAll sGg ((sGg.gangOf 5 (cGg 0x10000 0)).filter fun e => e.2.stage == .granted) with
      | .ok rs => rs.map Checked.status
      | .error _ => []) = [0, 2] ∧
    seen (exec (.dispatch 5) sGg) (fun t => [5, 6].flatMap fun i => ((t.con i).map Cons.status).toList) = [6, 2] := by decide +kernel

/-- Dispatch of a queue that is not enabled (R54). -/
theorem test_not_enabled : ((sD (cG 0)).onQueue 0 fun q => { q with en := false }).con 5 = some (cG 0) ∧
    seen (exec (.dispatch 5) ((sD (cG 0)).onQueue 0 fun q => { q with en := false })) (fun t => t.faults.map fun _ => 1) = [] := by decide +kernel

/-- Consignment 5 with groups of two waves. -/
def cWd : Cons := { cP [] with man := { (cP []).man with width := 128 } }
def sWd : State := { sD cWd with dies := [(0, { (st w0).die 0 with queue := [5] })] }

/-- PlacementAndEnd: the waves of a width group, and their skew (R67, R105). -/
theorem test_width : (sWd.headPlan 0).map (fun x => x.2.2.2.2.2.map Prod.fst) = some [1, 24] ∧ dieOf 0 = 0 ∧ sWd.asksTask 0 = false ∧
    seen (exec (.wavePlacement 0) sWd) (fun t => [1, 24].flatMap fun n => ((t.wave n).map fun w =>
      (w.convoy.width.map fun x => [x.1, x.2.1, x.2.2]).getD [] ++ [w.convoy.skew]).getD []) = [1, 0, 2, 2, 1, 1, 2, 2] := by decide +kernel

/-- A gang of consignments 5 and 6, each of one wave, with pipe 0 from q2 of the first to q5 of the second. -/
def cPi (r b : Nat) (g : Stage) : Cons :=
  { cP [0] with stage := g, handled := [1, 2, 3], gangCids := [5, 6], man := { (cP [0]).man with gang := 1, gsize := 2, role := r, pipes := [b] } }
def wPi5 : Wave := { w0 with cid := 5, life := .clearing }
def wPi6 : Wave := { w0 with cid := 6, life := .clearing, pipeRun := some (0x3000, 1) }
def sPi : State := { sP [0] with
  cons := [(5, cPi 0 (0x8000 + 2 * 32) .placing), (6, cPi 1 (0x8000 + 16 + 5 * 32) .placed)]
  waves := [(1, wPi5), (2, wPi6)] }

/-- PlacementAndEnd: with the last rows of a gang both ends of its pipe are ready (R63). -/
theorem test_pipes_ready : (cPi 0 (0x8000 + 2 * 32) .placing).gangCids = [5, 6] ∧ ((sPi).die 0).queue = [5] ∧
    seen (exec (.wavePlacement 0) sPi) (fun t => [1, 2].flatMap fun n => ((t.wave n).map fun w => w.rings.flatMap fun e => [e.1, e.2.base]).getD []) =
      [2, 0x3000, 5, 0x3000] := by decide +kernel

/-- PlacementAndEnd: a drained wave with a logged store gives up its rows, and the store stays with its core; a done word is told; the rotation of the engines has not
served in this cycle (R69, R74, R76). -/
theorem test_drained : Wave.storesLogged wPg = true ∧ ((st w0).core 0).turnAt = none ∧
    seen (exec (.rowRelease 0) (st { wPg with life := .draining false })) (fun t => [t.waves.length, (t.core 0).orphans.length] ++ (t.core 0).leases.flatMap fun l => [l.kind, l.row]) =
      [0, 1] ∧
    place (st w0) fetchCons 0 0x20000 .write = .at kH ∧
    seen (exec (.consignmentCompletion 0) { st w0 with waves := [], cores := [], cons := [(0, { fetchCons with live := 0, man := { fetchCons.man with done := 0x20000 } })] })
      (fun t => t.reqs.flatMap fun r => [r.home, if r.kind = .completion false then 1 else 0]) = [homeOf kH, 1] := by decide +kernel

/-- PlacementAndEnd: a heap from which no stub reaches any place (R29, R30). -/
theorem test_heap_full (n : Nat) : CodeHeap.room ⟨0x100000, 0x10000, [], [(0, 3, 0x100000000)]⟩ n (jumpReaches 0x100000000) = none := by
  simp [CodeHeap.room, CodeHeap.taken, jumpReaches]
  omega

/-- SwapsAndPipes: what a report changes is not seen in its cycle (R129, R130). -/
theorem test_report_seen : seen (exec (.pipePushReport 0 2) sZ) (fun t => ((t.wave 1).bind fun w => (look (w.ringsSeen (t.clkOf 1)) 5).map fun r => [r.tail]).getD []) = [2] := by
  decide +kernel

/-- ConvoyEvents: a member that has exited gets no entry, nor one of an earlier publication (R99, R103). -/
theorem test_split_gone : Wave.receives { wDep with life := .draining false } = false ∧ wDep.receives = true ∧ wDep.convoy.gen = ((sLd wDep (wLead .none) []).core 0).chan.gen ∧
    seen (exec (.splitEntryWrite 0) (sLd { wDep with life := .draining false } (wLead .none) [])) (fun t => (t.core 0).chan.splits.map Split.wave) = [] ∧
    seen (exec (.splitEntryWrite 0) ((sLd wDep (wLead .none) []).onCore 0 fun c => { c with chan := { c.chan with gen := 7 } })) (fun t =>
      ((t.wave 0).map fun w => if w.convoy.role = .lost then 1 else 0).toList) = [1] := by decide +kernel

/-- PageFaults: an access on its way holds a shootdown back, and one elsewhere does not (R242). -/
theorem test_shoot_busy : (sR w0 (rq (.mem .load) kH 0 0)).shootBusy 0 0x20000 0x20FFF = true ∧ (sR w0 (rq (.mem .load) kH 0 0)).shootBusy 0 0x30000 0x30FFF = false ∧
    seen (exec (.shootdown 0 0x20000 0x20FFF) (sR w0 (rq (.mem .load) kH 0 0))) (fun t => [t.reqs.length]) = [1] := by decide +kernel

/-- CopyEngine: a chunk tells a barrier its bytes; a failing chunk writes each word or not (R265, R277, R289). -/
theorem test_chunk_add : seen (exec (.chunkCommit 0) (sC fun c => { c with cpRun := some ⟨cmd .copy (.bar 0x200) (.copy (.fill 0 0 2)), 0, [kOk], 0, false, none, [], 0, 0⟩ }))
      (fun t => t.reqs.flatMap fun r => [r.home, if r.kind = .engineAdd 2 true false then 1 else 0]) = [1000, 1] ∧
    kOk.wordOf kS = kOk.wordOf (kS + 1) ∧ 0 + 2 ≤ 4096 ∧
    seen (exec (.commitErrorResponse 0 []) (sCp (.fill 0 0 2) [kBad])) (fun t => [t.num 2 kS]) = [0] := by decide +kernel

/-- MatrixEngine: the engine has no plane and no load, and its wave has seen its handles in no cycle yet (R130, R203). -/
theorem test_mx_free : mx0.load = none ∧ mx0.slot0 = none ∧ mx0.slot1 = none ∧ mx0.pass = [] ∧ w0.ringsAt = none ∧ w0.takesRows = true ∧
    (∀ r ∈ mx0.pass, r.cmd.wave = 0 → r.entered = none ∨ r.written = true) := by decide +kernel

/-- Channel 5 with these fields. -/
def sCh (x : Option RecvHalf) (f : Channel → Channel) (m : List RouteMsg) : State :=
  (sR5 x m id).onCore 0 fun c => { c with rt := { c.rt with chans := c.rt.chans.map fun e => (e.1, f e.2) } }

/-- RouteRows: a message whose table is not closing; a slot freed in this cycle is not seen, and the RETRY policy leaves two slots to
tickets; what the cycle began with holds a batch back (R288, R323, R326). -/
theorem test_route_cycle : (State.table (sR5 (some (rh 1 0 0 (bd true 0))) [row false] id) 0 (tagFields tag1).1).closing = false ∧
    seen (exec (.routedRowArrival 0) (sCh (some (rh 4 1 1 (bd true 0))) (fun x => { x with was := some (0, ⟨true, false, 4, 0, 0, none, false⟩) }) [row false]))
      (fun t => t.routeMsgs.map RouteMsg.refusals) = [1] ∧
    seen (exec (.routedRowArrival 0) (sR5 (some (rh 2 0 0 (bd true 0))) [row false] (rt2 { tbl .routing [.sent, .absent] with desc := { od with policy := 2 } } none)))
      (fun t => t.routeMsgs.map RouteMsg.refusals) = [1] ∧
    seen (exec (.batchDispatch 0 5) (sCh (some (rh 1 0 0 (bd true 0))) (fun x => { x with was := some (0, ⟨false, false, 1, 0, 0, none, false⟩) }) []))
      (fun t => [t.reqs.length]) = [0] := by decide +kernel

/-- RouteTables: a route that waits for its row's slot, and a channel without a send half (R333). -/
theorem test_route_waits : seen (exec (.rtRouteExecute 0) (sR5 none [{ row false with cmd := 9 }] (rt2 (tbl .routing [.absent, .absent])
      (some ⟨cmd .route .counter (.rtRoute 2 0x4000 0x5000), 1, []⟩)))) (fun t => ((t.core 0).rt.run.map RouteRun.next).toList) = [1] ∧
    (row false).back = false := by decide +kernel

theorem test_route_dropped : seen (exec (.rtRouteExecute 0) ((sR5 none [] (rt2 (tbl .routing [.absent, .absent]) (run2 0))).writeNum 4 (spadKey 0 0x5000) 0x00060007))
      (fun t => ranks t ++ (t.die 0).log.map fun e => e.2.cause) = [3, 0, 0x10] ∧
    seen (exec (.rtRouteExecute 0) ((sR5 none [] (rt2 (tbl .routing [.absent, .absent])
      ((run2 0).map fun r => { r with used := [((5, 1), 200)] }))).writeNum 4 (spadKey 0 0x5000) 0x00050007))
      (fun t => ranks t ++ ((t.core 0).rt.run.map RouteRun.next).toList) = [3, 0, 1] := by decide +kernel

/-- RouteTables: the timer while its command still routes, and a table that closes (R329, R335). -/
theorem test_timer_running : seen (exec (.tableTimeout 0 2) { sR5 none [] (rt2 (tbl .routing [.sent, .absent]) (run2 1)) with now := 5 }) (fun t =>
      ranks t ++ [if (t.core 0).rt.run.isSome then 1 else 0, opsOf t]) = [4, 4, 0, 0] ∧
    seen (exec (.tableTimeout 0 2) (sR5 none [] (rt2 { tbl .routing [.sent, .arrived] with closing := true, deadline := none } none))) ranks = [4, 2] ∧
    (tbl .routing [.arrived, .dropped]).posted = 0 ∧ (tbl .routing [.arrived, .dropped]).acks = 0 := by decide +kernel

/-- A region of kind `k` of two bands by two at the corner of die 0. -/
def rg (k : Nat) : Region := ⟨k, 0, 0, 0, 1, 1, true⟩

/-- MeshAndExchange: routers of a ring and of a tree, an overlay, its absence, a region's word (R343, R344). -/
theorem test_overlay : ((rg 1).snake fun _ => false).length = 16 ∧ 0 ∈ (rg 1).snake (fun _ => false) ∧ 5 ∈ (rg 2).snake (fun _ => false) ∧
    State.overlay { st w0 with regions := [(3, rg 1)] } 0 5 = some (rg 1) ∧ State.overlay (st w0) 0 5 = none ∧
    ((rg 1).path (fun _ => false) none 0 5).isSome = true ∧ ((rg 2).path (fun _ => false) none 0 5).isSome = true ∧
    (rg 3).word = 0x110007 ∧ regionOf 0x110007 = rg 3 ∧
    look (State.controlRead { st w0 with regions := [(3, rg 1)] } false (0x090002000000 + 8 * 3)).reads (0x090002000000 + 8 * 3) = some 0x110003 := by decide +kernel

/-- QueuesAndDispatch, BandsAndHeat: what control registers read as (R8, R9, R53). -/
theorem test_control_reads : look ((sQ 1 w0).controlRead false 0x090001000008).reads 0x090001000008 = some 0x111 ∧
    look ((sQ 1 w0).controlRead false 0x090001000028).reads 0x090001000028 = some 0 ∧
    look ((st w0).controlRead false 0x090004000300).reads 0x090004000300 = some (wordN (0x5F0 + 0x690 * 65536 + 0x730 * 2 ^ 32)) := by decide +kernel

/-- ModuleEvents: a router that goes down while its test fails is on again, without power gating (R342). -/
theorem test_router_bypass : SelfTestUnit.router 0 ∉ sU.ready.tested ∧ sU.ready.cores.Pairwise (· < ·) ∧
    seen (exec (.selfTestDone (.router 0) false) { sU with routers := [(0, .off)], now := 12 }) (fun t => match t.router 0 with
      | .on d => [d]
      | _ => []) = [12] := by decide +kernel

/-- Preemption: nothing marks a safe point in an object without one, and a safe point with nothing open saves what is live (R21, R22). -/
def sSafe : State := { s2 wP with cons := ((s2 wP).cons.map fun e => (e.1, { e.2 with obj := { e.2.obj with sects := e.2.obj.sects ++ [(6, (0x3000, 8)), (7, (0x3100, 96))] } })) }

theorem test_safe_now : ((s2 wP).settle 0).safeNow 0 = none ∧
    ((sSafe.writeNum 1 (storageKey 0x13100 0 0 0) 4).settle 0).safeNow 0 = some 4 := by decide +kernel

/-- Migrations: a request of the unit that the stub forwards (R378). -/
theorem test_stub_unit : (sSt [3]).ofStub ⟨0, 0, 1, [3], 9, [0]⟩ (rq (.mem .load) kS 0 0) = true ∧ homeCore (rq (.mem .load) kS 0 0).home = 0 := by decide +kernel

/-- ModuleEvents: of two events in one cycle the one of the lower core has the lower sequence number; the seventieth unread entry sets OVF
(R406, R408). -/
def r406 (p : Nat) : LogRec := ⟨p, 0, 0, 0, p, 0, 0, 1, false, false, false, 0, 0, 0⟩

theorem test_log_order : (((((st w0).log 0 (r406 40)).log 0 (r406 12)).die 0).log.map fun e => (e.2.pcore, e.2.seq)) = [(12, 0), (40, 1)] ∧
    (((((st w0).log 0 (r406 40)).passTime 24).log 0 (r406 12)).die 0).log.map (fun e => (e.2.pcore, e.2.seq)) = [(40, 0), (12, 1)] ∧
    (((List.range 70).foldl (fun s _ => s.log 0 (r406 0)) (st w0)).die 0).ovf = true := by decide +kernel

/-- ModuleEvents: placement sees a core that has just become ready from the next cycle on (R410). -/
theorem test_ready_next : (seen (exec (.selfTestDone (.core 9) true) { sU with ready := { sU.ready with cores := [], engines := [36, 37, 38, 39], tested := [.router 9] } }) fun t =>
    [(t.coreReady 9).toNat, ((t.passTime (t.now + 12)).coreReady 9).toNat]) = [0, 1] := by decide +kernel

/-- Migrations: a record follows when the first wave of the moved unit goes on (R380). -/
def mv9 : Moved := ⟨5, 0, ⟨7, 0, 5, 0, 0, false, false, 1, 0, 0⟩⟩

theorem test_move_record : State.standsStill { st { w0 with life := .restored } with moved := [mv9] } { mv9 with cid := w0.cid } = true ∧
    (State.logMoved { st w0 with moved := [{ mv9 with cid := w0.cid }], now := 2100 }).migLog.map (fun e => e.2.ns) = [100] := by decide +kernel


/-- CallsReturns: an empty stack, a frame on top, a misaligned call, a round whose lanes have all gone with its frame under it, a round with
a live lane, and one whose target is misaligned. -/
def wRound (m : Word) (a : Nat) : Wave := { wCallv with stack := [⟨.round, 1, m⟩, ⟨.frame, a, 3⟩] }
theorem test_ret_traps : (popRet (st (wStack 0)) 0 (wStack 0)).isNone = true ∧
    (popRet (st { w0 with stack := [⟨.frame, 0x11040, 3⟩] }) 0 { w0 with stack := [⟨.frame, 0x11040, 3⟩] }).map (fun x => x.1.kind) = some .frame ∧
    after (exec .ret (st (wStack 0))) (fun _ w => (w.spc, w.life)) = some (0x11000, .draining true) ∧
    after (exec .ret (st (wRound 0 0x11040))) (fun _ w => (w.spc, w.lmask, w.stack)) = some (0x11044, 3, []) ∧
    after (exec .ret (st (wRound 2 0x11040))) (fun _ w => (w.spc, w.lmask, w.stack)) =
      some (0x11004, 2, [⟨.round, 1, 0⟩, ⟨.frame, 0x11040, 3⟩]) ∧
    scalarReady (st (wRound 2 0x11040)) [] [] none = some (wRound 2 0x11040, fetchCons) ∧
    (wRound 2 0x11040).vOk 1 = true := by decide +kernel

/-- VectorCalls: a register outside the wave's, a misaligned target, one outside `.scalar`, a full stack, and a push that spills. -/
theorem test_callv_traps : wCallv.vOk 400 = false ∧
    callvFails [(0, 8), (1, 6)] 64 = some (3, 2, 6) ∧ callvFails [(0, 8), (1, 64)] 64 = some (4, 2, 64) ∧
    fetchCons.debug = false ∧
    ({ wCallv with stack := (wStack 15).stack, spilled := wCallv.fp.stack / 64 } : Wave).roomForTwo = false ∧
    (pushRet (st wCallv) 0 { wCallv with stack := (wStack 16).stack } ⟨.frame, 0x11000, 3⟩).map (fun x => x.2.2) = some true := by
  decide +kernel

/-- Exit: a wave with a block to finish, one that waits for an acknowledgement, one whose barrier has a place, and a lead. -/
theorem test_exit_forms : 0 < wBlk.lbusy ∧
    after (exec .exit (st wBlk)) (fun _ w => (w.life, w.sched.holdS)) = some (.running, .stall) ∧
    after (exec .exit (st { w0 with acks := [1] })) (fun t w => (w.life, (t.con 0).map Cons.exited)) = some (.exiting false, some 0) ∧
    (leaveFault (st wB) fetchCons 0 wB.members) = none ∧
    after (exec .exit (st wB)) (fun t w => (w.life, t.reqs.map Req.kind)) = some (.draining false, [.leave 5 false false]) ∧
    after (exec .exit ((st w0).onCore 0 fun c => { c with chan := ⟨some 0, [], 0, 1, 0⟩ })) (fun t w => (w.life, (t.core 0).chan.lead)) =
      some (.draining false, none) := by decide +kernel


/-- SyncWords: a misaligned address, one outside the mapped space, an absent page, a page that the log names, a count with a high bit, a ninth
barrier, a barrier not joined, and an arrive behind a load. -/
theorem test_sync_stops : (syncAddr (st wM) wM (.await .bd 2 3)) = some ([2, 3], 0x20000, 8) ∧
    scalarReady (st wM) [2, 3] [2, 3] none = some (wM, fetchCons) ∧
    after (exec (.wake 8 3) (st { wM with regs := { wM.regs with s := [(8, 0x20008)] } })) (fun _ w => w.life) = some (.draining true) ∧
    after (exec (.await .bd 6 3) (st wM)) (fun _ w => w.life) = some (.draining true) ∧
    after (exec (.await .bd 5 3) (st wM)) (fun t w => (w.spc, w.park, t.faults.length)) = some (0x11000, .pageFault false 0x40000000, 1) ∧
    after (exec (.await .bd 2 3) (st wPg)) (fun _ w => (w.spc, w.sched.holdS)) = some (0x11000, .long) ∧
    after (exec (.arrive .bd 2 6) (st wM)) (fun _ w => w.life) = some (.draining true) ∧
    after (exec (.bjoin 2 1) (st { wM with members := List.replicate 8 ⟨0x30000, 1, false, false⟩ })) (fun t w => (w.life, t.reqs.length)) =
      some (.draining true, 8) ∧
    after (exec (.bleave 2) (st wM)) (fun _ w => w.life) = some (.draining true) ∧
    after (exec (.bleave 2) (st { wB with acks := [0x20000] })) (fun t w => (w.spc, w.sched.holdS, t.reqs.length)) = some (0x11000, .long, 0) ∧
    after (exec (.arrive .bd 2 3) (st { wM with ops := wLoad.ops })) (fun t w => (w.spc, w.sched.holdS, t.reqs.length)) =
      some (0x11000, .long, 0) := by decide +kernel

/-- Rings: a reserved bit, one slot, a run outside the wave's registers, a pipe's handle, one where a command replies, an invalid handle, more
slots than the ring has, and a consumer's push. -/
theorem test_ring_stops : after (exec (.qinit 3 1 2) (st { wQ 0 with regs := { w0.regs with s := [(1, 0x208), (2, 4)] } })) (fun _ w => w.life) =
      some (.draining true) ∧
    after (exec (.qinit 3 1 2) (st { wQ 0 with regs := { w0.regs with s := [(1, 8), (2, 1)] } })) (fun _ w => w.life) = some (.draining true) ∧
    (wQ 0).runOk 500 8 = false ∧
    after (exec (.qinit 0 1 2) (st { wQ 0 with rings := [(0, ⟨false, 8, 4, 0, 0, 0, 1, .none, 0, 0, 0, false⟩)] })) (fun _ w => w.sched.holdS) = some .long ∧
    after (exec (.qinit 0 1 2) (st { wQ 0 with rings := [(0, ⟨false, 8, 4, 0, 0, 0, 0, .consumer 1 0, 0, 0, 0, false⟩)] })) (fun _ w => w.life) =
      some (.draining true) ∧
    after (exec (.qpush 5 1) (st (wQ 0))) (fun _ w => w.life) = some (.draining true) ∧
    after (exec (.qpop 0 5) (st (wQ 4))) (fun _ w => w.life) = some (.draining true) ∧
    after (exec (.qpush 0 1) (st { wQ 0 with rings := [(0, ⟨false, 8, 4, 0, 0, 0, 0, .consumer 1 0, 0, 0, 0, false⟩)] })) (fun _ w => w.life) =
      some (.draining true) := by decide +kernel

/-- ConvoyWords: a channel that another wave leads, a second `chpub`, a width convoy's, a channel beyond 1535, the lead's `rdv`, and a wave that
left without an entry. -/
theorem test_convoy_stops : after (exec .chpub ((st w0).onCore 0 fun c => { c with chan := ⟨some 5, [], 0, 1, 0⟩ })) (fun _ w => w.life) =
      some (.draining true) ∧
    after (exec .chpub ((st w0).onCore 0 fun c => { c with chan := ⟨some 0, [], 0, 1, 0⟩ })) (fun t w => (w.spc, (t.core 0).chan.gen)) =
      some (0x11004, 1) ∧
    after (exec (.chleave 9 4) (st { w0 with convoy := { w0.convoy with width := some (0, 1, 2) } })) (fun _ w => w.life) = some (.draining true) ∧
    after (exec (.chsub 9 1 2) (st (wR [(1, 1536)]))) (fun _ w => w.life) = some (.draining true) ∧
    after (exec (.rdv 9 2) ((st (wC .lead)).onCore 0 fun c => { c with chan := ⟨some 0, [⟨7, 0, 0, 9, false, false⟩], 0, 1, 0⟩ }))
      (fun _ w => (w.spc, w.park)) = some (0x11000, .rdvLead 9 (some 100) [7]) ∧
    after (exec (.rdv 9 2) (st (wC .lost))) (fun _ w => w.life) = some (.draining true) := by decide +kernel

/-- LaunchSpawn: a queue number beyond 2047, a misaligned manifest, a queue that takes no device submission, a count of 0 and an entry at the
end of `.scalar`. -/
theorem test_launch_stops : after (exec (.launch 1 2) (st (wR [(2, 2048)]))) (fun _ w => w.life) = some (.draining true) ∧
    after (exec (.launch 1 2) (st (wR [(1, 64)]))) (fun _ w => w.life) = some (.draining true) ∧
    after (exec (.launch 1 2) (st w0)) (fun _ w => w.life) = some (.draining true) ∧
    after (exec (.spawn 1 2 3) (st (wR [(2, 0x10)]))) (fun _ w => w.life) = some (.draining true) ∧
    after (exec (.spawn 1 2 3) (st (wR [(2, BitVec.ofNat 64 (0x0000_0001_0000_0000 + fetchCons.obj.scalarSize))]))) (fun _ w => w.life) =
      some (.draining true) := by decide +kernel


/-- CallsReturns: a spill writes the fifth to the second newest entries' chunk, and a pop with none held reads the newest of them back (R88). -/
def wDeep : Wave := { wStack 0 with stack := (List.range 16).map fun i => ⟨.call, 4 * i, wordN i⟩ }

theorem test_spill_back : (st wDeep).memOk = true ∧ wDeep.stack.length = 16 ∧ (∀ r ∈ wDeep.stack, r.addr < 2 ^ 57) ∧
    ((pushRet (st wDeep) 0 wDeep ⟨.call, 8, 1⟩).bind fun x => popRet x.1 0 { wDeep with stack := [], spilled := 1 }).map
      (fun y => (y.1, y.2.1.stack, y.2.2)) = some (⟨.call, 48, 12⟩, [⟨.call, 52, 13⟩, ⟨.call, 56, 14⟩, ⟨.call, 60, 15⟩], true) := by decide +kernel

/-- CallsReturns: a call that spills is held for 12 cycles before it has its effect, and then has it (R88, R382). -/
theorem test_spill_hold : after (exec (.callr 2 1) (st (wStack 16))) (fun _ w => (w.spc, w.stack.length, w.sched.readyS, w.sched.spill)) =
      some (0x11000, 16, 12, some 12) ∧
    after (exec (.callr 2 1) (st { wStack 16 with sched := { (wStack 16).sched with spill := some 0 } })) (fun _ w => (w.spc, w.stack.length, w.spilled)) =
      some (0x11104, 13, 1) := by decide +kernel

/-- TrapEntry: under a debugger a hazard stops the wave at its word, and another cause goes to the handler (R358). -/
def cDbg : Cons := { fetchCons with debugger := true }

theorem test_debugger : toDebugger cDbg 7 = true ∧ toDebugger cDbg 10 = true ∧ toDebugger cDbg 6 = false ∧ toDebugger fetchCons 7 = false ∧ usable cDbg 0x11020 ∧
    (((State.takeTrap { st wH with cons := [(0, cDbg)] } 0 ⟨7, true, false, 0, 5, 3, 0, none, none⟩).wave 0).map
      fun w => (w.life, w.spc, w.ctl.xcause, w.ctl.xmask)) = some (.halted, 0x11000, 0x107, 3) := by
  exact ⟨by decide, by decide, by decide, by decide, ⟨rfl, by decide, by decide⟩, by decide +kernel⟩

/-- TrapEntry, HandlerEntryReturn: a sleep that a lane trap interrupts waits under the handler, and comes back with the return (R364, R367). -/
theorem test_under : (((st { wH with park := .sleep 9 }).takeTrap 0 ⟨6, true, false, 0, 0, 1, 0, none, none⟩).wave 0).map
      (fun w => (w.spc, w.park, w.under)) = some (0x11020, .none, .sleep 9) ∧
    after (exec .xretRedo (st { wX 0x106 0x11008 with under := .sleep 9 })) (fun _ w => (w.park, w.under)) = some (.sleep 9, .none) := by decide +kernel


/-- Conversions: values of the formats, and conversions worked out by hand (R134 to R145). -/
theorem test_convert : Ty.isFloat .f32 = true ∧ 0xC0000000 % 2 ^ Ty.f32.fmt.sign ≤ Ty.f32.fmt.maxFin ∧ Ty.isIntSource .i8 = true ∧ Ty.isIntSource .t2 = true ∧
    convert .i8 .i16 .rne true false 300 = (127, 0) ∧ convert .i8 .i16 .rne false false 300 = (44, 0) ∧
    convert .i8 .f32 .rne false false 0x40200000 = (2, 0x10) ∧ convert .i8 .f32 .rup false false 0x40200000 = (3, 0x10) ∧
    convert .i8 .f32 .rna false false 0x40200000 = (3, 0x10) ∧ convert .i8 .f32 .rz false false 0x447A0000 = (127, 1) ∧
    convert .i8 .f32 .rne false false 0x7FC00000 = (0, 1) ∧ convert .i8 .f32 .rne false false 0xFF800000 = (0x80, 1) ∧
    convert .t2 .f32 .rne false false 0xBF400000 = (3, 0x10) ∧ convert .i8 .t2 .rne false false 2 = (0, 1) := by decide +kernel

theorem test_convert_float : convert .e8m0 .f32 .rz false false 0x40400000 = (128, 0x10) ∧ convert .e8m0 .f32 .rup false false 0x40400000 = (129, 0x10) ∧
    convert .e8m0 .f32 .rne false false 0 = (255, 1) ∧ convert .f32 .e8m0 .rne false false 128 = (0x40000000, 0) ∧
    convert .f16 .f32 .rne false false 0x477FF000 = (0x7C00, 0x14) ∧ convert .f16 .f32 .rz false false 0x477FF000 = (0x7BFF, 0x10) ∧
    convert .f16 .f32 .rne true false 0x477FF000 = (0x7BFF, 0x14) ∧ convert .f16 .f32 .rne false false 0x7F800001 = (0x7E00, 1) ∧
    convert .e4m3 .f32 .rne false false 0xFF800000 = (0x7F, 1) ∧ convert .e4m3 .f32 .rne true false 0xFF800000 = (0xFE, 1) ∧
    convert .f16 .f32 .rne false true 0x35800000 = (0, 0x18) ∧ convert .f16 .f32 .rne false false 0x35800000 = (0x0010, 0) := by decide +kernel

/-- Conversions, codebooks: entries 1.0, 2.0 and otherwise 0 or a NaN (R146). -/
def cbk (x : Nat) : BitVec 256 := BitVec.ofNat 256 (0x40003F80 + ((List.range 14).map fun i => x * 65536 ^ (i + 2)).sum)

theorem test_nearest : nearest (Ty.f32.fmt.value 0x3FCCCCCD) (cbk 0) = (1, 0x10) ∧ nearest (Ty.f32.fmt.value 0x3FC00000) (cbk 0) = (0, 0x10) ∧
    nearest (Ty.f32.fmt.value 0x3F800000) (cbk 0) = (0, 0) ∧ nearest (.inf false) (cbk 0) = (1, 0) ∧ nearest (.inf true) (cbk 0) = (2, 0) ∧
    nearest (.nan true) (cbk 0) = (0, 1) ∧ nearest (.nan true) (cbk 0x7FC0) = (2, 1) ∧ nearest (.inf true) (cbk 0x7FC0) = (0, 0) ∧
    nearest (.inf false) (BitVec.ofNat 256 (((List.range 16).map fun i => 0x7FC0 * 65536 ^ i).sum)) = (0, 1) := by decide +kernel

/-- A wave whose `tb3` covers the page at 0x20000, with the offsets of lanes 0 and 3. -/
def wTb (a b : W32) : Wave := { wL a 2 b 4 with tbs := [(3, ⟨0x20000, 0x20000, 0x1000, ⟨true, true, true, 0, false, 0, 0, 0, false⟩⟩)] }

/-- What a lane memory word sends and leaves: the lanes of its requests, of its answers, of an answer with errors, and of the log. -/
def lanesSent (s : State) (i : Instr) : List (List Nat) := match exec i s with
  | .next t => t.reqs.map (fun r => r.accs.map Acc.lane) ++ t.resps.map (fun r => r.vals.map Prod.fst ++ r.failed.map Prod.fst) ++
      [(((t.wave 0).map Wave.oplog).getD []).flatMap fun g => g.lanes.map Acc.lane, [t.faults.length]]
  | _ => []

/-- LaneMemoryWords: two lanes of one sector, one lane's page absent, one lane's page logged already, one refused, a sector that the
snapshot holds (R241 to R246, R252, R256). -/
theorem test_lane_pages : lanesSent (st (wTb 0 4)) (.vld (lm 3 1 0 3 .raw)) = [[0, 3], [], [0]] ∧
    lanesSent (st (wTb 0 0x20)) (.vld (lm 3 1 0 3 .raw)) = [[0], [3], [], [0]] ∧
    lanesSent (st (wTb 0 0x3FFE0000)) (.vld (lm 3 1 0 3 .raw)) = [[0], [3], [1]] ∧
    lanesSent (st { wTb 0 0x3FFE0000 with oplog := [⟨7, false, 0x11000, 0, .store, 8, false, [⟨5, 0, 0x20008, 0, 0⟩]⟩] }) (.vld (lm 3 1 0 3 .raw)) = [[5, 0, 3], [1]] ∧
    lanesSent ((st (wTb 0 0x20)).onCore 0 fun c => { c with snap := [(storageKey 0x20000 0 0 0 / 32, List.replicate 32 7)] }) (.vld (lm 3 1 0 3 .raw)) =
      [[3], [0], [], [0]] ∧
    lanesSent (st (wTb 0 0x20)) (.vst (lm 0 1 2 3 .raw)) = [[0], [3], [], [0]] := by decide +kernel


/-- LaneMemoryWords: a lane whose local address lies outside the wave's scratchpad is refused (R246, R252). -/
theorem test_lane_refused : lanesSent (st (wL 0x100 2 0x7FFFFFFC 4)) (.vlds (lm 3 1 0 0 .raw)) = [[0], [3], [], [0]] := by decide +kernel

/-- WidePermute: the lead of a width convoy of two waves, and the member that issues after it, which reads the sources (R178). -/
def sVx : State :=
  (st { wL 5 0 6 64 with width := 128, convoy := { w0.convoy with width := some (0, 0, 2) } }).setWave 24
    { wL 7 0 8 64 with width := 128, convoy := { w0.convoy with width := some (0, 1, 2) } }
def vxOf (t : State) (n : Nat) : Option (Bool × Option Dest) := (t.wave n).map fun w => (w.convoy.permX.isSome, w.pend.head?.map Landing.dest)

theorem test_perm_wide : (match exec (.vpermX { la 3 1 2 .raw with c := 340 }) sVx with
      | .next t => (vxOf t 0, match exec (.vpermX { la 3 1 2 .raw with c := 340 }) { (t.onWave 24 fun w => { w with regs := { w.regs with v := put w.regs.v 64 9 } }) with cur := 24 } with
        | .next u => (vxOf u 0, vxOf u 24)
        | _ => (none, none))
      | _ => (none, none, none)) =
      (some (true, some (.vreg 3 (BitVec.allOnes 32) [(0, 5), (3, 7)])), some (false, some (.vreg 3 (BitVec.allOnes 32) [(0, 5), (3, 9)])),
        some (false, some (.vreg 3 (BitVec.allOnes 32) [(0, 5), (3, 9)]))) ∧
    (sVx.widthMembers 0).all (fun e => e.1 == 0 || e.2.convoy.fifo.isEmpty && e.2.convoy.hops.isEmpty) = true := by decide +kernel

/-- RequestsApply: a chain of two lanes' additions at one word, and a sum in F32 rounded once to even (R273 to R275). -/
def r2 (k : MemKind) (x y : Word) : Req := { rq (.mem k) kS 0 0 with size := 4, accs := [⟨0, kS, 0x20000, x, 0⟩, ⟨5, kS, 0x20000, y, 0⟩] }
def applied2 (i : Instr) (k : MemKind) (x y : Word) (m : Nat) : Option (Nat × List Word) :=
  left (exec i ((sR w0 (r2 k x y)).writeNum 4 kS m)) fun t => (t.num 4 kS, (t.resps.flatMap Resp.vals).map Prod.snd)

theorem test_chain : (sR w0 (r2 (.amo .add) 3 4)).memOk = true ∧ applied2 (.scratchpadRequestArrival 0) (.amo .add) 3 4 10 = some (17, [10, 13]) ∧
    applied2 (.scratchpadRequestArrival 0) .store 3 4 10 = some (4, []) ∧ applied2 (.scratchpadRequestArrival 0) (.red .maxS) 0xFFFFFFFF 4 10 = some (10, []) ∧
    applied2 (.scratchpadRequestArrival 0) (.amo .fadd) 0x3F800000 0x33800000 0x40000000 = some (0x40400000, [0x40000000, 0x40400000]) := by decide +kernel

/-- RequestsApply: a granule that is being cleared for another wave takes no access of an ended one (log 22). -/
theorem test_performed : ((rq (.mem .load) kS 0 0).accs.filter fun a => !(st w0).stale (rq (.mem .load) kS 0 0) a).length = 1 := by decide +kernel


/-- AnswersLand: an answer out of the snapshot waits for its cycle and for an open store of another wave (R256, R258). -/
def rHit (nb : Nat) (bh : List Nat) : Resp := ⟨0, 0, 0, 7, [(0, 9)], [], false, none, false, none, false, bh, nb⟩

theorem test_answer_waits : (sR w0 (rq (.mem .store) kH 0 0)).respWaits (rHit 1 []) = true ∧
    (sR w0 (rq (.mem .store) kH 0 0)).respWaits (rHit 0 [(rq (.mem .store) kH 0 0).id]) = true ∧ (st w0).respWaits (rHit 0 [5]) = false ∧
    left (exec (.loadResponse 0) { st (wO .ld (.sreg 5 8 false)) with resps := [rHit 1 []] }) (fun t => t.resps.length) = some 1 ∧ w0.landed = [] := by decide +kernel

/-- AnswersLand: a result that raises an enabled exception lands, and takes its word's trap with the lanes that raised it (R149, R150). -/
def wFp : Wave := { wH with pend := [⟨0, true, 3, some 9, .vreg 2 (BitVec.allOnes 32) [(0, 7), (3, 8)], 0x11, 8, 1, 6⟩] }

theorem test_fp_trap : wFp.ctl.hmode = false ∧ usable fetchCons 0x11020 ∧ (8 : Word) ≠ 0 ∧ (0 : Nat) ≤ (st wFp).clk 0 ∧
    seen (exec (.resultLanding 0) (st wFp)) (fun t => ((t.wave 0).map fun w =>
      [w.spc, w.ctl.xcause.toNat, w.ctl.xmask.toNat, w.ctl.xlpc.toNat, w.ctl.fpflags.toNat, (lookD w.regs.v 131 0).toNat, w.pend.length]).getD []) =
      [0x11020, 0x106, 8, 6, 0x111, 8, 0] :=
  ⟨by decide, ⟨rfl, by decide, by decide⟩, by decide, by decide +kernel, by decide +kernel⟩

/-- ConvoyWords: `chsub` takes the wave's split entry out of the table at its lead's core, wherever that is (R99, R100). -/
theorem test_split_taken : after (exec (.chsub 9 1 2) ((st (wC .none)).onCore 5 fun c => { c with chan := { c.chan with splits :=
      [⟨0, 0, 0x11000, 7, false, false⟩, ⟨24, 0, 0x11000, 7, false, false⟩] } })) (fun t w => (w.convoy.role, (t.core 5).chan.splits.map Split.wave)) =
      some (.pending 7 9 100, [24]) ∧ ((st (wC .none)).rS (wC .none) 1).toNat = 7 := by decide +kernel

/-- QueuesAndDispatch: a head held back by a dependence word is no candidate, one that waited for something else is (R56, R57); the gang's
members go together (R60, R62). -/
theorem test_dep_held : ((sQ 1 w0).queues.map fun e => e.2.depHeld) = [false] ∧
    left (exec .arbiterGrant ((sQ 1 w0).onQueue 0 fun q => { q with depHeld := true })) (fun t => (t.queue 0).inFlight) = some 0 ∧
    left (exec .arbiterGrant ((sQ 1 w0).onQueue 0 fun q => { q with blocked := true })) (fun t => (t.queue 0).inFlight) = some 1 ∧
    (cG 0x10000).ganged = false ∧ (cGg 0x10000 0).ganged = true ∧ ((sQ 1 w0).queue 0).used ≠ 0 ∧ (sQ 1 w0).dwen.recovery = false := by decide +kernel

/-- QueuesAndDispatch: the entry for an object that cannot be read names the first byte that cannot (R60). -/
theorem test_dispatch_lost : left (exec (.dispatch 5) (sD (cG 0x0100000000000000))) (fun t => (t.die 0).log.map fun e => (e.2.cause, e.2.addr, e.2.src)) =
    some [(4, 0x0100000000000000, 7)] := by decide +kernel

/-- QueuesAndDispatch: a queue that is not enabled reads no dependence word again (R54, R57). -/
theorem test_reread_off : left (exec (.dependenceReread 0) { (sQ 1 w0).onQueue 0 (fun q => { q with en := false, depHeld := true, reread := 0 }) with now := 3072 })
    (fun t => (t.queue 0).depHeld) = some true := by decide +kernel

/-- PlacementAndEnd: nothing is placed while the module saves its waves (R401); a spawn answers −1 only where it finds no rows; the rotation
of the target core serves it (R69). -/
theorem test_rails_placement : (sP []).rails = .on ∧ (sP []).asksSpawn 0 = false ∧ (sS 1).rails = .on ∧ (sS 1).asksTask 0 = false ∧ ((sS 1).core 0).turnAt = none ∧
    seen (exec (.wavePlacement 0) { sP [] with rails := .saving 1 0 [] }) (fun t => t.waves.map Prod.fst) = [0] ∧
    seen (exec (.spawnAnswer 0) { sS 1 with rails := .saving 1 0 [] }) (fun t => [t.waves.length]) = [1] ∧
    seen (exec (.waveStart 0) { st { w0 with life := .clearing } with rails := .saving 1 0 [] }) (fun t =>
      ((t.wave 0).map fun w => if w.life = .clearing then 1 else 0).toList) = [1] := by decide +kernel

/-- ConvoyEvents: a published instruction whose cycle has not come stays in flight (R96); the limit of a wave that does not run waits (R393). -/
def wHop (d : Nat) : Wave := wV fun c => { c with role := .member 0, hops := [⟨false, 0x01000000, 0x11000, 0, none, none, 0, d, false⟩] }

theorem test_hop_due : ([1, 0].map fun d => seen (exec (.publishedArrival 0) (st (wHop d))) fun t =>
      ((t.wave 0).map fun w => [w.convoy.hops.length, w.convoy.fifo.length]).getD []) = [[1, 0], [0, 1]] ∧
    seen (exec (.rdvTimeout 0) { st { wV (fun c => { c with role := .departed 0 }) with life := .halted, park := .rdvMember 7 (some 0) } with now := 2100 })
      (fun t => ((t.wave 0).map fun w => if w.park = .rdvMember 7 (some 0) then 1 else 0).toList) = [1] ∧
    seen (exec (.rdvTimeout 0) { st { (wV fun c => { c with role := .departed 0 }) with ctl := wH.ctl, park := .rdvMember 7 (some 0) } with now := 2100 })
      (fun t => ((t.wave 0).map fun w => w.ctl.xcause.toNat).toList) = [9] := by decide +kernel


/-- FaultsAndTraps: a replay with no orphan due, and a shootdown that waits for an engine's request to a peer module (R242, R243). -/
def rEng : Req := { rq (.mem .store) 0x800000000000 0 0 with wave := 147456 }

theorem test_shoot_peer : (st (wLg 0x20000)).orphanDue 0 = none ∧ w0.under = .none ∧ rEng.fromPeer = false ∧ rEng.home = 5000 ∧ fetchCons.aspace = 0 ∧
    rEng ∈ (sR w0 rEng).openReqs ∧
    seen (exec (.shootdown 0 0x20000 0x20FFF) ((sR w0 rEng).onCore 0 fun c => { c with tlb := [⟨0, 0x20000, 0x1000, 0x20000, attrOf 31⟩] }))
      (fun t => [(t.core 0).tlb.length]) = [1] := by decide +kernel

/-- FaultsAndTraps: a lane trap does not wait for the scalar stream's park, whose own trap stays held (R361). -/
theorem test_trap_free : seen (exec (.trapEntry 0) (st { w0 with park := .sleep 9
                                                                 ctl := { w0.ctl with handler := some 0x11008, held := [⟨4, false, 9, 2, 0, none⟩, ⟨6, true, 5, 1, 0, none⟩] } }))
      (fun t => ((t.wave 0).map fun w => [w.spc, w.ctl.xcause.toNat % 256, w.ctl.held.length]).getD []) = [0x11008, 6, 1] ∧
    toDebugger fetchCons 6 = false := by decide +kernel

/-- CopyAndLongVector: the engine of a halted wave stops at the chunk boundary (R370); a long-vector command that has read what it needs holds
no read entry (R187, R267); an error of it leaves the consignment's error flag (R197). -/
def halt0 (s : State) : State := s.setWave 0 { wQu with life := .halted }

theorem test_engine_halted : (halt0 (sCp (.fill 0 0x20000 10) [])).issuerHalted (cmd .copy .counter (.copy (.fill 0 0x20000 10))) = true ∧
    (sCp (.fill 0 0x20000 10) []).issuerHalted (cmd .copy .counter (.copy (.fill 0 0x20000 10))) = false ∧
    seen (exec (.chunkFetch 0) (halt0 (sCp (.fill 1 0x20000 10) []))) (fun t => chunkOf t) = [] ∧
    seen (exec (.chunkCommit 0) (halt0 (sCp (.fill 0 0 2) [kOk]))) (fun t => [t.num 2 kS]) = [0] ∧
    seen (exec (.scoreboardEntryRemove 0) ((sLv 0 0x100 lv3).onCore 0 fun c => { c with spans := [⟨9, 0, 11, false, 0⟩, ⟨9, 0x100, 0x11F, true, 0⟩] }))
      (fun t => (t.core 0).spans.map Span.lo) = [0x100] ∧
    (((sLv 0xF0000 0x100 []).readLv 0).con 0).map Cons.error = some false := by decide +kernel

/-- MatrixEngine: a halted wave's row stays before the aligner (R226, R370). -/
theorem test_row_halted : seen (exec (.rowEntersAligner 0) (halt0 ((sM { mx0 with pass := [rw0 none .counter false], slot0 := some plane8 }).writeNum 2 (spadKey 0 0) 0x0403)))
      (fun t => (t.core 0).mx.pass.map fun r => if r.entered = none then 1 else 0) = [1] ∧
    (sM mx0).issuerHalted (qr .counter) = false ∧ quiet (sM mx0) 0 wQu := by
  exact ⟨by decide +kernel, by decide +kernel, rfl, by simp [show wQu.landed = [] by decide]⟩

/-- RouteRows: a flush time that passes within a cycle counts from the next (R323, R324). -/
theorem test_flush_cycle : ([21, 24].map fun n => seen (exec (.batchDispatch 0 5) { sR5 (some (rh 1 0 0 { bd true 1 with thresh := 2 })) [] id with now := n })
      fun t => [t.reqs.length]) = [[0], [2]] ∧
    seen (exec (.batchDispatch 0 5) { sCh (some (rh 1 0 0 { bd true 1 with thresh := 2 })) (fun x => { x with was := some (1, ⟨true, false, 1, 0, 0, some 0, false⟩) }) [] with now := 21 })
      (fun t => [t.reqs.length]) = [0] := by decide +kernel

/-- RouteTables: an open whose bytes go to a peer replies when that has answered (R331); a closing table sends nothing more (R329); a table
whose status goes to a peer is told the status first (R336). -/
def sPeer (s : State) : State := s.onCore 0 fun c => { c with tlb := [⟨0, 0x20000, 4096, 0x800000000000, attrOf 31⟩] }
def opening (n : Nat) (s : State) : State := s.onCore 0 fun c => { c with rt := { c.rt with
  opening := some (cmd .route .counter (.rtOpen 2 od)), tables := [(2, { tbl .opened [.absent, .absent] with acks := n })] } }

theorem test_open_peer : seen (exec (.rtOpenExecute 0) (sPeer (sR5 none [] fun r => { r with inbox := [cmd .route .counter (.rtOpen 2 od)] }))) (fun t =>
      [if (t.table 0 2).state = .opened then 1 else 0, if (t.core 0).rt.opening.isSome then 1 else 0, opsOf t]) = [1, 1, 1] ∧
    seen (exec (.rtOpenExecute 0) (opening 1 (sR5 none [] id))) (fun t => [if (t.core 0).rt.opening.isSome then 1 else 0, opsOf t]) = [1, 1] ∧
    seen (exec (.rtOpenExecute 0) (opening 0 (sR5 none [] id))) (fun t => [if (t.core 0).rt.opening.isSome then 1 else 0, opsOf t]) = [0, 0] := by decide +kernel

theorem test_close_order : seen (exec (.rtRouteExecute 0) (sR5 none [] (rt2 { tbl .routing [.absent, .absent] with closing := true } (run2 0))))
      (fun t => ranks t ++ ((t.core 0).rt.run.map RouteRun.next).toList) = [0, 0, 0] ∧
    seen (exec (.tableClose 0 2) (sPeer (sR5 none [] (rt2 { tbl .routing [.arrived, .dropped] with wrote := 1 } none)))) (fun t =>
      [(t.table 0 2).posted, if (t.table 0 2).state = .closed then 1 else 0]) = [1, 0] ∧
    (sPeer (sR5 none [] (rt2 { tbl .routing [.arrived, .dropped] with wrote := 1 } none))).settled 0 2 = true := by decide +kernel


/-- MeshAndExchange: the offer of a halted wave does not arrive (R351); what an exchange that pairs will write is known (R115, R350); a new
request wakes the routers of its route (R347). -/
theorem test_exchange_halted : seen (exec (.xchOfferArrival 0) { st { w0 with life := .halted } with offers := [off 1 0 0 1 false none] }) (fun t =>
      t.offers.map fun o => if o.arrived then 1 else 0) = [0] ∧
    seen (exec (.xchOfferArrival 1) { st (wXc 1) with offers := [off 2 96 1 0 true none, off 1 0 0 1 false none] }) (fun t => ((t.wave 0).map fun w =>
      w.ops.map fun o => if o.dest = .vals (.vreg 2 (BitVec.allOnes 32) [(0, 7)]) then 1 else 0).getD []) = [1] := by decide +kernel

def sOff (rs : List Req) : State := { st w0 with nextId := 0, reqs := rs, routers := [(0, .off)] }

theorem test_wakes : newPackets (sOff []) (sOff [rq (.mem .load) kS 0 0]) = [(0, 0)] ∧
    (st w0).routeOf 0 0 = [0] ∧ (st w0).routeOf 0 1 = [0, 1] ∧
    (match ((sOff []).wakeRoutes (sOff [rq (.mem .load) kS 0 0])).router 0 with
      | .goingUp n d => [n, d]
      | _ => []) = [6, 0] := by decide +kernel

/-- Links: a replay counts for its flit and for every later one; a later one's seventeenth retrains; a port that fails to retrain gives its
flits to another (R354); with 512 records a request is discarded (log 36). -/
theorem test_replays : seen (exec (.linkNakReplay 23 4) (sPt { Port.reset with unacked := [(4, 7), (5, 8)], replays := [(4, 3)] })) (fun t =>
      [4, 5].map fun q => lookD (lookD t.ports 23 Port.reset).replays q 0) = [4, 1] ∧
    seen (exec (.linkNakReplay 23 4) (sPt { Port.reset with unacked := [(4, 7), (5, 8)], replays := [(5, 16)] })) port = [0, 0, 2, 1, 16] ∧
    seen (exec (.portRetrain 23 true) (sPt { Port.reset with retrain := true, unacked := [(4, 7)], replays := [(4, 16)] })) port = [0, 0, 1, 0] ∧
    seen (exec (.portRetrain 23 false) (sPt { Port.reset with retrain := true, unacked := [(4, 7)] })) (fun t =>
      (lookD t.ports 4 Port.reset).unacked.flatMap fun x => [x.1, x.2]) = [0, 7] ∧
    asked { Peer.reset with records := (List.range 512).map fun i => (i + 1, some []) } 600 (.store kS 4 8) = [0, 0, 0, 6] := by decide +kernel

/-- Preemption: two requests for one wave, each with its own source and time; a held trap is taken before the stop (R361, R369, R370). -/
def wPt : Wave := { wP with ctl := { w0.ctl with handler := some 0x11020, held := [⟨4, false, 9, 2, 0, none⟩] } }

theorem test_preempt_twice : seen (exec (.preemptionRequest 0 [0] .debugger) ((s2 wP).onCore 0 fun c => { c with preempt := [⟨[0], [0], .hostPriority, 0⟩] }))
      (fun t => (t.core 0).preempt.map fun x => if x.source = .debugger then 1 else 2) = [2, 1] ∧ (s2 wP).leadRuns 0 wP = false ∧ wP.convoy.width = none ∧
    seen (exec (.preemptStopDeadline 0) { (s2 wPt).onCore 0 (fun c => { c with preempt := [⟨[0], [0], .debugger, 0⟩] }) with now := 42000 }) (fun t =>
      [lifeOf t] ++ ((t.wave 0).map fun w => [w.spc, w.ctl.xcause.toNat % 256, w.ctl.held.length]).getD []) = [2, 0x11020, 4, 0] := by decide +kernel

/-- Migrations: the stub names the granules that the unit's waves had on the old core (R378). -/
theorem test_stub_granules : seen (exec (.migrationMove 0 0) (sMv.onCore 0 fun c => { c with leases := [⟨4, 0, 0, 0, false⟩, ⟨0, 0, 0, 0, false⟩] })) (fun t =>
      (t.core 0).stubs.flatMap Stub.granules) = [0] ∧
    ((sSt []).onCore 0 fun c => { c with cpRun := some (rCp (.fill 0 0 8)) }).stillRunning 0 0 0 = 1 ∧
    seen (exec (.stubRetire 0) ((sSt []).onCore 0 fun c => { c with cpRun := some (rCp (.fill 0 0 8)) })) (fun t => [(t.core 0).stubs.length]) = [1] := by decide +kernel

/-- Telemetry: in the stale state a write of FAILSAFE or of LIMIT changes the allowance at once (R387); a class restored lets a parked wave
go on (R390). -/
theorem test_stale_write : (Power.reset.stale = true) ∧
    seen (exec (.controlRegisterWrite true 0x090004000010 8 (2000 * 2 ^ 32)) (sPw id)) (fun t => [t.pc.allow.toNat]) = [2000] ∧
    seen (exec (.controlRegisterWrite true 0x090004000000 8 (1500 + 2200 * 2 ^ 16 + 1980 * 2 ^ 32 + 3000 * 2 ^ 48)) (sPw id)) (fun t => [t.pc.allow.toNat]) = [1500] ∧
    seen (exec (.classRestore 1) { sSh with waves := [(0, { wP with pclass := 1, shedding := true, life := .parked })] }) (fun t => [lifeOf t]) = [1] := by decide +kernel

/-- BandsAndHeat: a sleep under a handler ends at its deadline (R394). -/
theorem test_sleep_under : seen (exec (.timedWaitDeadline 0) { st { w0 with under := .sleep 5 } with now := 105 }) (fun t =>
    ((t.wave 0).map fun w => if w.under = .none then 1 else 0).toList) = [1] := by decide +kernel

/-- ModuleEvents: the save writes a context and marks its entry, passes over a wave that has ended; a consignment with an incomplete wave is
recorded with status 1 (R400, R401, R411). -/
def sSv (l : List (Nat × Option Nat)) : State := { sX with rails := .saving 3 0 l }

theorem test_save_steps : (sSv []).memOk = true ∧
    (sSv [(0, some 3)]).rails = .saving 3 0 [(0, some 3)] ∧ look (sSv [(0, some 3)]).ctxs 3 = some ctx0 ∧
    seen (exec .emergencySave (sSv [(0, none)])) (fun t => match t.rails with
      | .saving n i _ => [n, i]
      | _ => []) = [3, 1] ∧
    seen (exec .emergencySave (sSv [])) (fun t => [if t.rails = .saved then 1 else 0]) = [1] := by decide +kernel

def sRs : State := fill { sX with restarts := [⟨5, 0, 1⟩], saved := [0], ctxs := [(3, { ctx0 with frozen := true })] } [(sX.pc.esKey 4, 4, 3)]

theorem test_give_up : sRs.savedCons 5 = [0] ∧ sRs.atRest 0 = true ∧ sRs.incompleteOf 0 = 1 ∧ State.incompleteOf (fill sRs [(sX.pc.esKey 92, 4, 3)]) 0 = 0 ∧
    seen (exec (.restoreRequest 5) sRs) (fun t => [t.restarts.length, t.ctxs.length]) = [0, 0] ∧
    seen (exec (.restoreRequest 5) (fill sRs [(sX.pc.esKey 92, 4, 3)])) (fun t => [t.restarts.length, t.ctxs.length]) = [0, 1] ∧
    seen (exec .moduleReset sRs) (fun t => t.cons.map Prod.fst) = [0] := by decide +kernel

/-- ModuleEvents: a core's bit waits for its router's test, in either order (R409, R410). -/
def sU9 (g : List Nat) (us : List SelfTestUnit) : State := { sU with ready := { sU.ready with cores := [], good := g, tested := us } }

theorem test_core_router : seen (exec (.selfTestDone (.core 9) true) (sU9 [] [])) (fun t => t.ready.cores ++ t.ready.good) = [9] ∧
    seen (exec (.selfTestDone (.core 9) true) (sU9 [] [.router 9])) (fun t => t.ready.cores) = [9] ∧
    seen (exec (.selfTestDone (.router 9) true) (sU9 [9] [.core 9])) (fun t => t.ready.cores) = [9] ∧
    seen (exec (.selfTestDone (.router 9) true) (sU9 [] [.core 9])) (fun t => t.ready.cores) = [] ∧ sU.bypass = [] ∧
    unitExists (.core 9) = true ∧ (sU9 [] []).barred (.core 9) = false := by decide +kernel

/-- ModuleEvents: a corrected error is counted, and management reads a core's sample and the restart reports (R406, R411, R414). -/
theorem test_management_reads : (((st w0).corrected 2).die 2).ce = 1 ∧ (look (((st w0).onCore 9 fun c => { c with temp := -5 }).tempRead 9).reads (2 ^ 48 + 9)) = some (-5) ∧
    look (State.restartRead { st w0 with restarts := [⟨5, 3, 1⟩] } 5).reads (2 ^ 64 + 5) = some 0x100000003 := by decide +kernel


end Sys2Proof.Tests
end

section
/-! Numbers in memory (R7): the little-endian bytes of a number, and what is read after a number was written. -/

namespace Sys2Proof.Machine

/-! ## The bytes of a number -/

@[simp] theorem toBytes_length : ∀ n v : Nat, (toBytes n v).length = n
  | 0, _ => rfl
  | n + 1, v => by rw [toBytes, List.length_cons, toBytes_length n]

/-- The lowest byte and the bytes of the quotient make up the number, as far as the bytes reach. -/
theorem ofBytes_toBytes : ∀ n v : Nat, ofBytes (toBytes n v) = v % 2 ^ (8 * n)
  | 0, v => by rw [Nat.mul_zero, Nat.pow_zero, Nat.mod_one]; rfl
  | n + 1, v => by
    calc ofBytes (toBytes (n + 1) v)
        = v % 256 + 256 * (v / 256 % 2 ^ (8 * n)) := by
          rw [toBytes, ofBytes, ofBytes_toBytes n, BitVec.toNat_ofNat]
      _ = v % (256 * 2 ^ (8 * n)) := Nat.mod_mul.symm
      _ = v % 2 ^ (8 * (n + 1)) := by rw [Nat.mul_succ, Nat.pow_add, Nat.mul_comm]

theorem toBytes_getD : ∀ n v j : Nat, j < n → (toBytes n v).getD j 0 = BitVec.ofNat 8 (v / 2 ^ (8 * j))
  | 0, _, _, h => absurd h (Nat.not_lt_zero _)
  | n + 1, v, 0, _ => by simp [toBytes]
  | n + 1, v, j + 1, h => by
    rw [toBytes, List.getD_cons_succ, toBytes_getD n (v / 256) j (by omega), Nat.div_div_eq_div_mul,
      show 256 * 2 ^ (8 * j) = 2 ^ (8 * (j + 1)) by rw [Nat.mul_succ, Nat.pow_add, Nat.mul_comm]]

/-! ## Reading after writing -/

/-- Bytes written are read back from where they were written. -/
theorem Memory.getN_setN (bs : List Byte) (m : Memory) (k : Nat) (h : m.wf = true) : (m.setN k bs).getN bs.length k = bs := by
  refine List.ext_getElem (Memory.getN_length _ _ _) fun j hj hb => ?_
  have hread := Memory.getN_getD (m.setN k bs) bs.length k j hb
  rw [Memory.get_setN bs m k (k + j) h, if_pos (by omega), Nat.add_sub_cancel_left] at hread
  rwa [List.getD_eq_getElem _ _ hj, List.getD_eq_getElem _ _ hb] at hread

/-- A number reads back, cut to the bytes that hold it. -/
theorem Memory.num_setNum (m : Memory) (n k v : Nat) (h : m.wf = true) : (m.setNum n k v).num n k = v % 2 ^ (8 * n) := by
  have hbytes := Memory.getN_setN (toBytes n v) m k h
  rw [toBytes_length] at hbytes
  rw [Memory.num, Memory.setNum, hbytes, ofBytes_toBytes]

theorem Memory.get_setNum_inside (m : Memory) (n k v j : Nat) (h : m.wf = true) (hj : j < n) :
    (m.setNum n k v).get (k + j) = BitVec.ofNat 8 (v / 2 ^ (8 * j)) := by
  rw [Memory.setNum, Memory.get_setN _ _ _ _ h, toBytes_length, if_pos (by omega), Nat.add_sub_cancel_left, toBytes_getD n v j hj]

theorem Memory.get_setNum_outside (m : Memory) (n k v q : Nat) (h : m.wf = true) (hq : q < k ∨ k + n ≤ q) :
    (m.setNum n k v).get q = m.get q := by
  rw [Memory.setNum, Memory.get_setN _ _ _ _ h, toBytes_length, if_neg (by omega)]

/-- Settles O7: a number is its little-endian bytes, and these are written and read byte by byte. -/
theorem littleEndian : Obligations.LittleEndian := by
  unfold Obligations.LittleEndian
  intro s n k v hmem hv
  refine ⟨?_, Memory.wf_setNum s.mem n k v hmem, fun j hj => ?_, fun q hq => Memory.get_setNum_outside s.mem n k v q hmem hq⟩
  · exact (Memory.num_setNum s.mem n k v hmem).trans (Nat.mod_eq_of_lt hv)
  · rw [writeNum_mem, Memory.get_setNum_inside s.mem n k v j hmem hj, BitVec.toNat_ofNat]

end Sys2Proof.Machine
end

section
/-! Scalar arithmetic (R153 to R160): the model's word operations as arithmetic on the numbers that their operands hold, and what each
scalar register word sends. -/

namespace Sys2Proof.Machine

/-! ## Words as numbers -/

theorem wordN_toNat (x : Word) : wordN x.toNat = x := BitVec.ofNat_toNat 64 x

theorem wordZ_toInt (x : Word) : wordZ x.toInt = x := BitVec.ofInt_toInt

theorem add_eq_wordN (x y : Word) : x + y = wordN (x.toNat + y.toNat) := by
  rw [wordN, BitVec.ofNat_add, BitVec.ofNat_toNat, BitVec.ofNat_toNat, BitVec.setWidth_eq, BitVec.setWidth_eq]

theorem mul_eq_wordN (x y : Word) : x * y = wordN (x.toNat * y.toNat) := by
  rw [wordN, BitVec.ofNat_mul, BitVec.ofNat_toNat, BitVec.ofNat_toNat, BitVec.setWidth_eq, BitVec.setWidth_eq]

theorem add_immWord (x : Word) (i : Int) : x + immWord i = wordZ (x.toInt + i) := by
  rw [wordZ, BitVec.ofInt_add, BitVec.ofInt_toInt, immWord]

theorem mul_immWord (x : Word) (i : Int) : x * immWord i = wordZ (x.toInt * i) := by
  rw [wordZ, BitVec.ofInt_mul, BitVec.ofInt_toInt, immWord]

theorem sub_eq_wordZ (x y : Word) : x - y = wordZ (x.toInt - y.toInt) := by
  rw [wordZ, Int.sub_eq_add_neg, BitVec.ofInt_add, BitVec.ofInt_neg, BitVec.ofInt_toInt, BitVec.ofInt_toInt, BitVec.sub_eq_add_neg]

/-- A register plus a scaled one (SCADD of R153). -/
theorem add_mul_eq_wordN (x y : Word) (n : Nat) : x + y * BitVec.ofNat 64 n = wordN (x.toNat + n * y.toNat) := by
  rw [wordN, BitVec.ofNat_add, BitVec.ofNat_mul, BitVec.ofNat_toNat, BitVec.ofNat_toNat, BitVec.setWidth_eq, BitVec.setWidth_eq,
    BitVec.mul_comm]

theorem divS_eq (x y : Word) : divS x y = if y = 0 then wordN (2 ^ 64 - 1) else wordZ (Int.tdiv x.toInt y.toInt) := rfl

theorem divU_eq (x y : Word) : divU x y = if y = 0 then wordN (2 ^ 64 - 1) else wordN (x.toNat / y.toNat) := rfl

theorem remS_eq (x y : Word) :
    remS x y = if y = 0 then x else wordZ (x.toInt - y.toInt * Int.tdiv x.toInt y.toInt) := by
  rw [remS, Int.tmod_def, wordZ]

theorem remU_eq (x y : Word) : remU x y = if y = 0 then x else wordN (x.toNat - y.toNat * (x.toNat / y.toNat)) := by
  rw [remU, Nat.mod_eq_sub_mul_div, wordN]

theorem shiftLeft_eq_wordN (x : Word) (k : Nat) : x <<< k = wordN (x.toNat * 2 ^ k) := by
  rw [wordN, ← Nat.shiftLeft_eq]; rfl

theorem ushiftRight_eq_wordN (x : Word) (k : Nat) : x >>> k = wordN (x.toNat / 2 ^ k) := by
  rw [← wordN_toNat (x >>> k), BitVec.toNat_ushiftRight, Nat.shiftRight_eq_div_pow]

theorem sshiftRight_eq_wordZ (x : Word) (k : Nat) : x.sshiftRight k = wordZ (x.toInt / 2 ^ k) := by
  rw [BitVec.sshiftRight, Int.shiftRight_eq_div_pow, wordZ]; norm_cast

/-- The old value moved up by 15 bits, and 15 new bits below it (R156). -/
theorem shiftLeft_or_low (x : Word) (n : Nat) :
    x <<< 15 ||| BitVec.ofNat 64 (n % 2 ^ 15) = wordN (x.toNat * 2 ^ 15 + n % 2 ^ 15) := by
  rw [Nat.mul_comm, Nat.two_pow_add_eq_or_of_lt (Nat.mod_lt _ (by decide)), wordN, BitVec.ofNat_or, Nat.mul_comm, shiftLeft_eq_wordN,
    wordN]

/-- A place counted in words from the word itself (R157). -/
theorem adr_eq_wordZ (pc : Nat) (i : Int) : BitVec.ofNat 64 pc + 4 * immWord i = wordZ ((pc : Int) + 4 * i) := by
  rw [wordZ, BitVec.ofInt_add, BitVec.ofInt_mul, BitVec.ofInt_natCast]; rfl

/-! ## Least and greatest -/

theorem minS_eq (x y : Word) : (if x.toInt ≤ y.toInt then x else y) = wordZ (min x.toInt y.toInt) := by
  rw [min_def, apply_ite wordZ, wordZ_toInt, wordZ_toInt]

theorem minU_eq (x y : Word) : (if x.toNat ≤ y.toNat then x else y) = wordN (min x.toNat y.toNat) := by
  rw [min_def, apply_ite wordN, wordN_toNat, wordN_toNat]

theorem maxS_eq (x y : Word) : (if x.toInt ≤ y.toInt then y else x) = wordZ (max x.toInt y.toInt) := by
  rw [max_def, apply_ite wordZ, wordZ_toInt, wordZ_toInt]

theorem maxU_eq (x y : Word) : (if x.toNat ≤ y.toNat then y else x) = wordN (max x.toNat y.toNat) := by
  rw [max_def, apply_ite wordN, wordN_toNat, wordN_toNat]

/-! ## Tests -/

theorem ofTest_eq_wordB (b : Bool) (p : Prop) [Decidable p] (h : b = true ↔ p) : ofTest b = wordB p := by
  rw [ofTest, wordB]; exact if_congr h rfl rfl

theorem ofTest_decide (p : Prop) [Decidable p] : ofTest (decide p) = wordB p := ofTest_eq_wordB _ p decide_eq_true_iff

/-! ## Bit counts -/

/-- Leading zeros are counted by the powers of two above the number. -/
theorem clzNat_eq_countP {w n : Nat} (h : n < 2 ^ w) : clzNat w n = (List.range w).countP fun k => n < 2 ^ k := by
  induction w with
  | zero => simp [clzNat]
  | succ w ih =>
    rw [List.range_succ, List.countP_append, List.countP_singleton]
    by_cases hn : n < 2 ^ w
    · rw [← ih hn]
      unfold clzNat
      by_cases h0 : n = 0
      · simp [h0]
      · have : Nat.log2 n < w := (Nat.log2_lt h0).2 hn
        simp only [h0, hn, if_false, decide_true, if_true]; omega
    · have h0 : n ≠ 0 := by rintro rfl; exact hn (Nat.two_pow_pos w)
      have hlog : Nat.log2 n = w := (Nat.log2_eq_iff h0).2 ⟨Nat.le_of_not_lt hn, h⟩
      have hnone : (List.range w).countP (fun k => n < 2 ^ k) = 0 := by
        rw [List.countP_eq_zero]
        intro k hk hlt
        exact hn ((of_decide_eq_true hlt).trans_le (Nat.pow_le_pow_right (by decide) (List.mem_range.1 hk).le))
      simp only [clzNat, h0, hlog, hnone, hn, if_false, decide_false]; simp

theorem popcNat_eq_countP (w n : Nat) : popcNat w n = (List.range w).countP fun k => n.testBit k := by
  induction w generalizing n with
  | zero => rfl
  | succ w ih =>
    rw [popcNat, ih, List.range_succ_eq_map, List.countP_cons, List.countP_map, Nat.add_comm, Nat.testBit_zero]
    congr 1
    · exact List.countP_congr fun k _ => by rw [Function.comp_apply, Nat.testBit_succ]
    · rcases Nat.mod_two_eq_zero_or_one n with h | h <;> simp [h]

/-! ## What a word sends -/

/-- A scalar word that reads `reads` and sends the value `v` to register `d`, to land `lat` cycles later (R114, R153). -/
def State.scalarValue (s : State) (d : Nat) (reads : List Nat) (lat : Nat) (v : State → Wave → Word) : Out :=
  scalarWord s (d :: reads) reads (some (d, lat)) fun w _ => s.step4 s.cur w fun w => w.sendS s.nextId (s.clkCur + lat) d (v s w)

theorem aluR_eq_scalarValue {d a b lat : Nat} {f : Word → Word → Word} {s : State} {v : State → Wave → Word}
    (h : ∀ w, f (s.rS w a) (s.rS w b) = v s w) : aluR d a b lat f s = s.scalarValue d [a, b] lat v := by
  unfold aluR State.scalarValue; simp only [h]

theorem aluA_eq_scalarValue {d a lat : Nat} {f : Word → Word} {s : State} {v : State → Wave → Word}
    (h : ∀ w, f (s.rS w a) = v s w) : aluA d a lat f s = s.scalarValue d [a] lat v := by
  unfold aluA State.scalarValue; simp only [h]

/-- A register named twice is checked as one. -/
theorem badS_twice (w : Wave) (d : Nat) : w.badS [d, d] = w.badS [d] := by
  unfold Wave.badS
  by_cases h : w.sOk d = true <;> simp [h]

theorem aluI_eq_scalarValue {d lat : Nat} {f : Word → Word} {s : State} {v : State → Wave → Word}
    (h : ∀ w, f (s.rS w d) = v s w) : aluI d lat f s = s.scalarValue d [d] lat v := by
  unfold aluI State.scalarValue scalarWord; simp only [h, badS_twice]

/-- Each word of `regForm` is a scalar word that sends its value. -/
theorem exec_of_regForm {i : Instr} {s : State} {d lat : Nat} {reads : List Nat} {v : State → Wave → Word}
    (h : regForm i = some (d, reads, lat, v)) : exec i s = s.scalarValue d reads lat v := by
  cases i <;> cases h
  case add => show execAdd _ _ _ s = _; exact aluR_eq_scalarValue fun _ => add_eq_wordN _ _
  case sub => show execSub _ _ _ s = _; exact aluR_eq_scalarValue fun _ => sub_eq_wordZ _ _
  case mul => show execMul _ _ _ s = _; exact aluR_eq_scalarValue fun _ => mul_eq_wordN _ _
  case mulhI64 => show execMulhI64 _ _ _ s = _; exact aluR_eq_scalarValue fun _ => rfl
  case mulhN64 => show execMulhN64 _ _ _ s = _; exact aluR_eq_scalarValue fun _ => rfl
  case divI64 => show execDivI64 _ _ _ s = _; exact aluR_eq_scalarValue fun _ => divS_eq _ _
  case divN64 => show execDivN64 _ _ _ s = _; exact aluR_eq_scalarValue fun _ => divU_eq _ _
  case remI64 => show execRemI64 _ _ _ s = _; exact aluR_eq_scalarValue fun _ => remS_eq _ _
  case remN64 => show execRemN64 _ _ _ s = _; exact aluR_eq_scalarValue fun _ => remU_eq _ _
  case and => show execAnd _ _ _ s = _; exact aluR_eq_scalarValue fun _ => rfl
  case or => show execOr _ _ _ s = _; exact aluR_eq_scalarValue fun _ => rfl
  case xor => show execXor _ _ _ s = _; exact aluR_eq_scalarValue fun _ => rfl
  case shl => show execShl _ _ _ s = _; exact aluR_eq_scalarValue fun _ => shiftLeft_eq_wordN _ _
  case shrN64 => show execShrN64 _ _ _ s = _; exact aluR_eq_scalarValue fun _ => ushiftRight_eq_wordN _ _
  case shrI64 => show execShrI64 _ _ _ s = _; exact aluR_eq_scalarValue fun _ => sshiftRight_eq_wordZ _ _
  case minI64 => show execMinI64 _ _ _ s = _; exact aluR_eq_scalarValue fun _ => minS_eq _ _
  case minN64 => show execMinN64 _ _ _ s = _; exact aluR_eq_scalarValue fun _ => minU_eq _ _
  case maxI64 => show execMaxI64 _ _ _ s = _; exact aluR_eq_scalarValue fun _ => maxS_eq _ _
  case maxN64 => show execMaxN64 _ _ _ s = _; exact aluR_eq_scalarValue fun _ => maxU_eq _ _
  case clz => show execClz _ _ s = _; exact aluA_eq_scalarValue fun _ => congrArg wordN (clzNat_eq_countP (BitVec.isLt _))
  case popc => show execPopc _ _ s = _; exact aluA_eq_scalarValue fun _ => congrArg wordN (popcNat_eq_countP _ _)
  case seq => show execSeq _ _ _ s = _; exact aluR_eq_scalarValue fun _ => ofTest_eq_wordB _ _ beq_iff_eq
  case sne => show execSne _ _ _ s = _; exact aluR_eq_scalarValue fun _ => ofTest_eq_wordB _ _ bne_iff_ne
  case sltI64 => show execSltI64 _ _ _ s = _; exact aluR_eq_scalarValue fun _ => ofTest_decide _
  case sltN64 => show execSltN64 _ _ _ s = _; exact aluR_eq_scalarValue fun _ => ofTest_decide _
  case sleI64 => show execSleI64 _ _ _ s = _; exact aluR_eq_scalarValue fun _ => ofTest_decide _
  case sleN64 => show execSleN64 _ _ _ s = _; exact aluR_eq_scalarValue fun _ => ofTest_decide _
  case scadd2 => show execScadd2 _ _ _ s = _; exact aluR_eq_scalarValue fun _ => add_mul_eq_wordN _ _ 2
  case scadd4 => show execScadd4 _ _ _ s = _; exact aluR_eq_scalarValue fun _ => add_mul_eq_wordN _ _ 4
  case scadd8 => show execScadd8 _ _ _ s = _; exact aluR_eq_scalarValue fun _ => add_mul_eq_wordN _ _ 8
  case scadd16 => show execScadd16 _ _ _ s = _; exact aluR_eq_scalarValue fun _ => add_mul_eq_wordN _ _ 16
  case addi => show execAddi _ _ s = _; exact aluI_eq_scalarValue fun _ => add_immWord _ _
  case muli => show execMuli _ _ s = _; exact aluI_eq_scalarValue fun _ => mul_immWord _ _
  case andi => show execAndi _ _ s = _; exact aluI_eq_scalarValue fun _ => rfl
  case ori => show execOri _ _ s = _; exact aluI_eq_scalarValue fun _ => rfl
  case xori => show execXori _ _ s = _; exact aluI_eq_scalarValue fun _ => rfl
  case shli => show execShli _ _ s = _; exact aluI_eq_scalarValue fun _ => shiftLeft_eq_wordN _ _
  case shriN64 => show execShriN64 _ _ s = _; exact aluI_eq_scalarValue fun _ => ushiftRight_eq_wordN _ _
  case shriI64 => show execShriI64 _ _ s = _; exact aluI_eq_scalarValue fun _ => sshiftRight_eq_wordZ _ _
  case sltiI64 => show execSltiI64 _ _ s = _; exact aluI_eq_scalarValue fun _ => ofTest_decide _
  case sltiN64 => show execSltiN64 _ _ s = _; exact aluI_eq_scalarValue fun _ => ofTest_decide _
  case seqi => show execSeqi _ _ s = _; exact aluI_eq_scalarValue fun _ => ofTest_eq_wordB _ _ beq_iff_eq
  case movi => rfl
  case lim => show execLim _ _ s = _; exact aluI_eq_scalarValue fun _ => shiftLeft_or_low _ _
  case adr => show execAdr _ _ s = _; simp only [execAdr, adr_eq_wordZ]; rfl
  case mfs => rfl

/-- Settles O10: each word of `regForm` is a scalar word that sends its value, and one that is ready has its effect. -/
theorem scalarRegisterWords : Obligations.ScalarRegisterWords := by
  unfold Obligations.ScalarRegisterWords
  intro i s w c d lat reads v hform hready
  rw [exec_of_regForm hform, State.scalarValue, scalarWord_ready hready]

end Sys2Proof.Machine
end

section
/-! Elements of a lane (R138): an element read back from the elements packed side by side, and integers narrowed to a type (R163). -/

namespace Sys2Proof.Machine

/-! ## Elements side by side -/

theorem elem_lt (w e : Nat) (x : W32) : elem w e x < 2 ^ w := Nat.mod_lt _ (Nat.two_pow_pos w)

theorem packElems_lt (w : Nat) : ∀ xs : List Nat, packElems w xs < 2 ^ (w * xs.length)
  | [] => Nat.one_pos
  | x :: xs => by
    have hx : x % 2 ^ w < 2 ^ w := Nat.mod_lt _ (Nat.two_pow_pos w)
    calc x % 2 ^ w + 2 ^ w * packElems w xs
        < 2 ^ w * (packElems w xs + 1) := by rw [Nat.mul_succ]; omega
      _ ≤ 2 ^ w * 2 ^ (w * xs.length) := Nat.mul_le_mul_left _ (packElems_lt w xs)
      _ = 2 ^ (w * (x :: xs).length) := by rw [← Nat.pow_add, List.length_cons, Nat.mul_succ, Nat.add_comm]

theorem packElems_getElem (w : Nat) : ∀ (xs : List Nat) (e : Nat) (h : e < xs.length), packElems w xs / 2 ^ (w * e) % 2 ^ w = xs[e] % 2 ^ w
  | x :: xs, 0, _ => by simp [packElems]
  | x :: xs, e + 1, h => by
    rw [Nat.mul_succ, Nat.add_comm, Nat.pow_add, ← Nat.div_div_eq_div_mul, packElems, Nat.add_mul_div_left _ _ (Nat.two_pow_pos w),
      Nat.div_eq_of_lt (Nat.mod_lt _ (Nat.two_pow_pos w)), Nat.zero_add, packElems_getElem w xs e (Nat.lt_of_succ_lt_succ h),
      List.getElem_cons_succ]

/-- What is computed for element `e` is read back from it, cut to the element's width. -/
theorem elem_mapElems {w e : Nat} (f : Nat → Nat × Flags) (he : e < 32 / w) : elem w e (mapElems w f).1 = (f e).1 % 2 ^ w := by
  have hfit : w * (32 / w) ≤ 32 := Nat.mul_div_le 32 w
  have hlen : ((List.range (32 / w)).map f |>.map Prod.fst).length = 32 / w := by simp
  have hlt := packElems_lt w ((List.range (32 / w)).map f |>.map Prod.fst)
  rw [hlen] at hlt
  rw [elem, mapElems, BitVec.toNat_ofNat, Nat.mod_eq_of_lt (hlt.trans_le (Nat.pow_le_pow_right Nat.two_pos hfit)),
    packElems_getElem w _ e (by rw [hlen]; exact he)]
  simp

/-- Element operations that agree on every element give the same lane. -/
theorem mapElems_congr {w : Nat} {f g : Nat → Nat × Flags} (h : ∀ e, f e = g e) : mapElems w f = mapElems w g := by
  rw [funext h]

/-! ## Integers of a type -/

theorem low_natCast (w n : Nat) : low w (n : Int) = n % 2 ^ w := by
  rw [low]; exact_mod_cast Int.toNat_natCast (n % 2 ^ w)

theorem low_lt (w : Nat) (z : Int) : low w z < 2 ^ w := by
  have := Int.emod_lt_of_pos z (b := 2 ^ w) (by positivity)
  have := Int.emod_nonneg z (b := 2 ^ w) (by positivity)
  zify [low]; omega

theorem cast_low (w : Nat) (z : Int) : (low w z : Int) = z % 2 ^ w := Int.toNat_of_nonneg (Int.emod_nonneg z (by positivity))

/-- An integer cut to the width and read back differs from it by a multiple of 2^w. -/
theorem readInt_low_emod (sgn : Bool) (w : Nat) (z : Int) : (readInt sgn w (low w z) - z) % 2 ^ w = 0 := by
  rw [readInt, Nat.mod_eq_of_lt (low_lt w z)]
  have hnat : ((low w z : Int) - z) % 2 ^ w = 0 := by rw [cast_low, Int.emod_sub_emod]; simp
  cases sgn
  · exact hnat
  · rw [if_pos rfl, sext]
    split
    · exact hnat
    · rw [sub_right_comm, Int.sub_emod_right]; exact hnat

/-- An integer of the type's range is read back as it is. -/
theorem readInt_low {sgn : Bool} {w : Nat} {z : Int} (hw : 0 < w) (hlo : minOf sgn w ≤ z) (hhi : z ≤ maxOf sgn w) :
    readInt sgn w (low w z) = z := by
  rw [readInt, Nat.mod_eq_of_lt (low_lt w z)]
  have hhalf := mul_pow_sub_one hw.ne' (2 : Int)
  cases sgn
  · simp only [minOf, maxOf, Bool.false_eq_true, if_false] at hlo hhi
    rw [if_neg Bool.false_ne_true, cast_low, Int.emod_eq_of_lt hlo (by omega)]
  · simp only [minOf, maxOf, if_true] at hlo hhi
    rw [if_pos rfl, sext]
    have hlow := cast_low w z
    have hcut : ((2 ^ (w - 1) : Nat) : Int) = 2 ^ (w - 1) := by push_cast; rfl
    by_cases hz : 0 ≤ z
    · rw [Int.emod_eq_of_lt hz (by omega)] at hlow
      rw [if_pos (by omega), hlow]
    · rw [← Int.add_emod_right, Int.emod_eq_of_lt (by omega) (by omega)] at hlow
      rw [if_neg (by omega), hlow, add_sub_cancel_right]

theorem minOf_le_maxOf (sgn : Bool) (w : Nat) : minOf sgn w ≤ maxOf sgn w := by
  have h1 : (0 : Int) < 2 ^ (w - 1) := by positivity
  have h2 : (0 : Int) < 2 ^ w := by positivity
  cases sgn <;> simp only [minOf, maxOf, Bool.false_eq_true, if_false, if_true] <;> omega

/-- A word's bits read as a signed integer are its value. -/
theorem readInt_toNat (x : W32) : readInt true 32 x.toNat = x.toInt := by
  rw [readInt, if_pos rfl, Nat.mod_eq_of_lt x.isLt, sext, BitVec.toInt_eq_toNat_cond]
  have := x.isLt
  norm_cast
  split <;> split <;> omega

/-- Element `e` of what `ints` gives, read as an integer of the type. -/
theorem intAt_ints {l : LaneA} {sat : Bool} {f : Nat → Int} {e : Nat} (he : e < 32 / l.ty.bits) :
    intAt l e (ints l sat f).1 = readInt l.ty.signed l.ty.bits (narrow l.ty.signed l.ty.bits sat (f e)) := by
  change readInt _ _ (elem l.ty.bits e (ints l sat f).1) = _
  rw [ints, elem_mapElems _ he]
  exact congrArg _ (Nat.mod_eq_of_lt (low_lt _ _))

theorem ty_bits_pos (t : Ty) : 0 < t.bits := by cases t <;> decide

section

variable {l : LaneA} {sat : Bool} {f : Nat → Int} {e : Nat}

/-- An integer that the type holds is the element as it is. -/
theorem intAt_ints_of_mem (he : e < 32 / l.ty.bits) (hlo : minOf l.ty.signed l.ty.bits ≤ f e) (hhi : f e ≤ maxOf l.ty.signed l.ty.bits) :
    intAt l e (ints l sat f).1 = f e := by
  have hclamp : clampTo (minOf l.ty.signed l.ty.bits) (maxOf l.ty.signed l.ty.bits) (f e) = f e := by
    rw [clampTo, if_neg (by omega), if_neg (by omega)]
  rw [intAt_ints he, narrow, hclamp, ite_self, readInt_low (ty_bits_pos _) hlo hhi]

theorem intAt_ints_below (he : e < 32 / l.ty.bits) (h : f e < minOf l.ty.signed l.ty.bits) :
    intAt l e (ints l true f).1 = minOf l.ty.signed l.ty.bits := by
  rw [intAt_ints he, narrow, if_pos rfl, clampTo, if_pos h, readInt_low (ty_bits_pos _) le_rfl (minOf_le_maxOf _ _)]

theorem intAt_ints_above (he : e < 32 / l.ty.bits) (h : maxOf l.ty.signed l.ty.bits < f e) :
    intAt l e (ints l true f).1 = maxOf l.ty.signed l.ty.bits := by
  have hle := minOf_le_maxOf l.ty.signed l.ty.bits
  rw [intAt_ints he, narrow, if_pos rfl, clampTo, if_neg (by omega), if_pos h, readInt_low (ty_bits_pos _) hle le_rfl]

theorem intAt_ints_wraps (he : e < 32 / l.ty.bits) : (intAt l e (ints l false f).1 - f e) % 2 ^ l.ty.bits = 0 := by
  rw [intAt_ints he, narrow, if_neg Bool.false_ne_true, readInt_low_emod]

end

end Sys2Proof.Machine
end

section
/-! Lane words with one value a lane (R163 to R168, R172, R173, R177, R179, R198, R223, R254): each sends its value in the active lanes. -/

namespace Sys2Proof.Machine

/-! ## What a lane word sees and sends -/

theorem mem_lanesOf {m : Word} {j : Nat} : j ∈ lanesOf m ↔ j < 64 ∧ m.getLsbD j = true := by
  rw [lanesOf, List.mem_filter, lanes64, List.mem_range]

/-- What it says of the state that a lane word is ready: the wave is the current one. -/
theorem laneReady_wave {s : State} {l : LaneA} {u : LaneUse} {k : LaneCtx} {fld rfld : W32} (h : laneReady s l u fld rfld = some k) :
    s.wave s.cur = some k.w := by
  unfold laneReady at h
  dsimp only at h
  generalize (if u.idx = true then l.imm / 256 ^ 3 else 0) = slotD at h
  split at h
  · cases h
  · split at h
    · obtain ⟨_, hk⟩ := Option.ite_none_right_eq_some.1 h
      cases hk
      assumption
    · cases h

/-- Only the values in the active lanes count. -/
theorem laneResult_congr {s : State} {k : LaneCtx} {lat : Nat} {can : Flags} {f g : Nat → W32 × Flags} (h : ∀ j ∈ lanesOf k.act, f j = g j) :
    s.laneResult k lat can f = s.laneResult k lat can g := by
  have hmap : (lanesOf k.act).map (fun j => (j, f j)) = (lanesOf k.act).map fun j => (j, g j) :=
    List.map_congr_left fun j hj => by rw [h j hj]
  rw [State.laneResult, State.laneResult, overLanes, overLanes, hmap]

/-! ## What `vscacc` reads (R223) -/

/-- The tag of the accumulator row that a `vscacc` reads. -/
def LaneCtx.rowTag (k : LaneCtx) : RowTag :=
  lookD k.w.regs.tags (match k.a with
    | .reg r => r - 192
    | _ => 0) ⟨0, 0, 0, false⟩

/-- Under DEBUG, the register that a `vscacc` adds to is read early (R118). -/
def LaneCtx.lateOld (k : LaneCtx) : Bool :=
  match k.d with
  | .reg r => k.c.debug && k.lateV k.clk r k.act
  | _ => false

/-- What `vscacc` gives in lane `j`: the scaled row added to the old value with one rounding. -/
def LaneCtx.scacc (k : LaneCtx) (s : State) (l : LaneA) (j : Nat) : W32 × Flags :=
  let r := fmtF32.deliver .rne l.sat false (Num.add .rne (fmtF32.value (k.oldDst s j).toNat)
    (scaccTerm k.rowTag j (k.val s k.a j).toInt ((k.val s k.b j).toNat % 256) (if l.im then l.imm % 256 else (k.val s k.x j).toNat % 256)))
  (BitVec.ofNat 32 r.1, r.2)

theorem valueOf_vscacc (s : State) (k : LaneCtx) (l : LaneA) : valueOf s k (.vscacc l) =
    if k.rowTag.sel = false ∧ k.lateOld = false then some (0x1D, k.scacc s l) else none := rfl

section

variable {s : State} {l : LaneA} {k : LaneCtx} {lat : Nat} {can : Flags} {f : Nat → W32 × Flags}

/-- A ready word of two sources sends its value in the active lanes. -/
theorem lane2_ready {g : W32 → W32 → W32 × Flags} (h : laneReady s l (use2 l lat) = some k)
    (hg : ∀ j, g (k.val s k.a j) (k.val s k.b j) = f j) : lane2 l lat can g s = .next (s.laneResult k lat can f) := by
  rw [← funext hg]
  exact laneFrame_ready h _

/-- A ready word of one source sends its value in the active lanes. -/
theorem lane1_ready {g : W32 → W32 × Flags} {rfld : W32} (h : laneReady s l (use1 l lat) (BitVec.allOnes 32) rfld = some k)
    (hg : ∀ j, g (k.val s k.a j) = f j) : lane1 l lat can g s rfld = .next (s.laneResult k lat can f) := by
  rw [← funext hg]
  exact laneFrame_ready h _

/-! ## Arithmetic with an integer and a floating-point form (R163, R164) -/

theorem arith_ready {iop : Int → Int → Int} {fop : Rnd → Num → Num → Num × Flags} (h : laneReady s l (use2 l (byType l)) = some k) :
    arith l iop fop s =
      .next (s.laneResult k (byType l) (canRaise l) fun j => either l l.sat (k.val s k.a j) (k.val s k.b j) iop (fop l.rnd)) := by
  unfold arith
  cases hfl : l.ty.isFloat <;> simp only [byType, canRaise, either, hfl, Bool.false_eq_true, if_false, if_true] at h ⊢
  · exact lane2_ready h fun j => rfl
  · exact lane2_ready h fun j => rfl

theorem minMax_ready {isMax : Bool} (h : laneReady s l (use2 l (byType l)) = some k) :
    minMax l isMax s = .next (s.laneResult k (byType l) (if l.ty.isFloat then 1 else 0) fun j =>
      extreme l isMax (k.val s k.a j) (k.val s k.b j)) := by
  unfold minMax
  cases hfl : l.ty.isFloat <;> simp only [byType, extreme, hfl, Bool.false_eq_true, if_false, if_true] at h ⊢
  · exact lane2_ready h fun j => by cases isMax <;> rfl
  · exact lane2_ready h fun j => rfl

theorem signOp_ready {iop : Int → Int} {fop : Nat → Nat → Nat} (h : laneReady s l (use1 l (byType l)) = some k) :
    signOp l iop fop s = .next (s.laneResult k (byType l) 0 fun j =>
      if l.ty.isFloat then mapElems l.ty.bits fun e => (fop l.ty.fmt.sign (elem l.ty.bits e (k.val s k.a j)), 0)
      else ints l l.sat fun e => iop (intAt l e (k.val s k.a j))) := by
  unfold signOp
  cases hfl : l.ty.isFloat <;> simp only [byType, hfl, Bool.false_eq_true, if_false, if_true] at h ⊢
  · exact lane1_ready h fun j => rfl
  · exact lane1_ready h fun j => rfl

theorem natAbs_eq_ite (x : Int) : (x.natAbs : Int) = if x < 0 then -x else x := by
  split <;> omega

/-! ## Packing (R172, R173) -/

/-- The three values of a `.t2` element widened to `.i4`, and the reserved encoding with NV (R173). -/
theorem widen_t2 {x : Nat} (h : x < 4) :
    (if x = 2 then ((0, fNV) : Nat × Flags) else (low 4 (sext 2 x), 0)) = if x = 2 then (0, 1) else (if x = 3 then 15 else x, 0) := by
  interval_cases x <;> decide

theorem execVunpack_ready (h : laneReady s l (use1 l 4) (BitVec.allOnes 32) (readBits (.vunpack l)) = some k)
    (hv : valueOf s k (.vunpack l) = some (can, f)) : execVunpack l s = .next (s.laneResult k 4 can f) := by
  cases hv
  unfold execVunpack
  simp only [readBits] at h
  by_cases ht : l.ty = .t2
  · simp only [ht, beq_self_eq_true, if_true] at h ⊢
    exact lane1_ready h fun j => mapElems_congr fun e => widen_t2 (elem_lt 2 _ _)
  · simp only [ht, beq_iff_eq, if_false] at h ⊢
    exact lane1_ready h fun j => rfl

/-! ## Words with checks of their own -/

/-- `vswap` with a lane distance within reach (R179). -/
theorem execVswap_ready (h : laneReady s l ⟨.dst, .src, .none, .none, true, false, fun _ => BitVec.allOnes 64, 6⟩ = some k)
    (hc : 0 < l.c ∧ l.c < k.w.reach) : execVswap l s =
      .next (s.laneResult k 6 0 fun j => (if k.w.present (j ^^^ l.c) then k.val s k.a (j ^^^ l.c) else 0, 0)) := by
  obtain ⟨hpos, hreach⟩ := hc
  unfold execVswap
  rw [laneReady_wave h, Option.any_some, if_neg (by simp [hreach]; omega)]
  exact laneFrame_ready h _

/-- `vbcast` of a lane within reach (R179). -/
theorem execVbcast_ready (h : laneReady s l ⟨.dst, .src, .none, .none, true, false, fun _ => BitVec.allOnes 64, 6⟩ = some k)
    (hreach : l.c < k.w.reach) : execVbcast l s =
      .next (s.laneResult k 6 0 fun _ => (if k.w.present l.c then k.val s k.a l.c else 0, 0)) := by
  unfold execVbcast
  rw [laneReady_wave h, Option.any_some, if_neg (by simp [hreach])]
  exact laneFrame_ready h _

/-- `vrng` of pairs that are there and landed (R198, R199). -/
theorem execVrng_ready (h : laneReady s l ⟨.dst, .src, .src, .none, false, false, id, 10⟩ = some k) (hbad : pairBad k.w l = none)
    (hlate : pairLate k l = none) : execVrng l s = .next (s.laneResult k 10 0 fun j =>
      let r := rng (rngOperand s k l.a j) (rngOperand s k l.b j)
      (if l.ty.isFloat then BitVec.ofNat 32 (fmtF32.round .rne false false false (r.toNat / 2 ^ 8) (2 ^ 24)).1 else r, 0)) := by
  unfold execVrng
  refine (laneFrame_ready h _).trans ?_
  simp only [hbad, hlate]
  rfl

/-- `vscacc` of a row that is no selection row into a destination that has landed (R223). -/
theorem execVscacc_ready (h : laneReady s l ⟨.dst, .row, .src, if l.im then .none else .src, !l.im, false, id, 8⟩ = some k)
    (hsel : k.rowTag.sel = false) (hlate : k.lateOld = false) : execVscacc l s = .next (s.laneResult k 8 0x1D (k.scacc s l)) := by
  have hrow : ¬ k.rowTag.sel = true := by rw [hsel]; exact Bool.false_ne_true
  unfold execVscacc
  refine (laneFrame_ready h _).trans (congrArg Host.Outcome.next ?_)
  simp only [readInt_toNat]
  refine (if_neg hrow).trans ?_
  cases hd : k.d with
  | reg r =>
    have hr : (k.c.debug && k.lateV k.clk r k.act) = false := by rw [LaneCtx.lateOld, hd] at hlate; exact hlate
    simp only [hr]
    rfl
  | spad _ => rfl
  | pipe _ => rfl
  | none => rfl

/-- No lane names a byte that fails a check, where the byte of every active lane passes it. -/
theorem privLanes_eq_nil {imm : Nat} {bad : Nat → Bool} (h : ∀ j ∈ lanesOf k.act, bad ((k.val s k.a j).toNat + imm) = false) :
    privLanes s k imm bad = [] := by
  rw [privLanes, List.filter_eq_nil_iff]
  intro e he
  obtain ⟨j, hj, rfl⟩ := List.mem_map.1 he
  simp [h j hj]

/-- `vldp` with room in the operand log, of aligned bytes that are the wave's (R254). -/
theorem execVldp_ready {l : LaneM} (h : laneReady s (asA l) ⟨.dst, .src, .none, .none, false, false, id, 10⟩ = some k)
    (hlog : k.w.oplog.length < 4)
    (hin : ∀ j < 64, k.act.getLsbD j = true → ((k.val s k.a j).toNat + l.imm) % 4 = 0 ∧ (k.val s k.a j).toNat + l.imm + 4 ≤ k.w.fp.priv) :
    execVldp l s = .next (s.laneResult k 10 0 fun j =>
      (BitVec.ofNat 32 (Memory.num k.w.regs.priv 4 (512 * j + ((k.val s k.a j).toNat + l.imm))), 0)) := by
  have hact : ∀ j ∈ lanesOf k.act, ((k.val s k.a j).toNat + l.imm) % 4 = 0 ∧ (k.val s k.a j).toNat + l.imm + 4 ≤ k.w.fp.priv :=
    fun j hj => hin j (mem_lanesOf.1 hj).1 (mem_lanesOf.1 hj).2
  have hmis : privLanes s k l.imm (fun x => x % 4 != 0) = [] := privLanes_eq_nil fun j hj => by simp [(hact j hj).1]
  have hout : privLanes s k l.imm (fun x => decide (k.w.fp.priv < x + 4)) = [] :=
    privLanes_eq_nil fun j hj => decide_eq_false (Nat.not_lt.2 (hact j hj).2)
  unfold execVldp
  refine (laneFrame_ready h _).trans ?_
  simp only [hmis, hout, State.answerPriv, List.isEmpty_nil, Bool.not_true, Bool.false_eq_true, if_false, if_true, Nat.not_le.2 hlog]
  exact congrArg _ (laneResult_congr fun j hj => by rw [if_neg (Nat.not_lt.2 (hact j hj).2), privKey])

end

/-! ## The statement -/

/-- Each ready word of `valueUse` sends what `valueOf` gives. -/
theorem exec_of_valueUse {i : Instr} {s : State} {l : LaneA} {u : LaneUse} {k : LaneCtx} {can : Flags} {f : Nat → W32 × Flags}
    (hu : valueUse i = some (l, u)) (h : laneReady s l u (BitVec.allOnes 32) (readBits i) = some k)
    (hv : valueOf s k i = some (can, f)) : exec i s = .next (s.laneResult k u.lat can f) := by
  cases i <;> cases hu
  case vadd => cases hv; show execVadd l s = _; exact arith_ready h
  case vsub => cases hv; show execVsub l s = _; exact arith_ready h
  case vmul => cases hv; show execVmul l s = _; exact arith_ready h
  case vmulh => cases hv; show execVmulh l s = _; exact lane2_ready h fun _ => rfl
  case vfma => cases hv; show execVfma l s = _; exact laneFrame_ready h _
  case vmin => cases hv; show execVmin l s = _; exact minMax_ready h
  case vmax => cases hv; show execVmax l s = _; exact minMax_ready h
  case vabs => cases hv; show execVabs l s = _; simp only [← natAbs_eq_ite]; exact signOp_ready h
  case vneg => cases hv; show execVneg l s = _; simp only [zero_sub]; exact signOp_ready h
  case vand => cases hv; show execVand l s = _; exact lane2_ready h fun _ => rfl
  case vor => cases hv; show execVor l s = _; exact lane2_ready h fun _ => rfl
  case vxor => cases hv; show execVxor l s = _; exact lane2_ready h fun _ => rfl
  case vnot => cases hv; show execVnot l s = _; exact lane1_ready h fun _ => by rw [BitVec.allOnes_xor]
  case vshl => cases hv; show execVshl l s = _; exact lane2_ready h fun _ => mapElems_congr fun _ => by rw [low_natCast]
  case vshr => cases hv; show execVshr l s = _; exact lane2_ready h fun _ => rfl
  case vclz =>
    cases hv; show execVclz l s = _
    exact lane1_ready h fun _ => mapElems_congr fun _ => by rw [clzNat_eq_countP (elem_lt _ _ _)]
  case vpopc =>
    cases hv; show execVpopc l s = _
    exact lane1_ready h fun _ => mapElems_congr fun _ => by simp only [popcNat_eq_countP, Nat.testBit_eq_decide_div_mod_eq]
  case vpack => cases hv; show execVpack l s = _; unfold execVpack; exact lane2_ready h fun _ => rfl
  case vunpack => exact execVunpack_ready h hv
  case vmov => cases hv; show execVmov l s = _; exact laneFrame_ready h _
  case vsel => cases hv; show execVsel l s = _; exact laneFrame_ready h _
  case vperm => cases hv; show execVperm l s = _; exact laneFrame_ready h _
  case vswap => obtain ⟨hc, hv⟩ := Option.ite_none_right_eq_some.1 hv; cases hv; exact execVswap_ready h hc
  case vbcast => obtain ⟨hc, hv⟩ := Option.ite_none_right_eq_some.1 hv; cases hv; exact execVbcast_ready h hc
  case vrng => obtain ⟨⟨hbad, hlate⟩, hv⟩ := Option.ite_none_right_eq_some.1 hv; cases hv; exact execVrng_ready h hbad hlate
  case vscacc =>
    rw [valueOf_vscacc] at hv
    obtain ⟨⟨hsel, hlate⟩, hv⟩ := Option.ite_none_right_eq_some.1 hv
    cases hv; exact execVscacc_ready h hsel hlate
  case vldp => obtain ⟨⟨hlog, hin⟩, hv⟩ := Option.ite_none_right_eq_some.1 hv; cases hv; exact execVldp_ready h hlog hin

/-- Settles O28: a ready lane word sends its value, and an element of an integer result is the exact integer narrowed to the type. -/
theorem laneValues : Obligations.LaneValues := by
  unfold Obligations.LaneValues
  refine ⟨fun i s l u k can f hu h hv => exec_of_valueUse hu h hv, ?_⟩
  intro l sat f e _ he lo hi
  refine ⟨intAt_ints_of_mem he, ?_, ?_, ?_⟩
  · rintro rfl; exact intAt_ints_below he
  · rintro rfl; exact intAt_ints_above he
  · rintro rfl; exact intAt_ints_wraps he

end Sys2Proof.Machine
end
